-- ==== Sys2Proof/Word.lean ====
section
/-! DEFINITION. The word types and the fixed-size tables that the state is made of: four channels, positions,
generators or override inputs; eight functions; twelve circuits. A table is a structure with named entries, read
and written by an index. -/

namespace Sys2Proof

/-- A byte of a port transaction or of a link word's value (spec 11.2, 11.1). -/
abbrev Byte := BitVec 8

/-- A number as a reply byte. -/
def byte (n : Nat) : Byte := BitVec.ofNat 8 n

/-- A flag as a number, for the bit fields of replies. -/
def bit (b : Bool) : Nat := if b then 1 else 0

/-- The low byte and the high byte of a 16-bit field, low byte first (spec 11, opening). -/
def lowFirst (n : Nat) : List Byte := [byte n, byte (n / 256)]

/-- A table of four: positions 1 to 4, channels 1 to 4, CG0 to CG3, OV0 to OV3. Index 0 is the lowest number. -/
structure Four (α : Type) where
  a0 : α
  a1 : α
  a2 : α
  a3 : α
deriving DecidableEq, Repr

/-- A table of eight: the functions F0 to F7. -/
structure Eight (α : Type) where
  a0 : α
  a1 : α
  a2 : α
  a3 : α
  a4 : α
  a5 : α
  a6 : α
  a7 : α
deriving DecidableEq, Repr

/-- A table of twelve: the circuits 0 to 11 of one position. -/
structure Twelve (α : Type) where
  a0 : α
  a1 : α
  a2 : α
  a3 : α
  a4 : α
  a5 : α
  a6 : α
  a7 : α
  a8 : α
  a9 : α
  a10 : α
  a11 : α
deriving DecidableEq, Repr

/-- The entry at an index. -/
def Four.get {α : Type} (t : Four α) : Fin 4 → α
  | 0 => t.a0
  | 1 => t.a1
  | 2 => t.a2
  | 3 => t.a3

/-- The table with the entry at an index replaced. -/
def Four.set {α : Type} (t : Four α) (i : Fin 4) (x : α) : Four α :=
  match i with
  | 0 => { t with a0 := x }
  | 1 => { t with a1 := x }
  | 2 => { t with a2 := x }
  | 3 => { t with a3 := x }

/-- The table with every entry the same. -/
def Four.all {α : Type} (x : α) : Four α := ⟨x, x, x, x⟩

/-- Each entry changed by its own index. -/
def Four.map {α β : Type} (t : Four α) (f : Fin 4 → α → β) : Four β :=
  ⟨f 0 t.a0, f 1 t.a1, f 2 t.a2, f 3 t.a3⟩

/-- The entry at an index changed by a function. -/
def Four.modify {α : Type} (t : Four α) (i : Fin 4) (f : α → α) : Four α := t.set i (f (t.get i))

/-- The entries in order of index. -/
def Four.toList {α : Type} (t : Four α) : List α := [t.a0, t.a1, t.a2, t.a3]

/-- The entry at an index. -/
def Eight.get {α : Type} (t : Eight α) : Fin 8 → α
  | 0 => t.a0
  | 1 => t.a1
  | 2 => t.a2
  | 3 => t.a3
  | 4 => t.a4
  | 5 => t.a5
  | 6 => t.a6
  | 7 => t.a7

/-- The table with the entry at an index replaced. -/
def Eight.set {α : Type} (t : Eight α) (i : Fin 8) (x : α) : Eight α :=
  match i with
  | 0 => { t with a0 := x }
  | 1 => { t with a1 := x }
  | 2 => { t with a2 := x }
  | 3 => { t with a3 := x }
  | 4 => { t with a4 := x }
  | 5 => { t with a5 := x }
  | 6 => { t with a6 := x }
  | 7 => { t with a7 := x }

/-- The table with every entry the same. -/
def Eight.all {α : Type} (x : α) : Eight α := ⟨x, x, x, x, x, x, x, x⟩

/-- Each entry changed by its own index. -/
def Eight.map {α β : Type} (t : Eight α) (f : Fin 8 → α → β) : Eight β :=
  ⟨f 0 t.a0, f 1 t.a1, f 2 t.a2, f 3 t.a3, f 4 t.a4, f 5 t.a5, f 6 t.a6, f 7 t.a7⟩

/-- The entry at an index changed by a function. -/
def Eight.modify {α : Type} (t : Eight α) (i : Fin 8) (f : α → α) : Eight α := t.set i (f (t.get i))

/-- The entries in order of index. -/
def Eight.toList {α : Type} (t : Eight α) : List α := [t.a0, t.a1, t.a2, t.a3, t.a4, t.a5, t.a6, t.a7]

/-- The entry at an index. -/
def Twelve.get {α : Type} (t : Twelve α) : Fin 12 → α
  | 0 => t.a0
  | 1 => t.a1
  | 2 => t.a2
  | 3 => t.a3
  | 4 => t.a4
  | 5 => t.a5
  | 6 => t.a6
  | 7 => t.a7
  | 8 => t.a8
  | 9 => t.a9
  | 10 => t.a10
  | 11 => t.a11

/-- The table with the entry at an index replaced. -/
def Twelve.set {α : Type} (t : Twelve α) (i : Fin 12) (x : α) : Twelve α :=
  match i with
  | 0 => { t with a0 := x }
  | 1 => { t with a1 := x }
  | 2 => { t with a2 := x }
  | 3 => { t with a3 := x }
  | 4 => { t with a4 := x }
  | 5 => { t with a5 := x }
  | 6 => { t with a6 := x }
  | 7 => { t with a7 := x }
  | 8 => { t with a8 := x }
  | 9 => { t with a9 := x }
  | 10 => { t with a10 := x }
  | 11 => { t with a11 := x }

/-- The table with every entry the same. -/
def Twelve.all {α : Type} (x : α) : Twelve α := ⟨x, x, x, x, x, x, x, x, x, x, x, x⟩

/-- The four indices in order: positions 1 to 4, channels 1 to 4, generators, override inputs. -/
def fourIndices : List (Fin 4) := [0, 1, 2, 3]

/-- The eight functions in order. -/
def eightIndices : List (Fin 8) := [0, 1, 2, 3, 4, 5, 6, 7]

/-- The twelve circuit indices in order. -/
def twelveIndices : List (Fin 12) := [0, 1, 2, 3, 4, 5, 6, 7, 8, 9, 10, 11]

/-- The sixteen notice slots in order (R152). -/
def sixteenIndices : List (Fin 16) := [0, 1, 2, 3, 4, 5, 6, 7, 8, 9, 10, 11, 12, 13, 14, 15]

/-- The four bits of a set or of four levels as a table. -/
def Four.ofBits (b : BitVec 4) : Four Bool :=
  ⟨b.getLsbD 0, b.getLsbD 1, b.getLsbD 2, b.getLsbD 3⟩

/-- A table of four flags as a number, bit i being entry i. -/
def Four.bits (t : Four Bool) : Nat := bit t.a0 + 2 * bit t.a1 + 4 * bit t.a2 + 8 * bit t.a3

end Sys2Proof
end

