-- ==== Sys2Proof/Syntax.lean ====
section
/-! DEFINITION. The commands of the BF412: one constructor for each row of spec/opcode_table.json. A port command
carries its argument bytes as they are clocked in (spec 11.2), so that the range checks of R138 and R181 are part of
its meaning; an event carries the input levels or bits that the part reads in it. Channels, positions, generators and
override inputs are indices 0 to 3; index 0 is channel 1, position 1, CG0, OV0. -/

namespace Sys2Proof

/-- The two SPI target ports (R136). -/
inductive Port where
  | lighting
  | display
deriving DecidableEq, Repr

/-- The commands and events of the table. -/
inductive Instr where
  /-- RSTN is asserted (R6, R43). -/
  | pinResetAssert
  /-- RSTN is released (R6, R65); `cd` holds the levels of CD1 to CD4 at that moment. -/
  | pinResetRelease (cd : BitVec 4)
  /-- An override input has differed from its filtered level for 10 ms (R5). -/
  | overrideFilterChange (input : Fin 4)
  /-- The step time of a generator runs out (R9). -/
  | stepExpiry (generator : Fin 4)
  /-- A new 5 ms PWM period begins (R12). -/
  | dimPeriodStart
  /-- The 50 ms sense tick (R15); `fs` holds the levels of FS0 to FS7. -/
  | senseTick (fs : BitVec 8)
  /-- Falling clock edges with data low, on one or more channels together (R28). -/
  | startBit (channels : BitVec 4)
  /-- Edge 15 of a received word: the bits taken at edges 2 to 15 (R24, R30). -/
  | receiveEnd (data : BitVec 12) (parity stop : Bool)
  /-- 4 ms in RX_ACTIVE without edge 15 (R29). -/
  | wordTimeout
  /-- The engine starts a transmit from RX_IDLE (R31). -/
  | transmitStart
  /-- The settle of TX_SETUP ends (R33). -/
  | inhibitSettleEnd
  /-- The catch is seen at edge 16 (R35). -/
  | transmitCatch
  /-- 10 ms after the request-to-send without an edge (R34). -/
  | txNoClock
  /-- Edge 16 reads high (R36). -/
  | noCatch
  /-- Edge 16 not seen within 4 ms of edge 1 (R36). -/
  | transmitTimeout
  /-- The settle after a RESTART ends (R44). -/
  | settleEnd
  /-- The hold on a channel whose start bit was seen in REST ends (R42). -/
  | wakeSettleEnd (channel : Fin 4)
  /-- The gap timer of an assembly runs out (R56). -/
  | gapTimerExpiry (channel : Fin 4)
  /-- CDp has differed from the filtered detect level for 20 ms (R61). -/
  | detectFilterChange (position : Fin 4)
  /-- The enroll timer of a position runs out (R68). -/
  | enrollTimerExpiry (position : Fin 4)
  /-- The hold timer of a position runs out (R75). -/
  | holdTimerExpiry (position : Fin 4)
  /-- The sample timer of a position runs out (R86). -/
  | sampleTimerExpiry (position : Fin 4)
  /-- The deadline of an OUTSTANDING sample record runs out (R91). -/
  | deadlineExpiry (position : Fin 4) (tag : BitVec 4)
  /-- Display port, 60h (R167). -/
  | take
  /-- Display port, 61h (R167). -/
  | peek
  /-- Display port, 62h (R168). -/
  | done (slot : Byte)
  /-- Display port, 63h (R169). -/
  | setMask (mask holdAll : Byte)
  /-- Display port, 64h (R171). -/
  | readNotice (slot : Byte)
  /-- A command code unknown on its port (R138). -/
  | unknownCommand (port : Port) (code : Byte)
  /-- LCS is asserted (R136, R142). -/
  | lcsAssert
  /-- Falling edges of released clocks with data low while the engine is OFF (R41). -/
  | linkWakeStartBit (channels : BitVec 4)
  /-- Posted, 10h (R2). -/
  | setMode (function mode generator : Byte)
  /-- Posted, 11h (R3). -/
  | setDim (function duty : Byte)
  /-- Posted, 12h (R10). -/
  | setCadence (generator patternLow patternHigh length width : Byte)
  /-- Posted, 13h (R11). -/
  | restartCadences (generators : Byte)
  /-- Posted, 14h (R7). -/
  | setOverride (input functions : Byte)
  /-- Posted, 20h (R97). -/
  | setSampling (period timeout muteCount guard : Byte)
  /-- Posted, 21h (R114). -/
  | setJudging (confirm clear latched : Byte)
  /-- Posted, 22h (R154). -/
  | setSeverity (function severity : Byte)
  /-- Posted, 23h (R154). -/
  | setLevels (positionLevel detectLevel : Byte)
  /-- Posted, 30h (R64). -/
  | setCoupling (position flags enrollTimeout holdTime : Byte)
  /-- Posted, 32h (R113). -/
  | release (position circuit : Byte)
  /-- Posted, 31h (R79). -/
  | forget (position : Byte)
  /-- Posted, 3Fh (R142, R174). -/
  | rest
  /-- The queued commands execute when a waiting head's wait ends (R141). -/
  | headExecution
  /-- Immediate, 01h (R145). -/
  | sync
  /-- Immediate, 0Fh (R148). -/
  | restart
  /-- Both ports, 40h (R146). -/
  | readDrive (port : Port)
  /-- Both ports, 41h (R146). -/
  | readPosition (port : Port) (position : Byte)
  /-- Both ports, 42h (R146). -/
  | readCircuit (port : Port) (position circuit : Byte)
  /-- Both ports, 43h (R146). -/
  | readFeed (port : Port) (function : Byte)
  /-- Both ports, 44h (R147). -/
  | readSummary (port : Port)
  /-- The node's first falling clock edge in TX_WAIT (R34). -/
  | firstFallingEdge
  /-- The raw level of an override input changes (R5, R6). -/
  | overrideInputChange (input : Fin 4) (level : Bool)
deriving DecidableEq, Repr

end Sys2Proof
end

