-- ==== Sys2Proof/WellFormed.lean ====
section
/-! DEFINITION. When a command is well formed: every argument byte that is read lies in its valid range and its
must-be-zero bits are zero (the coding table of spec 11.2 and R181), an event that names channels names one, and an
unknown command carries a code that names no command of its port (R138). An ill-formed port command is still a
transaction: the part answers it BAD_ARGUMENT. -/

namespace Sys2Proof

/-- A byte in a closed range. -/
def inRange (b : Byte) (low high : Nat) : Bool := decide (low ≤ b.toNat) && decide (b.toNat ≤ high)

/-- The command codes of each port (spec 11.2). -/
def Port.knows : Port → Byte → Bool
  | .lighting, code =>
    [0x01#8, 0x0F#8, 0x10#8, 0x11#8, 0x12#8, 0x13#8, 0x14#8, 0x20#8, 0x21#8, 0x22#8, 0x23#8, 0x30#8, 0x31#8,
      0x32#8, 0x3F#8, 0x40#8, 0x41#8, 0x42#8, 0x43#8, 0x44#8].contains code
  | .display, code =>
    [0x40#8, 0x41#8, 0x42#8, 0x43#8, 0x44#8, 0x60#8, 0x61#8, 0x62#8, 0x63#8, 0x64#8].contains code

/-- The command's arguments are in range (R181). -/
def Instr.wf : Instr → Bool
  | .pinResetAssert => true
  | .pinResetRelease _ => true
  | .overrideFilterChange _ => true
  | .stepExpiry _ => true
  | .dimPeriodStart => true
  | .senseTick _ => true
  | .startBit channels => channels != 0
  | .receiveEnd _ _ _ => true
  | .wordTimeout => true
  | .transmitStart => true
  | .inhibitSettleEnd => true
  | .transmitCatch => true
  | .txNoClock => true
  | .noCatch => true
  | .transmitTimeout => true
  | .settleEnd => true
  | .wakeSettleEnd _ => true
  | .gapTimerExpiry _ => true
  | .detectFilterChange _ => true
  | .enrollTimerExpiry _ => true
  | .holdTimerExpiry _ => true
  | .sampleTimerExpiry _ => true
  | .deadlineExpiry _ _ => true
  | .take => true
  | .peek => true
  | .done slot => inRange slot 0 15
  | .setMask mask holdAll => inRange mask 0 6 && inRange holdAll 0 1
  | .readNotice slot => inRange slot 0 15
  | .unknownCommand port code => !port.knows code
  | .lcsAssert => true
  | .linkWakeStartBit channels => channels != 0
  | .setMode function mode generator =>
    inRange function 0 7 && inRange mode 0 2 && (mode != 2 || inRange generator 0 3)
  | .setDim function duty => inRange function 0 7 && inRange duty 1 16
  | .setCadence generator _ _ length width =>
    inRange generator 0 3 && inRange length 2 16 && inRange width 0 7
  | .restartCadences generators => inRange generators 0 15
  | .setOverride input _ => inRange input 0 3
  | .setSampling period timeout muteCount guard =>
    inRange period 1 40 && inRange timeout 20 250 && inRange muteCount 1 7 && inRange guard 0 100
  | .setJudging confirm clear latched =>
    inRange confirm 1 15 && inRange clear 1 15 && inRange latched 0 31
  | .setSeverity function severity => inRange function 0 7 && inRange severity 1 7
  | .setLevels positionLevel detectLevel => inRange positionLevel 1 7 && inRange detectLevel 1 7
  | .setCoupling position flags enrollTimeout _ =>
    inRange position 1 4 && inRange flags 0 7 && inRange enrollTimeout 1 16
  | .release position circuit => position == 0 || (inRange position 1 4 && inRange circuit 0 11)
  | .forget position => inRange position 1 4
  | .rest => true
  | .headExecution => true
  | .sync => true
  | .restart => true
  | .readDrive _ => true
  | .readPosition _ position => inRange position 1 4
  | .readCircuit _ position circuit => inRange position 1 4 && inRange circuit 0 11
  | .readFeed _ function => inRange function 0 7
  | .readSummary _ => true
  | .firstFallingEdge => true
  | .overrideInputChange _ _ => true

end Sys2Proof
end

