-- ==== Sys2Proof/Decode.lean ====
section
/-! DEFINITION. Reading commands from bits. The table of commands gives no row bits, so no word spells a command
(`decodeTableWord`). What the spec does encode is a transaction's bytes (R136 to R138, spec 11.2): `decodeFrame` reads
the bytes clocked in from the assertion of a chip select to its deassertion, and `Instr.frame` writes them. -/

namespace Sys2Proof

/-- The command that a word spells by the table's bits: the table gives bits to no row. -/
def decodeTableWord (_nbits _w : Nat) : Option Instr := none

/-- What the bytes of one transaction amount to. -/
inductive Frame where
  /-- The chip select was deasserted before the last argument byte: no effect, no record (R137). -/
  | tooShort
  /-- The command taken. -/
  | command (i : Instr)
deriving DecidableEq, Repr

/-- The lighting port's commands (spec 11.2): the command code, then its argument bytes; the bytes after the last
argument are ignored (R137); a code that names no command of the port is unknown at byte 0 (R138). -/
def decodeLighting : List Byte → Frame
  | [] => .tooShort
  | 0x01#8 :: _ => .command .sync
  | 0x0F#8 :: _ => .command .restart
  | 0x10#8 :: f :: m :: g :: _ => .command (.setMode f m g)
  | 0x11#8 :: f :: d :: _ => .command (.setDim f d)
  | 0x12#8 :: g :: lo :: hi :: len :: w :: _ => .command (.setCadence g lo hi len w)
  | 0x13#8 :: gs :: _ => .command (.restartCadences gs)
  | 0x14#8 :: i :: fs :: _ => .command (.setOverride i fs)
  | 0x20#8 :: p :: t :: m :: g :: _ => .command (.setSampling p t m g)
  | 0x21#8 :: co :: cl :: l :: _ => .command (.setJudging co cl l)
  | 0x22#8 :: f :: sv :: _ => .command (.setSeverity f sv)
  | 0x23#8 :: pl :: dl :: _ => .command (.setLevels pl dl)
  | 0x30#8 :: p :: fl :: e :: h :: _ => .command (.setCoupling p fl e h)
  | 0x31#8 :: p :: _ => .command (.forget p)
  | 0x32#8 :: p :: c :: _ => .command (.release p c)
  | 0x3F#8 :: _ => .command .rest
  | 0x40#8 :: _ => .command (.readDrive .lighting)
  | 0x41#8 :: p :: _ => .command (.readPosition .lighting p)
  | 0x42#8 :: p :: c :: _ => .command (.readCircuit .lighting p c)
  | 0x43#8 :: f :: _ => .command (.readFeed .lighting f)
  | 0x44#8 :: _ => .command (.readSummary .lighting)
  | code :: _ => if Port.lighting.knows code then .tooShort else .command (.unknownCommand .lighting code)

/-- The display port's commands, in the same way (spec 11.2, R171). -/
def decodeDisplay : List Byte → Frame
  | [] => .tooShort
  | 0x40#8 :: _ => .command (.readDrive .display)
  | 0x41#8 :: p :: _ => .command (.readPosition .display p)
  | 0x42#8 :: p :: c :: _ => .command (.readCircuit .display p c)
  | 0x43#8 :: f :: _ => .command (.readFeed .display f)
  | 0x44#8 :: _ => .command (.readSummary .display)
  | 0x60#8 :: _ => .command .take
  | 0x61#8 :: _ => .command .peek
  | 0x62#8 :: slot :: _ => .command (.done slot)
  | 0x63#8 :: m :: h :: _ => .command (.setMask m h)
  | 0x64#8 :: slot :: _ => .command (.readNotice slot)
  | code :: _ => if Port.display.knows code then .tooShort else .command (.unknownCommand .display code)

/-- The bytes of the bits that a port samples on its data-in line, the most significant bit of a byte first (R136); the
bits of a byte left incomplete are ignored (R137). -/
def bytesOfBits : List Bool → List Byte
  | b7 :: b6 :: b5 :: b4 :: b3 :: b2 :: b1 :: b0 :: rest =>
    byte
        (128 * bit b7 + 64 * bit b6 + 32 * bit b5 + 16 * bit b4 + 8 * bit b3 + 4 * bit b2 + 2 * bit b1 + bit b0) ::
      bytesOfBits rest
  | _ => []

/-- The command of a transaction on a port. -/
def decodeFrame : Port → List Byte → Frame
  | .lighting, bytes => decodeLighting bytes
  | .display, bytes => decodeDisplay bytes

/-- The command of the bits clocked in from the assertion of a chip select to its deassertion (R136, R137). -/
def decodeTransaction (port : Port) (bits : List Bool) : Frame := decodeFrame port (bytesOfBits bits)

/-- The port and the bytes that carry a port command, code first (spec 11.2); none for the other events. -/
def Instr.frame : Instr → Option (Port × List Byte)
  | .take => some (.display, [0x60])
  | .peek => some (.display, [0x61])
  | .done slot => some (.display, [0x62, slot])
  | .setMask mask holdAll => some (.display, [0x63, mask, holdAll])
  | .readNotice slot => some (.display, [0x64, slot])
  | .unknownCommand port code => some (port, [code])
  | .setMode f m g => some (.lighting, [0x10, f, m, g])
  | .setDim f d => some (.lighting, [0x11, f, d])
  | .setCadence g lo hi len w => some (.lighting, [0x12, g, lo, hi, len, w])
  | .restartCadences gs => some (.lighting, [0x13, gs])
  | .setOverride i fs => some (.lighting, [0x14, i, fs])
  | .setSampling p t m g => some (.lighting, [0x20, p, t, m, g])
  | .setJudging co cl l => some (.lighting, [0x21, co, cl, l])
  | .setSeverity f sv => some (.lighting, [0x22, f, sv])
  | .setLevels pl dl => some (.lighting, [0x23, pl, dl])
  | .setCoupling p fl e h => some (.lighting, [0x30, p, fl, e, h])
  | .forget p => some (.lighting, [0x31, p])
  | .release p c => some (.lighting, [0x32, p, c])
  | .rest => some (.lighting, [0x3F])
  | .sync => some (.lighting, [0x01])
  | .restart => some (.lighting, [0x0F])
  | .readDrive port => some (port, [0x40])
  | .readPosition port p => some (port, [0x41, p])
  | .readCircuit port p c => some (port, [0x42, p, c])
  | .readFeed port f => some (port, [0x43, f])
  | .readSummary port => some (port, [0x44])
  | .pinResetAssert | .pinResetRelease _ | .overrideFilterChange _ | .stepExpiry _ | .dimPeriodStart | .senseTick _
  | .startBit _ | .receiveEnd _ _ _ | .wordTimeout | .transmitStart | .inhibitSettleEnd | .transmitCatch | .txNoClock
  | .noCatch | .transmitTimeout | .settleEnd | .wakeSettleEnd _ | .gapTimerExpiry _ | .detectFilterChange _
  | .enrollTimerExpiry _ | .holdTimerExpiry _ | .sampleTimerExpiry _ | .deadlineExpiry _ _ | .lcsAssert
  | .linkWakeStartBit _ | .headExecution | .firstFallingEdge | .overrideInputChange _ _ => none

end Sys2Proof
end

