-- ==== Sys2Proof/Config.lean ====
section
/-! DEFINITION. What the BF412 fixes for good: its time limits, in microseconds (each named with its rule), and the
free values: inputs from outside that no command of the table carries. A free value has no body, so nothing can be
proved of the value it has. -/

namespace Sys2Proof.Config

/-- Microseconds in a millisecond; the unit of every counter of the model is the microsecond. -/
def msec : Nat := 1000

/-- The override filter (R5): 10 ms. -/
def overrideFilter : Nat := 10000

/-- The couple-detect filter (R61): 20 ms. -/
def detectFilter : Nat := 20000

/-- The sense-tick interval (R15): 50 ms. -/
def senseInterval : Nat := 50000

/-- The shared PWM period (R12): 5 ms. -/
def pwmPeriod : Nat := 5000

/-- The inhibit settle (R33, R42, R44): 120 µs. -/
def inhibitSettle : Nat := 120

/-- The listen interval (R31): 1 ms. -/
def listenInterval : Nat := 1000

/-- The word timeout of a receive (R29) and the transmit timeout (R36): 4 ms. -/
def wordLimit : Nat := 4000

/-- The wait for the node's first clock edge (R34): 10 ms. -/
def noClockLimit : Nat := 10000

/-- The gap limit of an assembly (R56): 15 ms. -/
def gapLimit : Nat := 15000

/-- The step widths of the width codes 0 to 7, in microseconds (R8). -/
def stepWidth : Fin 8 → Nat
  | 0 => 50000
  | 1 => 100000
  | 2 => 150000
  | 3 => 200000
  | 4 => 250000
  | 5 => 300000
  | 6 => 400000
  | 7 => 500000

/-- FREE VALUE (log 7): the levels of FS0 to FS7 at a sense tick that the part's own clock makes. -/
opaque senseLevels : Nat → BitVec 8

/-- FREE VALUE (log 7): the levels of CD1 to CD4 at each microsecond that passes. -/
opaque detectLevels : Nat → BitVec 4

/-- FREE VALUE (log 8): whether LCS is still asserted for the transaction that was last open on the lighting port. -/
opaque lcsStillAsserted : Nat → Bool

/-- FREE VALUE (log 8): the level of DCS at each microsecond that passes; true is asserted. -/
opaque dcsAsserted : Nat → Bool

/-- FREE VALUE (log 37): whether a disable of the channel on which a start bit was just taken was already executing at
that instant (R23). -/
opaque disableUnderWay : Nat → Bool

/-- FREE VALUE (log 34): whether the end of a receive that completes a HELLO fell together with the uncouple edge that
the same instant has taken first (R72). -/
opaque helloWithEdge : Nat → Bool

end Sys2Proof.Config
end

