-- ==== Sys2Proof/Machine/State.lean ====
section
/-! DEFINITION. The state of the BF412, block by block (spec 00, Functional Blocks), and the state right after pin
reset. Every time is a number of microseconds left or passed. Channels, positions, generators and override inputs are
indexed 0 to 3 for the spec's 1 to 4 or 0 to 3. -/

namespace Sys2Proof.Machine

/-! ## Function drive unit (spec 01) -/

/-- A function's mode (1.1). -/
inductive Mode where
  | off
  | on
  | cadence (generator : Fin 4)
  | dim (duty : Nat)
deriving DecidableEq, Repr

/-- A function's effective drive, with the duty in force where it is DIM (R4): two drives differ exactly when a
resolution from one to the other is a drive change (R13). -/
inductive Drive where
  | undriven
  | dim (duty : Nat)
  | full
deriving DecidableEq, Repr

/-- The class of an effective drive: what a snapshot holds (R14). -/
inductive DriveClass where
  | undriven
  | dim
  | full
deriving DecidableEq, Repr

/-- What a function output is doing at present (R1, R12). -/
inductive Wave where
  | low
  | high
  | pwm (duty : Nat)
deriving DecidableEq, Repr

/-- A function's sense condition (1.7). -/
inductive SenseCondition where
  | none
  | driverDead
  | driverStuck
deriving DecidableEq, Repr

/-- The kind of a sense-check streak (1.7). -/
inductive StreakKind where
  | none
  | dead
  | stuck
  | agree
deriving DecidableEq, Repr

/-- A sense-check record (1.7). -/
structure SenseCheck where
  condition : SenseCondition
  kind : StreakKind
  count : Nat
deriving DecidableEq, Repr

/-- A function record (1.1); `age` in ms. -/
structure FunctionRecord where
  mode : Mode
  drive : Drive
  age : Nat
  wave : Wave
  sense : SenseCheck
deriving DecidableEq, Repr

/-- A pattern, length and width code (R8). -/
structure Cadence where
  pattern : BitVec 16
  length : Nat
  width : Fin 8
deriving DecidableEq, Repr

/-- A cadence generator (R8). -/
structure Generator where
  cadence : Cadence
  step : Nat
  remaining : Nat
  staged : Option Cadence
deriving DecidableEq, Repr

/-- The function drive unit. -/
structure DriveUnit where
  functions : Eight FunctionRecord
  generators : Four Generator
  /-- The assignment set of each override input: bit n is Fn (R7). -/
  assign : Four (BitVec 8)
  /-- The filtered level of each override input (R5). -/
  filtered : Four Bool
  /-- How long each input has differed from its filtered level (R5). -/
  filterCount : Four Nat
  /-- Time to the next sense tick (R15). -/
  senseRemaining : Nat
  /-- Time into the shared PWM period (R12). -/
  pwmPhase : Nat
  /-- Time into the present millisecond of the time base (R1; log 6). -/
  msPhase : Nat
deriving DecidableEq, Repr

/-! ## Message assembly (spec 03) -/

/-- The current class of a reading (R45). -/
inductive CurrentClass where
  | none
  | low
  | nominal
  | high
deriving DecidableEq, Repr

/-- A circuit definition of a HELLO (R51). -/
structure CircuitDef where
  feed : Fin 8
  required : Bool
  lowCurrent : Bool
deriving DecidableEq, Repr

/-- One reading of a REPORT (R53); the index of a kept reading is 0 to 11. -/
structure Reading where
  circuit : Fin 12
  volt : Bool
  current : CurrentClass
deriving DecidableEq, Repr

/-- An assembly record (R47) with its gap timer (R56). -/
inductive Assembly where
  | idle
  | hello (count : Nat) (serial : List Byte) (circuits : List CircuitDef) (gap : Nat)
  | report (tag : BitVec 4) (expected taken : Nat) (readings : List Reading) (gap : Nat)
deriving DecidableEq, Repr

/-! ## Coupling-link engine (spec 02) -/

/-- The reason of a REJECT (R59). -/
inductive RejectReason where
  | count
  | circuit
  | incomplete
  | order
deriving DecidableEq, Repr

/-- A word for a node (R46). -/
inductive LinkWord where
  | welcome (position : Fin 4)
  | sample (tag : BitVec 4)
  | reject (reason : RejectReason)
  | recall
deriving DecidableEq, Repr

/-- The states of the shift engine (2.3). -/
inductive Engine where
  | off
  | rxIdle
  | rxActive (channel : Fin 4)
  | txSetup (channel : Fin 4)
  | txWait (channel : Fin 4)
  | txActive (channel : Fin 4)
  | settle
deriving DecidableEq, Repr

/-- One link channel (2.1, 2.6, 2.7). -/
structure Channel where
  enabled : Bool
  queue : List LinkWord
  /-- Failed attempts of the head word (R36). -/
  attempts : Nat
  /-- The link-error streak (R37). -/
  streak : Nat
  /-- What is left of the settle of a channel whose start bit was seen in REST (R42). -/
  wakeHold : Option Nat
deriving DecidableEq, Repr

/-- The coupling-link engine. -/
structure Link where
  engine : Engine
  /-- What is left of the listen interval, the settle or the time limit of the engine's state. -/
  timer : Nat
  /-- The transfer in progress is marked discarded (R40). -/
  discarded : Bool
  /-- THE MODEL'S OWN: the assembly record that a departure from ENROLLED has cleared at this instant under a receive of
  its channel, with which R72 takes a HELLO that falls together with the edge (log 34). It is gone when time passes. -/
  cut : Option Assembly
  /-- The last-served channel (R32). -/
  lastServed : Fin 4
  channels : Four Channel
deriving DecidableEq, Repr

/-! ## Position unit (spec 04) -/

/-- The six states of a position (spec 04, opening). -/
inductive PositionState where
  | vacant
  | coupled
  | silent
  | enrolled
  | mute
  | departed
deriving DecidableEq, Repr

/-- The welcome field (4.2). -/
inductive Welcome where
  | done
  | waiting
  | owed
deriving DecidableEq, Repr

/-- The five position conditions (4.6). -/
inductive PositionCondition where
  | silent
  | mute
  | linkFault
  | detectMissing
  | uncoupled
deriving DecidableEq, Repr

/-- A position record (4.2), with its detect filter (R61). -/
structure Position where
  state : PositionState
  /-- The polarity: coupled = high. -/
  coupledHigh : Bool
  wakeEnable : Bool
  /-- The filtered detect level: the level of CDp after the filter. -/
  detect : Bool
  /-- How long CDp has differed from the filtered level (R61). -/
  filterCount : Nat
  coupleEdge : Bool
  uncoupleEdge : Bool
  serial : Option (BitVec 24)
  count : Nat
  recoupled : Bool
  welcome : Welcome
  enrollTimeout : Nat
  enrollTimer : Option Nat
  holdTimer : Option Nat
  linkFault : Bool
  detectMissing : Bool
  uncoupled : Bool
  /-- THE MODEL'S OWN: the head condition before the present event, which R81 compares with (log 12). -/
  claimedHead : Option PositionCondition
deriving DecidableEq, Repr

/-! ## Sampling unit (spec 05) -/

/-- What an OUTSTANDING record holds beside its tag (5.1). -/
structure Outstanding where
  snapshot : Eight DriveClass
  /-- The blur set: bit n is Fn. -/
  blur : BitVec 8
  deadline : Nat
deriving DecidableEq, Repr

/-- A sample record: QUEUED without, OUTSTANDING with its second part (5.1). -/
structure SampleRecord where
  tag : BitVec 4
  outstanding : Option Outstanding
deriving DecidableEq, Repr

/-- The sampling state of a position (5.1); the list is oldest first. -/
structure Sampling where
  list : List SampleRecord
  nextTag : BitVec 4
  timer : Option Nat
  mute : Nat
  missed : Nat
deriving DecidableEq, Repr

/-- The shared sampling settings (5.1), times in ms. -/
structure SamplingSettings where
  period : Nat
  timeout : Nat
  muteCount : Nat
  guard : Nat
deriving DecidableEq, Repr

/-! ## Verdict unit (spec 06) -/

/-- The fault kinds of a circuit (R100). -/
inductive FaultKind where
  | open
  | degraded
  | overload
  | feedLoss
  | backfeed
deriving DecidableEq, Repr

/-- The attribution hold (R100). -/
inductive Hold where
  | local
  | deferred
deriving DecidableEq, Repr

/-- A verdict with the fields that are present in it (R100): the fault kind, the candidate in FAULT, and the hold in
FAULT and RECOVERING of kind FEED_LOSS. -/
inductive Verdict where
  | unseen
  | good
  | suspect (kind : FaultKind)
  | fault (kind : FaultKind) (candidate : Option FaultKind) (hold : Option Hold)
  | recovering (kind : FaultKind) (hold : Option Hold)
  | shadowed
deriving DecidableEq, Repr

/-- A circuit record (R100); its announce state is kept with the notice unit. -/
structure Circuit where
  feed : Fin 8
  required : Bool
  lowCurrent : Bool
  verdict : Verdict
  streak : Nat
  last : Option (Bool × CurrentClass)
deriving DecidableEq, Repr

/-- The judging settings (R114); bit i of `latched` is fault kind i in the order of R114. -/
structure Judging where
  confirm : Nat
  clear : Nat
  latched : BitVec 5
deriving DecidableEq, Repr

/-! ## Attribution unit (spec 07) -/

/-- A feed condition (7.1). In BREAK(k, e) the start link k is given by the index of position k, behind it. -/
inductive FeedCondition where
  | none
  | driverDead
  | driverStuck
  | broken (start stop : Fin 4)
deriving DecidableEq, Repr

/-! ## Notice unit (spec 09) -/

/-- The sixty subjects (R152). -/
inductive Subject where
  | circuit (position : Fin 4) (index : Fin 12)
  | position (position : Fin 4)
  | feed (function : Fin 8)
deriving DecidableEq, Repr

/-- The fault kinds of a feed notice (R152). -/
inductive FeedKind where
  | driverDead
  | driverStuck
  | couplingBreak
deriving DecidableEq, Repr

/-- The kinds of a notice (R152): the fault kinds of the three sorts of subject, and CLEARED. -/
inductive NoticeKind where
  | circuit (kind : FaultKind)
  | position (condition : PositionCondition)
  | feed (kind : FeedKind)
  | cleared
deriving DecidableEq, Repr

/-- The mark of an IN_SERVICE notice, with the successor kind of SUPERSEDED (R152, R160). -/
inductive Mark where
  | none
  | resolved
  | superseded (successor : NoticeKind)
deriving DecidableEq, Repr

/-- The state of a notice (R152). -/
inductive Service where
  | pending
  | inService (mark : Mark)
deriving DecidableEq, Repr

/-- A notice in its slot (R152). -/
structure Notice where
  slot : Fin 16
  subject : Subject
  kind : NoticeKind
  level : Nat
  service : Service
  arrival : BitVec 16
deriving DecidableEq, Repr

/-- An announce state with its owed kind (R155); a CLEARED is owed in OWED_CLEAR. -/
inductive Announce where
  | none
  | queued
  | acked
  | owedFault (kind : NoticeKind)
  | owedClear
deriving DecidableEq, Repr

/-- The announce states of the sixty subjects (R155). -/
structure Announcements where
  circuits : Four (Twelve Announce)
  positions : Four Announce
  feeds : Eight Announce
deriving DecidableEq, Repr

/-- The notice unit. -/
structure NoticeUnit where
  /-- The notices, in rising order of slot. -/
  queue : List Notice
  /-- The in-service stack, top first (the spec lists it bottom first). -/
  stack : List (Fin 16)
  announce : Announcements
  counter : BitVec 16
  mask : Nat
  holdAll : Bool
  severity : Eight Nat
  positionLevel : Nat
  detectLevel : Nat
  /-- THE MODEL'S OWN: the present event must run the re-announce scan (R163; log 12). -/
  scanDue : Bool
deriving DecidableEq, Repr

/-! ## Port and power control (spec 08, 10) -/

/-- A posted command with its arguments as checked at acceptance (8.2, 8.3). -/
inductive PostedCommand where
  | setMode (function : Fin 8) (mode : Mode)
  | setDim (function : Fin 8) (duty : Nat)
  | setCadence (generator : Fin 4) (cadence : Cadence)
  | restartCadences (generators : BitVec 4)
  | setOverride (input : Fin 4) (functions : BitVec 8)
  | setSampling (settings : SamplingSettings)
  | setJudging (settings : Judging)
  | setSeverity (function : Fin 8) (severity : Nat)
  | setLevels (positionLevel detectLevel : Nat)
  | setCoupling (position : Fin 4) (coupledHigh wakeEnable channelEnable : Bool) (enrollTimeout holdTime : Nat)
  | releaseOne (position : Fin 4) (circuit : Fin 12)
  | releaseAll
  | forget (position : Fin 4)
  | rest
deriving DecidableEq, Repr

/-- An entry of the lighting queue (8.3). -/
structure Posted where
  command : PostedCommand
  sequence : BitVec 8
deriving DecidableEq, Repr

/-- The kinds of deferred error (R143). -/
inductive ErrorKind where
  | badTarget
  | stateRefused
  | nothingLatched
  | restRefused
deriving DecidableEq, Repr

/-- The deferred error record when it is held (R143). -/
structure DeferredError where
  kind : ErrorKind
  /-- The command code of the refused command. -/
  code : Byte
  sequence : BitVec 8
  more : Bool
deriving DecidableEq, Repr

/-- Where the transaction of a port stands (R136, R137, R174; log 8, log 27). No row tells the deassertion of a chip
select: it is a free value at each microsecond of the clock, and for LCS at an entry to REST. -/
inductive Transaction where
  /-- The chip select is deasserted: no transaction. -/
  | idle
  /-- The chip select is asserted and no command has been taken. -/
  | opened
  /-- The command was taken; with the sequence number it was given, if it was posted and accepted. -/
  | taken (sequence : Option (BitVec 8))
deriving DecidableEq, Repr

/-- The lighting queue, the deferred error, and the transactions and replies of the two ports. -/
structure PortControl where
  queue : List Posted
  nextSeq : BitVec 8
  error : Option DeferredError
  lcs : Transaction
  dcs : Transaction
  /-- The reply fixed when the last lighting command was taken: result byte, then data bytes (R136). -/
  lightingReply : List Byte
  /-- The reply fixed when the last display command was taken (R136). -/
  displayReply : List Byte
deriving DecidableEq, Repr

/-- The power state (R173). -/
inductive Power where
  | run
  | rest
deriving DecidableEq, Repr

/-! ## The whole part -/

/-- The state of the BF412. -/
structure State where
  /-- RSTN is asserted (R6). -/
  resetAsserted : Bool
  power : Power
  /-- The raw levels of OV0 to OV3. -/
  ov : Four Bool
  /-- The raw levels of CD1 to CD4. -/
  cd : Four Bool
  /-- The levels of FS0 to FS7 as last read. -/
  fs : BitVec 8
  drive : DriveUnit
  link : Link
  assembly : Four Assembly
  positions : Four Position
  /-- The shared hold time, in seconds (R64). -/
  holdTime : Nat
  samples : Four Sampling
  sampling : SamplingSettings
  /-- The circuit table: the records (p, 0) to (p, n-1) of each position (R100). -/
  circuits : Four (List Circuit)
  judging : Judging
  /-- The feed records (7.1). -/
  feeds : Eight FeedCondition
  notices : NoticeUnit
  port : PortControl
  /-- THE MODEL'S OWN: the counter that the free values of Config are drawn with (log 7). -/
  freeIndex : Nat
  /-- The commands waiting, first in first out. -/
  pending : List Instr
deriving DecidableEq, Repr

/-- Why a step could stop with a fault: never. The spec names no event that stops the part, so the type has no
constructor and no meaning can raise one (log 4). Safe: there is nothing to raise. -/
inductive Fault where
deriving DecidableEq, Repr

/-- Why a step could be refused. -/
inductive Refusal where
  /-- Raised by an arm of `exec` for a command that has no meaning yet; no arm raises it. Safe: the model stops. -/
  | notModelled (mnemonic : String)
deriving DecidableEq, Repr

/-! ## Reset values -/

/-- A cleared sense-check record (R6). -/
def SenseCheck.cleared : SenseCheck := { condition := .none, kind := .none, count := 0 }

/-- A generator at the start of a cadence: step 0, a full step width, nothing staged (R8). -/
def Generator.start (c : Cadence) : Generator :=
  { cadence := c, step := 0, remaining := Config.stepWidth c.width, staged := none }

/-- The default cadences of R8: pattern bits 0 to 6 on for CG0 and CG1, 0 and 2 for CG2, none for CG3. -/
def defaultGenerators : Four Generator :=
  ⟨Generator.start { pattern := 0x007F, length := 14, width := 0 },
   Generator.start { pattern := 0x007F, length := 14, width := 0 },
   Generator.start { pattern := 0x0005, length := 8, width := 1 },
   Generator.start { pattern := 0x0000, length := 2, width := 7 }⟩

/-- A function record in mode OFF with drive age 0 (R1, R6), before its resolution. -/
def FunctionRecord.initial : FunctionRecord :=
  { mode := .off, drive := .undriven, age := 0, wave := .low, sense := SenseCheck.cleared }

/-- The function drive unit at pin reset (R6, R8), before the functions are resolved; the filtered override levels are
set from the inputs. -/
def DriveUnit.initial (ov : Four Bool) : DriveUnit :=
  { functions := Eight.all FunctionRecord.initial
    generators := defaultGenerators
    assign := ⟨0x01, 0, 0, 0⟩
    filtered := ov
    filterCount := Four.all 0
    senseRemaining := Config.senseInterval
    pwmPhase := 0
    msPhase := 0 }

/-- A channel at pin reset (R43). -/
def Channel.initial : Channel :=
  { enabled := true, queue := [], attempts := 0, streak := 0, wakeHold := none }

/-- The link engine at pin reset (R43). -/
def Link.initial : Link :=
  { engine := .rxIdle
    timer := Config.listenInterval
    discarded := false
    cut := none
    lastServed := 3
    channels := Four.all Channel.initial }

/-- A position record at pin reset (R65) with its filtered level, before its evaluation. -/
def Position.initial (detect : Bool) : Position :=
  { state := .vacant
    coupledHigh := true
    wakeEnable := false
    detect := detect
    filterCount := 0
    coupleEdge := false
    uncoupleEdge := false
    serial := none
    count := 0
    recoupled := false
    welcome := .done
    enrollTimeout := 1000 * Config.msec
    enrollTimer := none
    holdTimer := none
    linkFault := false
    detectMissing := false
    uncoupled := false
    claimedHead := none }

/-- The sampling state of a position after both resets (R99). -/
def Sampling.initial : Sampling := { list := [], nextTag := 0, timer := none, mute := 0, missed := 0 }

/-- No subject is queued, acknowledged or owed (R172). -/
def Announcements.initial : Announcements :=
  { circuits := Four.all (Twelve.all .none), positions := Four.all .none, feeds := Eight.all .none }

/-- The notice unit at pin reset (R153, R169, R172). -/
def NoticeUnit.initial : NoticeUnit :=
  { queue := []
    stack := []
    announce := Announcements.initial
    counter := 0
    mask := 0
    holdAll := false
    severity := ⟨6, 4, 5, 5, 3, 3, 2, 2⟩
    positionLevel := 5
    detectLevel := 3
    scanDue := false }

/-- The lighting port at pin reset (R151). -/
def PortControl.initial : PortControl :=
  { queue := [], nextSeq := 0, error := none, lcs := .idle, dcs := .idle, lightingReply := [], displayReply := [] }

/-- Every block at its pin-reset value for given input levels, before the functions are resolved and the positions
evaluated (R6, R43, R47, R65, R99, R114, R123, R135, R151, R172). -/
def State.blank (ov cd : Four Bool) (fs : BitVec 8) (freeIndex : Nat) (pending : List Instr) : State :=
  { resetAsserted := false
    power := .run
    ov := ov
    cd := cd
    fs := fs
    drive := DriveUnit.initial ov
    link := Link.initial
    assembly := Four.all .idle
    positions := cd.map fun _ level => Position.initial level
    holdTime := 30
    samples := Four.all Sampling.initial
    sampling := { period := 200, timeout := 60, muteCount := 3, guard := 20 }
    circuits := Four.all []
    judging := { confirm := 3, clear := 5, latched := 0b10100 }
    feeds := Eight.all .none
    notices := NoticeUnit.initial
    port := PortControl.initial
    freeIndex := freeIndex
    pending := pending }

/-- The machine right after reset: RSTN has just been released with every input level low, which leaves every function
UNDRIVEN and every position VACANT (R6, R65). The input levels are the model's choice (DESIGN CHOICE, log 1); the
release with other levels is the command PIN_RESET_RELEASE. -/
def State.reset : State := State.blank (Four.all false) (Four.all false) 0 0 []

end Sys2Proof.Machine
end

