-- ==== Sys2Proof/Machine/Ops.lean ====
section
/-! DEFINITION. The named operations through which the blocks read and write the tables of the state, and the frame
that every event runs in. -/

namespace Sys2Proof.Machine

/-! ## Writes to one entry of a table -/

/-- Change the record of one function. -/
def State.updFunction (s : State) (f : Fin 8) (g : FunctionRecord → FunctionRecord) : State :=
  { s with drive := { s.drive with functions := s.drive.functions.modify f g } }

/-- Change one cadence generator. -/
def State.updGenerator (s : State) (g : Fin 4) (h : Generator → Generator) : State :=
  { s with drive := { s.drive with generators := s.drive.generators.modify g h } }

/-- Change one link channel. -/
def State.updChannel (s : State) (p : Fin 4) (f : Channel → Channel) : State :=
  { s with link := { s.link with channels := s.link.channels.modify p f } }

/-- Change one position record. -/
def State.updPosition (s : State) (p : Fin 4) (f : Position → Position) : State :=
  { s with positions := s.positions.modify p f }

/-- Change the sampling state of one position. -/
def State.updSampling (s : State) (p : Fin 4) (f : Sampling → Sampling) : State :=
  { s with samples := s.samples.modify p f }

/-- Write one assembly record. -/
def State.setAssembly (s : State) (p : Fin 4) (a : Assembly) : State :=
  { s with assembly := s.assembly.set p a }

/-- Write the circuit records of one position. -/
def State.setCircuits (s : State) (p : Fin 4) (cs : List Circuit) : State :=
  { s with circuits := s.circuits.set p cs }

/-- The circuit record at (p, c), if there is one (R100). -/
def State.circuit (s : State) (p : Fin 4) (c : Fin 12) : Option Circuit := (s.circuits.get p)[c.val]?

/-- Write the circuit record at (p, c), where there is one. -/
def State.setCircuit (s : State) (p : Fin 4) (c : Fin 12) (r : Circuit) : State :=
  s.setCircuits p ((s.circuits.get p).set c.val r)

/-- Write the feed condition of a function. -/
def State.setFeed (s : State) (f : Fin 8) (c : FeedCondition) : State := { s with feeds := s.feeds.set f c }

/-- Change the notice unit. -/
def State.updNotices (s : State) (f : NoticeUnit → NoticeUnit) : State := { s with notices := f s.notices }

/-- Change the port control. -/
def State.updPort (s : State) (f : PortControl → PortControl) : State := { s with port := f s.port }

/-- Change the link engine's own registers. -/
def State.updLink (s : State) (f : Link → Link) : State := { s with link := f s.link }

/-! ## Small readings of the state -/

/-- The class of an effective drive (R14). -/
def Drive.cls : Drive → DriveClass
  | .undriven => .undriven
  | .dim _ => .dim
  | .full => .full

/-- The filtered level reads coupled when it equals the coupled level given by the polarity (R61). -/
def Position.reads (r : Position) : Bool := r.detect == r.coupledHigh

/-- ENROLLED or MUTE: the states whose circuits are sampled and judged (R76, R84). -/
def PositionState.accepted : PositionState → Bool
  | .enrolled => true
  | .mute => true
  | .vacant => false
  | .coupled => false
  | .silent => false
  | .departed => false

/-- The function's bit in a set of functions. -/
def inSet (set : BitVec 8) (f : Fin 8) : Bool := set.getLsbD f.val

/-- The set with a function added. -/
def withMember (set : BitVec 8) (f : Fin 8) : BitVec 8 := set ||| (BitVec.twoPow 8 f.val)

/-- The number 1 to 4 of a position or channel, 0 to 3 of a generator plus one. -/
def number (p : Fin 4) : Nat := p.val + 1

/-- The place of a fault kind in the coding of R114 and 11.4, less one. -/
def FaultKind.place : FaultKind → Nat
  | .open => 0
  | .degraded => 1
  | .overload => 2
  | .feedLoss => 3
  | .backfeed => 4

/-- The kind is in the latched set (R112). -/
def Judging.isLatched (j : Judging) (k : FaultKind) : Bool := j.latched.getLsbD k.place

/-- A stopped timer stays stopped; a running one starts again at a value. -/
def restartTimer (t : Option Nat) (value : Nat) : Option Nat := t.map fun _ => value

/-! ## The outcome of an event -/

/-- The outcome of a command whose effect is `f`. While RSTN is asserted no block state is held and nothing but the
release and the override inputs acts (R6, R43, R99, R123, R135, R137, R172), so the state stays as it is. -/
def event (s : State) (f : State → State) : Host.Outcome State Fault Refusal :=
  .next (if s.resetAsserted then s else f s)

/-- The outcome of a command that acts in RUN only: in REST its cause cannot arise (R175) and the state stays. -/
def runEvent (s : State) (f : State → State) : Host.Outcome State Fault Refusal :=
  event s fun s => if s.power = .run then f s else s

end Sys2Proof.Machine
end

