-- ==== Sys2Proof/Machine/Operands.lean ====
section
/-! DEFINITION. The operands of commands and words: the argument bytes of the port commands with their range checks
(R138, R181, spec 11.2), and the fields of the words that a node sends (R45, spec 11.1). -/

namespace Sys2Proof.Machine

/-! ## Argument bytes -/

/-- A byte taken as a number in a closed range; none is BAD_ARGUMENT. -/
def rangeArg (b : Byte) (low high : Nat) : Option Nat :=
  if low ≤ b.toNat ∧ b.toNat ≤ high then some b.toNat else none

/-- A byte taken as an index below n. -/
def indexArg (n : Nat) (b : Byte) : Option (Fin n) :=
  if h : b.toNat < n then some ⟨b.toNat, h⟩ else none

/-- A position byte 1 to 4 as an index. -/
def positionArg (b : Byte) : Option (Fin 4) :=
  if h : 1 ≤ b.toNat ∧ b.toNat ≤ 4 then some ⟨b.toNat - 1, by omega⟩ else none

/-- The mode of a SET_MODE: the generator byte is read only for CADENCE (R181). -/
def modeArg (mode generator : Byte) : Option Mode :=
  match mode.toNat with
  | 0 => some .off
  | 1 => some .on
  | 2 => (indexArg 4 generator).map .cadence
  | _ => none

/-- SET_MODE (R2, R181). -/
def setModeArgs (function mode generator : Byte) : Option PostedCommand := do
  let f ← indexArg 8 function
  let m ← modeArg mode generator
  return .setMode f m

/-- SET_DIM (R3). -/
def setDimArgs (function duty : Byte) : Option PostedCommand := do
  let f ← indexArg 8 function
  let d ← rangeArg duty 1 16
  return .setDim f d

/-- SET_CADENCE (R10): bit i of the low byte is step i, bit i of the high byte is step 8 + i. -/
def setCadenceArgs (generator patternLow patternHigh length width : Byte) : Option PostedCommand := do
  let g ← indexArg 4 generator
  let n ← rangeArg length 2 16
  let w ← indexArg 8 width
  return .setCadence g { pattern := patternHigh ++ patternLow, length := n, width := w }

/-- RESTART_CADENCES (R11): bits 7 to 4 must be zero. -/
def restartCadencesArgs (generators : Byte) : Option PostedCommand := do
  let set ← rangeArg generators 0 15
  return .restartCadences (BitVec.ofNat 4 set)

/-- SET_OVERRIDE (R7). -/
def setOverrideArgs (input functions : Byte) : Option PostedCommand := do
  let i ← indexArg 4 input
  return .setOverride i functions

/-- SET_SAMPLING (R97, R181): the period in units of 50 ms. -/
def setSamplingArgs (period timeout muteCount guard : Byte) : Option PostedCommand := do
  let p ← rangeArg period 1 40
  let t ← rangeArg timeout 20 250
  let m ← rangeArg muteCount 1 7
  let g ← rangeArg guard 0 100
  return .setSampling { period := 50 * p, timeout := t, muteCount := m, guard := g }

/-- SET_JUDGING (R114): bits 7 to 5 of the latched set must be zero. -/
def setJudgingArgs (confirm clear latched : Byte) : Option PostedCommand := do
  let a ← rangeArg confirm 1 15
  let b ← rangeArg clear 1 15
  let l ← rangeArg latched 0 31
  return .setJudging { confirm := a, clear := b, latched := BitVec.ofNat 5 l }

/-- SET_SEVERITY (R154). -/
def setSeverityArgs (function severity : Byte) : Option PostedCommand := do
  let f ← indexArg 8 function
  let v ← rangeArg severity 1 7
  return .setSeverity f v

/-- SET_LEVELS (R154). -/
def setLevelsArgs (positionLevel detectLevel : Byte) : Option PostedCommand := do
  let p ← rangeArg positionLevel 1 7
  let d ← rangeArg detectLevel 1 7
  return .setLevels p d

/-- SET_COUPLING (R64, R181): the enroll timeout in units of 250 ms, here in microseconds; the hold time in seconds. -/
def setCouplingArgs (position flags enrollTimeout holdTime : Byte) : Option PostedCommand := do
  let p ← positionArg position
  let fl ← rangeArg flags 0 7
  let e ← rangeArg enrollTimeout 1 16
  return .setCoupling p (fl.testBit 0) (fl.testBit 1) (fl.testBit 2) (250 * Config.msec * e) holdTime.toNat

/-- RELEASE (R113, R181): position byte 0 is RELEASE(all), and its circuit byte is not read. -/
def releaseArgs (position circuit : Byte) : Option PostedCommand :=
  if position = 0 then some .releaseAll
  else do
    let p ← positionArg position
    let c ← indexArg 12 circuit
    return .releaseOne p c

/-- FORGET (R79). -/
def forgetArgs (position : Byte) : Option PostedCommand := do
  let p ← positionArg position
  return .forget p

/-- READ_CIRCUIT (R146). -/
def circuitArgs (position circuit : Byte) : Option (Fin 4 × Fin 12) := do
  let p ← positionArg position
  let c ← indexArg 12 circuit
  return (p, c)

/-- SET_MASK (R169): the mask 0 to 6 and hold-all 0 or 1. -/
def maskArgs (mask holdAll : Byte) : Option (Nat × Bool) := do
  let m ← rangeArg mask 0 6
  let h ← rangeArg holdAll 0 1
  return (m, h == 1)

/-- The command code of a posted command (11.2), which the deferred error names. -/
def PostedCommand.code : PostedCommand → Byte
  | .setMode _ _ => 0x10
  | .setDim _ _ => 0x11
  | .setCadence _ _ => 0x12
  | .restartCadences _ => 0x13
  | .setOverride _ _ => 0x14
  | .setSampling _ => 0x20
  | .setJudging _ => 0x21
  | .setSeverity _ _ => 0x22
  | .setLevels _ _ => 0x23
  | .setCoupling _ _ _ _ _ _ => 0x30
  | .forget _ => 0x31
  | .releaseOne _ _ => 0x32
  | .releaseAll => 0x32
  | .rest => 0x3F

/-! ## Words from a node -/

/-- A good word from a node, decoded by its kind (R45): a count that is bad, must-be-zero bits and an index out of
range are kept for the tests of R48. -/
inductive NodeWord where
  | hello (count : Nat)
  | serial (value : Byte)
  | circuit (definition : CircuitDef) (mustBeZeroSet : Bool)
  | report (tag : BitVec 4) (count : Nat)
  | reading (index : Nat) (volt : Bool) (current : CurrentClass) (mustBeZeroSet : Bool)
  | unknown
deriving DecidableEq, Repr

/-- The current class of a READING (11.1). -/
def currentOf (code : Nat) : CurrentClass :=
  match code with
  | 0 => .none
  | 1 => .low
  | 2 => .nominal
  | _ => .high

/-- The three low bits of a value as a function. -/
def functionOf (value : Nat) : Fin 8 := ⟨value % 8, Nat.mod_lt _ (by decide)⟩

/-- The word carried by twelve data bits (11.1): the kind in bits 0 to 3, the value in bits 4 to 11. Codes 0, 6, 7 and
8 to 15 are unknown kinds from a node. -/
def NodeWord.decode (data : BitVec 12) : NodeWord :=
  let value := data.toNat / 16
  match data.toNat % 16 with
  | 1 => .hello value
  | 2 => .serial (byte value)
  | 3 =>
    .circuit { feed := functionOf value, required := value.testBit 3, lowCurrent := value.testBit 4 }
      (decide (32 ≤ value))
  | 4 => .report (BitVec.ofNat 4 value) (value / 16)
  | 5 => .reading (value % 16) (value.testBit 4) (currentOf (value / 32 % 4)) (value.testBit 7)
  | _ => .unknown

/-- A count of a HELLO or REPORT is good when it is 1 to 12 (R45). -/
def goodCount (n : Nat) : Bool := decide (1 ≤ n) && decide (n ≤ 12)

end Sys2Proof.Machine
end

