-- ==== Sys2Proof/Machine/Flags.lean ====
section
/-! DEFINITION. What shows at the pins, computed from the state: the function outputs (R1, R6, R12), the link lines
(R22, R25, R42), LATN (R144), the effective threshold and DATN (R164, R165), and the data-out bytes of the ports (R136,
R137). -/

namespace Sys2Proof.Machine

/-! ## Function outputs -/

/-- The level of a wave at a time into the PWM period: PWM is high for duty × 312.5 µs at the start (R12). -/
def Wave.level : Wave → Nat → Bool
  | .low, _ => false
  | .high, _ => true
  | .pwm duty, phase => decide (2 * phase < 625 * duty)

/-- The level of output Fn (R1). While RSTN is asserted F0 follows OV0 and F1 to F7 are low (R6). -/
def State.functionOutput (s : State) (f : Fin 8) : Bool :=
  if s.resetAsserted then (if f = 0 then s.ov.get 0 else false)
  else (s.drive.functions.get f).wave.level s.drive.pwmPhase

/-! ## Link words on the wire -/

/-- The reason code of a REJECT (11.1). -/
def RejectReason.code : RejectReason → BitVec 8
  | .count => 1
  | .circuit => 2
  | .incomplete => 3
  | .order => 4

/-- The kind code of a word for a node (11.1). -/
def LinkWord.kindCode : LinkWord → BitVec 4
  | .welcome _ => 8
  | .sample _ => 9
  | .reject _ => 10
  | .recall => 11

/-- The value of a word for a node (11.1, R46). -/
def LinkWord.value : LinkWord → BitVec 8
  | .welcome p => BitVec.ofNat 8 (number p)
  | .sample tag => tag.setWidth 8
  | .reject reason => reason.code
  | .recall => 0

/-- The twelve data bits: the kind in bits 0 to 3, the value in bits 4 to 11 (11.1). -/
def LinkWord.bits (w : LinkWord) : BitVec 12 := w.value ++ w.kindCode

/-- The number of ones among the twelve data bits. -/
def ones (data : BitVec 12) : Nat := ((List.range 12).filter fun i => data.getLsbD i).length

/-- The parity bit that makes the ones of the data and the parity bit odd (2.2). -/
def parityBit (data : BitVec 12) : Bool := ones data % 2 == 0

/-- The level of the data line after falling edge k of a transmit, k from 0 to 15: the start bit, data bits 0 to 11,
the parity bit, the stop bit; from edge 14 on the line is released (R25). True is released. -/
def txLevel (w : LinkWord) (k : Nat) : Bool :=
  if k = 0 then false
  else if k ≤ 12 then w.bits.getLsbD (k - 1)
  else if k = 13 then parityBit w.bits
  else true

/-! ## Link lines -/

/-- LCKp is held low (R22): the table of the engine's states, the settle of a channel whose start bit was seen in REST
(R42), and the assertion of RSTN. -/
def State.clockHeldLow (s : State) (p : Fin 4) : Bool :=
  let c := s.link.channels.get p
  if s.resetAsserted then true
  else match s.link.engine with
    | .off => !(c.enabled && (s.positions.get p).wakeEnable)
    | .rxIdle => !c.enabled || c.wakeHold.isSome
    | .rxActive t => decide (p ≠ t)
    | .txSetup _ => true
    | .txWait t => decide (p ≠ t) || c.wakeHold.isSome
    | .txActive t => decide (p ≠ t) || c.wakeHold.isSome
    | .settle => true

/-- LDAp is held low after k falling edges of the transfer in progress (R22, R25); a line not held is released. -/
def State.dataHeldLow (s : State) (p : Fin 4) (k : Nat) : Bool :=
  if s.resetAsserted then false
  else match s.link.engine with
    | .txSetup t => decide (p = t)
    | .txWait t => decide (p = t)
    | .txActive t =>
      decide (p = t) &&
        (match (s.link.channels.get p).queue with
          | w :: _ => !txLevel w k
          | [] => false)
    | .off => false
    | .rxIdle => false
    | .rxActive _ => false
    | .settle => false

/-- The engine is active on channel p (R26, R27). -/
def Engine.activeOn (e : Engine) (p : Fin 4) : Bool :=
  match e with
  | .rxActive t => t = p
  | .txSetup t => t = p
  | .txWait t => t = p
  | .txActive t => t = p
  | .off => false
  | .rxIdle => false
  | .settle => false

/-- The head word of channel p is in flight (2.7). -/
def Engine.inFlight (e : Engine) (p : Fin 4) : Bool :=
  match e with
  | .txSetup t => t = p
  | .txWait t => t = p
  | .txActive t => t = p
  | .rxActive _ => false
  | .off => false
  | .rxIdle => false
  | .settle => false

/-! ## Attention lines -/

/-- LATN is asserted while the deferred error is held (R144). -/
def State.latn (s : State) : Bool := !s.resetAsserted && s.port.error.isSome

/-- The notice in a slot. -/
def NoticeUnit.inSlot (n : NoticeUnit) (slot : Fin 16) : Option Notice := n.queue.find? fun x => x.slot == slot

/-- The level of the top notice of the in-service stack, 0 when it is empty (R164). -/
def NoticeUnit.topLevel (n : NoticeUnit) : Nat :=
  match n.stack with
  | [] => 0
  | top :: _ =>
    match n.inSlot top with
    | some x => x.level
    | none => 0

/-- The effective threshold (R164). -/
def NoticeUnit.threshold (n : NoticeUnit) : Nat :=
  max n.mask (max n.topLevel (if n.holdAll && !n.stack.isEmpty then 6 else 0))

/-- A notice is takeable (R164). -/
def NoticeUnit.takeable (n : NoticeUnit) (x : Notice) : Bool :=
  x.service == .pending && decide (n.threshold < x.level) && decide (n.stack.length < 3)

/-- DATN is asserted exactly when TAKE would deliver a notice (R165). -/
def State.datn (s : State) : Bool := !s.resetAsserted && s.notices.queue.any s.notices.takeable

/-! ## Port data out -/

/-- Byte i of a reply, i counted from the byte after the last argument byte: the reply, and 00h past its end (R136,
R137). -/
def replyByte (reply : List Byte) (i : Nat) : Byte := reply.getD i 0

/-- What a port drives on its data-out line in byte i: nothing while its chip select is deasserted, 00h in the command
byte and the argument bytes, then the reply, with i counted from the byte after the last argument byte (R136, R137). -/
def Transaction.dataOut (t : Transaction) (reply : List Byte) (i : Nat) : Option Byte :=
  match t with
  | .idle => none
  | .opened => some 0
  | .taken _ => some (replyByte reply i)

/-- A whole transaction on data out: byte i from its first byte, for a command with a number of argument bytes (R136). -/
def transactionByte (arguments : Nat) (reply : List Byte) (i : Nat) : Byte :=
  if i ≤ arguments then 0 else replyByte reply (i - arguments - 1)

/-- The byte that the part drives on LSDO or DSDO, as `Transaction.dataOut` says; neither is driven while RSTN is
asserted (R137). -/
def State.dataOut (s : State) (port : Port) (i : Nat) : Option Byte :=
  if s.resetAsserted then none
  else
    match port with
    | .lighting => s.port.lcs.dataOut s.port.lightingReply i
    | .display => s.port.dcs.dataOut s.port.displayReply i

/-- Bit k of a byte in the order in which it moves on a data line, the most significant bit first (R136). -/
def serialBit (b : Byte) (k : Nat) : Bool := b.getMsbD k

end Sys2Proof.Machine
end

