-- ==== Sys2Proof/Machine/Notices.lean ====
section
/-! DEFINITION. The notice unit (spec 09): levels, announce states, placing with displacement, raise, resolve, the
departure and withdrawal claims, and the re-announce scan. A claim is taken at once; the scan is only marked as due
(`scanDue`) and runs at the end of the event (R163). -/

namespace Sys2Proof.Machine

/-! ## Notices and announce states by subject -/

/-- The notice held for a subject: there is at most one (R152). -/
def NoticeUnit.held (n : NoticeUnit) (subject : Subject) : Option Notice :=
  n.queue.find? fun x => x.subject == subject

/-- A subject's announce state (R155). -/
def NoticeUnit.announceOf (n : NoticeUnit) : Subject → Announce
  | .circuit p c => (n.announce.circuits.get p).get c
  | .position p => n.announce.positions.get p
  | .feed f => n.announce.feeds.get f

/-- Write a subject's announce state. -/
def NoticeUnit.setAnnounce (n : NoticeUnit) (subject : Subject) (a : Announce) : NoticeUnit :=
  match subject with
  | .circuit p c =>
    { n with announce := { n.announce with circuits := n.announce.circuits.modify p fun t => t.set c a } }
  | .position p => { n with announce := { n.announce with positions := n.announce.positions.set p a } }
  | .feed f => { n with announce := { n.announce with feeds := n.announce.feeds.set f a } }

/-- What a subject is owed when a notice of a kind has no slot (R157, R158, R161). -/
def NoticeKind.owed : NoticeKind → Announce
  | .cleared => .owedClear
  | .circuit k => .owedFault (.circuit k)
  | .position c => .owedFault (.position c)
  | .feed k => .owedFault (.feed k)

/-! ## Slots -/

/-- The lowest-numbered free slot (R152). -/
def NoticeUnit.freeSlot (n : NoticeUnit) : Option (Fin 16) :=
  sixteenIndices.find? fun i => (n.inSlot i).isNone

/-- Put a notice into the list, in rising order of slot. -/
def insertNotice (x : Notice) : List Notice → List Notice
  | [] => [x]
  | y :: ys => if x.slot < y.slot then x :: y :: ys else y :: insertNotice x ys

/-- Empty a slot. -/
def NoticeUnit.removeSlot (n : NoticeUnit) (slot : Fin 16) : NoticeUnit :=
  { n with queue := n.queue.filter fun x => x.slot != slot }

/-- Change the notice in a slot. -/
def NoticeUnit.updSlot (n : NoticeUnit) (slot : Fin 16) (f : Notice → Notice) : NoticeUnit :=
  { n with queue := n.queue.map fun x => if x.slot = slot then f x else x }

/-- A notice's age: the counter less its arrival number, modulo 65536 (R156). -/
def NoticeUnit.age (n : NoticeUnit) (x : Notice) : Nat := (n.counter - x.arrival).toNat

/-- Of two notices, the one to displace first: the lower level, then the latest arrival (R158). -/
def NoticeUnit.displacedBefore (n : NoticeUnit) (x y : Notice) : Bool :=
  decide (x.level < y.level) || (decide (x.level = y.level) && decide (n.age x < n.age y))

/-- The notice that one of a level displaces: PENDING, of a lower level, the lowest, the latest of those (R158). Of two
of equal level and equal age the one in the lower slot: the model's choice (log 36). -/
def NoticeUnit.victim (n : NoticeUnit) (level : Nat) : Option Notice :=
  (n.queue.filter fun x => x.service == .pending && decide (x.level < level)).foldl
    (fun best x =>
      match best with
      | none => some x
      | some b => if n.displacedBefore x b then some x else some b)
    none

/-! ## Levels -/

/-- The severity of a function plus one where it applies, at most 7 (R153). -/
def NoticeUnit.raised (n : NoticeUnit) (f : Fin 8) (plus : Bool) : Nat := min 7 (n.severity.get f + bit plus)

/-- The level of a notice of a subject and kind, from the settings and the circuit's record as they stand (R153). A
circuit fault whose record is gone has no level in the spec; no reachable state asks for one (log 15). -/
def State.level (s : State) (subject : Subject) (kind : NoticeKind) : Nat :=
  match kind with
  | .cleared => 1
  | .position .silent => s.notices.positionLevel
  | .position .mute => s.notices.positionLevel
  | .position .linkFault => s.notices.positionLevel
  | .position .detectMissing => s.notices.detectLevel
  | .position .uncoupled => 2
  | .feed _ =>
    match subject with
    | .feed f => s.notices.raised f true
    | .circuit _ _ => 1
    | .position _ => 1
  | .circuit _ =>
    match subject with
    | .circuit p c =>
      match s.circuit p c with
      | some r => s.notices.raised r.feed r.required
      | none => 1
    | .position _ => 1
    | .feed _ => 1

/-! ## Placing, raising, resolving -/

/-- A new PENDING notice takes a slot: it gets the arrival counter's value, the counter goes on, and its subject is
QUEUED (R156, R157). -/
def NoticeUnit.occupy (n : NoticeUnit) (slot : Fin 16) (subject : Subject) (kind : NoticeKind) (level : Nat) :
    NoticeUnit :=
  let x : Notice :=
    { slot := slot, subject := subject, kind := kind, level := level, service := .pending, arrival := n.counter }
  { n with queue := insertNotice x n.queue, counter := n.counter + 1 }.setAnnounce subject .queued

/-- Place a new notice (R157): in the lowest free slot; else in the slot of the notice it displaces, whose subject is
then owed (R158); else its own subject is owed. -/
def NoticeUnit.place (n : NoticeUnit) (subject : Subject) (kind : NoticeKind) (level : Nat) : NoticeUnit :=
  match n.freeSlot with
  | some slot => n.occupy slot subject kind level
  | none =>
    match n.victim level with
    | some v => ((n.removeSlot v.slot).setAnnounce v.subject v.kind.owed).occupy v.slot subject kind level
    | none => n.setAnnounce subject kind.owed

/-- The mark of an IN_SERVICE notice after a raise-or-update (R160). -/
def markOfRaise (delivered kind : NoticeKind) : Mark := if kind = delivered then .none else .superseded kind

/-- The mark of an IN_SERVICE notice after a resolve (R160). -/
def markOfResolve (delivered : NoticeKind) : Mark := if delivered = .cleared then .none else .resolved

/-- A raise-or-update claim (R157): a PENDING notice takes the kind and its level is worked out again; an IN_SERVICE
one is marked; with no notice held, a new one is placed. -/
def State.raise (s : State) (subject : Subject) (kind : NoticeKind) : State :=
  let level := s.level subject kind
  match s.notices.held subject with
  | some x =>
    match x.service with
    | .pending => s.updNotices fun n => n.updSlot x.slot fun y => { y with kind := kind, level := level }
    | .inService _ =>
      s.updNotices fun n => n.updSlot x.slot fun y => { y with service := .inService (markOfRaise x.kind kind) }
  | none => s.updNotices fun n => n.place subject kind level

/-- A PENDING notice leaves its slot; its subject takes an announce state and the scan is due (R159, R161 to R163). -/
def NoticeUnit.withdrawPending (n : NoticeUnit) (x : Notice) (a : Announce) : NoticeUnit :=
  { (n.removeSlot x.slot).setAnnounce x.subject a with scanDue := true }

/-- A resolve claim (R159). -/
def State.resolve (s : State) (subject : Subject) : State :=
  match s.notices.held subject with
  | some x =>
    match x.service with
    | .pending => if x.kind = .cleared then s else s.updNotices fun n => n.withdrawPending x .none
    | .inService _ =>
      s.updNotices fun n => n.updSlot x.slot fun y => { y with service := .inService (markOfResolve x.kind) }
  | none =>
    match s.notices.announceOf subject with
    | .acked => s.updNotices fun n => (n.setAnnounce subject .owedClear).place subject .cleared 1
    | .owedFault _ => s.updNotices fun n => n.setAnnounce subject .none
    | .owedClear => s
    | .none => s
    | .queued => s

/-- The departure claim for one circuit subject (R161). -/
def State.departCircuit (s : State) (p : Fin 4) (c : Fin 12) : State :=
  match s.notices.held (.circuit p c) with
  | some x =>
    match x.service with
    | .pending => s.updNotices fun n => n.withdrawPending x x.kind.owed
    | .inService _ => s
  | none => s

/-- The departure claims for every circuit subject of a position (R161). -/
def State.departClaims (s : State) (p : Fin 4) : State :=
  twelveIndices.foldl (fun s c => s.departCircuit p c) s

/-- The withdrawal claim for one circuit subject (R162). -/
def State.withdrawCircuit (s : State) (p : Fin 4) (c : Fin 12) : State :=
  match s.notices.held (.circuit p c) with
  | some x =>
    match x.service with
    | .pending => s.updNotices fun n => n.withdrawPending x .none
    | .inService _ => s.updNotices fun n => n.updSlot x.slot fun y => { y with service := .inService .resolved }
  | none => s.updNotices fun n => n.setAnnounce (.circuit p c) .none

/-! ## The re-announce scan -/

/-- The sixty subjects in the order of the scan (R163). -/
def scanOrder : List Subject :=
  eightIndices.map Subject.feed ++ fourIndices.map Subject.position ++
    fourIndices.flatMap fun p => twelveIndices.map fun c => Subject.circuit p c

/-- The scan passes over the circuit subjects of a position that is not ENROLLED or MUTE (R163). -/
def State.scanVisits (s : State) : Subject → Bool
  | .circuit p _ => (s.positions.get p).state.accepted
  | .position _ => true
  | .feed _ => true

/-- The kind that an announce state owes (R155). -/
def Announce.owedKind : Announce → Option NoticeKind
  | .owedFault k => some k
  | .owedClear => some .cleared
  | .none => Option.none
  | .queued => Option.none
  | .acked => Option.none

/-- The scan at one subject: an owed subject takes the lowest free slot (R163). -/
def State.scanSubject (s : State) (subject : Subject) : State :=
  if s.scanVisits subject then
    match s.notices.freeSlot, (s.notices.announceOf subject).owedKind with
    | some slot, some kind => s.updNotices fun n => n.occupy slot subject kind (s.level subject kind)
    | some _, none => s
    | none, _ => s
  else s

/-- The re-announce scan (R163). -/
def State.scan (s : State) : State := scanOrder.foldl State.scanSubject s

/-- Run the scan if the event has made it due. -/
def State.scanIfDue (s : State) : State :=
  if s.notices.scanDue then (s.updNotices fun n => { n with scanDue := false }).scan else s

end Sys2Proof.Machine
end

