-- ==== Sys2Proof/Machine/Attribution.lean ====
section
/-! DEFINITION. The attribution unit (spec 07): coverage, the claims to the circuit records, the notice claim of a
change of condition, evaluation of a loss of feed, passes, and the clearing of a BREAK. -/

namespace Sys2Proof.Machine

/-! ## Conditions -/

/-- The condition covers a position (R124). -/
def FeedCondition.covers : FeedCondition → Fin 4 → Bool
  | .none, _ => false
  | .driverDead, _ => true
  | .driverStuck, _ => true
  | .broken start _, p => decide (start ≤ p)

/-- The notice kind of a condition (R125). -/
def FeedCondition.kind : FeedCondition → Option FeedKind
  | .none => Option.none
  | .driverDead => some .driverDead
  | .driverStuck => some .driverStuck
  | .broken _ _ => some .couplingBreak

/-- The record is fed by a function. -/
def Circuit.isOf (r : Circuit) (f : Fin 8) : Bool := r.feed == f

/-- The records of a function at a position. -/
def State.recordsOf (s : State) (f : Fin 8) (p : Fin 4) : List Circuit := (s.circuits.get p).filter fun r => r.isOf f

/-! ## Claims to the circuit records -/

/-- A shadow claim (R117). -/
def State.shadow (s : State) (p : Fin 4) (c : Fin 12) : State :=
  match s.circuit p c with
  | some r =>
    let s' := s.setCircuit p c { r with verdict := .shadowed, streak := 0 }
    match r.verdict with
    | .shadowed => s
    | .unseen => s'
    | .good => s'
    | .suspect _ => s'
    | .fault _ _ _ => s'.resolve (.circuit p c)
    | .recovering _ _ => s'.resolve (.circuit p c)
  | none => s

/-- The shadow claim for one address if its circuit is of the function. -/
def State.shadowOf (s : State) (f : Fin 8) (p : Fin 4) (c : Fin 12) : State :=
  match s.circuit p c with
  | some r => if r.isOf f then s.shadow p c else s
  | none => s

/-- Shadow claims for every circuit of a function at a set of positions, in order of position and then index. -/
def State.shadowWhere (s : State) (f : Fin 8) (covered : Fin 4 → Bool) : State :=
  (fourIndices.filter covered).foldl (fun s p => twelveIndices.foldl (fun s c => s.shadowOf f p c) s) s

/-- A record after an unshadow claim naming a function (R118). -/
def Circuit.unshadow (r : Circuit) (f : Fin 8) : Circuit :=
  if r.isOf f && r.verdict == .shadowed then { r with verdict := .unseen, streak := 0 } else r

/-- The unshadow claim (R118). -/
def State.unshadow (s : State) (f : Fin 8) : State :=
  { s with circuits := s.circuits.map fun _ rs => rs.map fun r => r.unshadow f }

/-- A hold outcome claim (R116). -/
def State.holdOutcome (s : State) (p : Fin 4) (c : Fin 12) (outcome : Hold) : State :=
  match s.circuit p c with
  | some r =>
    match r.verdict with
    | .fault .feedLoss candidate hold =>
      let s' := s.setCircuit p c { r with verdict := .fault .feedLoss candidate (some outcome) }
      if hold = some .deferred ∧ outcome = .local then s'.raise (.circuit p c) (.circuit .feedLoss) else s'
    | .fault _ _ _ => s
    | .unseen => s
    | .good => s
    | .suspect _ => s
    | .recovering _ _ => s
    | .shadowed => s
  | none => s

/-- Hold outcome claims for the circuits of a function at a position, in index order (R128). -/
def State.holdOutcomes (s : State) (f : Fin 8) (p : Fin 4) (outcome : Hold) : State :=
  twelveIndices.foldl
    (fun s c =>
      match s.circuit p c with
      | some r => if r.isOf f then s.holdOutcome p c outcome else s
      | none => s) s

/-! ## Changes of condition -/

/-- The notice claim of a change of condition (R125). -/
def State.feedClaim (s : State) (f : Fin 8) (before after : FeedCondition) : State :=
  match after.kind with
  | none => s.resolve (.feed f)
  | some k => if before.kind = some k then s else s.raise (.feed f) (.feed k)

/-- F takes a condition other than NONE (R124 to R126, R130): shadow claims at the newly covered positions, then the
notice claim. -/
def State.setCondition (s : State) (f : Fin 8) (after : FeedCondition) : State :=
  let before := s.feeds.get f
  ((s.setFeed f after).shadowWhere f fun p => after.covers p && !before.covers p).feedClaim f before after

/-- F's condition becomes NONE and the unshadow step runs (R127). -/
def State.clearCondition (s : State) (f : Fin 8) : State :=
  ((s.setFeed f .none).unshadow f).resolve (.feed f)

/-! ## Evaluation -/

/-- The verdict shows feed (R128, test 1). -/
def Verdict.showsFeed : Verdict → Bool
  | .good => true
  | .recovering _ _ => true
  | .fault k _ _ => k != .feedLoss
  | .unseen => false
  | .suspect _ => false
  | .shadowed => false

/-- The verdict is FAULT(FEED_LOSS) (R128, test 2). -/
def Verdict.lostFeed : Verdict → Bool
  | .fault k _ _ => k == .feedLoss
  | .unseen => false
  | .good => false
  | .suspect _ => false
  | .recovering _ _ => false
  | .shadowed => false

/-- The verdict is FAULT(FEED_LOSS) held DEFERRED (R131). -/
def Verdict.deferredLoss : Verdict → Bool
  | .fault k _ hold => k == .feedLoss && hold == some .deferred
  | .unseen => false
  | .good => false
  | .suspect _ => false
  | .recovering _ _ => false
  | .shadowed => false

/-- The nearest position below p that holds a record of F; none is the tractor (R129). -/
def State.supplier (s : State) (f : Fin 8) (p : Fin 4) : Option (Fin 4) :=
  fourIndices.reverse.find? fun q => decide (q < p) && !(s.recordsOf f q).isEmpty

/-- The supplier is live (R129). -/
def State.supplierLive (s : State) (f : Fin 8) : Option (Fin 4) → Bool
  | some q => (s.recordsOf f q).any fun r => r.verdict == .good
  | none => (s.drive.functions.get f).sense.condition == .none

/-- The start link of a BREAK behind a supplier (R130), as the index of the position behind that link. -/
def startLink : Option (Fin 4) → Fin 4
  | some q => q + 1
  | none => 0

/-- An evaluation of F at p (R128). -/
def State.evaluate (s : State) (f : Fin 8) (p : Fin 4) : State :=
  if (s.recordsOf f p).any fun r => r.verdict.showsFeed then s.holdOutcomes f p .local
  else if (s.recordsOf f p).all fun r => r.verdict.lostFeed then
    if s.supplierLive f (s.supplier f p) then s.setCondition f (.broken (startLink (s.supplier f p)) p)
    else s.holdOutcomes f p .deferred
  else s.holdOutcomes f p .deferred

/-! ## Passes -/

/-- A pass evaluates a position (R131); `entry` is the position of an entry that started the pass. -/
def State.passVisits (s : State) (f : Fin 8) (entry : Option (Fin 4)) (r : Fin 4) : Bool :=
  (s.positions.get r).state.accepted && !(s.feeds.get f).covers r &&
    ((s.recordsOf f r).any (fun c => c.verdict.deferredLoss) || entry == some r)

/-- A pass for F from a position number (R131), counted from 0; from 4 on it evaluates nothing. -/
def State.pass (s : State) (f : Fin 8) (start : Nat) (entry : Option (Fin 4)) : State :=
  (fourIndices.filter fun r => decide (start ≤ r.val)).foldl
    (fun s r => if s.passVisits f entry r then s.evaluate f r else s) s

/-- Passes for F0 to F7 in turn (R131). -/
def State.passAll (s : State) (start : Nat) : State := eightIndices.foldl (fun s f => s.pass f start none) s

/-! ## Clearing a BREAK -/

/-- Every BREAK that ends at p is cleared, F0 to F7 (R133). -/
def State.clearBreaksEndingAt (s : State) (p : Fin 4) : State :=
  eightIndices.foldl
    (fun s f =>
      match s.feeds.get f with
      | .broken _ stop => if stop = p then s.clearCondition f else s
      | .none => s
      | .driverDead => s
      | .driverStuck => s) s

/-- The attribution unit is told that the circuits of p are gone (R131, R133; log 25). -/
def State.circuitsGone (s : State) (p : Fin 4) : State := (s.clearBreaksEndingAt p).passAll (p.val + 1)

/-- A reading of a SHADOWED circuit (R119, R132). -/
def State.shadowedReading (s : State) (f : Fin 8) (p : Fin 4) (volt : Bool) (expected : DriveClass) : State :=
  match s.feeds.get f with
  | .broken _ stop => if stop ≤ p ∧ volt = true ∧ expected ≠ .undriven then s.clearCondition f else s
  | .none => s
  | .driverDead => s
  | .driverStuck => s

end Sys2Proof.Machine
end

