-- ==== Sys2Proof/Machine/Verdicts.lean ====
section
/-! DEFINITION. The verdict unit (spec 06): classification of a reading, the verdict states, the notice claims and the
report to the attribution unit, and RELEASE. -/

namespace Sys2Proof.Machine

/-! ## Classification -/

/-- The outcome of a reading (R103). -/
inductive Finding where
  | agree
  | quiet
  | disagree (kind : FaultKind)
deriving DecidableEq, Repr

/-- Classification of a reading (R103). -/
def classify (expected : DriveClass) (volt : Bool) (current : CurrentClass) (lowCurrent : Bool) : Finding :=
  match expected, volt, current with
  | .full, false, _ => .disagree .feedLoss
  | .full, true, .none => .disagree .open
  | .full, true, .low => if lowCurrent then .agree else .disagree .degraded
  | .full, true, .nominal => .agree
  | .full, true, .high => .disagree .overload
  | .dim, false, _ => .disagree .feedLoss
  | .dim, true, .none => .disagree .open
  | .dim, true, .low => .agree
  | .dim, true, .nominal => .agree
  | .dim, true, .high => .disagree .overload
  | .undriven, false, _ => .quiet
  | .undriven, true, _ => .disagree .backfeed

/-- The outcome is recovery evidence for a fault kind (R104). -/
def Finding.recovers : Finding → FaultKind → Bool
  | .agree, k => k != .backfeed
  | .quiet, k => k == .backfeed
  | .disagree _, _ => false

/-! ## The verdict states -/

/-- A streak after one more outcome that counts (R100): it stops at 15. -/
def counted (streak : Nat) : Nat := min 15 (streak + 1)

/-- FAULT(k) as confirmation or replacement leaves it (R107, R109, R115). -/
def Circuit.confirmed (r : Circuit) (k : FaultKind) : Circuit :=
  { r with verdict := .fault k none (if k = .feedLoss then some .deferred else none), streak := 0 }

/-- GOOD, with streak 0. -/
def Circuit.cleared (r : Circuit) : Circuit := { r with verdict := .good, streak := 0 }

/-- SUSPECT(k) at a streak, confirmed at the threshold (R105 to R107). -/
def Circuit.suspected (j : Judging) (r : Circuit) (k : FaultKind) (streak : Nat) : Circuit :=
  if j.confirm ≤ streak then r.confirmed k else { r with verdict := .suspect k, streak := streak }

/-- FAULT(k) with candidate j at a streak, the kind replaced at the threshold (R108, R109). -/
def Circuit.withCandidate (j : Judging) (r : Circuit) (k : FaultKind) (hold : Option Hold) (candidate : FaultKind)
    (streak : Nat) : Circuit :=
  if j.confirm ≤ streak then r.confirmed candidate
  else { r with verdict := .fault k (some candidate) hold, streak := streak }

/-- RECOVERING(k) at a streak, GOOD at the clear threshold (R110, R111). -/
def Circuit.recovered (j : Judging) (r : Circuit) (k : FaultKind) (hold : Option Hold) (streak : Nat) : Circuit :=
  if j.clear ≤ streak then r.cleared else { r with verdict := .recovering k hold, streak := streak }

/-- The outcome in UNSEEN or GOOD (R105). -/
def Circuit.judgeHealthy (j : Judging) (r : Circuit) : Finding → Circuit
  | .agree => { r with verdict := .good }
  | .quiet => r
  | .disagree k => r.suspected j k 1

/-- The outcome in SUSPECT(k) (R106). -/
def Circuit.judgeSuspect (j : Judging) (r : Circuit) (k : FaultKind) : Finding → Circuit
  | .agree => r.cleared
  | .quiet => if k = .backfeed then r.cleared else r
  | .disagree k' => if k' = k then r.suspected j k (counted r.streak) else r.suspected j k' 1

/-- The outcome in FAULT(k) (R108, R110, R112). -/
def Circuit.judgeFault (j : Judging) (r : Circuit) (k : FaultKind) (candidate : Option FaultKind) (hold : Option Hold) :
    Finding → Circuit
  | .disagree k' =>
    if k' = k then { r with verdict := .fault k none hold, streak := 0 }
    else r.withCandidate j k hold k' (if candidate = some k' then counted r.streak else 1)
  | .agree => if Finding.agree.recovers k && !j.isLatched k then r.recovered j k hold 1 else r
  | .quiet => if Finding.quiet.recovers k && !j.isLatched k then r.recovered j k hold 1 else r

/-- The outcome in RECOVERING(k) (R111). From RECOVERING(FEED_LOSS) the return to FAULT comes first, and a replacement
at a confirm threshold of 1 follows it (`State.replaceCandidate`). -/
def Circuit.judgeRecovering (j : Judging) (r : Circuit) (k : FaultKind) (hold : Option Hold) : Finding → Circuit
  | .disagree k' =>
    if k' = k then { r with verdict := .fault k none hold, streak := 0 }
    else if k = .feedLoss then { r with verdict := .fault k (some k') hold, streak := 1 }
    else r.withCandidate j k hold k' 1
  | .agree => if Finding.agree.recovers k then r.recovered j k hold (counted r.streak) else r
  | .quiet => if Finding.quiet.recovers k then r.recovered j k hold (counted r.streak) else r

/-- A record after an outcome (R105 to R111). -/
def Circuit.judge (j : Judging) (r : Circuit) (o : Finding) : Circuit :=
  match r.verdict with
  | .unseen => r.judgeHealthy j o
  | .good => r.judgeHealthy j o
  | .suspect k => r.judgeSuspect j k o
  | .fault k candidate hold => r.judgeFault j k candidate hold o
  | .recovering k hold => r.judgeRecovering j k hold o
  | .shadowed => r

/-! ## Claims and reports of a change -/

/-- The fault kind of a record in FAULT or RECOVERING. -/
def Verdict.faultKind : Verdict → Option FaultKind
  | .fault k _ _ => some k
  | .recovering k _ => some k
  | .unseen => none
  | .good => none
  | .suspect _ => none
  | .shadowed => none

/-- The verdict without its candidate and hold: what a report to the attribution unit names (R120). -/
def Verdict.named : Verdict → Verdict
  | .fault k _ _ => .fault k none none
  | .recovering k _ => .recovering k none
  | .unseen => .unseen
  | .good => .good
  | .suspect k => .suspect k
  | .shadowed => .shadowed

/-- The notice claim that a change of verdict sends (6.7, R107, R109, R111, R113, R121). -/
def State.verdictClaim (s : State) (p : Fin 4) (c : Fin 12) (before after : Verdict) : State :=
  match after with
  | .fault k _ _ =>
    if k = .feedLoss ∨ before.faultKind = some k then s else s.raise (.circuit p c) (.circuit k)
  | .good => if before.faultKind.isSome then s.resolve (.circuit p c) else s
  | .unseen => if before.faultKind.isSome then s.resolve (.circuit p c) else s
  | .suspect _ => s
  | .recovering _ _ => s
  | .shadowed => s

/-- A change of a record is written; its notice claim is sent; then the attribution unit is told if the verdict or the
fault kind changed (R102, R120, R131), an arrival in FAULT(FEED_LOSS) being an entry (R115). -/
def State.applyVerdict (s : State) (p : Fin 4) (c : Fin 12) (before after : Circuit) : State :=
  let s := (s.setCircuit p c after).verdictClaim p c before.verdict after.verdict
  if before.verdict.named = after.verdict.named then s
  else s.pass after.feed p.val (if after.verdict.lostFeed then some p else none)

/-- The replacement that follows a return from RECOVERING(FEED_LOSS) with a candidate already at the threshold
(R111), where the evaluation has left the record in FAULT(FEED_LOSS). -/
def State.replaceCandidate (s : State) (p : Fin 4) (c : Fin 12) : State :=
  match s.circuit p c with
  | some r =>
    match r.verdict with
    | .fault .feedLoss (some k) _ => if s.judging.confirm ≤ r.streak then s.applyVerdict p c r (r.confirmed k) else s
    | .fault _ _ _ => s
    | .unseen => s
    | .good => s
    | .suspect _ => s
    | .recovering _ _ => s
    | .shadowed => s
  | none => s

/-- The verdict is RECOVERING(FEED_LOSS) (R111). -/
def Verdict.recoversLoss : Verdict → Bool
  | .recovering k _ => k == .feedLoss
  | .unseen => false
  | .good => false
  | .suspect _ => false
  | .fault _ _ _ => false
  | .shadowed => false

/-- A reading is classified and the outcome applied (R102 step 4). -/
def State.judgeReading (s : State) (p : Fin 4) (c : Fin 12) (r : Circuit) (o : Finding) : State :=
  let s' := s.applyVerdict p c r (r.judge s.judging o)
  if r.verdict.recoversLoss then s'.replaceCandidate p c else s'

/-- A reading with its expected drive is taken (R102, R119, R120). -/
def State.takeReading (s : State) (p : Fin 4) (x : Reading) (expected : DriveClass) : State :=
  match s.circuit p x.circuit with
  | some old =>
    let r := { old with last := some (x.volt, x.current) }
    let s := s.setCircuit p x.circuit r
    if r.verdict = .shadowed then s.shadowedReading r.feed p x.volt expected
    else s.judgeReading p x.circuit r (classify expected x.volt x.current r.lowCurrent)
  | none => s

/-! ## RELEASE -/

/-- The record is a latched fault (R112, R113). -/
def Circuit.isLatched (j : Judging) (r : Circuit) : Bool :=
  match r.verdict with
  | .fault k _ _ => j.isLatched k
  | .unseen => false
  | .good => false
  | .suspect _ => false
  | .recovering _ _ => false
  | .shadowed => false

/-- There is a latched fault at (p, c). -/
def State.latchedAt (s : State) (p : Fin 4) (c : Fin 12) : Bool :=
  match s.circuit p c with
  | some r => r.isLatched s.judging
  | none => false

/-- The latched fault at (p, c), if there is one, is released (R113). -/
def State.releaseAt (s : State) (p : Fin 4) (c : Fin 12) : State :=
  match s.circuit p c with
  | some r =>
    if r.isLatched s.judging then s.applyVerdict p c r { r with verdict := .unseen, streak := 0 } else s
  | none => s

/-- RELEASE(all): every latched fault, in order of position and then index (R113). -/
def State.releaseEvery (s : State) : State :=
  fourIndices.foldl (fun s p => twelveIndices.foldl (fun s c => s.releaseAt p c) s) s

end Sys2Proof.Machine
end

