-- ==== Sys2Proof/Machine/Outbound.lean ====
section
/-! DEFINITION. The outbound queues and the link-error streaks (spec 2.6, 2.7): offering a word, flushing a channel,
counting a transfer. -/

namespace Sys2Proof.Machine

/-- The channel accepts a word (R38). -/
def Channel.accepts (c : Channel) : Bool := c.enabled && decide (c.queue.length < 3)

/-- Queue p accepts a word (R38). -/
def State.accepts (s : State) (p : Fin 4) : Bool := (s.link.channels.get p).accepts

/-- A word is offered to queue p: accepted at the tail, or refused with nothing changed (R38). -/
def State.offer (s : State) (p : Fin 4) (w : LinkWord) : State :=
  if s.accepts p then s.updChannel p fun c => { c with queue := c.queue ++ [w] } else s

/-- A flush of channel p (R40): every word not in flight goes, unreported, and a transfer in progress on p is marked
discarded. -/
def State.flushChannel (s : State) (p : Fin 4) : State :=
  let s' :=
    if s.link.engine.inFlight p then s.updChannel p fun c => { c with queue := c.queue.take 1 }
    else s.updChannel p fun c => { c with queue := [], attempts := 0 }
  if s.link.engine.activeOn p then s'.updLink fun l => { l with discarded := true } else s'

/-- A failed transfer on p counts; the streak that reaches 4 sets LINK_FAULT (R37, R80). -/
def State.countFailure (s : State) (p : Fin 4) : State :=
  let s' := s.updChannel p fun c => { c with streak := min 15 (c.streak + 1) }
  if (s.link.channels.get p).streak = 3 then s'.updPosition p fun r => { r with linkFault := true } else s'

/-- A successful transfer on p counts; a streak of 4 or more clears LINK_FAULT first (R37, R80). -/
def State.countSuccess (s : State) (p : Fin 4) : State :=
  let s' := s.updChannel p fun c => { c with streak := 0 }
  if 4 ≤ (s.link.channels.get p).streak then s'.updPosition p fun r => { r with linkFault := false } else s'

end Sys2Proof.Machine
end

