-- ==== Sys2Proof/Machine/Sampling.lean ====
section
/-! DEFINITION. The sampling unit (spec 05): the pending sample lists, the catch, blurring, deadlines, the mute streak
and matching a report, with the mute and matched-report claims of R76; and the meanings of its two timer events. -/

namespace Sys2Proof.Machine

/-! ## Starting, stopping, flushing -/

/-- Sampling of p starts from a full sample period (R85). -/
def State.startSampling (s : State) (p : Fin 4) : State :=
  s.updSampling p fun m => { m with timer := some (s.sampling.period * Config.msec) }

/-- The list of p is discarded (R96). -/
def State.flushSamples (s : State) (p : Fin 4) : State := s.updSampling p fun m => { m with list := [] }

/-- Sampling of p stops and its list is discarded (R85). -/
def State.stopSampling (s : State) (p : Fin 4) : State := s.updSampling p fun m => { m with list := [], timer := none }

/-! ## Claims to the position unit -/

/-- The mute claim (R76). -/
def State.muteClaim (s : State) (p : Fin 4) : State :=
  if (s.positions.get p).state = .enrolled then s.updPosition p fun r => { r with state := .mute } else s

/-- The matched-report claim (R76). -/
def State.matchedClaim (s : State) (p : Fin 4) : State :=
  if (s.positions.get p).state = .mute then s.updPosition p fun r => { r with state := .enrolled } else s

/-- One sample settled without an answer (R91 to R93). -/
def State.countMissed (s : State) (p : Fin 4) : State :=
  let s' := s.updSampling p fun m => { m with mute := min 7 (m.mute + 1), missed := min 255 (m.missed + 1) }
  if s.sampling.muteCount ≤ (s'.samples.get p).mute then s'.muteClaim p else s'

/-! ## Issuing -/

/-- The tag of a new record: the counter, advanced by one when that tag is in the list (R87). -/
def Sampling.newTag (m : Sampling) : BitVec 4 :=
  if m.list.any fun r => r.tag == m.nextTag then m.nextTag + 1 else m.nextTag

/-- Issue a sample unless the list is full or the queue refuses the word (R86). -/
def State.issueSample (s : State) (p : Fin 4) : State :=
  let m := s.samples.get p
  if m.list.length < 2 ∧ s.accepts p = true then
    (s.updSampling p fun m =>
      { m with list := m.list ++ [{ tag := m.newTag, outstanding := none }], nextTag := m.newTag + 1 }).offer p
      (.sample m.newTag)
  else s

/-! ## The catch, a failed send, blurring -/

/-- The expected drive of every function now (R14, R88). -/
def DriveUnit.snapshot (d : DriveUnit) : Eight DriveClass := d.functions.map fun _ r => r.drive.cls

/-- The functions whose drive age is less than the settle guard (R88). -/
def DriveUnit.unsettled (d : DriveUnit) (guard : Nat) : BitVec 8 :=
  eightIndices.foldl (fun set f => if (d.functions.get f).age < guard then withMember set f else set) 0

/-- The record is QUEUED and bears the tag. -/
def SampleRecord.queuedAs (r : SampleRecord) (tag : BitVec 4) : Bool := r.tag == tag && r.outstanding.isNone

/-- The record is OUTSTANDING and bears the tag. -/
def SampleRecord.outstandingAs (r : SampleRecord) (tag : BitVec 4) : Bool := r.tag == tag && r.outstanding.isSome

/-- The sent report of SAMPLE(tag): the QUEUED record with that tag becomes OUTSTANDING (R88). -/
def State.sampleSent (s : State) (p : Fin 4) (tag : BitVec 4) : State :=
  let second : Outstanding :=
    { snapshot := s.drive.snapshot
      blur := s.drive.unsettled s.sampling.guard
      deadline := s.sampling.timeout * Config.msec }
  s.updSampling p fun m =>
    { m with list := m.list.map fun r => if r.queuedAs tag then { r with outstanding := some second } else r }

/-- The send-failed report of SAMPLE(tag): the QUEUED record with that tag goes (R89). -/
def State.sampleFailed (s : State) (p : Fin 4) (tag : BitVec 4) : State :=
  s.updSampling p fun m => { m with list := m.list.filter fun r => !r.queuedAs tag }

/-- A record after a drive change of a function (R90). -/
def SampleRecord.blurred (r : SampleRecord) (f : Fin 8) : SampleRecord :=
  { r with outstanding := r.outstanding.map fun o => { o with blur := withMember o.blur f } }

/-- A drive-change event names a function to every OUTSTANDING record of every position (R90). -/
def State.blur (s : State) (f : Fin 8) : State :=
  { s with samples := s.samples.map fun _ m => { m with list := m.list.map fun r => r.blurred f } }

/-! ## Matching a report -/

/-- A reading of a matched report is judged, unless R94 sets it aside: no such circuit, or a blurred function. -/
def State.judgeOne (s : State) (p : Fin 4) (o : Outstanding) (x : Reading) : State :=
  match s.circuit p x.circuit with
  | some r => if inSet o.blur r.feed then s else s.takeReading p x (o.snapshot.get r.feed)
  | none => s

/-- The first reading for each circuit of a report; later ones for the same circuit are ignored (R94). -/
def firstReadings : List (Fin 12) → List Reading → List Reading
  | _, [] => []
  | seen, x :: xs =>
    if seen.contains x.circuit then firstReadings seen xs else x :: firstReadings (x.circuit :: seen) xs

/-- The records older than the first OUTSTANDING one with a tag, that one, and the newer ones (R93). -/
def splitAtTag (tag : BitVec 4) : List SampleRecord → Option (List SampleRecord × Outstanding × List SampleRecord)
  | [] => none
  | r :: rs =>
    match r.tag == tag, r.outstanding with
    | true, some o => some ([], o, rs)
    | true, none => (splitAtTag tag rs).map fun found => (r :: found.1, found.2)
    | false, _ => (splitAtTag tag rs).map fun found => (r :: found.1, found.2)

/-- A completed REPORT is settled against the list of p (R93). -/
def State.settleReport (s : State) (p : Fin 4) (tag : BitVec 4) (readings : List Reading) : State :=
  if (s.positions.get p).state.accepted then
    match splitAtTag tag (s.samples.get p).list with
    | some (older, o, newer) =>
      let s := older.foldl (fun s _ => s.countMissed p) (s.updSampling p fun m => { m with list := newer })
      let s := (firstReadings [] readings).foldl (fun s x => s.judgeOne p o x) s
      (s.updSampling p fun m => { m with mute := 0 }).matchedClaim p
    | none => s
  else s

/-- The OUTSTANDING record with a tag reaches its deadline (R91): it alone is removed, also where SET_SAMPLING has made
the deadline of a newer record come first, which R84 speaks against; the model's choice (log 35). -/
def State.missDeadline (s : State) (p : Fin 4) (tag : BitVec 4) : State :=
  if (s.samples.get p).list.any fun r => r.outstandingAs tag then
    (s.updSampling p fun m => { m with list := m.list.filter fun r => !r.outstandingAs tag }).countMissed p
  else s

/-- The sample timer of p runs out: it starts again from a full period, and a sample is issued (R86). -/
def State.sampleTimerRunsOut (s : State) (p : Fin 4) : State :=
  if (s.samples.get p).timer.isSome then (s.startSampling p).issueSample p else s

end Sys2Proof.Machine
end

