-- ==== Sys2Proof/Machine/DriveOps.lean ====
section
/-! DEFINITION. Effective-drive resolution and the drive changes it makes, and the effects of the posted commands of
the function drive unit (spec 1.1 to 1.6). -/

namespace Sys2Proof.Machine

/-! ## Resolution -/

/-- The current step bit of a generator (R4, R8). -/
def Generator.stepBit (g : Generator) : Bool := g.cadence.pattern.getLsbD g.step

/-- An active override input holds the function FULL (R4). -/
def DriveUnit.overridden (d : DriveUnit) (f : Fin 8) : Bool :=
  fourIndices.any fun i => d.filtered.get i && inSet (d.assign.get i) f

/-- The drive that a mode gives (R3, R4). -/
def DriveUnit.driveOfMode (d : DriveUnit) : Mode → Drive
  | .off => .undriven
  | .on => .full
  | .cadence g => if (d.generators.get g).stepBit then .full else .undriven
  | .dim duty => if duty = 16 then .full else .dim duty

/-- The effective drive of a function (R4). -/
def DriveUnit.resolution (d : DriveUnit) (f : Fin 8) : Drive :=
  if d.overridden f then .full else d.driveOfMode (d.functions.get f).mode

/-- The output after a drive change: FULL and UNDRIVEN at once, a duty of DIM from the next period start (R1, R12). -/
def Wave.follow (w : Wave) : Drive → Wave
  | .full => .high
  | .undriven => .low
  | .dim _ => w

/-- A function record that takes a drive by a drive change (R12, R13). -/
def FunctionRecord.changeTo (r : FunctionRecord) (d : Drive) : FunctionRecord :=
  { r with drive := d, age := 0, wave := r.wave.follow d }

/-- A function is resolved again; a different drive is a drive change (R4, R13). -/
def State.resolveFunction (s : State) (f : Fin 8) : State :=
  let d := s.drive.resolution f
  if d = (s.drive.functions.get f).drive then s
  else (s.updFunction f fun r => r.changeTo d).blur f

/-- The functions of a condition are resolved again, F0 first. -/
def State.resolveWhere (s : State) (which : Fin 8 → Bool) : State :=
  (eightIndices.filter which).foldl State.resolveFunction s

/-- The function's mode names the generator (R2). -/
def State.follows (s : State) (f : Fin 8) (g : Fin 4) : Bool := (s.drive.functions.get f).mode == .cadence g

/-- The generator is in use (R2). -/
def State.inUse (s : State) (g : Fin 4) : Bool := eightIndices.any fun f => s.follows f g

/-! ## Effects of the posted commands -/

/-- SET_MODE and SET_DIM: the mode is written and the function resolved again (R2, R3). -/
def State.setFunctionMode (s : State) (f : Fin 8) (m : Mode) : State :=
  (s.updFunction f fun r => { r with mode := m }).resolveFunction f

/-- SET_CADENCE: applied at once to a generator not in use, staged in one that is (R10). -/
def State.setGeneratorCadence (s : State) (g : Fin 4) (c : Cadence) : State :=
  if s.inUse g then s.updGenerator g fun x => { x with staged := some c }
  else s.updGenerator g fun _ => Generator.start c

/-- A generator restarted at step 0, a staged pattern applied (R11; the wrap of R9). -/
def Generator.restart (g : Generator) : Generator := Generator.start (g.staged.getD g.cadence)

/-- RESTART_CADENCES: every named generator restarts, then their functions are resolved again (R11). -/
def State.restartGenerators (s : State) (set : BitVec 4) : State :=
  let named (g : Fin 4) : Bool := set.getLsbD g.val
  ({ s with
      drive :=
        { s.drive with generators := s.drive.generators.map fun g x => if named g then x.restart else x } }
    ).resolveWhere fun f => fourIndices.any fun g => named g && s.follows f g

/-- SET_OVERRIDE: the set is replaced and the union of the old and the new is resolved again (R7). -/
def State.setAssignment (s : State) (i : Fin 4) (set : BitVec 8) : State :=
  ({ s with drive := { s.drive with assign := s.drive.assign.set i set } }).resolveWhere fun f =>
    inSet (s.drive.assign.get i) f || inSet set f

/-- A generator after a step expiry (R9). -/
def Generator.advance (g : Generator) : Generator :=
  if g.step + 1 < g.cadence.length then
    { g with step := g.step + 1, remaining := Config.stepWidth g.cadence.width }
  else g.restart

/-- A step expiry (R9). -/
def State.stepRunsOut (s : State) (g : Fin 4) : State :=
  (s.updGenerator g Generator.advance).resolveWhere fun f => s.follows f g

/-! ## Override inputs and dimming -/

/-- The filtered level of an override input takes the input's level (R5). -/
def State.overrideFilterPasses (s : State) (i : Fin 4) : State :=
  if s.drive.filtered.get i = s.ov.get i then s
  else
    ({ s with
        drive :=
          { s.drive with
            filtered := s.drive.filtered.set i (s.ov.get i)
            filterCount := s.drive.filterCount.set i 0 } }).resolveWhere fun f => inSet (s.drive.assign.get i) f

/-- The raw level of an override input changes, which starts its filter count (R5); while RSTN is asserted only the
level is followed (R6). -/
def State.overrideInput (s : State) (i : Fin 4) (level : Bool) : State :=
  if s.ov.get i = level then s
  else { s with ov := s.ov.set i level, drive := { s.drive with filterCount := s.drive.filterCount.set i 0 } }

/-- A function record at a period start: the duty in force takes effect (R12). -/
def FunctionRecord.periodStart (r : FunctionRecord) : FunctionRecord :=
  match r.drive with
  | .dim duty => { r with wave := .pwm duty }
  | .full => r
  | .undriven => r

/-- A period start of the shared PWM period (R12). -/
def State.pwmPeriodStarts (s : State) : State :=
  { s with
    drive := { s.drive with pwmPhase := 0, functions := s.drive.functions.map fun _ r => r.periodStart } }

end Sys2Proof.Machine
end

