-- ==== Sys2Proof/Machine/Sense.lean ====
section
/-! DEFINITION. The sense checks (spec 1.7): observations, streaks, sense conditions and their claims to the attribution
unit. -/

namespace Sys2Proof.Machine

/-- An observation (R15). -/
inductive Observation where
  | dead
  | stuck
  | agreeFull
  | agreeUndriven
deriving DecidableEq, Repr

/-- The observation of a checked function; a function in DIM gives none (R15). -/
def observe : DriveClass → Bool → Option Observation
  | .full, false => some .dead
  | .full, true => some .agreeFull
  | .undriven, false => some .agreeUndriven
  | .undriven, true => some .stuck
  | .dim, _ => none

/-- The count of a streak of a kind after one more observation of that kind (R16 to R18). -/
def SenseCheck.countOf (c : SenseCheck) (k : StreakKind) : Nat := if c.kind = k then min 15 (c.count + 1) else 1

/-- An observation counted toward a condition, a clearing being a condition of NONE; the streak is cleared when the
threshold is reached (R16, R17). -/
def SenseCheck.toward (c : SenseCheck) (k : StreakKind) (target : SenseCondition) (threshold : Nat) : SenseCheck :=
  if threshold ≤ c.countOf k then { condition := target, kind := .none, count := 0 }
  else { c with kind := k, count := c.countOf k }

/-- The streak cleared (R16, R17). -/
def SenseCheck.streakCleared (c : SenseCheck) : SenseCheck := { c with kind := .none, count := 0 }

/-- A sense-check record after an observation (R16, R17). -/
def SenseCheck.counted (c : SenseCheck) (j : Judging) (o : Observation) : SenseCheck :=
  match c.condition, o with
  | .none, .dead => c.toward .dead .driverDead j.confirm
  | .none, .stuck => c.toward .stuck .driverStuck j.confirm
  | .none, .agreeFull => c.streakCleared
  | .none, .agreeUndriven => c.streakCleared
  | .driverDead, .dead => c.streakCleared
  | .driverDead, .stuck => c.toward .stuck .driverStuck j.confirm
  | .driverDead, .agreeFull => c.toward .agree .none j.clear
  | .driverDead, .agreeUndriven => c
  | .driverStuck, .dead => c.toward .dead .driverDead j.confirm
  | .driverStuck, .stuck => c.streakCleared
  | .driverStuck, .agreeFull => c
  | .driverStuck, .agreeUndriven => c.toward .agree .none j.clear

/-- The sense claim of a change of condition (R19, R126, R127). -/
def State.senseClaim (s : State) (f : Fin 8) (before after : SenseCondition) : State :=
  if before = after then s
  else
    match after with
    | .driverDead => s.setCondition f .driverDead
    | .driverStuck => s.setCondition f .driverStuck
    | .none => s.clearCondition f

/-- The check of one function, skipped in DIM and before the settle guard has passed (R15). -/
def State.senseFunction (s : State) (f : Fin 8) : State :=
  let r := s.drive.functions.get f
  if r.age < s.sampling.guard then s
  else
    match observe r.drive.cls (inSet s.fs f) with
    | some o =>
      let after := r.sense.counted s.judging o
      (s.updFunction f fun x => { x with sense := after }).senseClaim f r.sense.condition after.condition
    | none => s

/-- A sense tick with the levels of FS0 to FS7 (R15): the functions in order (log 13). -/
def State.senseTickWith (s : State) (fs : BitVec 8) : State :=
  eightIndices.foldl State.senseFunction
    { s with fs := fs, drive := { s.drive with senseRemaining := Config.senseInterval } }

end Sys2Proof.Machine
end

