-- ==== Sys2Proof/Machine/Positions.lean ====
section
/-! DEFINITION. The position unit (spec 04): the welcome, detect edges, departure, acceptance, purge, the enroll and hold
timers, the effects of SET_COUPLING and FORGET, and the position claims with which an event ends. -/

namespace Sys2Proof.Machine

/-! ## Conditions and the end of an event -/

/-- The head condition (R81). -/
def Position.head (r : Position) : Option PositionCondition :=
  match r.state with
  | .silent => some .silent
  | .mute => some .mute
  | .vacant | .coupled | .enrolled | .departed =>
    if r.linkFault then some .linkFault
    else if r.detectMissing then some .detectMissing
    else if r.uncoupled then some .uncoupled
    else none

/-- The position claim of p, sent when its head condition differs from the one before the event (R81). -/
def State.positionClaim (s : State) (p : Fin 4) : State :=
  let r := s.positions.get p
  if r.head = r.claimedHead then s
  else
    let s' := s.updPosition p fun r => { r with claimedHead := r.head }
    match r.head with
    | some c => s'.raise (.position p) (.position c)
    | none => s'.resolve (.position p)

/-- The end of an event: the position claims, worked out once for the event (R81), then the re-announce scan if the
event made it due (R163; log 12). -/
def State.settle (s : State) : State := (fourIndices.foldl State.positionClaim s).scanIfDue

/-! ## Timers and words of the position unit -/

/-- The enroll timer of p starts from the enroll timeout. -/
def State.startEnrollTimer (s : State) (p : Fin 4) : State :=
  s.updPosition p fun r => { r with enrollTimer := some r.enrollTimeout }

/-- RECALL is offered to queue p; a refusal is not recorded (R66). -/
def State.offerRecall (s : State) (p : Fin 4) : State := s.offer p .recall

/-- The position goes to a state in which its unit is asked to introduce itself: COUPLED, or SILENT (R66, R68). -/
def State.askToEnroll (s : State) (p : Fin 4) (state : PositionState) : State :=
  ((s.updPosition p fun r => { r with state := state }).startEnrollTimer p).offerRecall p

/-- The position is evaluated from its filtered level (R65, R75, R79, R83). -/
def State.evaluatePosition (s : State) (p : Fin 4) : State :=
  if (s.positions.get p).reads then s.askToEnroll p .coupled
  else s.updPosition p fun r => { r with state := .vacant, enrollTimer := none }

/-! ## Welcome -/

/-- WELCOME is offered: WAITING if the queue accepts it, else OWED with the enroll timer started (R73). -/
def State.offerWelcome (s : State) (p : Fin 4) : State :=
  if s.accepts p then
    (s.offer p (.welcome p)).updPosition p fun r => { r with welcome := .waiting, enrollTimer := none }
  else (s.updPosition p fun r => { r with welcome := .owed }).startEnrollTimer p

/-- The sent report of a WELCOME (R73). -/
def State.welcomeSent (s : State) (p : Fin 4) : State :=
  if (s.positions.get p).state.accepted then
    match (s.positions.get p).welcome with
    | .waiting => (s.updPosition p fun r => { r with welcome := .done, enrollTimer := none }).startSampling p
    | .owed => (s.updPosition p fun r => { r with welcome := .done, enrollTimer := none }).startSampling p
    | .done => s
  else s

/-- The send-failed report of a WELCOME (R73). -/
def State.welcomeFailed (s : State) (p : Fin 4) : State :=
  if (s.positions.get p).state.accepted then
    match (s.positions.get p).welcome with
    | .waiting => (s.updPosition p fun r => { r with welcome := .owed }).startEnrollTimer p
    | .owed => s
    | .done => s
  else s

/-- The report of a word sent to its owner (R39). -/
def State.reportSent (s : State) (p : Fin 4) : LinkWord → State
  | .sample tag => s.sampleSent p tag
  | .welcome _ => s.welcomeSent p
  | .recall => s
  | .reject _ => s

/-- The report of a failed send to its owner (R39). -/
def State.reportFailed (s : State) (p : Fin 4) : LinkWord → State
  | .sample tag => s.sampleFailed p tag
  | .welcome _ => s.welcomeFailed p
  | .recall => s
  | .reject _ => s

/-- The channel enable takes a value: a disable removes every queued word in order as a failed send (R23). -/
def State.setChannelEnable (s : State) (p : Fin 4) (on : Bool) : State :=
  let c := s.link.channels.get p
  if c.enabled = on then s
  else if on then s.updChannel p fun c => { c with enabled := true }
  else
    c.queue.foldl (fun s w => s.reportFailed p w)
      (s.updChannel p fun c => { c with enabled := false, queue := [], attempts := 0 })

/-! ## Circuit records of a position -/

/-- A record at a new enrollment (R77). -/
def CircuitDef.record (d : CircuitDef) (covered : Bool) : Circuit :=
  { feed := d.feed
    required := d.required
    lowCurrent := d.lowCurrent
    verdict := if covered then .shadowed else .unseen
    streak := 0
    last := none }

/-- A record has the wiring of a definition (R69). -/
def CircuitDef.describes (d : CircuitDef) (r : Circuit) : Bool :=
  d.feed == r.feed && d.required == r.required && d.lowCurrent == r.lowCurrent

/-- A purge of p (R78): the records, the count and the serial go; each circuit subject that was held is withdrawn; the
attribution unit is told. -/
def State.purge (s : State) (p : Fin 4) : State :=
  let held := (s.circuits.get p).length
  let s := (s.setCircuits p []).updPosition p fun r => { r with serial := none, count := 0 }
  let s := (twelveIndices.filter fun c => decide (c.val < held)).foldl (fun s c => s.withdrawCircuit p c) s
  s.circuitsGone p

/-- A new enrollment (R70, R77). -/
def State.enroll (s : State) (p : Fin 4) (serial : BitVec 24) (defs : List CircuitDef) : State :=
  (s.setCircuits p (defs.map fun d => d.record ((s.feeds.get d.feed).covers p))).updPosition p fun r =>
    { r with serial := some serial, count := defs.length }

/-- The HELLO has the same identity as the unit held at p (R69). -/
def State.sameIdentity (s : State) (p : Fin 4) (serial : BitVec 24) (defs : List CircuitDef) : Bool :=
  let r := s.positions.get p
  let records := s.circuits.get p
  r.serial == some serial && defs.length == r.count && records.length == defs.length &&
    (defs.zip records).all fun x => x.1.describes x.2

/-- What an acceptance does before its common steps, by the state and the identity (R70 to R72). -/
def State.identify (s : State) (p : Fin 4) (serial : BitVec 24) (defs : List CircuitDef) : State :=
  match (s.positions.get p).state with
  | .vacant | .coupled | .silent => s.enroll p serial defs
  | .enrolled | .mute | .departed =>
    if s.sameIdentity p serial defs then s else (s.purge p).enroll p serial defs

/-- The position record after steps 1 to 3 of an acceptance (R69). -/
def Position.accept (r : Position) : Position :=
  { r with
    state := .enrolled
    enrollTimer := none
    holdTimer := none
    recoupled := false
    uncoupled := false
    detectMissing := !r.reads }

/-- The acceptance of a HELLO at p (R69). -/
def State.acceptHello (s : State) (p : Fin 4) (serial : BitVec 24) (defs : List CircuitDef) : State :=
  let s := ((s.identify p serial defs).updPosition p Position.accept).stopSampling p
  let s := (s.updSampling p fun m => { m with mute := 0, missed := 0 }).offerWelcome p
  (s.passAll p.val).updNotices fun n => { n with scanDue := true }

/-! ## Detect edges and departure -/

/-- A departure from ENROLLED under a receive on p keeps the assembly record that it is about to clear, for a HELLO that
falls together with the edge (R72; log 34). -/
def State.cutReceive (s : State) (p : Fin 4) : State :=
  if s.link.engine = .rxActive p then
    s.updLink fun l =>
      { l with cut := if (s.positions.get p).state = .enrolled then some (s.assembly.get p) else none }
  else s

/-- The departure of p, in ENROLLED or MUTE (R74); at a hold time of 0 it ends in VACANT with a purge (R75). A receive
in progress on p is discarded and the assembly cleared (R74 step 3, R40, R60); the HELLO that such a receive completes at
this very instant is taken nevertheless, as R72 says (`State.takeCutHello`; log 34). The position claim follows at the
end of the event (`State.settle`), so after the purge, which R75 lists after it: the model's choice by R81 (log 12). -/
def State.depart (s : State) (p : Fin 4) : State :=
  let held := s.holdTime != 0
  let s := (((s.cutReceive p).flushChannel p).setAssembly p .idle).stopSampling p
  let s := s.updPosition p fun r =>
    { r with
      state := if held then .departed else .vacant
      recoupled := false
      enrollTimer := none
      welcome := .done
      holdTimer := if held then some (s.holdTime * 1000 * Config.msec) else none
      uncoupled := true }
  let s := (s.departClaims p).clearBreaksEndingAt p
  if held then s else s.purge p

/-- A couple edge (R66). -/
def State.coupleEdge (s : State) (p : Fin 4) : State :=
  let r := s.positions.get p
  match r.state with
  | .vacant => s.askToEnroll p .coupled
  | .coupled => s
  | .silent => s
  | .enrolled => s.updPosition p fun r => { r with detectMissing := false }
  | .mute => s.updPosition p fun r => { r with detectMissing := false }
  | .departed =>
    if r.recoupled then s
    else ((s.updPosition p fun r => { r with recoupled := true }).startEnrollTimer p).offerRecall p

/-- An uncouple edge (R67). -/
def State.uncoupleEdge (s : State) (p : Fin 4) : State :=
  match (s.positions.get p).state with
  | .vacant => s
  | .coupled => s.updPosition p fun r => { r with state := .vacant, enrollTimer := none }
  | .silent => s.updPosition p fun r => { r with state := .vacant, enrollTimer := none }
  | .enrolled => s.depart p
  | .mute => s.depart p
  | .departed =>
    if (s.positions.get p).recoupled then s.updPosition p fun r => { r with recoupled := false, enrollTimer := none }
    else s

/-- An edge is processed: a couple edge or an uncouple edge, its flag cleared (R62). -/
def State.processEdge (s : State) (p : Fin 4) (couple : Bool) : State :=
  if couple then (s.updPosition p fun r => { r with coupleEdge := false }).coupleEdge p
  else (s.updPosition p fun r => { r with uncoupleEdge := false }).uncoupleEdge p

/-- The pending edges of one position on waking (R63). -/
def State.processPending (s : State) (p : Fin 4) : State :=
  let r := s.positions.get p
  match r.coupleEdge, r.uncoupleEdge with
  | false, false => s
  | true, false => s.processEdge p true
  | false, true => s.processEdge p false
  | true, true => (s.processEdge p !r.reads).processEdge p r.reads

/-- The filtered detect level of p changes, which makes a couple or an uncouple edge (R61, R62); the input stands at
the new level (log 23). -/
def State.detectFlips (s : State) (p : Fin 4) : State :=
  let level := !(s.positions.get p).detect
  ({ s with cd := s.cd.set p level }).updPosition p fun r => { r with detect := level, filterCount := 0 }

/-- The pending flag of an edge is set (R62). -/
def Position.flagEdge (r : Position) : Position :=
  if r.reads then { r with coupleEdge := true } else { r with uncoupleEdge := true }

/-! ## Timers -/

/-- The enroll timer of p runs out (R68); where the table has no row for the state the timer only stops (log 31). -/
def State.enrollRunsOut (s : State) (p : Fin 4) : State :=
  let r := s.positions.get p
  if r.enrollTimer.isNone then s
  else
    match r.state with
    | .coupled => s.askToEnroll p .silent
    | .silent => s.askToEnroll p .silent
    | .departed =>
      if r.recoupled then
        ((s.purge p).updPosition p fun r => { r with holdTimer := none, recoupled := false }).askToEnroll p .silent
      else s.updPosition p fun r => { r with enrollTimer := none }
    | .enrolled =>
      if r.welcome = .owed then s.offerWelcome p else s.updPosition p fun r => { r with enrollTimer := none }
    | .mute =>
      if r.welcome = .owed then s.offerWelcome p else s.updPosition p fun r => { r with enrollTimer := none }
    | .vacant => s.updPosition p fun r => { r with enrollTimer := none }

/-- The hold timer of p runs out (R75). -/
def State.holdRunsOut (s : State) (p : Fin 4) : State :=
  let r := s.positions.get p
  if r.holdTimer.isNone || r.state != .departed then s
  else
    ((s.purge p).updPosition p fun r => { r with recoupled := false, holdTimer := none }).evaluatePosition p

/-! ## SET_COUPLING and FORGET -/

/-- The position record with a polarity: a change clears both flags and the filter count and takes the filtered level
from the input (R64). -/
def Position.withPolarity (r : Position) (coupledHigh : Bool) (level : Bool) : Position :=
  if r.coupledHigh = coupledHigh then r
  else
    { r with
      coupledHigh := coupledHigh
      coupleEdge := false
      uncoupleEdge := false
      filterCount := 0
      detect := level }

/-- SET_COUPLING is refused: the polarity would change and the position is not VACANT (R64). -/
def State.couplingRefused (s : State) (p : Fin 4) (coupledHigh : Bool) : Bool :=
  (s.positions.get p).coupledHigh != coupledHigh && (s.positions.get p).state != .vacant

/-- SET_COUPLING is taken (R64). -/
def State.setCouplingOf (s : State) (p : Fin 4) (coupledHigh wakeEnable channelEnable : Bool)
    (enrollTimeout holdTime : Nat) : State :=
  let s := s.updPosition p fun r =>
    { r.withPolarity coupledHigh (s.cd.get p) with wakeEnable := wakeEnable, enrollTimeout := enrollTimeout }
  { s with holdTime := holdTime }.setChannelEnable p channelEnable

/-- The state holds circuit records: ENROLLED, MUTE or DEPARTED (R77). -/
def PositionState.holdsRecords : PositionState → Bool
  | .enrolled => true
  | .mute => true
  | .departed => true
  | .vacant => false
  | .coupled => false
  | .silent => false

/-- FORGET of a position that is not VACANT (R79). -/
def State.forgetPosition (s : State) (p : Fin 4) : State :=
  let holds := (s.positions.get p).state.holdsRecords
  let s := ((s.flushChannel p).setAssembly p .idle).stopSampling p
  let s := if holds then s.purge p else s
  let s := s.updPosition p fun r =>
    { r with
      enrollTimer := none
      holdTimer := none
      recoupled := false
      welcome := .done
      uncoupled := false
      detectMissing := false }
  (s.clearBreaksEndingAt p).evaluatePosition p

end Sys2Proof.Machine
end

