-- ==== Sys2Proof/Machine/Assembling.lean ====
section
/-! DEFINITION. Message assembly (spec 03): the tests on a word in their order, the building of a HELLO and a REPORT, the
hand-off, REJECT, the gap limit and clearing. -/

namespace Sys2Proof.Machine

/-- A REJECT is offered to queue p (R59). -/
def State.offerReject (s : State) (p : Fin 4) (reason : RejectReason) : State := s.offer p (.reject reason)

/-- A starting word or the gap limit ends the assembly in progress: an unfinished HELLO is answered with
REJECT(INCOMPLETE), a REPORT is not answered (R49, R52, R56). -/
def State.breakOff (s : State) (p : Fin 4) : State :=
  match s.assembly.get p with
  | .idle => s
  | .hello _ _ _ _ => (s.setAssembly p .idle).offerReject p .incomplete
  | .report _ _ _ _ _ => s.setAssembly p .idle

/-- A continuation word that does not belong: an orphan in IDLE, a misfit elsewhere (R54). -/
def State.misfit (s : State) (p : Fin 4) : State :=
  match s.assembly.get p with
  | .idle => s
  | .hello _ _ _ _ => (s.setAssembly p .idle).offerReject p .order
  | .report _ _ _ _ _ => s.setAssembly p .idle

/-- The serial of three bytes, low byte first (R50). -/
def serialOf : List Byte → BitVec 24
  | [low, middle, high] => high ++ middle ++ low
  | _ => 0

/-- A HELLO word (R48, R49, R55). -/
def State.takeHelloWord (s : State) (p : Fin 4) (count : Nat) : State :=
  if goodCount count then (s.breakOff p).setAssembly p (.hello count [] [] Config.gapLimit)
  else s.offerReject p .count

/-- A SERIAL word (R48, R50). -/
def State.takeSerialWord (s : State) (p : Fin 4) (value : Byte) : State :=
  match s.assembly.get p with
  | .hello count serial circuits _ =>
    if serial.length < 3 then s.setAssembly p (.hello count (serial ++ [value]) circuits Config.gapLimit)
    else s.misfit p
  | .idle => s.misfit p
  | .report _ _ _ _ _ => s.misfit p

/-- A CIRCUIT word (R48, R51); the last one completes the HELLO, which is handed to the position unit (R57). -/
def State.takeCircuitWord (s : State) (p : Fin 4) (d : CircuitDef) (mustBeZeroSet : Bool) : State :=
  match s.assembly.get p with
  | .hello count serial circuits _ =>
    if serial.length < 3 then s.misfit p
    else if mustBeZeroSet then (s.setAssembly p .idle).offerReject p .circuit
    else if circuits.length + 1 = count then
      (s.setAssembly p .idle).acceptHello p (serialOf serial) (circuits ++ [d])
    else s.setAssembly p (.hello count serial (circuits ++ [d]) Config.gapLimit)
  | .idle => s.misfit p
  | .report _ _ _ _ _ => s.misfit p

/-- The HELLO that a word completes at an assembly record: its serial and its definitions (R51, R57). -/
def Assembly.completedBy (a : Assembly) (w : NodeWord) : Option (BitVec 24 × List CircuitDef) :=
  match a, w with
  | .hello count [low, middle, high] circuits _, .circuit d false =>
    if circuits.length + 1 = count then some (high ++ middle ++ low, circuits ++ [d]) else none
  | _, _ => none

/-- A REPORT word (R48, R52, R55). -/
def State.takeReportWord (s : State) (p : Fin 4) (tag : BitVec 4) (count : Nat) : State :=
  if goodCount count then (s.breakOff p).setAssembly p (.report tag count 0 [] Config.gapLimit) else s

/-- The readings list after a READING word: a must-be-zero bit or an index of 12 to 15 drops the reading (R53). -/
def withReading (readings : List Reading) (index : Nat) (volt : Bool) (current : CurrentClass) (mustBeZeroSet : Bool) :
    List Reading :=
  if h : index < 12 then
    if mustBeZeroSet then readings else readings ++ [{ circuit := ⟨index, h⟩, volt := volt, current := current }]
  else readings

/-- A READING word (R48, R53); the last one completes the REPORT, which is handed to the sampling unit (R58). -/
def State.takeReadingWord (s : State) (p : Fin 4) (index : Nat) (volt : Bool) (current : CurrentClass)
    (mustBeZeroSet : Bool) : State :=
  match s.assembly.get p with
  | .report tag expected taken readings _ =>
    let readings := withReading readings index volt current mustBeZeroSet
    if taken + 1 = expected then (s.setAssembly p .idle).settleReport p tag readings
    else s.setAssembly p (.report tag expected (taken + 1) readings Config.gapLimit)
  | .idle => s.misfit p
  | .hello _ _ _ _ => s.misfit p

/-- The assembly record of p takes a good word (R45, R48). -/
def State.takeWord (s : State) (p : Fin 4) : NodeWord → State
  | .hello count => s.takeHelloWord p count
  | .serial value => s.takeSerialWord p value
  | .circuit d mustBeZeroSet => s.takeCircuitWord p d mustBeZeroSet
  | .report tag count => s.takeReportWord p tag count
  | .reading index volt current mustBeZeroSet => s.takeReadingWord p index volt current mustBeZeroSet
  | .unknown => s

end Sys2Proof.Machine
end

