-- ==== Sys2Proof/Machine/LinkOps.lean ====
section
/-! DEFINITION. The shift engine (spec 2.3 to 2.5): entering its states, the round-robin, the ends of a receive and of a
transmit. -/

namespace Sys2Proof.Machine

/-- The engine enters a state with the time that state lasts; a transfer that begins is not discarded. -/
def State.enter (s : State) (e : Engine) (time : Nat) : State :=
  s.updLink fun l => { l with engine := e, timer := time, discarded := false }

/-- The transfer in progress goes on to its next state (R33, R34). -/
def State.goOn (s : State) (e : Engine) (time : Nat) : State := s.updLink fun l => { l with engine := e, timer := time }

/-- RX_IDLE, where the listen interval begins (R31). -/
def State.enterIdle (s : State) : State := s.enter .rxIdle Config.listenInterval

/-- The channels from the one after the last-served on, in the order of R32. -/
def Link.rotation (l : Link) : List (Fin 4) := [l.lastServed + 1, l.lastServed + 2, l.lastServed + 3, l.lastServed]

/-- The channel that a transmit would serve: the first of the rotation whose queue holds a word (R32). -/
def Link.nextToServe (l : Link) : Option (Fin 4) := l.rotation.find? fun p => !(l.channels.get p).queue.isEmpty

/-- TX_SETUP on a channel, which becomes the last-served (R32, R33). -/
def State.enterSetup (s : State) (p : Fin 4) : State :=
  (s.updLink fun l => { l with lastServed := p }).enter (.txSetup p) Config.inhibitSettle

/-- After a receive: a transmit if any queue holds a word, else RX_IDLE (R30). -/
def State.afterReceive (s : State) : State :=
  match s.link.nextToServe with
  | some p => s.enterSetup p
  | none => s.enterIdle

/-- The received bits are a good word: odd parity and a high stop bit (R24). -/
def goodWord (data : BitVec 12) (parity stop : Bool) : Bool := (ones data + bit parity) % 2 == 1 && stop

/-- A good word at the end of a discarded receive on p: it is not handed on (R40), unless it completes a HELLO together
with the uncouple edge that discarded the receive; whether the two fell together is a free value (R72; log 34). -/
def State.takeCutHello (s : State) (p : Fin 4) (w : NodeWord) : State :=
  match s.link.cut.bind fun a => a.completedBy w with
  | some hello => if Config.helloWithEdge s.freeIndex then s.acceptHello p hello.1 hello.2 else s
  | none => s

/-- The end of a receive on p with the bits taken (R30): the streak, the word if it is good, then the engine moves on. -/
def State.endReceive (s : State) (p : Fin 4) (data : BitVec 12) (parity stop : Bool) : State :=
  if goodWord data parity stop then
    let counted := s.countSuccess p
    (if s.link.discarded then counted.takeCutHello p (NodeWord.decode data)
      else counted.takeWord p (NodeWord.decode data)).afterReceive
  else (s.countFailure p).afterReceive

/-- The word at the head of queue p leaves it; the next has no failed attempt (R35, R36). -/
def State.popHead (s : State) (p : Fin 4) : State := s.updChannel p fun c => { c with queue := c.queue.tail, attempts := 0 }

/-- A transmit on p succeeds (R35): the word leaves, the success counts, the owner is told unless the transfer was
discarded (R40), and the engine is idle. -/
def State.transmitSucceeds (s : State) (p : Fin 4) : State :=
  match (s.link.channels.get p).queue with
  | w :: _ =>
    let s' := (s.popHead p).countSuccess p
    (if s.link.discarded then s' else s'.reportSent p w).enterIdle
  | [] => (s.countSuccess p).enterIdle

/-- A transmit attempt on p fails (R36): the failure counts; a discarded word leaves unreported (R40), a word at its
third failure is dropped and reported, and another stays with its attempt counted. -/
def State.transmitFails (s : State) (p : Fin 4) : State :=
  let c := s.link.channels.get p
  match c.queue with
  | w :: _ =>
    if s.link.discarded then ((s.popHead p).countFailure p).enterIdle
    else if c.attempts + 1 < 3 then
      ((s.updChannel p fun c => { c with attempts := c.attempts + 1 }).countFailure p).enterIdle
    else (((s.popHead p).countFailure p).reportFailed p w).enterIdle
  | [] => (s.countFailure p).enterIdle

end Sys2Proof.Machine
end

