-- ==== Sys2Proof/Machine/Power.lean ====
section
/-! DEFINITION. The power state (spec 10): entering REST, waking, and the two kinds of reset (spec 01 R6 and R21, 02 R43
and R44, 03 R60, 04 R65 and R83, 05 R99, 06 R123, 07 R135, 08 R148 to R151, 09 R172). -/

namespace Sys2Proof.Machine

/-! ## Entering REST and waking -/

/-- A channel at REST entry: its queue is flushed (R40, R41). -/
def Channel.atRest (c : Channel) : Channel := { c with queue := [], attempts := 0, wakeHold := none }

/-- A position at REST entry: a WAITING welcome becomes OWED with the enroll timer started (R82, R174). -/
def Position.atRest (r : Position) : Position :=
  if r.state.accepted && r.welcome == .waiting then
    { r with welcome := .owed, enrollTimer := some r.enrollTimeout }
  else r

/-- The entry to REST (R174): lists, queues and assemblies are emptied and the engine goes to OFF; the frozen timers
keep their times. -/
def State.enterRest (s : State) : State :=
  ({ s with
      power := .rest
      samples := s.samples.map fun _ m => { m with list := [] }
      assembly := Four.all .idle
      positions := s.positions.map fun _ r => r.atRest
      link := { s.link with channels := s.link.channels.map fun _ c => c.atRest } }).enter .off 0

/-- The settle of a channel on waking: 120 µs where a start bit was seen in REST (R42). -/
def wakeHoldOf (seen : BitVec 4) (p : Fin 4) : Option Nat :=
  if seen.getLsbD p.val then some Config.inhibitSettle else none

/-- A wake (R179), with the channels on which a start bit was seen in REST. -/
def State.wake (s : State) (seen : BitVec 4) : State :=
  let s := ({ s with power := .run }).enterIdle
  let s := s.updLink fun l =>
    { l with channels := l.channels.map fun p c => { c with wakeHold := wakeHoldOf seen p } }
  (fourIndices.foldl State.processPending s).settle

/-- The part wakes if it is in REST (R142, R178). -/
def State.wakeIfResting (s : State) : State := if s.power = .rest then s.wake 0 else s

/-- Channel p is open in REST: enabled, with wake enabled for its position (R22). -/
def State.openInRest (s : State) (p : Fin 4) : Bool :=
  (s.link.channels.get p).enabled && (s.positions.get p).wakeEnable

/-- The start bits that can be seen in REST: those on open channels (R41). -/
def State.seenInRest (s : State) (channels : BitVec 4) : BitVec 4 :=
  fourIndices.foldl
    (fun set p => if channels.getLsbD p.val && s.openInRest p then set ||| BitVec.twoPow 4 p.val else set) 0

/-- Start bits while the part is in REST: one on an open channel wakes it (R41, R42, R178). -/
def State.linkWake (s : State) (channels : BitVec 4) : State :=
  if s.power = .rest ∧ s.seenInRest channels ≠ 0 then s.wake (s.seenInRest channels) else s

/-- A detect filter change: in RUN the edge is processed in this event; in REST its flag is set, which wakes the part
where wake is enabled (R61, R62, R178). -/
def State.detectFilterPasses (s : State) (p : Fin 4) : State :=
  let s := s.detectFlips p
  match s.power with
  | .run => (s.processEdge p (s.positions.get p).reads).settle
  | .rest =>
    let s := s.updPosition p Position.flagEdge
    if (s.positions.get p).wakeEnable then s.wake 0 else s

/-! ## Pin reset -/

/-- RSTN is asserted: no block state is held; the input levels go on (log 10), and the waiting commands stay (log 18). -/
def State.assertReset (s : State) : State :=
  { State.blank s.ov s.cd s.fs s.freeIndex s.pending with resetAsserted := true }

/-- Every function resolved without a drive change, at the release of RSTN (R6). -/
def State.resolveAtRelease (s : State) : State :=
  { s with
    drive :=
      { s.drive with
        functions := s.drive.functions.map fun f r =>
          { r with drive := s.drive.resolution f, wave := r.wave.follow (s.drive.resolution f) } } }

/-- RSTN is released with the levels of CD1 to CD4 (R6, R65). -/
def State.releaseReset (s : State) (cd : BitVec 4) : State :=
  fourIndices.foldl State.evaluatePosition
    (State.blank s.ov (Four.ofBits cd) s.fs s.freeIndex s.pending).resolveAtRelease

/-! ## RESTART -/

/-- A channel after RESTART (R44). -/
def Channel.restart (c : Channel) : Channel := { c with queue := [], attempts := 0, streak := 0 }

/-- A position after RESTART, before its evaluation: the settings and the detect filter are kept (R83). -/
def Position.restart (r : Position) : Position :=
  { r with
    state := .vacant
    coupleEdge := false
    uncoupleEdge := false
    serial := none
    count := 0
    recoupled := false
    welcome := .done
    enrollTimer := none
    holdTimer := none
    linkFault := false
    detectMissing := false
    uncoupled := false
    claimedHead := none }

/-- The notice unit after RESTART: the settings are kept (R172). -/
def NoticeUnit.restart (n : NoticeUnit) : NoticeUnit :=
  { n with queue := [], stack := [], announce := Announcements.initial, counter := 0, scanDue := false }

/-- The function drive unit after RESTART: only the sense-check records are cleared (R21). -/
def DriveUnit.restart (d : DriveUnit) : DriveUnit :=
  { d with functions := d.functions.map fun _ r => { r with sense := SenseCheck.cleared } }

/-- The blocks at a RESTART, before the positions are evaluated (R148, R149). -/
def State.cleared (s : State) : State :=
  { s with
    drive := s.drive.restart
    link :=
      { s.link with
        engine := .settle
        timer := Config.inhibitSettle
        discarded := false
        cut := none
        lastServed := 3
        channels := s.link.channels.map fun _ c => c.restart }
    assembly := Four.all .idle
    positions := s.positions.map fun _ r => r.restart
    samples := Four.all Sampling.initial
    circuits := Four.all []
    feeds := Eight.all .none
    notices := s.notices.restart
    port := { s.port with queue := [], error := none } }

/-- The effects of RESTART (R148, R149): every block cleared, then every position evaluated from its level (R83). -/
def State.restartBlocks (s : State) : State := fourIndices.foldl State.evaluatePosition s.cleared

end Sys2Proof.Machine
end

