-- ==== Sys2Proof/Machine/Replies.lean ====
section
/-! DEFINITION. The replies of both ports (spec 11.3 to 11.10): result codes, the codes shared by several records, and
the layout of each record. -/

namespace Sys2Proof.Machine

/-! ## Result codes -/

/-- The result codes (11.3). -/
inductive Result where
  | ok
  | queued
  | draining
  | empty
  | resolved
  | superseded
  | unknownCommand
  | badArgument
  | queueFull
  | stackFull
  | notTop
  | nothingInService
deriving DecidableEq, Repr

/-- The code of a result (11.3). -/
def Result.code : Result → Byte
  | .ok => 0x80
  | .queued => 0x81
  | .draining => 0x82
  | .empty => 0x83
  | .resolved => 0x84
  | .superseded => 0x85
  | .unknownCommand => 0xC0
  | .badArgument => 0xC1
  | .queueFull => 0xC2
  | .stackFull => 0xC3
  | .notTop => 0xC4
  | .nothingInService => 0xC5

/-- A reply: the result byte, then the data bytes (R136). -/
def reply (r : Result) (data : List Byte) : List Byte := r.code :: data

/-- A reply whose data bytes all read 00h (11.3, R182). -/
def zeroReply (r : Result) (count : Nat) : List Byte := reply r (List.replicate count 0)

/-- A remaining time in a unit, rounded up (R182). -/
def inUnits (unit time : Nat) : Nat := (time + unit - 1) / unit

/-- A timer field of two bytes: FFFFh when it is stopped, else its remaining time (R182). A timer that is frozen in REST
reads the time it keeps: by R174 and R82 it stops, by R175 it is frozen with a time left, and R182 names only stopped and
running timers; the model's choice (log 38). -/
def timerField (unit : Nat) (t : Option Nat) : List Byte :=
  match t with
  | some time => lowFirst (inUnits unit time)
  | none => [0xFF, 0xFF]

/-! ## Shared codes (11.4) -/

/-- A fault kind. -/
def FaultKind.code (k : FaultKind) : Nat := k.place + 1

/-- A fault kind that may be absent. -/
def faultCode : Option FaultKind → Nat
  | some k => k.code
  | none => 0

/-- A position condition as a notice kind. -/
def PositionCondition.code : PositionCondition → Nat
  | .silent => 1
  | .mute => 2
  | .linkFault => 3
  | .detectMissing => 4
  | .uncoupled => 5

/-- A feed notice kind. -/
def FeedKind.code : FeedKind → Nat
  | .driverDead => 1
  | .driverStuck => 2
  | .couplingBreak => 3

/-- A notice kind. -/
def NoticeKind.code : NoticeKind → Nat
  | .circuit k => k.code
  | .position c => c.code
  | .feed k => k.code
  | .cleared => 15

/-- The announce byte: the state in bits 2 to 0, the owed kind in bits 7 to 4. -/
def Announce.byte : Announce → Byte
  | .none => 0
  | .queued => 1
  | .acked => 2
  | .owedFault k => Sys2Proof.byte (3 + 16 * k.code)
  | .owedClear => Sys2Proof.byte (4 + 16 * 15)

/-- A sense condition. -/
def SenseCondition.code : SenseCondition → Nat
  | .none => 0
  | .driverDead => 1
  | .driverStuck => 2

/-- An effective or expected drive. -/
def DriveClass.code : DriveClass → Nat
  | .undriven => 0
  | .dim => 1
  | .full => 2

/-- A deferred error kind. -/
def ErrorKind.code : ErrorKind → Nat
  | .badTarget => 1
  | .stateRefused => 2
  | .nothingLatched => 3
  | .restRefused => 4

/-- A subject in two bytes. -/
def Subject.bytes : Subject → List Byte
  | .circuit p c => [1, byte (16 * number p + c.val)]
  | .position p => [2, byte (number p)]
  | .feed f => [3, byte f.val]

/-- The error record in four bytes, all 00h when no error is held. -/
def errorRecord : Option DeferredError → List Byte
  | some e => [byte e.kind.code, e.code, e.sequence, byte (bit e.more)]
  | none => [0, 0, 0, 0]

/-! ## Notices (11.3, 11.5) -/

/-- The mark and the successor kind in byte 6 of the notice record. -/
def Service.bits : Service → Nat
  | .pending => 0
  | .inService .none => 1
  | .inService .resolved => 1 + 2
  | .inService (.superseded k) => 1 + 4 + 16 * k.code

/-- The data of a TAKE or PEEK that delivers a notice. -/
def Notice.delivery (x : Notice) : List Byte :=
  [byte x.slot.val] ++ x.subject.bytes ++ [byte x.kind.code, byte x.level] ++ lowFirst x.arrival.toNat

/-- The notice record of READ_NOTICE. -/
def noticeRecord : Option Notice → List Byte
  | some x =>
    [1] ++ x.subject.bytes ++ [byte x.kind.code, byte x.level, byte x.service.bits] ++ lowFirst x.arrival.toNat
  | none => List.replicate 8 0

/-! ## The read records (11.6 to 11.10) -/

/-- The mode and its operand. -/
def Mode.bytes : Mode → List Byte
  | .off => [0, 0]
  | .on => [1, 0]
  | .cadence g => [2, byte g.val]
  | .dim duty => [3, byte duty]

/-- The four bytes of a function in the drive record. -/
def FunctionRecord.bytes (r : FunctionRecord) : List Byte :=
  r.mode.bytes ++ [byte (r.drive.cls.code + 4 * r.sense.condition.code), byte r.age]

/-- The drive record (11.6). -/
def DriveUnit.record (d : DriveUnit) : List Byte :=
  d.functions.toList.flatMap FunctionRecord.bytes ++ [byte d.filtered.bits] ++ d.assign.toList

/-- The state of a position. -/
def PositionState.code : PositionState → Nat
  | .vacant => 0
  | .coupled => 1
  | .silent => 2
  | .enrolled => 3
  | .mute => 4
  | .departed => 5

/-- The welcome field. -/
def Welcome.code : Welcome → Nat
  | .done => 0
  | .waiting => 1
  | .owed => 2

/-- Eight expected drives, function Fn in bits 2n+1 and 2n. -/
def snapshotBits (t : Eight DriveClass) : Nat :=
  t.a0.code + 4 * t.a1.code + 16 * t.a2.code + 64 * t.a3.code + 256 * t.a4.code + 1024 * t.a5.code +
    4096 * t.a6.code + 16384 * t.a7.code

/-- The five bytes of a sample record; an absent record reads 0 (11.7). -/
def sampleBytes : Option SampleRecord → List Byte
  | some r =>
    match r.outstanding with
    | some o =>
      [byte (r.tag.toNat + 16 + 32)] ++ lowFirst (snapshotBits o.snapshot) ++
        [o.blur, byte (inUnits Config.msec o.deadline)]
    | none => [byte (r.tag.toNat + 32), 0, 0, 0, 0]
  | none => [0, 0, 0, 0, 0]

/-- Byte 2 of the position record (11.7). -/
def positionFlags (r : Position) (c : Channel) : Nat :=
  bit r.coupledHigh + 2 * bit r.wakeEnable + 4 * bit r.reads + 8 * bit r.coupleEdge + 16 * bit r.uncoupleEdge +
    32 * bit r.recoupled + 64 * bit c.enabled + 128 * bit r.serial.isSome

/-- The three bytes of a serial, low byte first; an absent one reads 0. -/
def serialBytes (serial : Option (BitVec 24)) : List Byte :=
  match serial with
  | some v => [v.extractLsb' 0 8, v.extractLsb' 8 8, v.extractLsb' 16 8]
  | none => [0, 0, 0]

/-- The position record (11.7). Its timers are read in REST as `timerField` says (log 38). -/
def State.positionRecord (s : State) (p : Fin 4) : List Byte :=
  let r := s.positions.get p
  let c := s.link.channels.get p
  let m := s.samples.get p
  [byte r.state.code, byte (positionFlags r c)] ++ serialBytes r.serial ++
    [byte r.count, byte (r.welcome.code + 4 * bit r.linkFault + 8 * bit r.detectMissing + 16 * bit r.uncoupled),
      (s.notices.announce.positions.get p).byte, byte (r.enrollTimeout / (250 * Config.msec))] ++
    timerField Config.msec r.enrollTimer ++ timerField (10 * Config.msec) r.holdTimer ++
    [byte s.holdTime, byte c.streak] ++ timerField Config.msec m.timer ++
    [byte m.nextTag.toNat, byte m.mute, byte m.missed, byte m.list.length] ++
    sampleBytes m.list[0]? ++ sampleBytes m.list[1]?

/-- The code of a verdict. -/
def Verdict.code : Verdict → Nat
  | .unseen => 0
  | .good => 1
  | .suspect _ => 2
  | .fault _ _ _ => 3
  | .recovering _ _ => 4
  | .shadowed => 5

/-- The fault kind in bits 2 to 0, the candidate in bits 6 to 4. -/
def Verdict.kinds : Verdict → Nat
  | .suspect k => k.code
  | .fault k candidate _ => k.code + 16 * faultCode candidate
  | .recovering k _ => k.code
  | .unseen => 0
  | .good => 0
  | .shadowed => 0

/-- The code of an attribution hold. -/
def holdCode : Option Hold → Nat
  | none => 0
  | some .local => 1
  | some .deferred => 2

/-- The attribution hold of a verdict. -/
def Verdict.hold : Verdict → Option Hold
  | .fault _ _ h => h
  | .recovering _ h => h
  | .unseen => none
  | .good => none
  | .suspect _ => none
  | .shadowed => none

/-- The code of a current class (11.1, 11.8). -/
def CurrentClass.code : CurrentClass → Nat
  | .none => 0
  | .low => 1
  | .nominal => 2
  | .high => 3

/-- The last reading: present, volt, current class. -/
def lastReadingBits : Option (Bool × CurrentClass) → Nat
  | some (volt, current) => 1 + 2 * bit volt + 4 * current.code
  | none => 0

/-- The circuit record with its announce state; without a record every byte is 0 (11.8, R182). -/
def circuitRecord (record : Option Circuit) (announce : Announce) : List Byte :=
  match record with
  | some r =>
    [1, byte (r.feed.val + 8 * bit r.required + 16 * bit r.lowCurrent), byte r.verdict.code, byte r.verdict.kinds,
      byte (r.streak + 16 * holdCode r.verdict.hold), byte (lastReadingBits r.last), announce.byte]
  | none => List.replicate 7 0

/-- The condition and its bounds in the feed record (11.9). -/
def FeedCondition.bytes : FeedCondition → List Byte
  | .none => [0, 0]
  | .driverDead => [1, 0]
  | .driverStuck => [2, 0]
  | .broken start stop => [3, byte (number start + 16 * number stop)]

/-- The feed record (11.9). -/
def State.feedRecord (s : State) (f : Fin 8) : List Byte :=
  (s.feeds.get f).bytes ++
    [byte (s.drive.functions.get f).sense.condition.code, (s.notices.announce.feeds.get f).byte]

/-- The power state (11.10). -/
def Power.code : Power → Nat
  | .run => 0
  | .rest => 1

/-- The summary record (11.10, R147). -/
def State.summaryRecord (s : State) : List Byte :=
  let n := s.notices
  [byte s.power.code, byte s.port.queue.length, s.port.nextSeq,
    byte (match s.port.error with
      | some e => 1 + 2 * bit e.more
      | none => 0),
    byte (s.sampling.period / 50), byte s.sampling.timeout, byte s.sampling.muteCount, byte s.sampling.guard,
    byte s.judging.confirm, byte s.judging.clear, byte s.judging.latched.toNat] ++
    n.severity.toList.map byte ++
    [byte n.positionLevel, byte n.detectLevel, byte n.mask, byte (bit n.holdAll), byte n.queue.length,
      byte (n.queue.filter fun x => x.service == .pending).length, byte n.stack.length, byte (bit s.datn)]

end Sys2Proof.Machine
end

