-- ==== Sys2Proof/Machine/Queue.lean ====
section
/-! DEFINITION. The lighting queue (spec 8.3, 8.4): waits of the head, execution with the deferred error, posting; and
the transactions of the two ports (spec 8.1). -/

namespace Sys2Proof.Machine

/-! ## The deferred error -/

/-- A posted command is refused at execution (R143). -/
def State.refuse (s : State) (kind : ErrorKind) (e : Posted) : State :=
  s.updPort fun port =>
    { port with
      error :=
        match port.error with
        | some first => some { first with more := true }
        | none => some { kind := kind, code := e.command.code, sequence := e.sequence, more := false } }

/-! ## Levels worked out again -/

/-- The PENDING notice depends on the severity of a function (R154). -/
def State.dependsOnSeverity (s : State) (f : Fin 8) (x : Notice) : Bool :=
  x.kind != .cleared &&
    match x.subject with
    | .circuit p c =>
      match s.circuit p c with
      | some r => r.isOf f
      | none => false
    | .feed g => g == f
    | .position _ => false

/-- The notice depends on the position or detect level (R154). -/
def Notice.dependsOnLevels (x : Notice) : Bool :=
  match x.kind with
  | .position .silent => true
  | .position .mute => true
  | .position .linkFault => true
  | .position .detectMissing => true
  | .position .uncoupled => false
  | .circuit _ => false
  | .feed _ => false
  | .cleared => false

/-- The level of every PENDING notice of a condition is worked out again (R154). -/
def State.relevel (s : State) (which : Notice → Bool) : State :=
  s.updNotices fun n =>
    { n with
      queue := n.queue.map fun x =>
        if x.service == .pending && which x then { x with level := s.level x.subject x.kind } else x }

/-- SET_SEVERITY (R154). -/
def State.setSeverityOf (s : State) (f : Fin 8) (severity : Nat) : State :=
  let s := s.updNotices fun n => { n with severity := n.severity.set f severity }
  s.relevel (s.dependsOnSeverity f)

/-- SET_LEVELS (R154). -/
def State.setLevelsOf (s : State) (positionLevel detectLevel : Nat) : State :=
  (s.updNotices fun n => { n with positionLevel := positionLevel, detectLevel := detectLevel }).relevel
    Notice.dependsOnLevels

/-! ## REST at the head -/

/-- The mode refuses REST: CADENCE, or DIM at any duty (R174). -/
def Mode.refusesRest : Mode → Bool
  | .off => false
  | .on => false
  | .cadence _ => true
  | .dim _ => true

/-- A function's mode refuses REST (R174). -/
def State.restRefused (s : State) : Bool :=
  s.drive.functions.toList.any fun r => r.mode.refusesRest

/-- The lighting transaction at an entry to REST: a transaction other than the one that carried the REST may have ended,
too short (R137) or after its command, and its LCS is then deasserted: a free value (log 8, log 27). -/
def Transaction.atRest (t : Transaction) (sequence : BitVec 8) (stillAsserted : Bool) : Transaction :=
  match t with
  | .idle => .idle
  | .opened => if stillAsserted then .opened else .idle
  | .taken carried => if carried = some sequence ∨ stillAsserted = true then .taken carried else .idle

/-- LCS is asserted for a transaction other than the one that carried the REST (R174). -/
def Transaction.otherAsserted (t : Transaction) (sequence : BitVec 8) : Bool :=
  match t with
  | .idle => false
  | .opened => true
  | .taken carried => carried != some sequence

/-- REST is entered, and left at once where commands stand behind it or LCS is asserted for another transaction (R142,
R174, R178). That no start bit is seen in REST when it is left at once is the model's choice: by R42 one at that instant
may be seen in REST or be an ordinary one after the wake, and START_BIT after it is the second (log 33). -/
def State.restOrPass (s : State) (sequence : BitVec 8) : State :=
  let lcs := s.port.lcs.atRest sequence (Config.lcsStillAsserted s.freeIndex)
  let entered := { s.settle.enterRest with port := { s.port with lcs := lcs }, freeIndex := s.freeIndex + 1 }
  if !s.port.queue.isEmpty || lcs.otherAsserted sequence then entered.wake 0 else entered

/-! ## Execution -/

/-- A SET_COUPLING that disables p was already executing at the instant the start bit of the present receive on p was
taken, so that R27 does not apply to it (R23): no time has passed since that start bit, and whether the two fell
together is a free value (log 37). -/
def State.disableUnderWay (s : State) (p : Fin 4) (channelEnable : Bool) : Bool :=
  !channelEnable && (s.link.channels.get p).enabled && s.link.engine == .rxActive p &&
    s.link.timer == Config.wordLimit && Config.disableUnderWay s.freeIndex

/-- The head is held by a wait (R23, R27, R141). -/
def State.waits (s : State) : PostedCommand → Bool
  | .forget p => s.link.engine.activeOn p
  | .setCoupling p _ _ channelEnable _ _ => s.link.engine.activeOn p && !s.disableUnderWay p channelEnable
  | .rest => s.link.engine != .rxIdle
  | .setMode _ _ => false
  | .setDim _ _ => false
  | .setCadence _ _ => false
  | .restartCadences _ => false
  | .setOverride _ _ => false
  | .setSampling _ => false
  | .setJudging _ => false
  | .setSeverity _ _ => false
  | .setLevels _ _ => false
  | .releaseOne _ _ => false
  | .releaseAll => false

/-- The effect of a posted command at the head, or its refusal (R141, 8.2). -/
def State.execute (s : State) (e : Posted) : State :=
  match e.command with
  | .setMode f m => s.setFunctionMode f m
  | .setDim f duty => s.setFunctionMode f (.dim duty)
  | .setCadence g c => s.setGeneratorCadence g c
  | .restartCadences set => s.restartGenerators set
  | .setOverride i set => s.setAssignment i set
  | .setSampling settings => { s with sampling := settings }
  | .setJudging settings => { s with judging := settings }
  | .setSeverity f severity => s.setSeverityOf f severity
  | .setLevels positionLevel detectLevel => s.setLevelsOf positionLevel detectLevel
  | .setCoupling p coupledHigh wakeEnable channelEnable enrollTimeout holdTime =>
    if s.couplingRefused p coupledHigh then s.refuse .stateRefused e
    else s.setCouplingOf p coupledHigh wakeEnable channelEnable enrollTimeout holdTime
  | .releaseOne p c => if s.latchedAt p c then s.releaseAt p c else s.refuse .nothingLatched e
  | .releaseAll => s.releaseEvery
  | .forget p => if (s.positions.get p).state = .vacant then s.refuse .badTarget e else s.forgetPosition p
  | .rest => if s.restRefused then s.refuse .restRefused e else s.restOrPass e.sequence

/-- The queue runs in RUN until a head waits, for at most a number of commands (R141). -/
def State.runQueue : Nat → State → State
  | 0, s => s
  | n + 1, s =>
    match s.port.queue with
    | e :: rest =>
      if s.power = .run ∧ s.waits e.command = false then
        ((s.updPort fun port => { port with queue := rest }).execute e).runQueue n
      else s
    | [] => s

/-- The queue runs as far as it can, as one event (R141; log 11). -/
def State.drain (s : State) : State := (s.runQueue s.port.queue.length).settle

/-! ## Transactions -/

/-- The reply of a lighting command, which is now taken (R136). -/
def State.answerLighting (s : State) (carried : Option (BitVec 8)) (r : List Byte) : State :=
  s.updPort fun port => { port with lightingReply := r, lcs := .taken carried }

/-- The reply of a display command, which is now taken (R136). -/
def State.answerDisplay (s : State) (r : List Byte) : State :=
  s.updPort fun port => { port with displayReply := r, dcs := .taken none }

/-- LCS is asserted, which wakes the part (R136, R142). -/
def State.assertLcs (s : State) : State := s.wakeIfResting.updPort fun port => { port with lcs := .opened }

/-- A posted command is accepted: it takes the tail of the queue and the next sequence number (R140). -/
def State.accept (s : State) (command : PostedCommand) : State :=
  s.updPort fun port =>
    { port with
      queue := port.queue ++ [{ command := command, sequence := port.nextSeq }]
      nextSeq := port.nextSeq + 1
      lightingReply := reply .queued [port.nextSeq]
      lcs := .taken (some port.nextSeq) }

/-- A posted command is taken, its arguments checked first (R138, R140); an accepted one runs the queue (R141). The
transaction has woken the part (R142; log 9). -/
def State.post (s : State) (command : Option PostedCommand) : State :=
  let s := s.wakeIfResting
  match command with
  | none => s.answerLighting none (zeroReply .badArgument 1)
  | some c => if s.port.queue.length < 4 then (s.accept c).drain else s.answerLighting none (zeroReply .queueFull 1)

/-- A command served on both ports: a lighting transaction wakes the part first (R142, R146). -/
def State.serve (s : State) (port : Port) (answer : State → List Byte) : State :=
  match port with
  | .lighting => s.wakeIfResting.answerLighting none (answer s.wakeIfResting)
  | .display => s.answerDisplay (answer s)

end Sys2Proof.Machine
end

