-- ==== Sys2Proof/Machine/Clock.lean ====
section
/-! DEFINITION. The part's own clock (log 2): the event that is due when no command waits, and one microsecond of time.
Which mechanisms run in REST and which are frozen is the table of R175. -/

namespace Sys2Proof.Machine

/-! ## The event that is due -/

/-- A command for the first index of a table at which a condition holds. -/
def dueAt {n : Nat} (indices : List (Fin n)) (condition : Fin n → Bool) (command : Fin n → Instr) : Option Instr :=
  (indices.find? condition).map command

/-- Due in RUN and in REST: the filters (R5, R61) and the PWM period (R12). -/
def State.dueAlways (s : State) : List (Option Instr) :=
  [dueAt fourIndices (fun i => decide (Config.overrideFilter ≤ s.drive.filterCount.get i)) .overrideFilterChange,
    dueAt fourIndices (fun p => decide (Config.detectFilter ≤ (s.positions.get p).filterCount)) .detectFilterChange,
    if Config.pwmPeriod ≤ s.drive.pwmPhase then some .dimPeriodStart else none]

/-- The lighting queue has a head that does not wait (R141). -/
def State.headReady (s : State) : Bool :=
  match s.port.queue with
  | e :: _ => !s.waits e.command
  | [] => false

/-- The end of the time of the engine's state (2.3); in RX_IDLE a transmit, if a queue holds a word (R31). -/
def State.engineDue (s : State) : Option Instr :=
  if s.link.timer = 0 then
    match s.link.engine with
    | .off => none
    | .rxIdle => if s.link.nextToServe.isSome then some .transmitStart else none
    | .rxActive _ => some .wordTimeout
    | .txSetup _ => some .inhibitSettleEnd
    | .txWait _ => some .txNoClock
    | .txActive _ => some .transmitTimeout
    | .settle => some .settleEnd
  else none

/-- The gap timer of an assembly has run out (R56). -/
def Assembly.gapOver : Assembly → Bool
  | .idle => false
  | .hello _ _ _ gap => gap == 0
  | .report _ _ _ _ gap => gap == 0

/-- The tag of the first OUTSTANDING record whose deadline has come (R91). -/
def Sampling.expired (m : Sampling) : Option (BitVec 4) :=
  m.list.findSome? fun r =>
    match r.outstanding with
    | some o => if o.deadline = 0 then some r.tag else none
    | none => none

/-- Due in RUN only: a ready head, then the link, then the timers (log 5). -/
def State.dueInRun (s : State) : List (Option Instr) :=
  [if s.headReady then some .headExecution else none,
    dueAt fourIndices (fun p => (s.link.channels.get p).wakeHold == some 0) .wakeSettleEnd,
    s.engineDue,
    dueAt fourIndices (fun p => (s.assembly.get p).gapOver) .gapTimerExpiry,
    dueAt fourIndices (fun g => (s.drive.generators.get g).remaining == 0) .stepExpiry,
    if s.drive.senseRemaining = 0 then some (.senseTick (Config.senseLevels s.freeIndex)) else none,
    fourIndices.findSome? fun p => (s.samples.get p).expired.map fun tag => .deadlineExpiry p tag,
    dueAt fourIndices (fun p => (s.samples.get p).timer == some 0) .sampleTimerExpiry,
    dueAt fourIndices (fun p => (s.positions.get p).enrollTimer == some 0) .enrollTimerExpiry,
    dueAt fourIndices (fun p => (s.positions.get p).holdTimer == some 0) .holdTimerExpiry]

/-- The event that is due now, in a fixed order where several are (log 5). -/
def State.due (s : State) : Option Instr :=
  if s.resetAsserted then none
  else
    match s.power with
    | .run => (s.dueAlways ++ s.dueInRun).findSome? id
    | .rest => s.dueAlways.findSome? id

/-! ## One microsecond -/

/-- A running timer after one microsecond. -/
def runTimer (t : Option Nat) : Option Nat := t.map (· - 1)

/-- A drive age at the end of a millisecond of the time base (R1; log 6). -/
def FunctionRecord.older (r : FunctionRecord) : FunctionRecord := { r with age := min 255 (r.age + 1) }

/-- The drive unit after a microsecond, in RUN and in REST (R20): ages, filters, the PWM period. -/
def DriveUnit.passAlways (d : DriveUnit) (ov : Four Bool) : DriveUnit :=
  let whole := d.msPhase + 1 == Config.msec
  { d with
    functions := if whole then d.functions.map fun _ r => r.older else d.functions
    filterCount := d.filterCount.map fun i count => if ov.get i = d.filtered.get i then 0 else count + 1
    pwmPhase := d.pwmPhase + 1
    msPhase := if whole then 0 else d.msPhase + 1 }

/-- The drive unit's counters that run in RUN only (R20). -/
def DriveUnit.passRun (d : DriveUnit) : DriveUnit :=
  { d with
    generators := d.generators.map fun _ g => { g with remaining := g.remaining - 1 }
    senseRemaining := d.senseRemaining - 1 }

/-- The detect filter of a position after a microsecond at a level of its input (R61). -/
def Position.passAlways (r : Position) (level : Bool) : Position :=
  { r with filterCount := if level = r.detect then 0 else r.filterCount + 1 }

/-- The timers of a position that run in RUN only (R82). -/
def Position.passRun (r : Position) : Position :=
  { r with enrollTimer := runTimer r.enrollTimer, holdTimer := runTimer r.holdTimer }

/-- An assembly record after a microsecond (R56). -/
def Assembly.passRun : Assembly → Assembly
  | .idle => .idle
  | .hello count serial circuits gap => .hello count serial circuits (gap - 1)
  | .report tag expected taken readings gap => .report tag expected taken readings (gap - 1)

/-- A sample record after a microsecond (R91). -/
def SampleRecord.passRun (r : SampleRecord) : SampleRecord :=
  { r with outstanding := r.outstanding.map fun o => { o with deadline := o.deadline - 1 } }

/-- The sampling state of a position after a microsecond (R86, R91). -/
def Sampling.passRun (m : Sampling) : Sampling :=
  { m with timer := runTimer m.timer, list := m.list.map SampleRecord.passRun }

/-- The lighting transaction after a microsecond: LCS may have been deasserted, and its assertion is LCS_ASSERT
(R136, R137; log 8). -/
def Transaction.passLighting (t : Transaction) (stillAsserted : Bool) : Transaction := if stillAsserted then t else .idle

/-- The display transaction after a microsecond at a level of DCS, whose assertion opens a transaction and does nothing
else (R136, R178; log 8). -/
def Transaction.passDisplay (t : Transaction) (asserted : Bool) : Transaction :=
  if asserted then (if t = .idle then .opened else t) else .idle

/-- The chip selects at a microsecond that passes (log 8). -/
def State.passPorts (s : State) (freeIndex : Nat) : State :=
  s.updPort fun port =>
    { port with
      lcs := port.lcs.passLighting (Config.lcsStillAsserted freeIndex)
      dcs := port.dcs.passDisplay (Config.dcsAsserted freeIndex) }

/-- The mechanisms that run in RUN and in REST (R175), with the levels of CD1 to CD4 (log 7). An edge before this
microsecond no longer falls together with the end of a receive (R72). -/
def State.passAlways (s : State) (cd : Four Bool) : State :=
  { s with
    cd := cd
    drive := s.drive.passAlways s.ov
    link := { s.link with cut := none }
    positions := s.positions.map fun p r => r.passAlways (cd.get p) }

/-- The mechanisms that run in RUN only (R175). -/
def State.passRun (s : State) : State :=
  { s with
    drive := s.drive.passRun
    link :=
      { s.link with
        timer := s.link.timer - 1
        channels := s.link.channels.map fun _ c => { c with wakeHold := runTimer c.wakeHold } }
    assembly := s.assembly.map fun _ a => a.passRun
    positions := s.positions.map fun _ r => r.passRun
    samples := s.samples.map fun _ m => m.passRun }

/-- One microsecond passes. While RSTN is asserted only the input levels go on (log 10), and the ports ignore their
chip selects (R137). -/
def State.advance (s : State) : State :=
  let i := s.freeIndex
  let cd := Four.ofBits (Config.detectLevels i)
  let s := { s with freeIndex := i + 1 }
  if s.resetAsserted then { s with cd := cd }
  else
    match s.power with
    | .run => ((s.passPorts i).passAlways cd).passRun
    | .rest => (s.passPorts i).passAlways cd

end Sys2Proof.Machine
end

