-- ==== Sys2Proof/Machine/Display.lean ====
section
/-! DEFINITION. The meanings of the display port's own commands (spec 9.5, 9.6); they are served in RUN and in REST
(R177). -/

namespace Sys2Proof.Machine

/-! ## TAKE and PEEK -/

/-- Of two takeable notices, the one that TAKE prefers: the higher level, then the earlier arrival (R167). -/
def NoticeUnit.preferred (n : NoticeUnit) (x y : Notice) : Bool :=
  decide (y.level < x.level) || (decide (x.level = y.level) && decide (n.age y < n.age x))

/-- The notice that TAKE would deliver (R167). Of two of equal level and equal age the one in the lower slot: the model's
choice (log 36). -/
def NoticeUnit.candidate (n : NoticeUnit) : Option Notice :=
  (n.queue.filter n.takeable).foldl
    (fun best x =>
      match best with
      | none => some x
      | some b => if n.preferred x b then some x else some b)
    none

/-- The reply of TAKE and PEEK (R167). -/
def NoticeUnit.takeReply (n : NoticeUnit) : List Byte :=
  if 3 ≤ n.stack.length then zeroReply .stackFull 7
  else
    match n.candidate with
    | some x => reply .ok x.delivery
    | none => zeroReply .empty 7

/-- The notice unit after a TAKE: the notice is IN_SERVICE with no mark and on top of the stack (R167). -/
def NoticeUnit.taken (n : NoticeUnit) : NoticeUnit :=
  if 3 ≤ n.stack.length then n
  else
    match n.candidate with
    | some x =>
      { n.updSlot x.slot fun y => { y with service := .inService .none } with stack := x.slot :: n.stack }
    | none => n

/-- TAKE (R167). -/
def execTake (s : State) : Host.Outcome State Fault Refusal :=
  event s fun s => (s.answerDisplay s.notices.takeReply).updNotices NoticeUnit.taken

/-- PEEK (R167). -/
def execPeek (s : State) : Host.Outcome State Fault Refusal :=
  event s fun s => s.answerDisplay s.notices.takeReply

/-! ## DONE -/

/-- The top notice is finished: popped and removed, its subject in an announce state; the scan is due (R168). -/
def NoticeUnit.finish (n : NoticeUnit) (x : Notice) (a : Announce) : NoticeUnit :=
  { (n.removeSlot x.slot).setAnnounce x.subject a with stack := n.stack.tail, scanDue := true }

/-- The top notice is popped and posted again with its successor kind and a level (R168). -/
def NoticeUnit.repost (n : NoticeUnit) (x : Notice) (kind : NoticeKind) (level : Nat) : NoticeUnit :=
  { n.updSlot x.slot fun y =>
      { y with kind := kind, level := level, service := .pending, arrival := n.counter } with
    stack := n.stack.tail
    counter := n.counter + 1 }

/-- The announce state after an unmarked notice is finished (R168). -/
def NoticeKind.acknowledged : NoticeKind → Announce
  | .cleared => .none
  | .circuit _ => .acked
  | .position _ => .acked
  | .feed _ => .acked

/-- DONE of the top notice: the effect and the reply by its mark (R168). -/
def State.finishTop (s : State) (x : Notice) (mark : Mark) : State :=
  match mark with
  | .none =>
    ((s.updNotices fun n => n.finish x x.kind.acknowledged).answerDisplay (zeroReply .ok 1)).scanIfDue
  | .resolved => ((s.updNotices fun n => n.finish x .none).answerDisplay (zeroReply .resolved 1)).scanIfDue
  | .superseded kind =>
    (s.updNotices fun n => n.repost x kind (s.level x.subject kind)).answerDisplay
      (reply .superseded [byte kind.code])

/-- DONE with a slot in range (R168). -/
def State.done (s : State) (slot : Fin 16) : State :=
  match s.notices.stack with
  | [] => s.answerDisplay (zeroReply .nothingInService 1)
  | top :: _ =>
    if slot = top then
      match s.notices.inSlot slot with
      | some x =>
        match x.service with
        | .inService mark => s.finishTop x mark
        | .pending => s.answerDisplay (zeroReply .notTop 1)
      | none => s.answerDisplay (zeroReply .notTop 1)
    else s.answerDisplay (zeroReply .notTop 1)

/-- DONE (R168). -/
def execDone (slot : Byte) (s : State) : Host.Outcome State Fault Refusal :=
  event s fun s =>
    match indexArg 16 slot with
    | some i => s.done i
    | none => s.answerDisplay (zeroReply .badArgument 1)

/-! ## SET_MASK and READ_NOTICE -/

/-- SET_MASK (R169). -/
def execSetMask (mask holdAll : Byte) (s : State) : Host.Outcome State Fault Refusal :=
  event s fun s =>
    match maskArgs mask holdAll with
    | some (m, h) => (s.updNotices fun n => { n with mask := m, holdAll := h }).answerDisplay (zeroReply .ok 0)
    | none => s.answerDisplay (zeroReply .badArgument 0)

/-- The reply of READ_NOTICE (R171, R182). -/
def State.noticeReply (s : State) (slot : Byte) : List Byte :=
  match indexArg 16 slot with
  | some i => reply .ok (noticeRecord (s.notices.inSlot i))
  | none => zeroReply .badArgument 8

/-- READ_NOTICE (R171). -/
def execReadNotice (slot : Byte) (s : State) : Host.Outcome State Fault Refusal :=
  event s fun s => s.answerDisplay (s.noticeReply slot)

end Sys2Proof.Machine
end

