-- ==== Sys2Proof/Machine/Drive.lean ====
section
/-! DEFINITION. The meanings of the events of the function drive unit: override inputs, cadence steps, PWM periods and
sense ticks (spec 01). -/

namespace Sys2Proof.Machine

/-- OVERRIDE_FILTER_CHANGE (R5, R20): in RUN and in REST. -/
def execOverrideFilterChange (i : Fin 4) (s : State) : Host.Outcome State Fault Refusal :=
  event s fun s => s.overrideFilterPasses i

/-- OVERRIDE_INPUT_CHANGE (R5, R6): the raw level, followed while RSTN is asserted too. -/
def execOverrideInputChange (i : Fin 4) (level : Bool) (s : State) : Host.Outcome State Fault Refusal :=
  .next (s.overrideInput i level)

/-- STEP_EXPIRY (R9): in RUN; the step times are frozen in REST (R20). -/
def execStepExpiry (g : Fin 4) (s : State) : Host.Outcome State Fault Refusal := runEvent s fun s => s.stepRunsOut g

/-- DIM_PERIOD_START (R12, R20): in RUN and in REST. -/
def execDimPeriodStart (s : State) : Host.Outcome State Fault Refusal := event s State.pwmPeriodStarts

/-- SENSE_TICK (R15 to R19): in RUN; the tick interval is frozen in REST. -/
def execSenseTick (fs : BitVec 8) (s : State) : Host.Outcome State Fault Refusal :=
  runEvent s fun s => (s.senseTickWith fs).settle

end Sys2Proof.Machine
end

