-- ==== Sys2Proof/Machine/Lighting.lean ====
section
/-! DEFINITION. The meanings of the lighting port's commands (spec 08): LCS, the posted commands, the execution of a
waiting head, SYNC, RESTART and an unknown code. -/

namespace Sys2Proof.Machine

/-- LCS_ASSERT (R136, R142, R178). -/
def execLcsAssert (s : State) : Host.Outcome State Fault Refusal := event s State.assertLcs

/-- SET_MODE (R2). -/
def execSetMode (function mode generator : Byte) (s : State) : Host.Outcome State Fault Refusal :=
  event s fun s => s.post (setModeArgs function mode generator)

/-- SET_DIM (R3). -/
def execSetDim (function duty : Byte) (s : State) : Host.Outcome State Fault Refusal :=
  event s fun s => s.post (setDimArgs function duty)

/-- SET_CADENCE (R10). -/
def execSetCadence (generator patternLow patternHigh length width : Byte) (s : State) :
    Host.Outcome State Fault Refusal :=
  event s fun s => s.post (setCadenceArgs generator patternLow patternHigh length width)

/-- RESTART_CADENCES (R11). -/
def execRestartCadences (generators : Byte) (s : State) : Host.Outcome State Fault Refusal :=
  event s fun s => s.post (restartCadencesArgs generators)

/-- SET_OVERRIDE (R7). -/
def execSetOverride (input functions : Byte) (s : State) : Host.Outcome State Fault Refusal :=
  event s fun s => s.post (setOverrideArgs input functions)

/-- SET_SAMPLING (R97). -/
def execSetSampling (period timeout muteCount guard : Byte) (s : State) : Host.Outcome State Fault Refusal :=
  event s fun s => s.post (setSamplingArgs period timeout muteCount guard)

/-- SET_JUDGING (R114). -/
def execSetJudging (confirm clear latched : Byte) (s : State) : Host.Outcome State Fault Refusal :=
  event s fun s => s.post (setJudgingArgs confirm clear latched)

/-- SET_SEVERITY (R154). -/
def execSetSeverity (function severity : Byte) (s : State) : Host.Outcome State Fault Refusal :=
  event s fun s => s.post (setSeverityArgs function severity)

/-- SET_LEVELS (R154). -/
def execSetLevels (positionLevel detectLevel : Byte) (s : State) : Host.Outcome State Fault Refusal :=
  event s fun s => s.post (setLevelsArgs positionLevel detectLevel)

/-- SET_COUPLING (R64). -/
def execSetCoupling (position flags enrollTimeout holdTime : Byte) (s : State) : Host.Outcome State Fault Refusal :=
  event s fun s => s.post (setCouplingArgs position flags enrollTimeout holdTime)

/-- RELEASE (R113). -/
def execRelease (position circuit : Byte) (s : State) : Host.Outcome State Fault Refusal :=
  event s fun s => s.post (releaseArgs position circuit)

/-- FORGET (R79). -/
def execForget (position : Byte) (s : State) : Host.Outcome State Fault Refusal :=
  event s fun s => s.post (forgetArgs position)

/-- REST (R142, R174). -/
def execRest (s : State) : Host.Outcome State Fault Refusal := event s fun s => s.post (some .rest)

/-- HEAD_EXECUTION (R141): in RUN; in REST no posted command is executed (R142). -/
def execHeadExecution (s : State) : Host.Outcome State Fault Refusal := runEvent s State.drain

/-- The reply of SYNC (R145). -/
def State.syncReply (s : State) : List Byte :=
  match s.port.queue with
  | e :: rest => reply .draining [byte (rest.length + 1), e.sequence, 0, 0]
  | [] => reply .ok (errorRecord s.port.error)

/-- SYNC's effect: the deferred error is cleared when the queue is empty (R145). -/
def State.sync (s : State) : State :=
  (s.answerLighting none s.syncReply).updPort fun port =>
    { port with error := if s.port.queue.isEmpty then none else port.error }

/-- SYNC (R145). -/
def execSync (s : State) : Host.Outcome State Fault Refusal := event s fun s => s.wakeIfResting.sync

/-- The reply of RESTART (R148): the commands discarded, the error as it stood, the next sequence number. -/
def State.restartReply (s : State) : List Byte :=
  reply .ok ([byte s.port.queue.length] ++ errorRecord s.port.error ++ [s.port.nextSeq])

/-- RESTART (R148, R149). -/
def execRestart (s : State) : Host.Outcome State Fault Refusal :=
  event s fun s => s.wakeIfResting.restartBlocks.answerLighting none s.wakeIfResting.restartReply

/-- UNKNOWN_COMMAND (R138); a code that the port knows is no unknown command (log 16). -/
def execUnknownCommand (port : Port) (code : Byte) (s : State) : Host.Outcome State Fault Refusal :=
  event s fun s => if port.knows code then s else s.serve port fun _ => zeroReply .unknownCommand 0

end Sys2Proof.Machine
end

