-- ==== Sys2Proof/Machine/LinkEvents.lean ====
section
/-! DEFINITION. The meanings of the events of the coupling link and of message assembly (spec 02, spec 03 R56). An event
that the present engine state cannot have changes nothing (log 4). -/

namespace Sys2Proof.Machine

/-- The channel whose start bit is taken: the lowest of those that are open and not held in a settle (R28, R42). -/
def State.startTaken (s : State) (channels : BitVec 4) : Option (Fin 4) :=
  fourIndices.find? fun p =>
    channels.getLsbD p.val && (s.link.channels.get p).enabled && (s.link.channels.get p).wakeHold.isNone

/-- START_BIT (R28). -/
def execStartBit (channels : BitVec 4) (s : State) : Host.Outcome State Fault Refusal :=
  runEvent s fun s =>
    match s.link.engine, s.startTaken channels with
    | .rxIdle, some p => s.enter (.rxActive p) Config.wordLimit
    | .rxIdle, none => s
    | .off, _ => s
    | .rxActive _, _ => s
    | .txSetup _, _ => s
    | .txWait _, _ => s
    | .txActive _, _ => s
    | .settle, _ => s

/-- RECEIVE_END (R24, R30). -/
def execReceiveEnd (data : BitVec 12) (parity stop : Bool) (s : State) : Host.Outcome State Fault Refusal :=
  runEvent s fun s =>
    match s.link.engine with
    | .rxActive p => (s.endReceive p data parity stop).settle
    | .off => s
    | .rxIdle => s
    | .txSetup _ => s
    | .txWait _ => s
    | .txActive _ => s
    | .settle => s

/-- WORD_TIMEOUT (R29, R30). -/
def execWordTimeout (s : State) : Host.Outcome State Fault Refusal :=
  runEvent s fun s =>
    match s.link.engine with
    | .rxActive p => (s.countFailure p).afterReceive.settle
    | .off => s
    | .rxIdle => s
    | .txSetup _ => s
    | .txWait _ => s
    | .txActive _ => s
    | .settle => s

/-- TRANSMIT_START (R31, R32). -/
def execTransmitStart (s : State) : Host.Outcome State Fault Refusal :=
  runEvent s fun s =>
    match s.link.engine, s.link.nextToServe with
    | .rxIdle, some p => s.enterSetup p
    | .rxIdle, none => s
    | .off, _ => s
    | .rxActive _, _ => s
    | .txSetup _, _ => s
    | .txWait _, _ => s
    | .txActive _, _ => s
    | .settle, _ => s

/-- INHIBIT_SETTLE_END (R33): the request-to-send, with 10 ms for the node's first edge. -/
def execInhibitSettleEnd (s : State) : Host.Outcome State Fault Refusal :=
  runEvent s fun s =>
    match s.link.engine with
    | .txSetup p => s.goOn (.txWait p) Config.noClockLimit
    | .off => s
    | .rxIdle => s
    | .rxActive _ => s
    | .txWait _ => s
    | .txActive _ => s
    | .settle => s

/-- FIRST_FALLING_EDGE (R34): edge 1 of the transmit, with 4 ms for edge 16 (R36). -/
def execFirstFallingEdge (s : State) : Host.Outcome State Fault Refusal :=
  runEvent s fun s =>
    match s.link.engine with
    | .txWait p => s.goOn (.txActive p) Config.wordLimit
    | .off => s
    | .rxIdle => s
    | .rxActive _ => s
    | .txSetup _ => s
    | .txActive _ => s
    | .settle => s

/-- TRANSMIT_CATCH (R35). -/
def execTransmitCatch (s : State) : Host.Outcome State Fault Refusal :=
  runEvent s fun s =>
    match s.link.engine with
    | .txActive p => (s.transmitSucceeds p).settle
    | .off => s
    | .rxIdle => s
    | .rxActive _ => s
    | .txSetup _ => s
    | .txWait _ => s
    | .settle => s

/-- TX_NO_CLOCK (R34, R36). -/
def execTxNoClock (s : State) : Host.Outcome State Fault Refusal :=
  runEvent s fun s =>
    match s.link.engine with
    | .txWait p => (s.transmitFails p).settle
    | .off => s
    | .rxIdle => s
    | .rxActive _ => s
    | .txSetup _ => s
    | .txActive _ => s
    | .settle => s

/-- What NO_CATCH and TRANSMIT_TIMEOUT share: the attempt fails in TX_ACTIVE (R36). -/
def State.attemptFails (s : State) : State :=
  match s.link.engine with
  | .txActive p => (s.transmitFails p).settle
  | .off => s
  | .rxIdle => s
  | .rxActive _ => s
  | .txSetup _ => s
  | .txWait _ => s
  | .settle => s

/-- NO_CATCH (R36): edge 16 reads high. -/
def execNoCatch (s : State) : Host.Outcome State Fault Refusal := runEvent s State.attemptFails

/-- TRANSMIT_TIMEOUT (R36): edge 16 is not seen in time, which is treated as no catch. -/
def execTransmitTimeout (s : State) : Host.Outcome State Fault Refusal := runEvent s State.attemptFails

/-- SETTLE_END (R44). -/
def execSettleEnd (s : State) : Host.Outcome State Fault Refusal :=
  runEvent s fun s => if s.link.engine = .settle then s.enterIdle else s

/-- WAKE_SETTLE_END (R42). -/
def execWakeSettleEnd (p : Fin 4) (s : State) : Host.Outcome State Fault Refusal :=
  runEvent s fun s => s.updChannel p fun c => { c with wakeHold := none }

/-- GAP_TIMER_EXPIRY (R56). -/
def execGapTimerExpiry (p : Fin 4) (s : State) : Host.Outcome State Fault Refusal := runEvent s fun s => s.breakOff p

/-- LINK_WAKE_START_BIT (R41, R42, R178). -/
def execLinkWakeStartBit (channels : BitVec 4) (s : State) : Host.Outcome State Fault Refusal :=
  event s fun s => s.linkWake channels

end Sys2Proof.Machine
end

