-- ==== Sys2Proof/Machine/PinReset.lean ====
section
/-! DEFINITION. The meanings of the two events of RSTN (R6, R43, R65). -/

namespace Sys2Proof.Machine

/-- PIN_RESET_ASSERT (R6, R43). -/
def execPinResetAssert (s : State) : Host.Outcome State Fault Refusal := .next s.assertReset

/-- PIN_RESET_RELEASE (R6, R43, R65): it can happen only while RSTN is asserted (log 4). -/
def execPinResetRelease (cd : BitVec 4) (s : State) : Host.Outcome State Fault Refusal :=
  .next (if s.resetAsserted then s.releaseReset cd else s)

end Sys2Proof.Machine
end

