-- ==== Sys2Proof/Machine/Reads.lean ====
section
/-! DEFINITION. The meanings of the read commands of both ports (spec 8.6, 11.6 to 11.10). -/

namespace Sys2Proof.Machine

/-- The reply of READ_POSITION (R146). -/
def State.positionReply (s : State) (position : Byte) : List Byte :=
  match positionArg position with
  | some p => reply .ok (s.positionRecord p)
  | none => zeroReply .badArgument 31

/-- The reply of READ_CIRCUIT (R146). -/
def State.circuitReply (s : State) (position circuit : Byte) : List Byte :=
  match circuitArgs position circuit with
  | some (p, c) => reply .ok (circuitRecord (s.circuit p c) (s.notices.announceOf (.circuit p c)))
  | none => zeroReply .badArgument 7

/-- The reply of READ_FEED (R146). -/
def State.feedReply (s : State) (function : Byte) : List Byte :=
  match indexArg 8 function with
  | some f => reply .ok (s.feedRecord f)
  | none => zeroReply .badArgument 4

/-- READ_DRIVE (R146). -/
def execReadDrive (port : Port) (s : State) : Host.Outcome State Fault Refusal :=
  event s fun s => s.serve port fun s => reply .ok s.drive.record

/-- READ_POSITION (R146). -/
def execReadPosition (port : Port) (position : Byte) (s : State) : Host.Outcome State Fault Refusal :=
  event s fun s => s.serve port fun s => s.positionReply position

/-- READ_CIRCUIT (R146). -/
def execReadCircuit (port : Port) (position circuit : Byte) (s : State) : Host.Outcome State Fault Refusal :=
  event s fun s => s.serve port fun s => s.circuitReply position circuit

/-- READ_FEED (R146). -/
def execReadFeed (port : Port) (function : Byte) (s : State) : Host.Outcome State Fault Refusal :=
  event s fun s => s.serve port fun s => s.feedReply function

/-- READ_SUMMARY (R147). -/
def execReadSummary (port : Port) (s : State) : Host.Outcome State Fault Refusal :=
  event s fun s => s.serve port fun s => reply .ok s.summaryRecord

end Sys2Proof.Machine
end

