-- ==== Sys2Proof/Machine/Roster.lean ====
section
/-! DEFINITION. The meanings of the detect, enroll, hold, sample and deadline events of a position (spec 04, 05). The
timers are frozen in REST (R82, R98), the detect filters are not (R61). -/

namespace Sys2Proof.Machine

/-- DETECT_FILTER_CHANGE (R61, R62). -/
def execDetectFilterChange (p : Fin 4) (s : State) : Host.Outcome State Fault Refusal :=
  event s fun s => s.detectFilterPasses p

/-- ENROLL_TIMER_EXPIRY (R68, R73). -/
def execEnrollTimerExpiry (p : Fin 4) (s : State) : Host.Outcome State Fault Refusal :=
  runEvent s fun s => (s.enrollRunsOut p).settle

/-- HOLD_TIMER_EXPIRY (R75). -/
def execHoldTimerExpiry (p : Fin 4) (s : State) : Host.Outcome State Fault Refusal :=
  runEvent s fun s => (s.holdRunsOut p).settle

/-- SAMPLE_TIMER_EXPIRY (R86, R87). -/
def execSampleTimerExpiry (p : Fin 4) (s : State) : Host.Outcome State Fault Refusal :=
  runEvent s fun s => s.sampleTimerRunsOut p

/-- DEADLINE_EXPIRY (R91). -/
def execDeadlineExpiry (p : Fin 4) (tag : BitVec 4) (s : State) : Host.Outcome State Fault Refusal :=
  runEvent s fun s => (s.missDeadline p tag).settle

end Sys2Proof.Machine
end

