-- ==== Sys2Proof/Machine/Dispatch.lean ====
section
/-! DEFINITION. The meaning of every command: one arm per constructor. -/

namespace Sys2Proof.Machine

/-- The command's effect on everything but the queue of waiting commands. -/
def exec (i : Instr) (s : State) : Host.Outcome State Fault Refusal :=
  match i with
  | .pinResetAssert => Sys2Proof.Machine.execPinResetAssert s
  | .pinResetRelease cd => Sys2Proof.Machine.execPinResetRelease cd s
  | .overrideFilterChange input => Sys2Proof.Machine.execOverrideFilterChange input s
  | .stepExpiry generator => Sys2Proof.Machine.execStepExpiry generator s
  | .dimPeriodStart => Sys2Proof.Machine.execDimPeriodStart s
  | .senseTick fs => Sys2Proof.Machine.execSenseTick fs s
  | .startBit channels => Sys2Proof.Machine.execStartBit channels s
  | .receiveEnd data parity stop => Sys2Proof.Machine.execReceiveEnd data parity stop s
  | .wordTimeout => Sys2Proof.Machine.execWordTimeout s
  | .transmitStart => Sys2Proof.Machine.execTransmitStart s
  | .inhibitSettleEnd => Sys2Proof.Machine.execInhibitSettleEnd s
  | .transmitCatch => Sys2Proof.Machine.execTransmitCatch s
  | .txNoClock => Sys2Proof.Machine.execTxNoClock s
  | .noCatch => Sys2Proof.Machine.execNoCatch s
  | .transmitTimeout => Sys2Proof.Machine.execTransmitTimeout s
  | .settleEnd => Sys2Proof.Machine.execSettleEnd s
  | .wakeSettleEnd channel => Sys2Proof.Machine.execWakeSettleEnd channel s
  | .gapTimerExpiry channel => Sys2Proof.Machine.execGapTimerExpiry channel s
  | .detectFilterChange position => Sys2Proof.Machine.execDetectFilterChange position s
  | .enrollTimerExpiry position => Sys2Proof.Machine.execEnrollTimerExpiry position s
  | .holdTimerExpiry position => Sys2Proof.Machine.execHoldTimerExpiry position s
  | .sampleTimerExpiry position => Sys2Proof.Machine.execSampleTimerExpiry position s
  | .deadlineExpiry position tag => Sys2Proof.Machine.execDeadlineExpiry position tag s
  | .take => Sys2Proof.Machine.execTake s
  | .peek => Sys2Proof.Machine.execPeek s
  | .done slot => Sys2Proof.Machine.execDone slot s
  | .setMask mask holdAll => Sys2Proof.Machine.execSetMask mask holdAll s
  | .readNotice slot => Sys2Proof.Machine.execReadNotice slot s
  | .unknownCommand port code => Sys2Proof.Machine.execUnknownCommand port code s
  | .lcsAssert => Sys2Proof.Machine.execLcsAssert s
  | .linkWakeStartBit channels => Sys2Proof.Machine.execLinkWakeStartBit channels s
  | .setMode function mode generator => Sys2Proof.Machine.execSetMode function mode generator s
  | .setDim function duty => Sys2Proof.Machine.execSetDim function duty s
  | .setCadence generator patternLow patternHigh length width => Sys2Proof.Machine.execSetCadence generator patternLow patternHigh length width s
  | .restartCadences generators => Sys2Proof.Machine.execRestartCadences generators s
  | .setOverride input functions => Sys2Proof.Machine.execSetOverride input functions s
  | .setSampling period timeout muteCount guard => Sys2Proof.Machine.execSetSampling period timeout muteCount guard s
  | .setJudging confirm clear latched => Sys2Proof.Machine.execSetJudging confirm clear latched s
  | .setSeverity function severity => Sys2Proof.Machine.execSetSeverity function severity s
  | .setLevels positionLevel detectLevel => Sys2Proof.Machine.execSetLevels positionLevel detectLevel s
  | .setCoupling position flags enrollTimeout holdTime => Sys2Proof.Machine.execSetCoupling position flags enrollTimeout holdTime s
  | .release position circuit => Sys2Proof.Machine.execRelease position circuit s
  | .forget position => Sys2Proof.Machine.execForget position s
  | .rest => Sys2Proof.Machine.execRest s
  | .headExecution => Sys2Proof.Machine.execHeadExecution s
  | .sync => Sys2Proof.Machine.execSync s
  | .restart => Sys2Proof.Machine.execRestart s
  | .readDrive port => Sys2Proof.Machine.execReadDrive port s
  | .readPosition port position => Sys2Proof.Machine.execReadPosition port position s
  | .readCircuit port position circuit => Sys2Proof.Machine.execReadCircuit port position circuit s
  | .readFeed port function => Sys2Proof.Machine.execReadFeed port function s
  | .readSummary port => Sys2Proof.Machine.execReadSummary port s
  | .firstFallingEdge => Sys2Proof.Machine.execFirstFallingEdge s
  | .overrideInputChange input level => Sys2Proof.Machine.execOverrideInputChange input level s

end Sys2Proof.Machine
end

