-- ==== Sys2Proof/Safety.lean ====
section
/-! DEFINITION. The vocabulary of the statements: conditions on a state, the invariants that every step is to keep, and
the results of commands written without folds. -/

namespace Sys2Proof

open Machine

/-! ## Which commands are posted, and what they post -/

/-- What a posted command with its argument bytes puts into the lighting queue; none where it is refused with
BAD_ARGUMENT (R138, R181). -/
def Instr.posts : Instr → Option PostedCommand
  | .setMode f m g => setModeArgs f m g
  | .setDim f d => setDimArgs f d
  | .setCadence g lo hi n w => setCadenceArgs g lo hi n w
  | .restartCadences set => restartCadencesArgs set
  | .setOverride i set => setOverrideArgs i set
  | .setSampling p t m g => setSamplingArgs p t m g
  | .setJudging a b l => setJudgingArgs a b l
  | .setSeverity f v => setSeverityArgs f v
  | .setLevels p d => setLevelsArgs p d
  | .setCoupling p fl e h => setCouplingArgs p fl e h
  | .release p c => releaseArgs p c
  | .forget p => forgetArgs p
  | .rest => some .rest
  | _ => none

/-- The thirteen posted commands (spec 8.2). -/
def Instr.isPosted : Instr → Bool
  | .setMode _ _ _ | .setDim _ _ | .setCadence _ _ _ _ _ | .restartCadences _ | .setOverride _ _
  | .setSampling _ _ _ _ | .setJudging _ _ _ | .setSeverity _ _ | .setLevels _ _ | .setCoupling _ _ _ _
  | .release _ _ | .forget _ | .rest => true
  | _ => false

/-- The commands that arrive in a lighting transaction (spec 11.2). -/
def Instr.onLighting : Instr → Bool
  | .sync | .restart | .readDrive .lighting | .readPosition .lighting _ | .readCircuit .lighting _ _
  | .readFeed .lighting _ | .readSummary .lighting => true
  | .unknownCommand .lighting code => !Port.lighting.knows code
  | i => i.isPosted

end Sys2Proof

namespace Sys2Proof.Machine

/-! ## Conditions on a state -/

/-- RSTN is released and the part is in RUN. -/
abbrev State.Awake (s : State) : Prop := s.resetAsserted = false ∧ s.power = .run

/-- Nothing of an earlier event is left to send: no re-announce scan is due (R163) and every position's head condition
is the one last claimed (R81). -/
abbrev State.Quiet (s : State) : Prop :=
  s.notices.scanDue = false ∧ ∀ p, (s.positions.get p).claimedHead = (s.positions.get p).head

/-- Outside pin reset every function's drive is the one its inputs resolve to (R4), and its output is high throughout in
FULL and low throughout in UNDRIVEN (R1). -/
abbrev State.DrivesResolved (s : State) : Prop :=
  s.resetAsserted = false → ∀ f,
    let r := s.drive.functions.get f
    r.drive = s.drive.resolution f ∧ (r.drive = .full → r.wave = .high) ∧ (r.drive = .undriven → r.wave = .low)

/-- The collections hold no more than the spec gives them room for (R38, R84, R141). -/
abbrev State.WithinCapacity (s : State) : Prop :=
  s.port.queue.length ≤ 4 ∧
    ∀ p, (s.link.channels.get p).queue.length ≤ 3 ∧ (s.samples.get p).list.length ≤ 2

/-- The sample list of a position: distinct tags, and records or a running timer only where it is ENROLLED or MUTE
(R84). -/
abbrev State.SamplesKept (s : State) : Prop :=
  ∀ p, (s.samples.get p).list.length ≤ 2 ∧ (s.samples.get p).list.Pairwise (fun x y => x.tag ≠ y.tag) ∧
    ((s.samples.get p).list ≠ [] ∨ (s.samples.get p).timer ≠ none → (s.positions.get p).state.accepted = true)

/-- A HELLO assembly has a good count and room for another definition (R47). -/
def Assembly.Bounded : Assembly → Prop
  | .idle => True
  | .hello count serial circuits _ => count ≤ 12 ∧ serial.length ≤ 3 ∧ circuits.length < count
  | .report _ expected taken readings _ => expected ≤ 12 ∧ taken < expected ∧ readings.length ≤ taken

/-- Every assembly record stays within its limits (R47), and one that a departure keeps for this instant does (R72). -/
abbrev State.AssembliesBounded (s : State) : Prop :=
  (∀ p, (s.assembly.get p).Bounded) ∧ ∀ a, s.link.cut = some a → a.Bounded

/-- A circuit's verdict is SHADOWED exactly when its feed function's condition covers its position, and no position
holds more than twelve circuits (R124, R100). -/
abbrev State.ShadowsAgree (s : State) : Prop :=
  s.AssembliesBounded ∧
    ∀ p, (s.circuits.get p).length ≤ 12 ∧
      ∀ r ∈ s.circuits.get p, (r.verdict = .shadowed ↔ (s.feeds.get r.feed).covers p = true)

/-- What holds while the part is parked: the engine is OFF, and no word, sample record or partial message is held and
no function's mode is CADENCE or DIM (R20, R41, R60, R98, R174). -/
def State.Parked (s : State) : Prop :=
  s.restRefused = false ∧
    ∀ p, (s.link.channels.get p).queue = [] ∧ (s.samples.get p).list = [] ∧ s.assembly.get p = .idle

/-- The engine is OFF exactly in REST, and then the part is parked. -/
abbrev State.RestHonest (s : State) : Prop :=
  (s.power = .rest ↔ s.link.engine = .off) ∧ (s.power = .rest → s.Parked)

/-! ## The notice unit -/

/-- The level of the notice in a slot. -/
def NoticeUnit.levelIn (n : NoticeUnit) (slot : Fin 16) : Nat :=
  match n.inSlot slot with
  | some x => x.level
  | none => 0

/-- The notice unit's own order: one notice in a slot and one for a subject (R152), QUEUED exactly for the subjects
that hold a notice (R155), and on the stack exactly the IN_SERVICE notices, at most three, with levels that rise
strictly to the top (R166). -/
def NoticeUnit.Sound (n : NoticeUnit) : Prop :=
  n.queue.Pairwise (fun x y => x.slot < y.slot) ∧
    n.queue.Pairwise (fun x y => x.subject ≠ y.subject) ∧
    (∀ subject, n.announceOf subject = .queued ↔ ∃ x ∈ n.queue, x.subject = subject) ∧
    (∀ x ∈ n.queue, x.slot ∈ n.stack ↔ x.service ≠ .pending) ∧
    (∀ i ∈ n.stack, ∃ x ∈ n.queue, x.slot = i) ∧
    n.stack.Pairwise (fun upper lower => n.levelIn lower < n.levelIn upper) ∧
    n.stack.length ≤ 3

/-- The notice unit of the state is in order. -/
abbrev State.NoticesSound (s : State) : Prop := s.notices.Sound

/-! ## Results of resolutions -/

/-- The functions that a resolution of a condition changes (R4, R13). -/
def DriveUnit.changes (d : DriveUnit) (which : Fin 8 → Bool) (f : Fin 8) : Bool :=
  which f && (d.functions.get f).drive != d.resolution f

/-- The functions of a condition as a set. -/
def setOf (which : Fin 8 → Bool) : BitVec 8 :=
  eightIndices.foldl (fun set f => if which f then withMember set f else set) 0

/-- A record blurred by a set of functions (R90). -/
def SampleRecord.blurredBy (r : SampleRecord) (set : BitVec 8) : SampleRecord :=
  { r with outstanding := r.outstanding.map fun o => { o with blur := o.blur ||| set } }

/-- The state with the functions of a condition resolved: each that changes takes its drive at age 0, and every
OUTSTANDING record of every position is blurred by it; nothing else changes (R4, R13, R90). -/
def State.withResolved (s : State) (which : Fin 8 → Bool) : State :=
  { s with
    drive :=
      { s.drive with
        functions := s.drive.functions.map fun f r =>
          if s.drive.changes which f then r.changeTo (s.drive.resolution f) else r }
    samples := s.samples.map fun _ m =>
      { m with list := m.list.map fun r => r.blurredBy (setOf (s.drive.changes which)) } }

/-! ## A posted command that runs alone -/

/-- The port control after a posted command was accepted and has left the queue again. -/
def PortControl.served (port : PortControl) : PortControl :=
  { port with
    nextSeq := port.nextSeq + 1
    lightingReply := [0x81, port.nextSeq]
    lcs := .taken (some port.nextSeq) }

/-- The lighting queue is empty, so that an accepted command that does not wait runs alone. -/
abbrev State.Ready (s : State) : Prop := s.Awake ∧ s.Quiet ∧ s.port.queue = []

/-- The state with a posted command accepted and gone from the queue, before its effect. -/
def State.served (s : State) : State := { s with port := s.port.served }

/-- The state in which a posted command that runs alone has been refused at its execution: the deferred error takes the
refusal, or More where it is held (R143). -/
def State.servedWithError (s : State) (kind : ErrorKind) (code : Byte) : State :=
  { s with
    port :=
      { s.port.served with
        error :=
          match s.port.error with
          | some first => some { first with more := true }
          | none => some { kind := kind, code := code, sequence := s.port.nextSeq, more := false } } }

/-- The state after the entry to REST (R174). -/
def State.parkedFrom (s : State) : State :=
  { s with
    power := .rest
    samples := s.samples.map fun _ m => { m with list := [] }
    assembly := Four.all .idle
    positions :=
      s.positions.map fun _ r =>
        if r.state.accepted && r.welcome == .waiting then
          { r with welcome := .owed, enrollTimer := some r.enrollTimeout }
        else r
    link :=
      { s.link with
        engine := .off
        timer := 0
        discarded := false
        channels := s.link.channels.map fun _ c => { c with queue := [], attempts := 0, wakeHold := none } }
    freeIndex := s.freeIndex + 1 }

/-- The departure of p, before the claims with which its event ends: the record, the flush of the channel, the assembly
and the samples; the departure claims (R161); the clearing of the BREAKs that end at p (R133); at a hold time of 0 the
purge (R74, R75). -/
def State.departed (s : State) (p : Fin 4) : State :=
  let gone : State :=
    { s with
      positions :=
        s.positions.modify p fun r =>
          { r with
            state := if s.holdTime = 0 then .vacant else .departed
            uncoupleEdge := false
            recoupled := false
            enrollTimer := none
            welcome := .done
            holdTimer := if s.holdTime = 0 then none else some (s.holdTime * 1000000)
            uncoupled := true }
      link :=
        { s.link with
          discarded := s.link.discarded || s.link.engine.activeOn p
          cut :=
            if s.link.engine = .rxActive p then
              (if (s.positions.get p).state = .enrolled then some (s.assembly.get p) else none)
            else s.link.cut
          channels :=
            s.link.channels.modify p fun c =>
              { c with
                queue := if s.link.engine.inFlight p then c.queue.take 1 else []
                attempts := if s.link.engine.inFlight p then c.attempts else 0 } }
      assembly := s.assembly.set p .idle
      samples := s.samples.modify p fun m => { m with list := [], timer := none } }
  let claimed : State :=
    ([0, 1, 2, 3, 4, 5, 6, 7, 8, 9, 10, 11] : List (Fin 12)).foldl (fun u c => u.departCircuit p c) gone
  let cleared : State :=
    ([0, 1, 2, 3, 4, 5, 6, 7] : List (Fin 8)).foldl
      (fun u f =>
        match u.feeds.get f with
        | .broken _ stop => if stop = p then u.clearCondition f else u
        | .none => u
        | .driverDead => u
        | .driverStuck => u)
      claimed
  if s.holdTime = 0 then cleared.purge p else cleared

/-- The reply of a lighting command that posts nothing (R136). -/
def State.repliedLighting (s : State) (reply : List Byte) : State :=
  { s with port := { s.port with lightingReply := reply, lcs := .taken none } }

/-- The reply of a display command (R136). -/
def State.repliedDisplay (s : State) (reply : List Byte) : State :=
  { s with port := { s.port with displayReply := reply, dcs := .taken none } }

end Sys2Proof.Machine
end

