-- ==== Sys2Proof/Certificates/Slice0/Obligations.lean ====
section
/-! DEFINITION. The statements about the model that are to be proved. Positions, channels, generators and override
inputs are indexed from 0: position 1 is index 0. Times are in microseconds. -/

open Sys2Proof Sys2Proof.Machine

/-! ## Steps -/

/-- A step takes the command at the front of the queue of waiting commands and runs it with the queue's rest. -/
def Obligations.StepTakesFrontCommand : Prop :=
  ∀ (c : Instr) (s : State), step { s with pending := c :: s.pending } = exec c s

/-- With no command waiting, a step runs the event that a counter of the part makes due now, or lets one microsecond
pass. The first clause lists the causes; in REST only a filter and the PWM period have one. A microsecond in REST runs
the drive ages, the filters and the PWM period (R20, R175) and no other mechanism; in RUN it also counts every running
timer down by one. The clock in place of a tick row, and the levels of CD1 to CD4, LCS and DCS as free values, are the
model's choice (log 2, log 7, log 8). That every drive age counts one where a millisecond of the time base ends,
whenever its change fell (R1; log 6), and that while RSTN is asserted only the levels of CD1 to CD4 go on (log 10), are
the model's readings. With time an edge no longer falls together with the end of a receive (log 34). -/
def Obligations.StepOnEmptyQueue : Prop :=
  ∀ s : State, s.pending = [] →
    let cause (c : Instr) : Prop :=
      s.resetAsserted = false ∧
        ((∃ i, c = .overrideFilterChange i ∧ 10000 ≤ s.drive.filterCount.get i) ∨
          (∃ p, c = .detectFilterChange p ∧ 20000 ≤ (s.positions.get p).filterCount) ∨
          (c = .dimPeriodStart ∧ 5000 ≤ s.drive.pwmPhase) ∨
          s.power = .run ∧
            ((c = .headExecution ∧ ∃ head rest, s.port.queue = head :: rest ∧ s.waits head.command = false) ∨
              (∃ p, c = .wakeSettleEnd p ∧ (s.link.channels.get p).wakeHold = some 0) ∨
              (s.link.timer = 0 ∧
                ((c = .transmitStart ∧ s.link.engine = .rxIdle ∧ ∃ p, (s.link.channels.get p).queue ≠ []) ∨
                  (∃ p, c = .wordTimeout ∧ s.link.engine = .rxActive p) ∨
                  (∃ p, c = .inhibitSettleEnd ∧ s.link.engine = .txSetup p) ∨
                  (∃ p, c = .txNoClock ∧ s.link.engine = .txWait p) ∨
                  (∃ p, c = .transmitTimeout ∧ s.link.engine = .txActive p) ∨
                  (c = .settleEnd ∧ s.link.engine = .settle))) ∨
              (∃ p, c = .gapTimerExpiry p ∧
                ((∃ count serial circuits, s.assembly.get p = .hello count serial circuits 0) ∨
                  ∃ tag expected taken readings, s.assembly.get p = .report tag expected taken readings 0)) ∨
              (∃ g, c = .stepExpiry g ∧ (s.drive.generators.get g).remaining = 0) ∨
              (∃ fs, c = .senseTick fs ∧ s.drive.senseRemaining = 0) ∨
              (∃ p, ∃ r ∈ (s.samples.get p).list,
                c = .deadlineExpiry p r.tag ∧ ∃ o, r.outstanding = some o ∧ o.deadline = 0) ∨
              (∃ p, c = .sampleTimerExpiry p ∧ (s.samples.get p).timer = some 0) ∨
              (∃ p, c = .enrollTimerExpiry p ∧ (s.positions.get p).enrollTimer = some 0) ∨
              (∃ p, c = .holdTimerExpiry p ∧ (s.positions.get p).holdTimer = some 0)))
    (∀ c, s.due = some c → cause c ∧ step s = exec c { s with freeIndex := s.freeIndex + 1 }) ∧
    (s.due = none →
      let cd := Four.ofBits (Config.detectLevels s.freeIndex)
      let passed : State :=
        { s with
          freeIndex := s.freeIndex + 1
          cd := cd
          port :=
            { s.port with
              lcs := if Config.lcsStillAsserted s.freeIndex then s.port.lcs else .idle
              dcs :=
                if Config.dcsAsserted s.freeIndex then (if s.port.dcs = .idle then .opened else s.port.dcs) else .idle }
          link := { s.link with cut := none }
          drive :=
            { s.drive with
              functions :=
                if s.drive.msPhase + 1 = 1000 then s.drive.functions.map fun _ r => { r with age := min 255 (r.age + 1) }
                else s.drive.functions
              filterCount :=
                s.drive.filterCount.map fun i count => if s.ov.get i = s.drive.filtered.get i then 0 else count + 1
              pwmPhase := s.drive.pwmPhase + 1
              msPhase := if s.drive.msPhase + 1 = 1000 then 0 else s.drive.msPhase + 1 }
          positions :=
            s.positions.map fun p r => { r with filterCount := if cd.get p = r.detect then 0 else r.filterCount + 1 } }
      (∀ c, ¬ cause c) ∧
      (s.resetAsserted = true → step s = .next { s with freeIndex := s.freeIndex + 1, cd := cd }) ∧
      (s.resetAsserted = false → s.power = .rest → step s = .next passed) ∧
      (s.resetAsserted = false → s.power = .run →
        step s =
          .next
            { passed with
              drive :=
                { passed.drive with
                  generators := s.drive.generators.map fun _ g => { g with remaining := g.remaining - 1 }
                  senseRemaining := s.drive.senseRemaining - 1 }
              link :=
                { s.link with
                  timer := s.link.timer - 1
                  cut := none
                  channels := s.link.channels.map fun _ c => { c with wakeHold := c.wakeHold.map (· - 1) } }
              assembly :=
                s.assembly.map fun _ a =>
                  match a with
                  | .idle => .idle
                  | .hello count serial circuits gap => .hello count serial circuits (gap - 1)
                  | .report tag expected taken readings gap => .report tag expected taken readings (gap - 1)
              positions :=
                passed.positions.map fun _ r =>
                  { r with enrollTimer := r.enrollTimer.map (· - 1), holdTimer := r.holdTimer.map (· - 1) }
              samples :=
                s.samples.map fun _ m =>
                  { m with
                    timer := m.timer.map (· - 1)
                    list :=
                      m.list.map fun r =>
                        { r with outstanding := r.outstanding.map fun o => { o with deadline := o.deadline - 1 } } } }))

/-- Every command answers with a next state, in every state, and leaves the queue of waiting commands alone; so every
step answers with a next state. No fault and no refusal: the model's choice (log 4). -/
def Obligations.EveryCommandAnswersNext : Prop :=
  (∀ (c : Instr) (s : State), ∃ t, exec c s = .next t ∧ t.pending = s.pending) ∧ ∀ s : State, ∃ t, step s = .next t

/-! ## Pin reset -/

/-- Asserting RSTN leaves nothing of the state but the input levels, the model's own counter and the waiting commands
(log 10, log 18). While it is asserted F0 follows OV0 and F1 to F7 are low, every clock line is held low and every data
line released, LATN and DATN are released, and no command changes anything but the release, another assertion and a
change of an override input's level. -/
def Obligations.PinResetAssert : Prop :=
  (∀ s : State, exec .pinResetAssert s =
    .next { State.blank s.ov s.cd s.fs s.freeIndex s.pending with resetAsserted := true }) ∧
  ∀ s : State, s.resetAsserted = true →
    (∀ f, s.functionOutput f = if f = 0 then s.ov.get 0 else false) ∧
      (∀ p, s.clockHeldLow p = true) ∧ (∀ p k, s.dataHeldLow p k = false) ∧ s.latn = false ∧ s.datn = false ∧
      ∀ c : Instr, c ≠ .pinResetAssert → (∀ cd, c ≠ .pinResetRelease cd) →
        (∀ i level, c ≠ .overrideInputChange i level) → exec c s = .next s

/-- The release of RSTN: the pin-reset values of every block, each function resolved, each filtered level taken from
its input, each position evaluated. -/
def Obligations.PinResetRelease : Prop :=
  ∀ (s : State) (cd : BitVec 4), s.resetAsserted = true → ∃ t, exec (.pinResetRelease cd) s = .next t ∧
    t.resetAsserted = false ∧ t.power = .run ∧ t.ov = s.ov ∧ t.pending = s.pending ∧
    (∀ f, t.drive.functions.get f =
      { mode := .off
        drive := if f = 0 ∧ s.ov.get 0 = true then .full else .undriven
        age := 0
        wave := if f = 0 ∧ s.ov.get 0 = true then .high else .low
        sense := { condition := .none, kind := .none, count := 0 } }) ∧
    t.drive.generators =
      ⟨{ cadence := { pattern := 0x007F, length := 14, width := 0 }, step := 0, remaining := 50000, staged := none },
        { cadence := { pattern := 0x007F, length := 14, width := 0 }, step := 0, remaining := 50000, staged := none },
        { cadence := { pattern := 0x0005, length := 8, width := 1 }, step := 0, remaining := 100000, staged := none },
        { cadence := { pattern := 0x0000, length := 2, width := 7 }, step := 0, remaining := 500000, staged := none }⟩ ∧
    t.drive.assign = ⟨0x01, 0, 0, 0⟩ ∧ t.drive.filtered = s.ov ∧ t.drive.senseRemaining = 50000 ∧
    t.drive.pwmPhase = 0 ∧
    t.link.engine = .rxIdle ∧ t.link.timer = 1000 ∧ t.link.lastServed = 3 ∧
    (∀ p, t.link.channels.get p =
      { enabled := true
        queue := if cd.getLsbD p.val then [.recall] else []
        attempts := 0
        streak := 0
        wakeHold := none }) ∧
    (∀ p, t.assembly.get p = .idle) ∧
    (∀ p, t.positions.get p =
      { state := if cd.getLsbD p.val then .coupled else .vacant
        coupledHigh := true
        wakeEnable := false
        detect := cd.getLsbD p.val
        filterCount := 0
        coupleEdge := false
        uncoupleEdge := false
        serial := none
        count := 0
        recoupled := false
        welcome := .done
        enrollTimeout := 1000000
        enrollTimer := if cd.getLsbD p.val then some 1000000 else none
        holdTimer := none
        linkFault := false
        detectMissing := false
        uncoupled := false
        claimedHead := none }) ∧
    t.holdTime = 30 ∧
    (∀ p, t.samples.get p = { list := [], nextTag := 0, timer := none, mute := 0, missed := 0 }) ∧
    t.sampling = { period := 200, timeout := 60, muteCount := 3, guard := 20 } ∧
    (∀ p, t.circuits.get p = []) ∧ t.judging = { confirm := 3, clear := 5, latched := 0b10100 } ∧
    (∀ f, t.feeds.get f = .none) ∧
    t.notices.queue = [] ∧ t.notices.stack = [] ∧ (∀ x, t.notices.announceOf x = .none) ∧ t.notices.counter = 0 ∧
    t.notices.mask = 0 ∧ t.notices.holdAll = false ∧ t.notices.severity = ⟨6, 4, 5, 5, 3, 3, 2, 2⟩ ∧
    t.notices.positionLevel = 5 ∧ t.notices.detectLevel = 3 ∧
    t.port.queue = [] ∧ t.port.nextSeq = 0 ∧ t.port.error = none ∧ t.port.lcs = .idle ∧
    t.latn = false ∧ t.datn = false

/-- The state right after reset is what a release of RSTN leaves with every input low and no command waiting; that the
inputs are low is the model's choice (log 1). It answers READ_SUMMARY with the settings that the spec states for
reset, and it has every invariant of the statements that follow. -/
def Obligations.ResetState : Prop :=
  (∀ s : State, s.resetAsserted = true → s.ov = Four.all false → s.fs = 0 → s.freeIndex = 0 → s.pending = [] →
    exec (.pinResetRelease 0) s = .next State.reset) ∧
  State.reset.summaryRecord =
    [0, 0, 0, 0, 4, 60, 3, 20, 3, 5, 0x14, 6, 4, 5, 5, 3, 3, 2, 2, 5, 3, 0, 0, 0, 0, 0, 0] ∧
  (∀ f, State.reset.functionOutput f = false) ∧
  State.reset.Quiet ∧ State.reset.DrivesResolved ∧ State.reset.WithinCapacity ∧ State.reset.SamplesKept ∧
    State.reset.ShadowsAgree ∧ State.reset.RestHonest ∧ State.reset.NoticesSound

/-! ## Invariants -/

/-- Every step leaves nothing to send: no scan is due, and every position's head condition is the one last claimed.
The two fields that say so are the model's own (log 12). -/
def Obligations.StepKeepsQuiet : Prop := ∀ s t : State, s.Quiet → step s = .next t → t.Quiet

/-- Every step keeps each function at the drive its inputs resolve to, with its output high in FULL and low in UNDRIVEN:
a function is resolved again each time one of its inputs changes (R1, R4). -/
def Obligations.StepKeepsDrivesResolved : Prop :=
  ∀ s t : State, s.DrivesResolved → step s = .next t → t.DrivesResolved

/-- Every step keeps the lighting queue within four commands, each outbound queue within three words and each sample
list within two records (R38, R84, R141). -/
def Obligations.StepKeepsWithinCapacity : Prop :=
  ∀ s t : State, s.WithinCapacity → step s = .next t → t.WithinCapacity

/-- Every step keeps distinct tags in each sample list, and records and a running sample timer only at positions that
are ENROLLED or MUTE (R84, R85). -/
def Obligations.StepKeepsSamples : Prop := ∀ s t : State, s.SamplesKept → step s = .next t → t.SamplesKept

/-- Every step keeps a circuit's verdict SHADOWED exactly when its feed function's condition covers its position
(R124). -/
def Obligations.StepKeepsShadows : Prop := ∀ s t : State, s.ShadowsAgree → step s = .next t → t.ShadowsAgree

/-- Every step keeps the engine OFF exactly in REST, with empty outbound queues, sample lists and assembly records and
no function in CADENCE or DIM while the part is parked (R20, R41, R60, R98, R174). -/
def Obligations.StepKeepsRestHonest : Prop := ∀ s t : State, s.RestHonest → step s = .next t → t.RestHonest

/-- Every step keeps the notice unit in order: one notice in a slot and for a subject, QUEUED exactly for the subjects
that hold one, and at most three notices in service with levels that rise strictly to the top (R152, R155, R166). -/
def Obligations.StepKeepsNotices : Prop := ∀ s t : State, s.NoticesSound → step s = .next t → t.NoticesSound

/-! ## Port transactions -/

/-- The bytes of a port command, whatever bytes follow its last argument, are taken as that command with every argument
at its value; a transaction cut short before the last argument byte is discarded (R136, R137). Bytes move most
significant bit first and the bits of an incomplete byte are ignored. On data out a port drives 00h in the command byte
and the argument bytes, then the reply, then 00h, and nothing between transactions and under RSTN. -/
def Obligations.FramesDecode : Prop :=
  ∀ (i : Instr) (port : Port) (bytes : List Byte), i.frame = some (port, bytes) →
    (∀ extra, (∀ p code, i = .unknownCommand p code → i.wf = true) → decodeFrame port (bytes ++ extra) = .command i) ∧
    (∀ n, n < bytes.length → decodeFrame port (bytes.take n) = .tooShort) ∧
    (∀ (sent : List Byte) (cut : List Bool), cut.length < 8 →
      decodeTransaction port ((sent.flatMap fun b => [7, 6, 5, 4, 3, 2, 1, 0].map b.getLsbD) ++ cut) =
        decodeFrame port sent) ∧
    (∀ (b : Byte) (k : Nat), k < 8 → serialBit b k = b.getLsbD (7 - k)) ∧
    (∀ (reply : List Byte) (n : Nat), transactionByte (bytes.length - 1) reply n =
      if n < bytes.length then 0 else reply.getD (n - bytes.length) 0) ∧
    ∀ (s : State) (n : Nat),
      let t := match port with
        | .lighting => s.port.lcs
        | .display => s.port.dcs
      let reply := match port with
        | .lighting => s.port.lightingReply
        | .display => s.port.displayReply
      s.dataOut port n =
        if s.resetAsserted = true ∨ t = .idle then none
        else if t = .opened then some 0
        else some (reply.getD n 0)

/-! ## Function drive -/

/-- The effective drive of a function (R4): FULL while an active override input's set holds it, else what its mode
gives. A resolution makes a drive change of each function whose drive it changes: its age is 0, its output goes high for
FULL and low for UNDRIVEN at once and keeps its wave for DIM, whose duty waits for the period start (R1, R12, R13), and
every OUTSTANDING record is blurred by it (R90); nothing else changes. -/
def Obligations.DriveResolution : Prop :=
  (∀ (d : DriveUnit) (f : Fin 8),
    ((∃ i, d.filtered.get i = true ∧ inSet (d.assign.get i) f = true) → d.resolution f = .full) ∧
    (¬ (∃ i, d.filtered.get i = true ∧ inSet (d.assign.get i) f = true) →
      d.resolution f =
        match (d.functions.get f).mode with
        | .off => .undriven
        | .on => .full
        | .cadence g =>
          if (d.generators.get g).cadence.pattern.getLsbD (d.generators.get g).step then .full else .undriven
        | .dim duty => if duty = 16 then .full else .dim duty)) ∧
  ∀ (s : State) (which : Fin 8 → Bool),
    let changed (f : Fin 8) : Prop := which f = true ∧ (s.drive.functions.get f).drive ≠ s.drive.resolution f
    let t := s.withResolved which
    s.resolveWhere which = t ∧ (∀ f, s.resolveFunction f = s.withResolved (· == f)) ∧
    t =
      { s with
        drive := { s.drive with functions := t.drive.functions }
        samples := t.samples } ∧
    (∀ f, (¬ changed f → t.drive.functions.get f = s.drive.functions.get f) ∧
      (changed f → t.drive.functions.get f =
        { s.drive.functions.get f with
          drive := s.drive.resolution f
          age := 0
          wave :=
            match s.drive.resolution f with
            | .full => .high
            | .undriven => .low
            | .dim _ => (s.drive.functions.get f).wave })) ∧
    ∃ set : BitVec 8, (∀ f, inSet set f = true ↔ changed f) ∧
      ∀ p, t.samples.get p =
        { s.samples.get p with
          list :=
            (s.samples.get p).list.map fun r =>
              { r with outstanding := r.outstanding.map fun o => { o with blur := o.blur ||| set } } }

/-- A change of an override input's level is recorded and starts its filter count again, under pin reset too; a filtered
level that changes to its input's level, in RUN and in REST, resolves again every function of the input's set (R5). That
the level is kept while RSTN is asserted is the model's reading (log 10). -/
def Obligations.OverrideInputs : Prop :=
  (∀ (s : State) (i : Fin 4) (level : Bool), exec (.overrideInputChange i level) s =
    .next
      (if s.ov.get i = level then s
      else
        { s with ov := s.ov.set i level, drive := { s.drive with filterCount := s.drive.filterCount.set i 0 } })) ∧
  ∀ (s : State) (i : Fin 4), s.resetAsserted = false → exec (.overrideFilterChange i) s =
    .next
      (if s.drive.filtered.get i = s.ov.get i then s
      else
        ({ s with
            drive :=
              { s.drive with
                filtered := s.drive.filtered.set i (s.ov.get i)
                filterCount := s.drive.filterCount.set i 0 } }).withResolved fun f => inSet (s.drive.assign.get i) f)

/-- In RUN a step expiry moves the generator on: to the next step, or at the last step to step 0 with a staged pattern
applied; then the functions whose mode names it are resolved again (R9). -/
def Obligations.StepExpiry : Prop :=
  ∀ (s : State) (g : Fin 4), s.Awake → exec (.stepExpiry g) s =
    .next
      (({ s with
          drive :=
            { s.drive with
              generators := s.drive.generators.modify g fun x =>
                if x.step + 1 < x.cadence.length then
                  { x with step := x.step + 1, remaining := Config.stepWidth x.cadence.width }
                else
                  { cadence := x.staged.getD x.cadence
                    step := 0
                    remaining := Config.stepWidth (x.staged.getD x.cadence).width
                    staged := none } } }).withResolved fun f => decide ((s.drive.functions.get f).mode = Mode.cadence g))

/-- A PWM period start, in RUN and in REST, puts the duty of every function whose drive is DIM into force and changes
nothing else; a dimmed output is high for duty times 312.5 µs from the period's start (R12). An output that is not
dimmed is high or low throughout (R1). -/
def Obligations.DimPeriodStart : Prop :=
  (∀ s : State, s.resetAsserted = false → exec .dimPeriodStart s =
    .next
      { s with
        drive :=
          { s.drive with
            pwmPhase := 0
            functions := s.drive.functions.map fun _ r =>
              match r.drive with
              | .dim duty => { r with wave := .pwm duty }
              | .full => r
              | .undriven => r } }) ∧
  (∀ (s : State) (f : Fin 8) (duty : Nat), s.resetAsserted = false → (s.drive.functions.get f).wave = .pwm duty →
    (s.functionOutput f = true ↔ 2 * s.drive.pwmPhase < 625 * duty)) ∧
  ∀ (s : State) (f : Fin 8), s.resetAsserted = false →
    ((s.drive.functions.get f).wave = .high → s.functionOutput f = true) ∧
    ((s.drive.functions.get f).wave = .low → s.functionOutput f = false)

/-- A sense tick in RUN checks every function whose drive is not DIM and whose age has reached the settle guard: its
sense-check record counts the observation and no other record changes; a function whose condition changes takes the feed
condition that goes with it, before the event's notice and position claims (R15, R19, R126, R127). In the order F0 to
F7, which is the model's choice (log 13), each check counts its observation and a changed condition is written or
cleared as ConditionsShadow says; the claims with which the event ends follow. -/
def Obligations.SenseTick : Prop :=
  ∀ (s : State) (fs : BitVec 8), s.Awake → ∃ t, exec (.senseTick fs) s = .next t ∧
    t =
      { s with
        fs := fs
        drive := { s.drive with senseRemaining := 50000, functions := t.drive.functions }
        feeds := t.feeds
        circuits := t.circuits
        notices := t.notices
        positions := s.positions.map fun _ r => { r with claimedHead := r.head } } ∧
    (∀ f, t.drive.functions.get f =
      if (s.drive.functions.get f).age < s.sampling.guard then s.drive.functions.get f
      else
        match observe (s.drive.functions.get f).drive.cls (inSet fs f) with
        | some o =>
          { s.drive.functions.get f with sense := (s.drive.functions.get f).sense.counted s.judging o }
        | none => s.drive.functions.get f) ∧
    (∀ f, t.feeds.get f =
      if (t.drive.functions.get f).sense.condition = (s.drive.functions.get f).sense.condition then s.feeds.get f
      else
        match (t.drive.functions.get f).sense.condition with
        | .none => .none
        | .driverDead => .driverDead
        | .driverStuck => .driverStuck) ∧
    (let begun : State := { s with fs := fs, drive := { s.drive with senseRemaining := 50000 } }
     let checked : State :=
      (List.finRange 8).foldl
        (fun u f =>
          let r := u.drive.functions.get f
          if r.age < s.sampling.guard then u
          else
            match observe r.drive.cls (inSet fs f) with
            | none => u
            | some o =>
              let after := r.sense.counted s.judging o
              let counted : State :=
                { u with
                  drive := { u.drive with functions := u.drive.functions.modify f fun x => { x with sense := after } } }
              if after.condition = r.sense.condition then counted
              else
                match after.condition with
                | .none => counted.clearCondition f
                | .driverDead => counted.setCondition f .driverDead
                | .driverStuck => counted.setCondition f .driverStuck)
        begun
     t = checked.settle)

/-- The observations of a sense check and how each is counted (R15 to R18): toward a condition at the confirm threshold,
toward clearing at the clear threshold, the streak clearing, or no effect; a count stops at 15. -/
def Obligations.SenseStreaks : Prop :=
  (observe .full false = some .dead ∧ observe .full true = some .agreeFull ∧
    observe .undriven false = some .agreeUndriven ∧ observe .undriven true = some .stuck ∧
    ∀ level, observe .dim level = none) ∧
  ∀ (c : SenseCheck) (j : Judging),
    let toward (kind : StreakKind) (condition : SenseCondition) (threshold : Nat) : SenseCheck :=
      let count := if c.kind = kind then min 15 (c.count + 1) else 1
      if threshold ≤ count then { condition := condition, kind := .none, count := 0 }
      else { condition := c.condition, kind := kind, count := count }
    let clearedStreak : SenseCheck := { condition := c.condition, kind := .none, count := 0 }
    (c.condition = .none →
      c.counted j .dead = toward .dead .driverDead j.confirm ∧
      c.counted j .stuck = toward .stuck .driverStuck j.confirm ∧
      c.counted j .agreeFull = clearedStreak ∧ c.counted j .agreeUndriven = clearedStreak) ∧
    (c.condition = .driverDead →
      c.counted j .dead = clearedStreak ∧ c.counted j .stuck = toward .stuck .driverStuck j.confirm ∧
      c.counted j .agreeFull = toward .agree .none j.clear ∧ c.counted j .agreeUndriven = c) ∧
    (c.condition = .driverStuck →
      c.counted j .dead = toward .dead .driverDead j.confirm ∧ c.counted j .stuck = clearedStreak ∧
      c.counted j .agreeFull = c ∧ c.counted j .agreeUndriven = toward .agree .none j.clear)

/-! ## The coupling link -/

/-- The steps by which a transfer begins, each in RUN and from its own engine state: a start bit on the lowest channel
that is open and not held in a settle, and none without such a channel (R28, R42); a transmit start on the channel of
the round-robin, and none without a word (R31); the end of the inhibit settle (R33); the node's first falling edge
(R34). That a start bit is not seen on a channel held in a settle is read from R42 (log 21). The clock and data lines in
each engine state of RUN (R22, R42), and the levels of a word for a node after each falling edge k of its transmit:
start bit, data bits 0 to 11, odd parity, then released (R25, R46). A channel's clock is held low in REST unless it is
enabled with wake enabled. -/
def Obligations.TransfersBegin : Prop :=
  (∀ (s : State) (p k), s.resetAsserted = false → s.link.engine = .off →
    (s.clockHeldLow p = true ↔ ¬ ((s.link.channels.get p).enabled = true ∧ (s.positions.get p).wakeEnable = true)) ∧
      s.dataHeldLow p k = false) ∧
  ∀ s : State, s.Awake →
    (∀ (channels : BitVec 4) (p : Fin 4),
      let taken (q : Fin 4) : Prop :=
        channels.getLsbD q.val = true ∧ (s.link.channels.get q).enabled = true ∧
          (s.link.channels.get q).wakeHold = none
      (s.link.engine = .rxIdle → taken p → (∀ q, q < p → ¬ taken q) → exec (.startBit channels) s =
        .next { s with link := { s.link with engine := .rxActive p, timer := 4000, discarded := false } }) ∧
      (s.link.engine = .rxIdle → (∀ q, ¬ taken q) → exec (.startBit channels) s = .next s)) ∧
    (∀ p, s.link.engine = .rxIdle → s.link.nextToServe = some p → exec .transmitStart s =
      .next
        { s with link := { s.link with engine := .txSetup p, timer := 120, discarded := false, lastServed := p } }) ∧
    (s.link.nextToServe = none → exec .transmitStart s = .next s) ∧
    (∀ p, s.link.engine = .txSetup p → exec .inhibitSettleEnd s =
      .next { s with link := { s.link with engine := .txWait p, timer := 10000 } }) ∧
    (∀ p, s.link.engine = .txWait p → exec .firstFallingEdge s =
      .next { s with link := { s.link with engine := .txActive p, timer := 4000 } }) ∧
    (∀ p,
      let c := s.link.channels.get p
      (s.link.engine = .rxIdle → (s.clockHeldLow p = true ↔ c.enabled = false ∨ c.wakeHold ≠ none)) ∧
      (∀ t, s.link.engine = .rxActive t → (s.clockHeldLow p = true ↔ p ≠ t)) ∧
      (∀ t, s.link.engine = .txSetup t → s.clockHeldLow p = true) ∧
      (∀ t, s.link.engine = .txWait t ∨ s.link.engine = .txActive t →
        (s.clockHeldLow p = true ↔ p ≠ t ∨ c.wakeHold ≠ none)) ∧
      (s.link.engine = .settle → s.clockHeldLow p = true) ∧
      ∀ k,
        (∀ t, s.link.engine = .txSetup t ∨ s.link.engine = .txWait t → (s.dataHeldLow p k = true ↔ p = t)) ∧
        (∀ t w rest, s.link.engine = .txActive t → (s.link.channels.get t).queue = w :: rest →
          (s.dataHeldLow p k = true ↔ p = t ∧ txLevel w k = false)) ∧
        ((∀ t, s.link.engine ≠ .txSetup t ∧ s.link.engine ≠ .txWait t ∧ s.link.engine ≠ .txActive t) →
          s.dataHeldLow p k = false)) ∧
    (∀ w : LinkWord,
      txLevel w 0 = false ∧ (∀ k, k < 12 → txLevel w (k + 1) = w.bits.getLsbD k) ∧
        (txLevel w 13 = true ↔ ones w.bits % 2 = 0) ∧ ∀ k, 14 ≤ k → txLevel w k = true) ∧
    (∀ p : Fin 4, (LinkWord.welcome p).bits = BitVec.ofNat 12 (8 + 16 * (p.val + 1))) ∧
    (∀ tag : BitVec 4, (LinkWord.sample tag).bits = BitVec.ofNat 12 (9 + 16 * tag.toNat)) ∧
    (LinkWord.reject .count).bits = BitVec.ofNat 12 (10 + 16 * 1) ∧
    (LinkWord.reject .circuit).bits = BitVec.ofNat 12 (10 + 16 * 2) ∧
    (LinkWord.reject .incomplete).bits = BitVec.ofNat 12 (10 + 16 * 3) ∧
    (LinkWord.reject .order).bits = BitVec.ofNat 12 (10 + 16 * 4) ∧
    LinkWord.recall.bits = BitVec.ofNat 12 11

/-- The round-robin chooses the first channel whose outbound queue holds a word, counted from the channel after the
last-served one and wrapping from 4 to 1 (R32). -/
def Obligations.RoundRobin : Prop :=
  ∀ (l : Link),
    (∀ p, l.nextToServe = some p ↔
      (l.channels.get p).queue ≠ [] ∧
        ∀ q, (q - l.lastServed - 1 : Fin 4) < p - l.lastServed - 1 → (l.channels.get q).queue = []) ∧
    (l.nextToServe = none ↔ ∀ p, (l.channels.get p).queue = [])

/-- A queue accepts a word at its tail when it holds fewer than three and its channel is enabled, and else nothing
changes; a failed transfer adds one to the channel's streak, up to 15, and sets LINK_FAULT as the streak passes from 3
to 4; a successful one clears LINK_FAULT where the streak is 4 or more and sets the streak to 0 (R37, R38, R80). -/
def Obligations.OffersAndStreaks : Prop :=
  ∀ (s : State) (p : Fin 4),
    (∀ w, s.offer p w =
      if (s.link.channels.get p).enabled = true ∧ (s.link.channels.get p).queue.length < 3 then
        { s with
          link := { s.link with channels := s.link.channels.modify p fun c => { c with queue := c.queue ++ [w] } } }
      else s) ∧
    s.countFailure p =
      { s with
        link := { s.link with channels := s.link.channels.modify p fun c => { c with streak := min 15 (c.streak + 1) } }
        positions :=
          s.positions.modify p fun r =>
            { r with linkFault := r.linkFault || decide ((s.link.channels.get p).streak = 3) } } ∧
    s.countSuccess p =
      { s with
        link := { s.link with channels := s.link.channels.modify p fun c => { c with streak := 0 } }
        positions :=
          s.positions.modify p fun r =>
            { r with linkFault := r.linkFault && decide ((s.link.channels.get p).streak < 4) } }

/-- The end of a receive (R24, R29, R30): a word with odd parity and a high stop bit counts as a success and is handed
to the assembly record unless the transfer is discarded (R40); a HELLO that the word completes together with the
uncouple edge that discarded the transfer is accepted (R72), and whether they fell together is a free value (log 34); a
bad word and a word timeout count as a failure; then the engine goes to a transmit if a queue holds a word, else to
RX_IDLE. -/
def Obligations.ReceiveEnds : Prop :=
  (∀ s : State, s.afterReceive =
    match s.link.nextToServe with
    | some p =>
      { s with link := { s.link with engine := .txSetup p, timer := 120, discarded := false, lastServed := p } }
    | none => { s with link := { s.link with engine := .rxIdle, timer := 1000, discarded := false } }) ∧
  ∀ (s : State) (data : BitVec 12) (parity stop : Bool), s.Awake →
    ∀ p, s.link.engine = .rxActive p →
      exec .wordTimeout s = .next (s.countFailure p).afterReceive.settle ∧
      ((ones data + bit parity) % 2 = 0 ∨ stop = false →
        exec (.receiveEnd data parity stop) s = .next (s.countFailure p).afterReceive.settle) ∧
      ((ones data + bit parity) % 2 = 1 → stop = true →
        let counted := s.countSuccess p
        let command := exec (.receiveEnd data parity stop) s
        (s.link.discarded = false →
          command = .next (counted.takeWord p (NodeWord.decode data)).afterReceive.settle) ∧
        (s.link.discarded = true →
          (∀ count low middle high circuits gap d, s.link.cut = some (.hello count [low, middle, high] circuits gap) →
            NodeWord.decode data = .circuit d false → circuits.length + 1 = count → command =
              .next
                (if Config.helloWithEdge s.freeIndex then
                  counted.acceptHello p (high ++ middle ++ low) (circuits ++ [d])
                else counted).afterReceive.settle) ∧
          ((∀ count low middle high circuits gap d, s.link.cut = some (.hello count [low, middle, high] circuits gap) →
            NodeWord.decode data = .circuit d false → circuits.length + 1 ≠ count) →
            command = .next counted.afterReceive.settle)))

/-- The catch of a transmit (R35, R39, R40): the head word leaves its queue, the success is counted, the engine enters
RX_IDLE, and the owner is told unless the transfer is discarded. A SAMPLE's QUEUED record becomes OUTSTANDING with the
expected drives, the functions younger than the settle guard as its blur set, and the sample timeout (R88); a WELCOME
not yet DONE at an accepted position becomes DONE and starts sampling from a full period (R73); RECALL and REJECT make
no report. -/
def Obligations.TransmitCaught : Prop :=
  ∀ (s : State) (p : Fin 4) (w : LinkWord) (rest : List LinkWord), s.Awake → s.link.engine = .txActive p →
    (s.link.channels.get p).queue = w :: rest →
    let sent : State :=
      ({ s with
          link :=
            { s.link with
              engine := .rxIdle
              timer := 1000
              discarded := false
              channels := s.link.channels.modify p fun c => { c with queue := rest, attempts := 0, streak := 0 } }
          positions :=
            s.positions.modify p fun r =>
              { r with linkFault := r.linkFault && decide ((s.link.channels.get p).streak < 4) } })
    (s.link.discarded = true ∨ w = .recall ∨ (∃ reason, w = .reject reason) → exec .transmitCatch s = .next sent.settle) ∧
    (∀ tag, s.link.discarded = false → w = .sample tag → exec .transmitCatch s =
      .next
        ({ sent with
            samples :=
              s.samples.modify p fun m =>
                { m with
                  list :=
                    m.list.map fun (r : SampleRecord) =>
                      if r.tag = tag ∧ r.outstanding = none then
                        { tag := r.tag
                          outstanding :=
                            some
                              { snapshot := s.drive.functions.map fun _ f => f.drive.cls
                                blur := setOf fun f => decide ((s.drive.functions.get f).age < s.sampling.guard)
                                deadline := s.sampling.timeout * 1000 } }
                      else r } }).settle) ∧
    (∀ q, s.link.discarded = false → w = .welcome q →
      exec .transmitCatch s =
        .next
          (if (s.positions.get p).state.accepted = true ∧ (s.positions.get p).welcome ≠ .done then
            ({ sent with
                positions := sent.positions.modify p fun r => { r with welcome := .done, enrollTimer := none }
                samples := s.samples.modify p fun m => { m with timer := some (s.sampling.period * 1000) } }).settle
          else sent.settle))

/-- A failed transmit attempt, by 10 ms without an edge in TX_WAIT, by no catch or by the transmit timeout in TX_ACTIVE
(R34, R36): the failure is counted and the engine enters RX_IDLE. The head word stays with its attempt counted, or is
dropped at its third failure, its owner told: a SAMPLE's QUEUED record goes (R89), a WAITING welcome at an accepted
position becomes OWED with the enroll timer started (R73). A word of a discarded transfer leaves unreported (R40). -/
def Obligations.TransmitFailed : Prop :=
  ∀ (s : State) (p : Fin 4) (w : LinkWord) (rest : List LinkWord) (c : Instr), s.Awake →
    (s.link.engine = .txWait p ∧ c = .txNoClock ∨
      s.link.engine = .txActive p ∧ (c = .noCatch ∨ c = .transmitTimeout)) →
    (s.link.channels.get p).queue = w :: rest →
    let failed (queue : List LinkWord) (attempts : Nat) : State :=
      ({ s with
          link :=
            { s.link with
              engine := .rxIdle
              timer := 1000
              discarded := false
              channels :=
                s.link.channels.modify p fun c =>
                  { c with queue := queue, attempts := attempts, streak := min 15 (c.streak + 1) } }
          positions :=
            s.positions.modify p fun r =>
              { r with linkFault := r.linkFault || decide ((s.link.channels.get p).streak = 3) } })
    let tries := (s.link.channels.get p).attempts + 1
    (s.link.discarded = true → exec c s = .next (failed rest 0).settle) ∧
    (s.link.discarded = false → tries < 3 → exec c s = .next (failed (w :: rest) tries).settle) ∧
    (s.link.discarded = false → 3 ≤ tries →
      (w = .recall ∨ (∃ reason, w = .reject reason) → exec c s = .next (failed rest 0).settle) ∧
      (∀ tag, w = .sample tag → exec c s =
        .next
          ({ failed rest 0 with
              samples :=
                s.samples.modify p fun m =>
                  { m with
                    list := m.list.filter fun r => !(decide (r.tag = tag) && r.outstanding.isNone) } }).settle) ∧
      (∀ q, w = .welcome q → exec c s =
        .next
          (if (s.positions.get p).state.accepted = true ∧ (s.positions.get p).welcome = .waiting then
            ({ failed rest 0 with
                positions :=
                  (failed rest 0).positions.modify p fun r =>
                    { r with welcome := .owed, enrollTimer := some r.enrollTimeout } }).settle
          else (failed rest 0).settle)))

/-- The settle after a RESTART ends in RX_IDLE with a new listen interval (R44); the hold on a channel whose start bit
was seen in REST ends with nothing else changed (R42). -/
def Obligations.SettlesEnd : Prop :=
  ∀ s : State, s.Awake →
    (s.link.engine = .settle → exec .settleEnd s =
      .next { s with link := { s.link with engine := .rxIdle, timer := 1000, discarded := false } }) ∧
    ∀ p, exec (.wakeSettleEnd p) s =
      .next
        { s with link := { s.link with channels := s.link.channels.modify p fun c => { c with wakeHold := none } } }

/-! ## Messages -/

/-- The words of a HELLO, by their bits, at a channel's assembly record (R45, R48 to R51, R54, R55, R57, R59). A HELLO
with a good count displaces an unfinished HELLO with REJECT(INCOMPLETE); a bad count only offers REJECT(COUNT). A SERIAL
or CIRCUIT that fits is appended and the gap timer restarts at 15 ms; must-be-zero bits end the HELLO with
REJECT(CIRCUIT) and a misfit ends it with REJECT(ORDER); the last CIRCUIT hands the message to the position unit. A word
of unknown kind changes nothing. -/
def Obligations.HelloAssembly : Prop :=
  ∀ (s : State) (p : Fin 4) (value : BitVec 8),
    let take (kind : BitVec 4) : State := s.takeWord p (NodeWord.decode (value ++ kind))
    (1 ≤ value.toNat → value.toNat ≤ 12 → take 1 =
      (match s.assembly.get p with
        | .hello _ _ _ _ => s.offer p (.reject .incomplete)
        | .idle => s
        | .report _ _ _ _ _ => s).setAssembly p (.hello value.toNat [] [] 15000)) ∧
    (value.toNat = 0 ∨ 13 ≤ value.toNat → take 1 = s.offer p (.reject .count)) ∧
    (s.assembly.get p = .idle → take 2 = s ∧ take 3 = s) ∧
    (∀ count serial circuits gap, s.assembly.get p = .hello count serial circuits gap →
      let definition : CircuitDef :=
        { feed := functionOf value.toNat, required := value.getLsbD 3, lowCurrent := value.getLsbD 4 }
      (serial.length < 3 →
        take 2 = s.setAssembly p (.hello count (serial ++ [value]) circuits 15000) ∧
        take 3 = (s.setAssembly p .idle).offer p (.reject .order)) ∧
      (3 ≤ serial.length →
        take 2 = (s.setAssembly p .idle).offer p (.reject .order) ∧
        (32 ≤ value.toNat → take 3 = (s.setAssembly p .idle).offer p (.reject .circuit)) ∧
        (value.toNat < 32 → circuits.length + 1 ≠ count →
          take 3 = s.setAssembly p (.hello count serial (circuits ++ [definition]) 15000)) ∧
        (value.toNat < 32 → circuits.length + 1 = count → ∀ low middle high, serial = [low, middle, high] →
          take 3 = (s.setAssembly p .idle).acceptHello p (high ++ middle ++ low) (circuits ++ [definition]))) ∧
      take 5 = (s.setAssembly p .idle).offer p (.reject .order)) ∧
    ∀ kind : BitVec 4, (kind = 0 ∨ 6 ≤ kind.toNat) → take kind = s

/-- The words of a REPORT, by their bits, and the gap limit (R48, R52 to R56, R58). A READING that fits counts, and
joins the list unless its must-be-zero bit is set or its index is 12 to 15; the last one hands the report to the
sampling unit. A misfit ends the report unanswered. When the gap timer runs out in RUN, the assembly ends, an unfinished
HELLO with REJECT(INCOMPLETE). -/
def Obligations.ReportAssembly : Prop :=
  (∀ (s : State) (p : Fin 4) (value : BitVec 8),
    let take (kind : BitVec 4) : State := s.takeWord p (NodeWord.decode (value ++ kind))
    let count := value.toNat / 16
    (1 ≤ count → count ≤ 12 → take 4 =
      (match s.assembly.get p with
        | .hello _ _ _ _ => s.offer p (.reject .incomplete)
        | .idle => s
        | .report _ _ _ _ _ => s).setAssembly p (.report (value.extractLsb' 0 4) count 0 [] 15000)) ∧
    (count = 0 ∨ 13 ≤ count → take 4 = s) ∧
    (s.assembly.get p = .idle → take 5 = s) ∧
    ∀ tag expected taken readings gap, s.assembly.get p = .report tag expected taken readings gap →
      let kept : List Reading :=
        if h : value.toNat % 16 < 12 then
          if value.getLsbD 7 then readings
          else
            readings ++
              [{ circuit := ⟨value.toNat % 16, h⟩
                 volt := value.getLsbD 4
                 current :=
                  match value.getLsbD 6, value.getLsbD 5 with
                  | false, false => .none
                  | false, true => .low
                  | true, false => .nominal
                  | true, true => .high }]
        else readings
      (taken + 1 ≠ expected → take 5 = s.setAssembly p (.report tag expected (taken + 1) kept 15000)) ∧
      (taken + 1 = expected → take 5 = (s.setAssembly p .idle).settleReport p tag kept) ∧
      take 2 = s.setAssembly p .idle ∧ take 3 = s.setAssembly p .idle) ∧
  ∀ (s : State) (p : Fin 4), s.Awake → exec (.gapTimerExpiry p) s =
    .next
      (match s.assembly.get p with
        | .idle => s
        | .hello _ _ _ _ => (s.setAssembly p .idle).offer p (.reject .incomplete)
        | .report _ _ _ _ _ => s.setAssembly p .idle)

/-- The acceptance of a HELLO, in every state of the position (R69 to R73, R77): the position is ENROLLED with the
HELLO's serial and circuit count, its timers stopped and DETECT_MISSING as its level reads; sampling is stopped and the
counts are 0; WELCOME is offered, WAITING or else OWED with the enroll timer started; the re-announce scan is due. Where
no circuit is held DEFERRED, so that the passes decide nothing, the same identity in ENROLLED, MUTE or DEPARTED keeps
the circuit table, and any other acceptance creates the records afresh, SHADOWED where a condition covers the position.
In their order: a purge where another identity is held (PositionTimers), the records, and passes for F0 to F7 from the
position (R69, R131). -/
def Obligations.HelloAccepted : Prop :=
  ∀ (s : State) (p : Fin 4) (serial : BitVec 24) (defs : List CircuitDef),
    let r := s.positions.get p
    let room := (s.link.channels.get p).enabled = true ∧ (s.link.channels.get p).queue.length < 3
    let t := s.acceptHello p serial defs
    let same :=
      r.state ≠ .vacant ∧ r.state ≠ .coupled ∧ r.state ≠ .silent ∧ r.serial = some serial ∧ r.count = defs.length ∧
        (s.circuits.get p).map (fun c => (c.feed, c.required, c.lowCurrent)) =
          defs.map fun d => (d.feed, d.required, d.lowCurrent)
    t =
      { s with
        positions :=
          s.positions.modify p fun r =>
            { r with
              state := .enrolled
              serial := some serial
              count := defs.length
              enrollTimer := if room then none else some r.enrollTimeout
              holdTimer := none
              recoupled := false
              uncoupled := false
              detectMissing := !r.reads
              welcome := if room then .waiting else .owed }
        samples := s.samples.modify p fun m => { m with list := [], timer := none, mute := 0, missed := 0 }
        link := (s.offer p (.welcome p)).link
        feeds := t.feeds
        circuits := t.circuits
        notices := t.notices } ∧
    t.notices.scanDue = true ∧
    ((∀ q, ∀ c ∈ s.circuits.get q, c.verdict.deferredLoss = false) →
      (same → t.circuits = s.circuits ∧ t.feeds = s.feeds) ∧
      (¬ same →
        t.circuits.get p =
          defs.map fun d =>
            { feed := d.feed
              required := d.required
              lowCurrent := d.lowCurrent
              verdict := if (t.feeds.get d.feed).covers p then .shadowed else .unseen
              streak := 0
              last := none })) ∧
    (let fresh := r.state = .vacant ∨ r.state = .coupled ∨ r.state = .silent
     let prior : State := if same ∨ fresh then s else s.purge p
     let enrolled : State :=
      if same then prior
      else
        { prior with
          circuits :=
            prior.circuits.set p
              (defs.map fun d =>
                { feed := d.feed
                  required := d.required
                  lowCurrent := d.lowCurrent
                  verdict := if (prior.feeds.get d.feed).covers p then .shadowed else .unseen
                  streak := 0
                  last := none }) }
     let joined : State :=
      { enrolled with
        positions := t.positions
        samples := t.samples
        link := t.link }
     let passed : State := ([0, 1, 2, 3, 4, 5, 6, 7] : List (Fin 8)).foldl (fun u f => u.pass f p.val none) joined
     t = { passed with notices := { passed.notices with scanDue := true } })

/-- A completed REPORT (R93, R94): at a position that is not ENROLLED or MUTE, or with no OUTSTANDING record under its
tag, it changes nothing. Else the matched record and the older ones go, the older ones counted as missed, the mute
streak is 0 and the position is ENROLLED; readings that name no circuit or a blurred function change nothing more, and a
single reading of an unblurred function is judged against the drive in the record's snapshot. Then, for any readings:
the first one of each circuit is judged, in order; a reading is recorded as the last reading, tested against a BREAK
where the circuit is SHADOWED (R119, R132) and else classified and judged (R102); a changed record sends its notice
claim (R107 to R111, R121) and, where its verdict or kind changed, is reported to the attribution unit, which makes a
pass (R120, R131); a replacement after a return from RECOVERING(FEED_LOSS) follows the evaluation (R111). -/
def Obligations.ReportSettled : Prop :=
  (∀ (s : State) (p : Fin 4) (tag : BitVec 4) (readings : List Reading),
    let t := s.settleReport p tag readings
    ((s.positions.get p).state ≠ .enrolled ∧ (s.positions.get p).state ≠ .mute ∨
        (∀ r ∈ (s.samples.get p).list, r.tag = tag → r.outstanding = none) → t = s) ∧
    ∀ older newer o, (s.positions.get p).state = .enrolled ∨ (s.positions.get p).state = .mute →
      (s.samples.get p).list = older ++ { tag := tag, outstanding := some o } :: newer →
      (∀ r ∈ older, r.tag = tag → r.outstanding = none) →
      t =
        { s with
          samples :=
            s.samples.modify p fun m =>
              { m with
                list := newer
                mute := 0
                missed := if older = [] then m.missed else min 255 (m.missed + older.length) }
          positions := s.positions.modify p fun r => { r with state := .enrolled }
          feeds := t.feeds
          circuits := t.circuits
          notices := t.notices } ∧
      ((∀ x ∈ readings, ∀ c, s.circuit p x.circuit = some c → inSet o.blur c.feed = true) →
        t.feeds = s.feeds ∧ t.circuits = s.circuits ∧ t.notices = s.notices) ∧
      (∀ x c, older = [] → readings = [x] → s.circuit p x.circuit = some c → inSet o.blur c.feed = false →
        t =
          (((s.updSampling p fun m => { m with list := newer }).takeReading p x
              (o.snapshot.get c.feed)).updSampling p fun m => { m with mute := 0 }).matchedClaim p) ∧
      (let begun : State :=
        older.foldl (fun u _ => u.countMissed p)
          { s with samples := s.samples.modify p fun m => { m with list := newer } }
       let judged : State :=
        (firstReadings [] readings).foldl
          (fun u x =>
            match u.circuit p x.circuit with
            | some c => if inSet o.blur c.feed then u else u.takeReading p x (o.snapshot.get c.feed)
            | none => u)
          begun
       t =
        { judged with
          samples := judged.samples.modify p fun m => { m with mute := 0 }
          positions :=
            judged.positions.modify p fun r =>
              { r with state := if r.state = .mute then PositionState.enrolled else r.state } })) ∧
  (firstReadings [] [] = [] ∧
    ∀ (l : List Reading) (x : Reading),
      firstReadings [] (l ++ [x]) =
        if ∃ y ∈ l, y.circuit = x.circuit then firstReadings [] l else firstReadings [] l ++ [x]) ∧
  (∀ (s : State) (p : Fin 4), s.countMissed p =
    { s with
      samples :=
        s.samples.modify p fun m => { m with mute := min 7 (m.mute + 1), missed := min 255 (m.missed + 1) }
      positions :=
        s.positions.modify p fun r =>
          { r with
            state :=
              if r.state = .enrolled ∧ s.sampling.muteCount ≤ min 7 ((s.samples.get p).mute + 1) then
                PositionState.mute
              else r.state } }) ∧
  (∀ (s : State) (p : Fin 4) (x : Reading) (expected : DriveClass),
    (s.circuit p x.circuit = none → s.takeReading p x expected = s) ∧
    ∀ c, s.circuit p x.circuit = some c →
      let r : Circuit := { c with last := some (x.volt, x.current) }
      let recorded : State :=
        { s with circuits := s.circuits.set p ((s.circuits.get p).set x.circuit.val r) }
      (c.verdict = .shadowed → s.takeReading p x expected =
        match s.feeds.get c.feed with
        | .broken _ stop =>
          if stop ≤ p ∧ x.volt = true ∧ expected ≠ .undriven then recorded.clearCondition c.feed else recorded
        | _ => recorded) ∧
      (c.verdict ≠ .shadowed →
        let judged :=
          recorded.applyVerdict p x.circuit r
            (r.judge s.judging (classify expected x.volt x.current c.lowCurrent))
        ((∃ h, c.verdict = .recovering .feedLoss h) → s.takeReading p x expected = judged.replaceCandidate p x.circuit) ∧
        ((∀ h, c.verdict ≠ .recovering .feedLoss h) → s.takeReading p x expected = judged))) ∧
  (∀ (s : State) (p : Fin 4) (i : Fin 12) (before after : Circuit),
    let kind (v : Verdict) : Option FaultKind :=
      match v with
      | .fault k _ _ => some k
      | .recovering k _ => some k
      | _ => none
    let bare (v : Verdict) : Verdict :=
      match v with
      | .fault k _ _ => .fault k none none
      | .recovering k _ => .recovering k none
      | other => other
    let written : State := { s with circuits := s.circuits.set p ((s.circuits.get p).set i.val after) }
    let claimed : State :=
      match after.verdict with
      | .fault k _ _ =>
        if k = .feedLoss ∨ kind before.verdict = some k then written
        else written.raise (.circuit p i) (.circuit k)
      | .good => if kind before.verdict = none then written else written.resolve (.circuit p i)
      | .unseen => if kind before.verdict = none then written else written.resolve (.circuit p i)
      | _ => written
    s.applyVerdict p i before after =
      if bare before.verdict = bare after.verdict then claimed
      else
        claimed.pass after.feed p.val
          (match after.verdict with
            | .fault .feedLoss _ _ => some p
            | _ => none)) ∧
  ∀ (s : State) (p : Fin 4) (i : Fin 12),
    (∀ r k h, s.circuit p i = some r → r.verdict = .fault .feedLoss (some k) h → s.judging.confirm ≤ r.streak →
      s.replaceCandidate p i =
        s.applyVerdict p i r
          { r with
            verdict := .fault k none (if k = .feedLoss then some .deferred else none)
            streak := 0 }) ∧
    ((∀ r k h, s.circuit p i = some r → r.verdict = .fault .feedLoss (some k) h → r.streak < s.judging.confirm) →
      s.replaceCandidate p i = s)

/-! ## Positions -/

/-- A detect filter change flips the filtered level, and in RUN its edge is processed in the same event (R61, R62, R66,
R67). A couple edge in VACANT makes COUPLED with the enroll timer and a RECALL, in ENROLLED or MUTE clears
DETECT_MISSING, in DEPARTED sets recoupled with the enroll timer and a RECALL; an uncouple edge in COUPLED or SILENT
makes VACANT, in DEPARTED clears recoupled; in the other states but ENROLLED and MUTE nothing more changes. In REST the
edge's flag is set, and the part wakes where wake is enabled (R178). That the level of CDp stands at the new filtered
level is the model's reading (log 23). -/
def Obligations.DetectEdges : Prop :=
  ∀ (s : State) (p : Fin 4), s.resetAsserted = false →
    let r := s.positions.get p
    let flipped (couple : Bool) (f : Position → Position) : State :=
      { s with
        cd := s.cd.set p !r.detect
        positions :=
          s.positions.modify p fun r =>
            f
              { r with
                detect := !r.detect
                filterCount := 0
                coupleEdge := if couple then false else r.coupleEdge
                uncoupleEdge := if couple then r.uncoupleEdge else false } }
    let command := exec (.detectFilterChange p) s
    (s.power = .run → r.reads = false →
      (r.state = .vacant → command =
        .next
          ((flipped true fun r => { r with state := .coupled, enrollTimer := some r.enrollTimeout }).offer p
            .recall).settle) ∧
      (r.state = .coupled ∨ r.state = .silent → command = .next (flipped true id).settle) ∧
      (r.state = .enrolled ∨ r.state = .mute → command =
        .next (flipped true fun r => { r with detectMissing := false }).settle) ∧
      (r.state = .departed → command =
        .next
          (if r.recoupled then (flipped true id).settle
          else
            ((flipped true fun r => { r with recoupled := true, enrollTimer := some r.enrollTimeout }).offer p
              .recall).settle))) ∧
    (s.power = .run → r.reads = true →
      (r.state = .vacant → command = .next (flipped false id).settle) ∧
      (r.state = .coupled ∨ r.state = .silent → command =
        .next (flipped false fun r => { r with state := .vacant, enrollTimer := none }).settle) ∧
      (r.state = .departed → command =
        .next
          (if r.recoupled then (flipped false fun r => { r with recoupled := false, enrollTimer := none }).settle
          else (flipped false id).settle))) ∧
    (s.power = .rest →
      let flagged : State :=
        { s with
          cd := s.cd.set p !r.detect
          positions :=
            s.positions.modify p fun r =>
              { r with
                detect := !r.detect
                filterCount := 0
                coupleEdge := r.coupleEdge || !r.reads
                uncoupleEdge := r.uncoupleEdge || r.reads } }
      command = .next (if r.wakeEnable then flagged.wake 0 else flagged))

/-- An uncouple edge in ENROLLED or MUTE is the departure of the position (R40, R60, R74, R75, R85, R133): DEPARTED with
the hold timer started, or VACANT with its records purged at a hold time of 0; UNCOUPLED begins; the channel is flushed
and a transfer on it marked discarded; the assembly record and the sample list are emptied; every BREAK that ends at the
position is cleared. In their order: the departure claims of the twelve circuit subjects, each of which takes a PENDING
notice out of its slot and owes it, and leaves a notice in service and a subject without a notice as they are (R161);
the clearing of the BREAKs, F0 to F7; at a hold time of 0 the purge; the position claims and the scan. The order of the
claims of R74, the clearing and the purge is the model's reading (log 24). That the position claim comes after the purge
too is the model's choice: R75 lists it, as step 6 of R74, before the purge, and R81 works it out after all of the
event's changes (log 12). That CDp stands at the new filtered level is the model's reading (log 23). The assembly record
cleared under a receive from ENROLLED is kept for this instant, in which R72 still takes its HELLO (ReceiveEnds; log
34). -/
def Obligations.Departure : Prop :=
  (∀ (s : State) (p : Fin 4), s.Awake → (s.positions.get p).reads = true →
    (s.positions.get p).state = .enrolled ∨ (s.positions.get p).state = .mute →
    ∃ t, exec (.detectFilterChange p) s = .next t ∧
      t =
        { s with
          cd := s.cd.set p !(s.positions.get p).detect
          positions := t.positions
          link :=
            { s.link with
              discarded := s.link.discarded || s.link.engine.activeOn p
              cut :=
                if s.link.engine = .rxActive p then
                  (if (s.positions.get p).state = .enrolled then some (s.assembly.get p) else none)
                else s.link.cut
              channels :=
                s.link.channels.modify p fun c =>
                  { c with
                    queue := if s.link.engine.inFlight p then c.queue.take 1 else []
                    attempts := if s.link.engine.inFlight p then c.attempts else 0 } }
          assembly := s.assembly.set p .idle
          samples := s.samples.modify p fun m => { m with list := [], timer := none }
          feeds := t.feeds
          circuits := t.circuits
          notices := t.notices } ∧
      (∀ q, q ≠ p → t.positions.get q = { s.positions.get q with claimedHead := (s.positions.get q).head }) ∧
      (let r := s.positions.get p
       let left : Position :=
        { r with
          state := if s.holdTime = 0 then .vacant else .departed
          detect := !r.detect
          filterCount := 0
          uncoupleEdge := false
          recoupled := false
          enrollTimer := none
          welcome := .done
          holdTimer := if s.holdTime = 0 then none else some (s.holdTime * 1000000)
          uncoupled := true
          serial := if s.holdTime = 0 then none else r.serial
          count := if s.holdTime = 0 then 0 else r.count }
       t.positions.get p = { left with claimedHead := left.head }) ∧
      (s.holdTime = 0 → t.circuits.get p = []) ∧
      (s.holdTime ≠ 0 →
        (∀ f, t.feeds.get f =
          match s.feeds.get f with
          | .broken start stop => if stop = p then .none else .broken start stop
          | other => other) ∧
        ∀ q, t.circuits.get q =
          (s.circuits.get q).map fun c =>
            if c.verdict = .shadowed ∧ ∃ start, s.feeds.get c.feed = .broken start p then
              { c with verdict := .unseen, streak := 0 }
            else c) ∧
      (let gone : State :=
        { s with
          cd := s.cd.set p !(s.positions.get p).detect
          positions :=
            s.positions.modify p fun r =>
              { r with
                state := if s.holdTime = 0 then .vacant else .departed
                detect := !r.detect
                filterCount := 0
                uncoupleEdge := false
                recoupled := false
                enrollTimer := none
                welcome := .done
                holdTimer := if s.holdTime = 0 then none else some (s.holdTime * 1000000)
                uncoupled := true }
          link := t.link
          assembly := t.assembly
          samples := t.samples }
       let claimed : State :=
        ([0, 1, 2, 3, 4, 5, 6, 7, 8, 9, 10, 11] : List (Fin 12)).foldl (fun u c => u.departCircuit p c) gone
       let cleared : State :=
        ([0, 1, 2, 3, 4, 5, 6, 7] : List (Fin 8)).foldl
          (fun u f =>
            match u.feeds.get f with
            | .broken _ stop => if stop = p then u.clearCondition f else u
            | .none => u
            | .driverDead => u
            | .driverStuck => u)
          claimed
       t = (if s.holdTime = 0 then cleared.purge p else cleared).settle)) ∧
  ∀ (s : State) (p : Fin 4) (c : Fin 12), s.NoticesSound →
    let n := s.notices
    (∀ x ∈ n.queue, x.subject = .circuit p c → x.service = .pending → s.departCircuit p c =
      { s with
        notices :=
          { n.setAnnounce (.circuit p c) (if x.kind = .cleared then .owedClear else .owedFault x.kind) with
            queue := n.queue.filter fun y => y.slot != x.slot
            scanDue := true } }) ∧
    ((∀ x ∈ n.queue, x.subject = .circuit p c → x.service ≠ .pending) → s.departCircuit p c = s)

/-- The enroll timer runs out (R68, R73): COUPLED becomes SILENT and is asked again, SILENT is asked again, a recoupled
DEPARTED position is purged and becomes SILENT, and an OWED welcome is offered again. The hold timer runs out in
DEPARTED (R75): the records are purged and the position is evaluated from its level. A purge (R78) removes the records,
the serial and the count, withdraws every circuit subject that was held, clears the BREAKs that end at the position and
makes passes for F0 to F7 from the next position; that the clearing comes before the passes is the model's reading (log
25). A withdrawal takes a PENDING notice out, marks one in service RESOLVED, and leaves the subject NONE where no notice
is held (R162). -/
def Obligations.PositionTimers : Prop :=
  (∀ (s : State) (p : Fin 4), s.Awake →
    let r := s.positions.get p
    let asked (s : State) (state : PositionState) : State :=
      (s.updPosition p fun r => { r with state := state, enrollTimer := some r.enrollTimeout }).offer p .recall
    (r.enrollTimer ≠ none →
      (r.state = .coupled ∨ r.state = .silent → exec (.enrollTimerExpiry p) s = .next (asked s .silent).settle) ∧
      (r.state = .departed → r.recoupled = true → exec (.enrollTimerExpiry p) s =
        .next
          (asked ((s.purge p).updPosition p fun r => { r with holdTimer := none, recoupled := false }) .silent).settle) ∧
      (r.state = .enrolled ∨ r.state = .mute → r.welcome = .owed → exec (.enrollTimerExpiry p) s =
        .next
          (if (s.link.channels.get p).enabled = true ∧ (s.link.channels.get p).queue.length < 3 then
            ((s.offer p (.welcome p)).updPosition p fun r => { r with welcome := .waiting, enrollTimer := none }).settle
          else (s.updPosition p fun r => { r with enrollTimer := some r.enrollTimeout }).settle))) ∧
    (r.holdTimer ≠ none → r.state = .departed → exec (.holdTimerExpiry p) s =
      .next
        (let ended := (s.purge p).updPosition p fun r => { r with recoupled := false, holdTimer := none }
         (if r.reads then asked ended .coupled
          else ended.updPosition p fun r => { r with state := .vacant, enrollTimer := none }).settle))) ∧
  (∀ (s : State) (p : Fin 4),
    let emptied : State :=
      { s with
        circuits := s.circuits.set p []
        positions := s.positions.modify p fun r => { r with serial := none, count := 0 } }
    let withdrawn : State :=
      (([0, 1, 2, 3, 4, 5, 6, 7, 8, 9, 10, 11] : List (Fin 12)).filter fun c =>
        decide (c.val < (s.circuits.get p).length)).foldl (fun u c => u.withdrawCircuit p c) emptied
    let cleared : State :=
      ([0, 1, 2, 3, 4, 5, 6, 7] : List (Fin 8)).foldl
        (fun u f =>
          match u.feeds.get f with
          | .broken _ stop => if stop = p then u.clearCondition f else u
          | .none => u
          | .driverDead => u
          | .driverStuck => u)
        withdrawn
    s.purge p = ([0, 1, 2, 3, 4, 5, 6, 7] : List (Fin 8)).foldl (fun u f => u.pass f (p.val + 1) none) cleared) ∧
  ∀ (s : State) (p : Fin 4) (c : Fin 12), s.NoticesSound →
    let n := s.notices
    (∀ x ∈ n.queue, x.subject = .circuit p c →
      (x.service = .pending → s.withdrawCircuit p c =
        { s with
          notices :=
            { n.setAnnounce (.circuit p c) .none with
              queue := n.queue.filter fun y => y.slot != x.slot
              scanDue := true } }) ∧
      ∀ mark, x.service = .inService mark → s.withdrawCircuit p c =
        { s with
          notices :=
            { n with
              queue := n.queue.map fun y => if y.slot = x.slot then { y with service := .inService .resolved } else y } }) ∧
    ((∀ x ∈ n.queue, x.subject ≠ .circuit p c) →
      s.withdrawCircuit p c = { s with notices := n.setAnnounce (.circuit p c) .none })

/-! ## Sampling -/

/-- The sample timer runs out (R86, R87): it starts again from a full period, and unless the list holds two records or
the queue refuses the word a QUEUED record is appended and SAMPLE offered; its tag is the counter, advanced by one where
a record of the list has that tag, and the counter is the tag plus one. -/
def Obligations.SampleTimerExpiry : Prop :=
  ∀ (s : State) (p : Fin 4), s.Awake →
    let m := s.samples.get p
    let c := s.link.channels.get p
    let tag := if ∃ r ∈ m.list, r.tag = m.nextTag then m.nextTag + 1 else m.nextTag
    m.timer ≠ none → exec (.sampleTimerExpiry p) s =
      .next
        (if m.list.length < 2 ∧ c.enabled = true ∧ c.queue.length < 3 then
          { s with
            samples :=
              s.samples.modify p fun m =>
                { m with
                  timer := some (s.sampling.period * 1000)
                  list := m.list ++ [{ tag := tag, outstanding := none }]
                  nextTag := tag + 1 }
            link :=
              { s.link with
                channels := s.link.channels.modify p fun c => { c with queue := c.queue ++ [.sample tag] } } }
        else
          { s with
            samples := s.samples.modify p fun m => { m with timer := some (s.sampling.period * 1000) } })

/-- The deadline of an OUTSTANDING record runs out (R91): the record goes, the mute streak and the missed count increase
by one up to 7 and 255, and an ENROLLED position whose streak is then at or above the mute count becomes MUTE. That the
record goes while an older one stays in the list, which R84 speaks against, is the model's choice (log 35). -/
def Obligations.DeadlineExpiry : Prop :=
  ∀ (s : State) (p : Fin 4) (tag : BitVec 4), s.Awake →
    let due (r : SampleRecord) : Bool := decide (r.tag = tag) && r.outstanding.isSome
    let streak := min 7 ((s.samples.get p).mute + 1)
    (∃ r ∈ (s.samples.get p).list, due r = true) → exec (.deadlineExpiry p tag) s =
      .next
        ({ s with
            samples :=
              s.samples.modify p fun m =>
                { m with
                  list := m.list.filter fun r => !due r
                  mute := streak
                  missed := min 255 (m.missed + 1) }
            positions :=
              s.positions.modify p fun r =>
                { r with
                  state :=
                    if r.state = PositionState.enrolled ∧ s.sampling.muteCount ≤ streak then .mute else r.state } }).settle

/-! ## Events without a cause -/

/-- An event whose cause the present state cannot have changes nothing: the model's choice (log 4). A release while RSTN
is not asserted; an event of an engine state that is not the present one; the expiry of a timer that is stopped or of a
deadline that no record has; and in REST every event of a mechanism that is frozen there (R175). -/
def Obligations.EventsWithoutCause : Prop :=
  ∀ s : State, s.resetAsserted = false → s.Quiet →
    (∀ cd, exec (.pinResetRelease cd) s = .next s) ∧
    (s.link.engine ≠ .rxIdle → (∀ channels, exec (.startBit channels) s = .next s) ∧ exec .transmitStart s = .next s) ∧
    ((∀ p, s.link.engine ≠ .rxActive p) →
      exec .wordTimeout s = .next s ∧ ∀ data parity stop, exec (.receiveEnd data parity stop) s = .next s) ∧
    ((∀ p, s.link.engine ≠ .txSetup p) → exec .inhibitSettleEnd s = .next s) ∧
    ((∀ p, s.link.engine ≠ .txWait p) → exec .firstFallingEdge s = .next s ∧ exec .txNoClock s = .next s) ∧
    ((∀ p, s.link.engine ≠ .txActive p) →
      exec .transmitCatch s = .next s ∧ exec .noCatch s = .next s ∧ exec .transmitTimeout s = .next s) ∧
    (s.link.engine ≠ .settle → exec .settleEnd s = .next s) ∧
    (∀ p, (s.positions.get p).enrollTimer = none → exec (.enrollTimerExpiry p) s = .next s) ∧
    (∀ p, (s.positions.get p).holdTimer = none → exec (.holdTimerExpiry p) s = .next s) ∧
    (∀ p, (s.samples.get p).timer = none → exec (.sampleTimerExpiry p) s = .next s) ∧
    (∀ p tag, (∀ r ∈ (s.samples.get p).list, r.tag = tag → r.outstanding = none) →
      exec (.deadlineExpiry p tag) s = .next s) ∧
    (s.power = .rest →
      (∀ g, exec (.stepExpiry g) s = .next s) ∧ (∀ fs, exec (.senseTick fs) s = .next s) ∧
      ∀ p, exec (.gapTimerExpiry p) s = .next s ∧ exec (.wakeSettleEnd p) s = .next s ∧
        exec (.enrollTimerExpiry p) s = .next s ∧ exec (.holdTimerExpiry p) s = .next s ∧
        exec (.sampleTimerExpiry p) s = .next s ∧ ∀ tag, exec (.deadlineExpiry p tag) s = .next s)

/-! ## Waking -/

/-- In REST a start bit on an open channel, the assertion of LCS and any lighting command wake the part; a start bit on
no open channel does not, and nor does one in RUN (R41, R42, R142, R178). A wake is one event: RUN, the engine in
RX_IDLE with a new listen interval, 120 µs of settle on the channels whose start bit was seen, then the pending edges of
positions 1 to 4, of two flags the edge away from the present level first (R63, R179). That a lighting command taken at
rest implies the assertion of its LCS is the model's reading (log 9). An edge does what DetectEdges and Departure say it
does in RUN, before the claims with which the event ends (R66, R67, R74). -/
def Obligations.Waking : Prop :=
  (∀ s : State, s.resetAsserted = false → s.power = .rest →
    (∀ channels seen : BitVec 4,
      (∀ p : Fin 4, seen.getLsbD p.val =
        (channels.getLsbD p.val && (s.link.channels.get p).enabled && (s.positions.get p).wakeEnable)) →
      exec (.linkWakeStartBit channels) s = .next (if seen = 0 then s else s.wake seen)) ∧
    exec .lcsAssert s = .next { s.wake 0 with port := { (s.wake 0).port with lcs := .opened } } ∧
    ∀ c : Instr, c.onLighting = true → exec c s = exec c (s.wake 0)) ∧
  (∀ s : State, s.Awake →
    exec .lcsAssert s = .next { s with port := { s.port with lcs := .opened } } ∧
    ∀ channels, exec (.linkWakeStartBit channels) s = .next s) ∧
  (∀ (s : State) (seen : BitVec 4),
    let roused : State :=
      { s with
        power := .run
        link :=
          { s.link with
            engine := .rxIdle
            timer := 1000
            discarded := false
            channels :=
              s.link.channels.map fun p c => { c with wakeHold := if seen.getLsbD p.val then some 120 else none } } }
    s.wake seen =
      ((((roused.processPending 0).processPending 1).processPending 2).processPending 3).settle ∧
    (s.wake seen).power = .run ∧ (s.wake seen).link.engine = .rxIdle ∧
    ∀ p, ((s.wake seen).positions.get p).coupleEdge = false ∧
      ((s.wake seen).positions.get p).uncoupleEdge = false) ∧
  (∀ (s : State) (p : Fin 4),
    let r := s.positions.get p
    s.processPending p =
      if r.coupleEdge = true ∧ r.uncoupleEdge = true then
        if r.reads then (s.processEdge p false).processEdge p true else (s.processEdge p true).processEdge p false
      else if r.coupleEdge then s.processEdge p true
      else if r.uncoupleEdge then s.processEdge p false
      else s) ∧
  ∀ (s : State) (p : Fin 4),
    let r := s.positions.get p
    let coupled (f : Position → Position) : State :=
      { s with positions := s.positions.modify p fun r => f { r with coupleEdge := false } }
    let uncoupled (f : Position → Position) : State :=
      { s with positions := s.positions.modify p fun r => f { r with uncoupleEdge := false } }
    (s.processEdge p true =
      match r.state with
      | .vacant =>
        (coupled fun r => { r with state := .coupled, enrollTimer := some r.enrollTimeout }).offer p .recall
      | .coupled => coupled id
      | .silent => coupled id
      | .enrolled => coupled fun r => { r with detectMissing := false }
      | .mute => coupled fun r => { r with detectMissing := false }
      | .departed =>
        if r.recoupled then coupled id
        else (coupled fun r => { r with recoupled := true, enrollTimer := some r.enrollTimeout }).offer p .recall) ∧
    (s.processEdge p false =
      match r.state with
      | .vacant => uncoupled id
      | .coupled => uncoupled fun r => { r with state := .vacant, enrollTimer := none }
      | .silent => uncoupled fun r => { r with state := .vacant, enrollTimer := none }
      | .enrolled => s.departed p
      | .mute => s.departed p
      | .departed =>
        if r.recoupled then uncoupled fun r => { r with recoupled := false, enrollTimer := none } else uncoupled id)

/-! ## Verdicts and attribution -/

/-- The classification of a reading by the expected drive, the volt bit, the current class and the low-current field
(R103). -/
def Obligations.ClassificationTable : Prop :=
  ∀ (current : CurrentClass) (low : Bool),
    classify .full false current low = .disagree .feedLoss ∧
    classify .dim false current low = .disagree .feedLoss ∧
    classify .undriven false current low = .quiet ∧
    classify .full true .none low = .disagree .open ∧
    classify .full true .low low = (if low then .agree else .disagree .degraded) ∧
    classify .full true .nominal low = .agree ∧
    classify .full true .high low = .disagree .overload ∧
    classify .dim true .none low = .disagree .open ∧
    classify .dim true .low low = .agree ∧
    classify .dim true .nominal low = .agree ∧
    classify .dim true .high low = .disagree .overload ∧
    classify .undriven true current low = .disagree .backfeed

/-- What an outcome makes of a circuit record in each verdict (R104 to R112, R115). From RECOVERING(FEED_LOSS) another
kind makes FAULT(FEED_LOSS) with that candidate, and the replacement at a confirm threshold of 1 follows the
evaluation (R111). -/
def Obligations.VerdictTable : Prop :=
  ∀ (j : Judging) (r : Circuit),
    let healthy : Circuit := { r with verdict := .good, streak := 0 }
    let confirmed (k : FaultKind) : Circuit :=
      { r with verdict := .fault k none (if k = .feedLoss then some .deferred else none), streak := 0 }
    let suspected (k : FaultKind) (streak : Nat) : Circuit :=
      if j.confirm ≤ streak then confirmed k else { r with verdict := .suspect k, streak := streak }
    let next := min 15 (r.streak + 1)
    let evidence (k : FaultKind) (o : Finding) : Prop := o = .agree ∧ k ≠ .backfeed ∨ o = .quiet ∧ k = .backfeed
    (r.verdict = .unseen ∨ r.verdict = .good →
      r.judge j .agree = { r with verdict := .good } ∧ r.judge j .quiet = r ∧
        ∀ k, r.judge j (.disagree k) = suspected k 1) ∧
    (∀ k, r.verdict = .suspect k →
      r.judge j .agree = healthy ∧ r.judge j .quiet = (if k = .backfeed then healthy else r) ∧
        r.judge j (.disagree k) = suspected k next ∧ ∀ k', k' ≠ k → r.judge j (.disagree k') = suspected k' 1) ∧
    (∀ k candidate hold, r.verdict = .fault k candidate hold →
      let replaced (k' : FaultKind) (streak : Nat) : Circuit :=
        if j.confirm ≤ streak then confirmed k' else { r with verdict := .fault k (some k') hold, streak := streak }
      r.judge j (.disagree k) = { r with verdict := .fault k none hold, streak := 0 } ∧
      (∀ k', k' ≠ k → r.judge j (.disagree k') = replaced k' (if candidate = some k' then next else 1)) ∧
      ∀ o, o = .agree ∨ o = .quiet →
        (evidence k o → j.latched.getLsbD k.place = false →
          r.judge j o = if j.clear ≤ 1 then healthy else { r with verdict := .recovering k hold, streak := 1 }) ∧
        (¬ evidence k o ∨ j.latched.getLsbD k.place = true → r.judge j o = r)) ∧
    (∀ k hold, r.verdict = .recovering k hold →
      r.judge j (.disagree k) = { r with verdict := .fault k none hold, streak := 0 } ∧
      (∀ k', k' ≠ k → r.judge j (.disagree k') =
        if k ≠ .feedLoss ∧ j.confirm ≤ 1 then confirmed k'
        else { r with verdict := .fault k (some k') hold, streak := 1 }) ∧
      ∀ o, o = .agree ∨ o = .quiet →
        (evidence k o →
          r.judge j o = if j.clear ≤ next then healthy else { r with verdict := .recovering k hold, streak := next }) ∧
        (¬ evidence k o → r.judge j o = r)) ∧
    (r.verdict = .shadowed → ∀ o, r.judge j o = r)

/-- A feed condition that is written shadows every circuit of the function at the newly covered positions, and one that
is cleared leaves every SHADOWED circuit of the function UNSEEN with streak 0, at every position; nothing else but the
notice unit changes (R117, R118, R124, R126, R127, R130). The claims to the notice unit: a circuit in FAULT or
RECOVERING that is shadowed is resolved (R117), in order of position and then index; then a kind that differs from the
condition's before is raised for the feed, and NONE resolves it (R125). -/
def Obligations.ConditionsShadow : Prop :=
  (∀ p, FeedCondition.none.covers p = false ∧ FeedCondition.driverDead.covers p = true ∧
    FeedCondition.driverStuck.covers p = true ∧
    ∀ start stop, ((FeedCondition.broken start stop).covers p = true ↔ start ≤ p)) ∧
  ∀ (s : State) (f : Fin 8) (after : FeedCondition), (∀ p, (s.circuits.get p).length ≤ 12) →
    (let t := s.setCondition f after
     t =
      { s with
        feeds := s.feeds.set f after
        circuits :=
          s.circuits.map fun p l =>
            l.map fun r =>
              if r.feed = f ∧ after.covers p = true ∧ (s.feeds.get f).covers p = false ∧ r.verdict ≠ .shadowed then
                { r with verdict := .shadowed, streak := 0 }
              else r
        notices := t.notices }) ∧
    (let t := s.clearCondition f
     t =
      { s with
        feeds := s.feeds.set f .none
        circuits :=
          s.circuits.map fun _ l =>
            l.map fun r =>
              if r.feed = f ∧ r.verdict = .shadowed then { r with verdict := .unseen, streak := 0 } else r
        notices := t.notices }) ∧
    (let kind (x : FeedCondition) : Option FeedKind :=
      match x with
      | .none => Option.none
      | .driverDead => some .driverDead
      | .driverStuck => some .driverStuck
      | .broken _ _ => some .couplingBreak
     let shadow (u : State) (p : Fin 4) (c : Fin 12) : State :=
      match u.circuit p c with
      | some r =>
        if r.feed = f then
          let written : State :=
            { u with
              circuits :=
                u.circuits.set p ((u.circuits.get p).set c.val { r with verdict := .shadowed, streak := 0 }) }
          match r.verdict with
          | .shadowed => u
          | .fault _ _ _ => written.resolve (.circuit p c)
          | .recovering _ _ => written.resolve (.circuit p c)
          | _ => written
        else u
      | none => u
     let covered : List (Fin 4) :=
      [0, 1, 2, 3].filter fun p => after.covers p && !(s.feeds.get f).covers p
     let shadowed : State :=
      covered.foldl
        (fun u p => ([0, 1, 2, 3, 4, 5, 6, 7, 8, 9, 10, 11] : List (Fin 12)).foldl (fun u c => shadow u p c) u)
        { s with feeds := s.feeds.set f after }
     s.setCondition f after =
      match kind after with
      | none => shadowed.resolve (.feed f)
      | some k => if kind (s.feeds.get f) = some k then shadowed else shadowed.raise (.feed f) (.feed k)) ∧
    s.clearCondition f =
      ({ s with
          feeds := s.feeds.set f .none
          circuits :=
            s.circuits.map fun _ l =>
              l.map fun r =>
                if r.feed = f ∧ r.verdict = .shadowed then { r with verdict := .unseen, streak := 0 } else r } :
        State).resolve (.feed f)

/-- An evaluation of a function at a position (R128 to R130): LOCAL where some circuit of it still shows feed; a BREAK
from the link behind its supplier to the position where every circuit has lost feed and the supplier is live; DEFERRED
else. The supplier is the nearest position below that holds a circuit of the function, live when one of them is GOOD, or
the tractor, live when the function's sense condition is NONE. A hold outcome writes the hold of the FAULT(FEED_LOSS)
circuits only. A hold that turns from DEFERRED to LOCAL raises the circuit's FEED_LOSS, in index order (R116). A pass
from a position evaluates in turn, nearest the tractor first, each position from there that is ENROLLED or MUTE, is not
covered by the condition at that moment, and holds a DEFERRED circuit of the function or is the entry's (R131). -/
def Obligations.FeedEvaluation : Prop :=
  ∀ (s : State) (f : Fin 8) (p : Fin 4),
    let here (c : Circuit) : Prop := c ∈ s.circuits.get p ∧ c.feed = f
    let showsFeed : Prop :=
      ∃ c, here c ∧
        (c.verdict = .good ∨ (∃ k h, c.verdict = .recovering k h) ∨ ∃ k j h, k ≠ .feedLoss ∧ c.verdict = .fault k j h)
    let lost : Prop := ∀ c, here c → ∃ j h, c.verdict = .fault .feedLoss j h
    let holds (q : Fin 4) : Prop := ∃ c ∈ s.circuits.get q, c.feed = f
    let behindUnit (q : Fin 4) : Prop :=
      q < p ∧ holds q ∧ (∀ r, q < r → r < p → ¬ holds r) ∧ ∃ c ∈ s.circuits.get q, c.feed = f ∧ c.verdict = .good
    let behindTractor : Prop := (∀ q, q < p → ¬ holds q) ∧ (s.drive.functions.get f).sense.condition = .none
    (showsFeed → s.evaluate f p = s.holdOutcomes f p .local) ∧
    (∀ q, ¬ showsFeed → lost → behindUnit q → s.evaluate f p = s.setCondition f (.broken (q + 1) p)) ∧
    (¬ showsFeed → lost → behindTractor → s.evaluate f p = s.setCondition f (.broken 0 p)) ∧
    (¬ showsFeed → ¬ (lost ∧ ((∃ q, behindUnit q) ∨ behindTractor)) → s.evaluate f p = s.holdOutcomes f p .deferred) ∧
    (∀ outcome, (s.circuits.get p).length ≤ 12 → ∀ q, ((s.holdOutcomes f p outcome).circuits.get q) =
      if q = p then
        (s.circuits.get p).map fun c =>
          if c.feed = f ∧ c.verdict.lostFeed = true then
            { c with
              verdict :=
                match c.verdict with
                | .fault k j _ => .fault k j (some outcome)
                | other => other }
          else c
      else s.circuits.get q) ∧
    (∀ outcome, s.holdOutcomes f p outcome =
      ([0, 1, 2, 3, 4, 5, 6, 7, 8, 9, 10, 11] : List (Fin 12)).foldl
        (fun u i =>
          match u.circuit p i with
          | some c =>
            if c.feed = f then
              match c.verdict with
              | .fault .feedLoss j hold =>
                let written : State :=
                  { u with
                    circuits :=
                      u.circuits.set p
                        ((u.circuits.get p).set i.val { c with verdict := .fault .feedLoss j (some outcome) }) }
                if hold = some .deferred ∧ outcome = .local then
                  written.raise (.circuit p i) (.circuit .feedLoss)
                else written
              | _ => u
            else u
          | none => u)
        s) ∧
    ∀ (start : Nat) (entry : Option (Fin 4)), s.pass f start entry =
      (([0, 1, 2, 3] : List (Fin 4)).filter fun r => decide (start ≤ r.val)).foldl
        (fun u r =>
          let enrolled := (u.positions.get r).state = .enrolled ∨ (u.positions.get r).state = .mute
          let deferred : Bool :=
            (u.circuits.get r).any fun c =>
              c.feed == f &&
                match c.verdict with
                | .fault .feedLoss _ (some .deferred) => true
                | _ => false
          if enrolled ∧ (u.feeds.get f).covers r = false ∧ (deferred = true ∨ entry = some r) then u.evaluate f r
          else u)
        s

/-! ## Notices -/

/-- The level of a notice by its subject and kind (R153), and the position claims with which an event ends (R81): the
first active condition in the order SILENT or MUTE, LINK_FAULT, DETECT_MISSING, UNCOUPLED heads the position; a head
that the event has changed raises its kind for the position, and a head that is gone resolves it; then the scan runs
where it is due (R163). The order of the positions, and the fields that hold the head before the event and that a scan
is due, are the model's own (log 12). -/
def Obligations.NoticeLevels : Prop :=
  ∀ (s : State),
    (∀ x, s.level x .cleared = 1) ∧
    (∀ p k c (r : Circuit), s.circuit p c = some r →
      s.level (.circuit p c) (.circuit k) = min 7 (s.notices.severity.get r.feed + if r.required then 1 else 0)) ∧
    (∀ f k, s.level (.feed f) (.feed k) = min 7 (s.notices.severity.get f + 1)) ∧
    ∀ p,
      s.level (.position p) (.position .silent) = s.notices.positionLevel ∧
      s.level (.position p) (.position .mute) = s.notices.positionLevel ∧
      s.level (.position p) (.position .linkFault) = s.notices.positionLevel ∧
      s.level (.position p) (.position .detectMissing) = s.notices.detectLevel ∧
      s.level (.position p) (.position .uncoupled) = 2 ∧
      (let r := s.positions.get p
       r.head =
        if r.state = .silent then some .silent
        else if r.state = .mute then some .mute
        else if r.linkFault = true then some .linkFault
        else if r.detectMissing = true then some .detectMissing
        else if r.uncoupled = true then some .uncoupled
        else none) ∧
      (let r := s.positions.get p
       let claimed : State := { s with positions := s.positions.modify p fun r => { r with claimedHead := r.head } }
       s.positionClaim p =
        if r.head = r.claimedHead then s
        else
          match r.head with
          | some c => claimed.raise (.position p) (.position c)
          | none => claimed.resolve (.position p)) ∧
      (let claimed : State := (((s.positionClaim 0).positionClaim 1).positionClaim 2).positionClaim 3
       s.settle =
        if claimed.notices.scanDue = true then
          ({ claimed with notices := { claimed.notices with scanDue := false } } : State).scan
        else claimed)

/-- A notice is takeable when it is PENDING, its level exceeds the effective threshold and the in-service stack has
room (R164); DATN is asserted exactly when TAKE would deliver a notice, that is, while one is takeable (R165); LATN
while the deferred error is held (R144). All three outside pin reset. -/
def Obligations.AttentionLines : Prop :=
  ∀ (s : State) (top : Nat),
    let n := s.notices
    (match n.stack with
      | [] => top = 0
      | slot :: _ => ∃ x ∈ n.queue, x.slot = slot ∧ x.level = top ∧ ∀ y ∈ n.queue, y.slot = slot → y = x) →
    let threshold := max n.mask (max top (if n.holdAll = true ∧ n.stack ≠ [] then 6 else 0))
    n.threshold = threshold ∧
    (∀ x, n.takeable x = true ↔ x.service = .pending ∧ threshold < x.level ∧ n.stack.length < 3) ∧
    (s.datn = true ↔ s.resetAsserted = false ∧ ∃ x ∈ n.queue, n.takeable x = true) ∧
    (s.datn = true ↔ s.resetAsserted = false ∧ ∃ data, n.takeReply = 0x80 :: data) ∧
    (s.latn = true ↔ s.resetAsserted = false ∧ s.port.error ≠ none)

/-- The claims on a subject (R157 to R160). A raise-or-update changes the PENDING notice held in place, marks the one in
service by the delivered kind, or places a new notice: in the lowest free slot; in the slot of the PENDING notice it
displaces, of the lowest level below its own and the latest of those, whose subject is then owed; or nowhere, its
subject owed. A resolve removes a PENDING fault, marks the notice in service, raises a CLEARED for an acknowledged
subject and ends what is owed of a fault. -/
def Obligations.NoticeClaims : Prop :=
  ∀ (s : State) (subject : Subject), s.NoticesSound →
    let n := s.notices
    let placed (from_ : NoticeUnit) (t : State) (slot : Fin 16) (kind : NoticeKind) (level : Nat) : Prop :=
      t = { s with notices := t.notices } ∧
      (∀ y, y ∈ t.notices.queue ↔
        (y ∈ n.queue ∧ y.slot ≠ slot) ∨
          y = { slot := slot, subject := subject, kind := kind, level := level, service := .pending, arrival := n.counter }) ∧
      t.notices.counter = n.counter + 1 ∧ t.notices.stack = n.stack ∧ t.notices.scanDue = n.scanDue ∧
      ∀ x, t.notices.announceOf x = if x = subject then .queued else from_.announceOf x
    let lowestFree (slot : Fin 16) : Prop :=
      (∀ y ∈ n.queue, y.slot ≠ slot) ∧ ∀ lower, lower < slot → ∃ y ∈ n.queue, y.slot = lower
    let full : Prop := ∀ slot, ∃ y ∈ n.queue, y.slot = slot
    let displaceable (level : Nat) (y : Notice) : Prop := y ∈ n.queue ∧ y.service = .pending ∧ y.level < level
    (∀ kind,
      let t := s.raise subject kind
      (∀ x ∈ n.queue, x.subject = subject → x.service = .pending →
        t =
          { s with
            notices :=
              { n with
                queue :=
                  n.queue.map fun y =>
                    if y.slot = x.slot then { y with kind := kind, level := s.level subject kind } else y } }) ∧
      (∀ x ∈ n.queue, ∀ mark, x.subject = subject → x.service = .inService mark →
        t =
          { s with
            notices :=
              { n with
                queue :=
                  n.queue.map fun y =>
                    if y.slot = x.slot then
                      { y with service := .inService (if kind = x.kind then .none else .superseded kind) }
                    else y } }) ∧
      ((∀ x ∈ n.queue, x.subject ≠ subject) →
        (∀ slot, lowestFree slot → placed n t slot kind (s.level subject kind)) ∧
        (∀ v, full → displaceable (s.level subject kind) v →
          (∀ y, displaceable (s.level subject kind) y → y ≠ v →
            v.level < y.level ∨ v.level = y.level ∧ (n.counter - v.arrival).toNat < (n.counter - y.arrival).toNat) →
          placed (n.setAnnounce v.subject (if v.kind = .cleared then .owedClear else .owedFault v.kind)) t v.slot kind
            (s.level subject kind)) ∧
        (full → (∀ y, ¬ displaceable (s.level subject kind) y) →
          t =
            { s with
              notices := n.setAnnounce subject (if kind = .cleared then .owedClear else .owedFault kind) }))) ∧
    (let t := s.resolve subject
     (∀ x ∈ n.queue, x.subject = subject → x.service = .pending →
        t =
          if x.kind = .cleared then s
          else
            { s with
              notices :=
                { n.setAnnounce subject .none with
                  queue := n.queue.filter fun y => y.slot != x.slot
                  scanDue := true } }) ∧
      (∀ x ∈ n.queue, ∀ mark, x.subject = subject → x.service = .inService mark →
        t =
          { s with
            notices :=
              { n with
                queue :=
                  n.queue.map fun y =>
                    if y.slot = x.slot then
                      { y with service := .inService (if x.kind = .cleared then .none else .resolved) }
                    else y } }) ∧
      (n.announceOf subject = .none ∨ n.announceOf subject = .owedClear → t = s) ∧
      (∀ kind, n.announceOf subject = .owedFault kind →
        t = { s with notices := n.setAnnounce subject .none }) ∧
      (n.announceOf subject = .acked →
        (full → (∀ y, ¬ displaceable 1 y) → t = { s with notices := n.setAnnounce subject .owedClear }) ∧
        ∀ slot, lowestFree slot → placed n t slot .cleared 1))

/-- TAKE and PEEK (R167): STACK_FULL at three notices in service, EMPTY with none takeable, else the takeable notice of
the highest level and the earliest arrival, which TAKE puts in service on top of the stack. PEEK gives the reply that
TAKE would and changes nothing. Both are served in RUN and in REST (R177). -/
def Obligations.TakeAndPeek : Prop :=
  ∀ s : State, s.resetAsserted = false →
    let n := s.notices
    (3 ≤ n.stack.length →
      exec .take s = .next (s.repliedDisplay [0xC3, 0, 0, 0, 0, 0, 0, 0]) ∧
      exec .peek s = .next (s.repliedDisplay [0xC3, 0, 0, 0, 0, 0, 0, 0])) ∧
    (n.stack.length < 3 → (∀ y ∈ n.queue, n.takeable y = false) →
      exec .take s = .next (s.repliedDisplay [0x83, 0, 0, 0, 0, 0, 0, 0]) ∧
      exec .peek s = .next (s.repliedDisplay [0x83, 0, 0, 0, 0, 0, 0, 0])) ∧
    ∀ x ∈ n.queue, n.takeable x = true →
      (∀ y ∈ n.queue, n.takeable y = true → y ≠ x →
        y.level < x.level ∨ y.level = x.level ∧ (n.counter - y.arrival).toNat < (n.counter - x.arrival).toNat) →
      exec .peek s = .next (s.repliedDisplay (0x80 :: x.delivery)) ∧
      exec .take s =
        .next
          { s.repliedDisplay (0x80 :: x.delivery) with
            notices :=
              { n with
                queue := n.queue.map fun y => if y.slot = x.slot then { y with service := .inService .none } else y
                stack := x.slot :: n.stack } }

/-- DONE (R168), in RUN and in REST: BAD_ARGUMENT, NOTHING_IN_SERVICE and NOT_TOP change nothing. The top notice is
popped: unmarked or RESOLVED it leaves its slot and the re-announce scan runs; SUPERSEDED it stays as PENDING with its
successor kind, a level worked out now and a new arrival number. The scan visits the sixty subjects in their order and
gives each one that is owed, but circuits of a position not ENROLLED or MUTE, the lowest free slot (R163). The order is
FEED 0 to 7, POSITION 1 to 4, then CIRCUIT by position and index. The scan is due where a resolve, a departure or a
withdrawal frees the slot of a PENDING notice and where a HELLO is accepted, and runs once, after the event's claims.
The order of the position claims, and the fields that hold the head before the event and that a scan is due, are the
model's choice (log 12). -/
def Obligations.DoneOfTheTop : Prop :=
  (∀ (s : State) (b : Byte), s.resetAsserted = false →
    let n := s.notices
    (16 ≤ b.toNat → exec (.done b) s = .next (s.repliedDisplay [0xC1, 0])) ∧
    ∀ slot : Fin 16, b.toNat = slot.val →
      (n.stack = [] → exec (.done b) s = .next (s.repliedDisplay [0xC5, 0])) ∧
      (∀ top rest, n.stack = top :: rest →
        (slot ≠ top → exec (.done b) s = .next (s.repliedDisplay [0xC4, 0])) ∧
        ∀ x mark, slot = top → n.inSlot top = some x → x.service = .inService mark →
          let removed (a : Announce) : NoticeUnit :=
            { n.setAnnounce x.subject a with
              queue := n.queue.filter fun y => y.slot != top
              stack := rest
              scanDue := false }
          (mark = .none → exec (.done b) s =
            .next
              { s.repliedDisplay [0x80, 0] with
                notices := removed (if x.kind = NoticeKind.cleared then .none else .acked) }.scan) ∧
          (mark = .resolved → exec (.done b) s =
            .next { s.repliedDisplay [0x84, 0] with notices := removed .none }.scan) ∧
          ∀ kind, mark = .superseded kind → exec (.done b) s =
            .next
              { s.repliedDisplay [0x85, byte kind.code] with
                notices :=
                  { n with
                    queue :=
                      n.queue.map fun y =>
                        if y.slot = top then
                          { y with
                            kind := kind
                            level := s.level x.subject kind
                            service := .pending
                            arrival := n.counter }
                        else y
                    stack := rest
                    counter := n.counter + 1 } })) ∧
  ∀ s : State,
    (let order : List Subject :=
      [.feed 0, .feed 1, .feed 2, .feed 3, .feed 4, .feed 5, .feed 6, .feed 7, .position 0, .position 1, .position 2,
          .position 3] ++
        ([0, 1, 2, 3] : List (Fin 4)).flatMap fun p =>
          ([0, 1, 2, 3, 4, 5, 6, 7, 8, 9, 10, 11] : List (Fin 12)).map fun c => .circuit p c
     s.scan = order.foldl State.scanSubject s) ∧
    (let claimed : State := (((s.positionClaim 0).positionClaim 1).positionClaim 2).positionClaim 3
     s.settle =
      if claimed.notices.scanDue = true then
        ({ claimed with notices := { claimed.notices with scanDue := false } } : State).scan
      else claimed) ∧
    (∀ p serial defs, (s.acceptHello p serial defs).notices.scanDue = true) ∧
    (s.NoticesSound → ∀ x ∈ s.notices.queue, x.service = .pending →
      (x.kind ≠ .cleared → (s.resolve x.subject).notices.scanDue = true) ∧
      ∀ p c, x.subject = .circuit p c →
        (s.departCircuit p c).notices.scanDue = true ∧ (s.withdrawCircuit p c).notices.scanDue = true) ∧
    ∀ subject,
      let skipped : Prop :=
        (∃ p c, subject = .circuit p c ∧ (s.positions.get p).state ≠ .enrolled ∧ (s.positions.get p).state ≠ .mute) ∨
          s.notices.freeSlot = none ∨ (s.notices.announceOf subject).owedKind = none
      (skipped → s.scanSubject subject = s) ∧
      ∀ slot kind, ¬ skipped → s.notices.freeSlot = some slot → (s.notices.announceOf subject).owedKind = some kind →
        s.scanSubject subject = { s with notices := s.notices.occupy slot subject kind (s.level subject kind) }

/-- SET_MASK writes the mask and hold-all where the mask is 0 to 6 and hold-all 0 or 1, and READ_NOTICE reports the
notice in a slot 0 to 15 or that it is free; an argument out of range is answered BAD_ARGUMENT with zero bytes. No
notice changes (R169, R171). The bytes of a subject, the kinds, the state and mark, and the data of a TAKE or PEEK that
delivers a notice are written out (11.3 to 11.5). -/
def Obligations.MaskAndReadNotice : Prop :=
  (∀ s : State, s.resetAsserted = false →
    (∀ mask hold : Byte, mask.toNat ≤ 6 → hold.toNat ≤ 1 → exec (.setMask mask hold) s =
      .next
        { s.repliedDisplay [0x80] with
          notices := { s.notices with mask := mask.toNat, holdAll := decide (hold.toNat = 1) } }) ∧
    (∀ mask hold : Byte, 6 < mask.toNat ∨ 1 < hold.toNat →
      exec (.setMask mask hold) s = .next (s.repliedDisplay [0xC1])) ∧
    (∀ b : Byte, 16 ≤ b.toNat → exec (.readNotice b) s = .next (s.repliedDisplay [0xC1, 0, 0, 0, 0, 0, 0, 0, 0])) ∧
    ∀ (b : Byte) (slot : Fin 16), b.toNat = slot.val →
      ((∀ x ∈ s.notices.queue, x.slot ≠ slot) →
        exec (.readNotice b) s = .next (s.repliedDisplay [0x80, 0, 0, 0, 0, 0, 0, 0, 0])) ∧
      ∀ x, s.notices.inSlot slot = some x → exec (.readNotice b) s =
        .next
          (s.repliedDisplay
            ([0x80, 1] ++ x.subject.bytes ++
              [byte x.kind.code, byte x.level, byte x.service.bits, byte x.arrival.toNat, byte (x.arrival.toNat / 256)]))) ∧
  ∀ x : Notice,
    let place : List Byte :=
      match x.subject with
      | .circuit p c => [1, byte (16 * (p.val + 1) + c.val)]
      | .position p => [2, byte (p.val + 1)]
      | .feed f => [3, byte f.val]
    x.subject.bytes = place ∧
    x.delivery =
      [byte x.slot.val] ++ place ++
        [byte x.kind.code, byte x.level, byte x.arrival.toNat, byte (x.arrival.toNat / 256)] ∧
    (∀ k : NoticeKind, k.code =
      match k with
      | .circuit .open => 1
      | .circuit .degraded => 2
      | .circuit .overload => 3
      | .circuit .feedLoss => 4
      | .circuit .backfeed => 5
      | .position .silent => 1
      | .position .mute => 2
      | .position .linkFault => 3
      | .position .detectMissing => 4
      | .position .uncoupled => 5
      | .feed .driverDead => 1
      | .feed .driverStuck => 2
      | .feed .couplingBreak => 3
      | .cleared => 15) ∧
    x.service.bits =
      match x.service with
      | .pending => 0
      | .inService .none => 1
      | .inService .resolved => 1 + 2 * 1
      | .inService (.superseded k) => 1 + 2 * 2 + 16 * k.code

/-! ## The lighting port -/

/-- The posted commands at the port, in RUN (R138, R140, R141, R181): arguments out of range are answered BAD_ARGUMENT,
before the queue is looked at; a full queue is answered QUEUE_FULL; else the command takes the tail with the next
sequence number and the reply QUEUED. The queue then runs until a head waits: FORGET and SET_COUPLING while the engine
is active on their channel, REST while it is not in RX_IDLE (R27). HEAD_EXECUTION runs it when the wait ends. That one
run of the queue is one event, with its position claims at the end, is the model's reading (log 11, log 32). A run
executes the next head that does not wait in the same event and stops at one that waits (R141). A SET_COUPLING that
disables the channel of a receive whose start bit fell at the same instant may have been executing already and then does
not wait (R23); whether they fell together is a free value (log 37). -/
def Obligations.LightingQueue : Prop :=
  (∀ i : Instr, i.isPosted = true → (i.posts = none ↔ i.wf = false)) ∧
  (∀ (s : State) (c : PostedCommand), s.waits c = true ↔
    (∃ p, c = .forget p ∧ s.link.engine.activeOn p = true) ∨
      (∃ p h w e t x, c = .setCoupling p h w e t x ∧ s.link.engine.activeOn p = true ∧
        ¬ (e = false ∧ (s.link.channels.get p).enabled = true ∧ s.link.engine = .rxActive p ∧ s.link.timer = 4000 ∧
          Config.disableUnderWay s.freeIndex = true)) ∨
      c = .rest ∧ s.link.engine ≠ .rxIdle) ∧
  (∀ (s : State) (i : Instr), s.Awake → i.isPosted = true →
    (i.posts = none → exec i s = .next (s.repliedLighting [0xC1, 0])) ∧
    ∀ c, i.posts = some c →
      (4 ≤ s.port.queue.length → exec i s = .next (s.repliedLighting [0xC2, 0])) ∧
      (s.port.queue.length < 4 →
        let accepted : State :=
          { s with
            port :=
              { s.port with
                queue := s.port.queue ++ [{ command := c, sequence := s.port.nextSeq }]
                nextSeq := s.port.nextSeq + 1
                lightingReply := [0x81, s.port.nextSeq]
                lcs := .taken (some s.port.nextSeq) } }
        exec i s = exec .headExecution accepted)) ∧
  (∀ (s : State) (n : Nat),
    s.runQueue 0 = s ∧ (s.port.queue = [] → s.runQueue n = s) ∧
    ∀ head rest, s.port.queue = head :: rest →
      (s.power = .run → s.waits head.command = false → s.runQueue (n + 1) =
        (({ s with port := { s.port with queue := rest } } : State).execute head).runQueue n) ∧
      (s.power = .rest ∨ s.waits head.command = true → s.runQueue n = s)) ∧
  ∀ s : State, s.Awake →
    (s.Quiet → s.port.queue = [] → exec .headExecution s = .next s) ∧
    ∀ head rest, s.port.queue = head :: rest →
      (s.Quiet → s.waits head.command = true → exec .headExecution s = .next s) ∧
      (s.waits head.command = false → exec .headExecution s =
        .next
          ((({ s with port := { s.port with queue := rest } } : State).execute head).runQueue rest.length).settle)

/-- SET_MODE and SET_DIM write the mode of the function, which is then resolved again; nothing else changes (R2, R3). -/
def Obligations.SetModeAndSetDim : Prop :=
  ∀ (s : State) (f : Byte) (function : Fin 8), s.Ready → f.toNat = function.val →
    let written (m : Mode) : State :=
      (s.served.updFunction function fun r => { r with mode := m }).withResolved (· == function)
    (∀ g, exec (.setMode f 0 g) s = .next (written .off)) ∧
    (∀ g, exec (.setMode f 1 g) s = .next (written .on)) ∧
    (∀ (g : Byte) (generator : Fin 4), g.toNat = generator.val →
      exec (.setMode f 2 g) s = .next (written (.cadence generator))) ∧
    ∀ duty : Byte, 1 ≤ duty.toNat → duty.toNat ≤ 16 → exec (.setDim f duty) s = .next (written (.dim duty.toNat))

/-- SET_CADENCE applies the cadence at once to a generator that no function's mode names, and stages it in one that is
in use (R10); RESTART_CADENCES restarts every named generator at step 0 with its staged cadence applied and resolves the
functions whose modes name them (R11). -/
def Obligations.CadenceCommands : Prop :=
  ∀ s : State, s.Ready →
    (∀ (g lo hi n w : Byte) (generator : Fin 4) (width : Fin 8), g.toNat = generator.val → 2 ≤ n.toNat → n.toNat ≤ 16 →
      w.toNat = width.val →
      let cadence : Cadence := { pattern := hi ++ lo, length := n.toNat, width := width }
      ((∀ f, (s.drive.functions.get f).mode ≠ .cadence generator) → exec (.setCadence g lo hi n w) s =
        .next
          (s.served.updGenerator generator fun _ =>
            { cadence := cadence, step := 0, remaining := Config.stepWidth width, staged := none })) ∧
      ((∃ f, (s.drive.functions.get f).mode = .cadence generator) → exec (.setCadence g lo hi n w) s =
        .next (s.served.updGenerator generator fun x => { x with staged := some cadence }))) ∧
    ∀ set : Byte, set.toNat ≤ 15 → exec (.restartCadences set) s =
      .next
        (({ s.served with
            drive :=
              { s.drive with
                generators :=
                  s.drive.generators.map fun g x =>
                    if set.getLsbD g.val then
                      { cadence := x.staged.getD x.cadence
                        step := 0
                        remaining := Config.stepWidth (x.staged.getD x.cadence).width
                        staged := none }
                    else x } }).withResolved fun f =>
          decide (∃ g : Fin 4, set.getLsbD g.val = true ∧ (s.drive.functions.get f).mode = Mode.cadence g))

/-- SET_OVERRIDE replaces the input's set and resolves the union of the old and the new (R7); SET_SAMPLING and
SET_JUDGING write their settings and change nothing else (R97, R114). -/
def Obligations.OverrideAndSettings : Prop :=
  ∀ s : State, s.Ready →
    (∀ (i set : Byte) (input : Fin 4), i.toNat = input.val → exec (.setOverride i set) s =
      .next
        (({ s.served with drive := { s.drive with assign := s.drive.assign.set input set } }).withResolved fun f =>
          inSet (s.drive.assign.get input) f || inSet set f)) ∧
    (∀ p t m g : Byte, 1 ≤ p.toNat → p.toNat ≤ 40 → 20 ≤ t.toNat → t.toNat ≤ 250 → 1 ≤ m.toNat → m.toNat ≤ 7 →
      g.toNat ≤ 100 → exec (.setSampling p t m g) s =
      .next
        { s.served with
          sampling := { period := 50 * p.toNat, timeout := t.toNat, muteCount := m.toNat, guard := g.toNat } }) ∧
    ∀ a b l : Byte, 1 ≤ a.toNat → a.toNat ≤ 15 → 1 ≤ b.toNat → b.toNat ≤ 15 → l.toNat ≤ 31 →
      exec (.setJudging a b l) s =
        .next { s.served with judging := { confirm := a.toNat, clear := b.toNat, latched := l.setWidth 5 } }

/-- SET_SEVERITY and SET_LEVELS write the settings and work out again the level of every PENDING notice whose level
depends on them; arrival numbers and the notices in service keep what they had (R154). -/
def Obligations.SeverityAndLevels : Prop :=
  ∀ s : State, s.Ready →
    let relevelled (n : NoticeUnit) (affected : Notice → Bool) : State :=
      { s.served with
        notices :=
          { n with
            queue :=
              n.queue.map fun x =>
                if x.service = .pending ∧ affected x = true then
                  { x with level := ({ s with notices := n } : State).level x.subject x.kind }
                else x } }
    (∀ (f v : Byte) (function : Fin 8), f.toNat = function.val → 1 ≤ v.toNat → v.toNat ≤ 7 →
      exec (.setSeverity f v) s =
        .next
          (relevelled { s.notices with severity := s.notices.severity.set function v.toNat } fun x =>
            x.kind != .cleared &&
              match x.subject with
              | .circuit p c => (s.circuit p c).any fun r => r.feed == function
              | .feed g => g == function
              | .position _ => false)) ∧
    ∀ p d : Byte, 1 ≤ p.toNat → p.toNat ≤ 7 → 1 ≤ d.toNat → d.toNat ≤ 7 → exec (.setLevels p d) s =
      .next
        (relevelled { s.notices with positionLevel := p.toNat, detectLevel := d.toNat } fun x =>
          [NoticeKind.position .silent, .position .mute, .position .linkFault, .position .detectMissing].contains
            x.kind)

/-- SET_COUPLING (R23, R64): a change of polarity at a position that is not VACANT is refused with STATE_REFUSED; else
the settings are written, a new polarity clears both flags and the filter count and takes the filtered level from the
input, and the channel enable takes its value. Disabling a channel removes its words as failed sends: the SAMPLEs'
records go and a WAITING welcome whose WELCOME was queued becomes OWED. A disable that was already executing at the
instant of a start bit on its channel is executed during that receive, which goes on (R23; log 37). -/
def Obligations.SetCoupling : Prop :=
  ∀ (s : State) (b flags e h : Byte) (p : Fin 4), s.Ready → b.toNat = p.val + 1 → flags.toNat ≤ 7 → 1 ≤ e.toNat →
    e.toNat ≤ 16 → s.link.engine.activeOn p = false ∨
        (s.link.engine = .rxActive p ∧ s.link.timer = 4000 ∧ (s.link.channels.get p).enabled = true ∧
          flags.getLsbD 2 = false ∧ Config.disableUnderWay s.freeIndex = true) →
    let r := s.positions.get p
    let c := s.link.channels.get p
    let polarity := flags.getLsbD 0
    let on := flags.getLsbD 2
    let settings : State :=
      { s.served with
        holdTime := h.toNat
        positions :=
          s.positions.modify p fun r =>
            { r with
              coupledHigh := polarity
              coupleEdge := if r.coupledHigh = polarity then r.coupleEdge else false
              uncoupleEdge := if r.coupledHigh = polarity then r.uncoupleEdge else false
              filterCount := if r.coupledHigh = polarity then r.filterCount else 0
              detect := if r.coupledHigh = polarity then r.detect else s.cd.get p
              wakeEnable := flags.getLsbD 1
              enrollTimeout := 250000 * e.toNat } }
    let command := exec (.setCoupling b flags e h) s
    (r.coupledHigh ≠ polarity → r.state ≠ .vacant → command = .next (s.servedWithError .stateRefused 0x30)) ∧
    (r.coupledHigh = polarity ∨ r.state = .vacant →
      (c.enabled = on → command = .next settings) ∧
      (c.enabled = false → on = true → command =
        .next
          { settings with
            link := { s.link with channels := s.link.channels.modify p fun c => { c with enabled := true } } }) ∧
      (c.enabled = true → on = false → command =
        .next
          { settings with
            link :=
              { s.link with
                channels :=
                  s.link.channels.modify p fun c => { c with enabled := false, queue := [], attempts := 0 } }
            samples :=
              s.samples.modify p fun m =>
                { m with
                  list := m.list.filter fun x => !(x.outstanding.isNone && c.queue.contains (.sample x.tag)) }
            positions :=
              settings.positions.modify p fun r =>
                if r.state.accepted = true ∧ r.welcome = .waiting ∧ ∃ q, LinkWord.welcome q ∈ c.queue then
                  { r with welcome := .owed, enrollTimer := some r.enrollTimeout }
                else r }))

/-- RELEASE (R113): a latched fault becomes UNSEEN with streak 0, its subject is resolved, and the attribution unit
makes its pass; RELEASE of one circuit that is none is refused with NOTHING_LATCHED; RELEASE(all) does the same to each
latched fault in turn, by position and then index, with the claim and the pass of each before the next; it leaves no
latched fault and refuses nothing. -/
def Obligations.Release : Prop :=
  ∀ s : State, s.Ready →
    (∀ (b i : Byte) (p : Fin 4) (c : Fin 12), b.toNat = p.val + 1 → i.toNat = c.val →
      (∀ r k j h, s.circuit p c = some r → r.verdict = .fault k j h → s.judging.isLatched k = true →
        exec (.release b i) s =
          .next
            (((s.served.setCircuit p c { r with verdict := .unseen, streak := 0 }).resolve (.circuit p c)).pass r.feed
              p.val none).settle) ∧
      ((∀ r k j h, s.circuit p c = some r → r.verdict = .fault k j h → s.judging.isLatched k = false) →
        exec (.release b i) s = .next (s.servedWithError .nothingLatched 0x32))) ∧
    ∀ i : Byte, ∃ t, exec (.release 0 i) s = .next t ∧ t.port = s.port.served ∧
      t =
        ((List.finRange 4).foldl
          (fun u p =>
            (List.finRange 12).foldl
              (fun u c =>
                match u.circuit p c with
                | none => u
                | some r =>
                  match r.verdict with
                  | .fault k _ _ =>
                    if u.judging.isLatched k then
                      ((u.setCircuit p c { r with verdict := .unseen, streak := 0 }).resolve (.circuit p c)).pass r.feed
                        p.val none
                    else u
                  | _ => u)
              u)
          s.served).settle ∧
      ((∀ p, (s.circuits.get p).length ≤ 12) → ∀ p, ∀ r ∈ t.circuits.get p, r.isLatched s.judging = false) ∧
      ((∀ p, ∀ r ∈ s.circuits.get p, r.isLatched s.judging = false) → t = s.served)

/-- FORGET (R79): refused with BAD_TARGET at a VACANT position; else the channel, the assembly record and the sample
list are flushed, the records are purged, the conditions but LINK_FAULT end, and the position is evaluated from its
level. In their order: the flush, the purge (PositionTimers), the end of the conditions, the clearing of the BREAKs that
end at the position, the evaluation, and the claims with which the event ends. -/
def Obligations.Forget : Prop :=
  ∀ (s : State) (b : Byte) (p : Fin 4), s.Ready → b.toNat = p.val + 1 → s.link.engine.activeOn p = false →
    let r := s.positions.get p
    (r.state = .vacant → exec (.forget b) s = .next (s.servedWithError .badTarget 0x31)) ∧
    (r.state ≠ .vacant → ∃ t,
      exec (.forget b) s = .next t ∧
      t =
        { s.served with
          positions :=
            s.positions.modify p fun r =>
              { r with
                state := if r.reads then .coupled else .vacant
                serial := if r.state.holdsRecords then none else r.serial
                count := if r.state.holdsRecords then 0 else r.count
                recoupled := false
                welcome := .done
                enrollTimer := if r.reads then some r.enrollTimeout else none
                holdTimer := none
                detectMissing := false
                uncoupled := false
                claimedHead := if r.linkFault then some .linkFault else none }
          link :=
            { s.link with
              channels :=
                s.link.channels.modify p fun c =>
                  { c with queue := if r.reads = true ∧ c.enabled = true then [.recall] else [], attempts := 0 } }
          assembly := s.assembly.set p .idle
          samples := s.samples.modify p fun m => { m with list := [], timer := none }
          feeds := t.feeds
          circuits := t.circuits
          notices := t.notices } ∧
      (r.state.holdsRecords = true → t.circuits.get p = []) ∧
      (∀ f start, t.feeds.get f ≠ .broken start p) ∧
      let flushed : State :=
        { s.served with
          link :=
            { s.link with channels := s.link.channels.modify p fun c => { c with queue := [], attempts := 0 } }
          assembly := s.assembly.set p .idle
          samples := s.samples.modify p fun m => { m with list := [], timer := none } }
      let purged : State :=
        if r.state = .enrolled ∨ r.state = .mute ∨ r.state = .departed then flushed.purge p else flushed
      let ended : State :=
        { purged with
          positions :=
            purged.positions.modify p fun r =>
              { r with
                enrollTimer := none
                holdTimer := none
                recoupled := false
                welcome := .done
                uncoupled := false
                detectMissing := false } }
      let cleared : State :=
        (List.finRange 8).foldl
          (fun u f =>
            match u.feeds.get f with
            | .broken _ stop => if stop = p then u.clearCondition f else u
            | .none => u
            | .driverDead => u
            | .driverStuck => u)
          ended
      let evaluated : State :=
        if r.reads then
          (cleared.updPosition p fun r => { r with state := .coupled, enrollTimer := some r.enrollTimeout }).offer p
            .recall
        else cleared.updPosition p fun r => { r with state := .vacant, enrollTimer := none }
      t = evaluated.settle)

/-- REST (R142, R174): refused with REST_REFUSED while a function's mode is CADENCE or DIM; else, in RX_IDLE, the part
enters REST: lists, queues and assembly records are emptied, the engine is OFF and a WAITING welcome is OWED; a REST
that arrives alone stays parked. With commands standing behind it, or LCS asserted for another transaction, the part
enters REST and wakes at once; whether the LCS of another transaction is still asserted is a free value, and a
deasserted one leaves the port without a transaction (log 8). That no start bit is seen in a REST left at once is the
model's choice (log 33), and so are that the commands behind it are executed in the same event and how a REST knows its
own transaction (log 26, log 27). -/
def Obligations.EnterRest : Prop :=
  (∀ s : State, s.Ready → s.link.engine = .rxIdle →
    let refused : Prop :=
      ∃ f, (∃ g, (s.drive.functions.get f).mode = .cadence g) ∨ ∃ duty, (s.drive.functions.get f).mode = .dim duty
    (refused → exec .rest s = .next (s.servedWithError .restRefused 0x3F)) ∧
    (¬ refused → exec .rest s = .next s.served.parkedFrom)) ∧
  ∀ (s : State) (sequence : BitVec 8), s.Quiet →
    let still := Config.lcsStillAsserted s.freeIndex
    let lcs : Transaction :=
      match s.port.lcs with
      | .idle => .idle
      | .opened => if still then .opened else .idle
      | .taken carried => if carried = some sequence then .taken carried else if still then .taken carried else .idle
    let parked : State := { s.parkedFrom with port := { s.port with lcs := lcs } }
    (s.port.queue ≠ [] ∨ lcs = .opened ∨ (∃ carried, lcs = .taken carried ∧ carried ≠ some sequence) →
      s.restOrPass sequence = parked.wake 0) ∧
    (s.port.queue = [] → lcs = .idle ∨ lcs = .taken (some sequence) → s.restOrPass sequence = parked)

/-- SYNC in RUN (R145): with commands in the queue DRAINING with their number and the head's sequence number, the
deferred error left as it is; with none OK with the error record, which is then cleared. The codes of the error kinds
are written out (11.4). -/
def Obligations.Sync : Prop :=
  (∀ s : State, s.Awake →
    (∀ head rest, s.port.queue = head :: rest → exec .sync s =
      .next (s.repliedLighting [0x82, byte (rest.length + 1), head.sequence, 0, 0])) ∧
    (s.port.queue = [] →
      let replied (record : List Byte) : State :=
        { s with port := { s.port with lightingReply := 0x80 :: record, lcs := .taken none, error := none } }
      (s.port.error = none → exec .sync s = .next (replied [0, 0, 0, 0])) ∧
      ∀ e, s.port.error = some e → exec .sync s =
        .next (replied [byte e.kind.code, e.code, e.sequence, if e.more then 1 else 0]))) ∧
  ErrorKind.badTarget.code = 1 ∧ ErrorKind.stateRefused.code = 2 ∧ ErrorKind.nothingLatched.code = 3 ∧
    ErrorKind.restRefused.code = 4

/-- RESTART in RUN (R21, R44, R60, R83, R99, R123, R135, R148, R149, R172): the queue and the deferred error are cleared
and reported with the next sequence number; the engine settles for 120 µs with the queues holding only the RECALLs of
coupled positions; positions, sampling, circuits, feeds, sense checks and notices start afresh; every setting, mode,
drive, generator, override and filter stays; that a settle left from a wake goes on is the model's choice (log 22). -/
def Obligations.Restart : Prop :=
  ∀ s : State, s.Awake → exec .restart s =
    .next
      { s with
        drive :=
          { s.drive with
            functions :=
              s.drive.functions.map fun _ r => { r with sense := { condition := .none, kind := .none, count := 0 } } }
        link :=
          { engine := .settle
            timer := 120
            discarded := false
            cut := none
            lastServed := 3
            channels :=
              s.link.channels.map fun p c =>
                { c with
                  queue := if (s.positions.get p).reads = true ∧ c.enabled = true then [.recall] else []
                  attempts := 0
                  streak := 0 } }
        assembly := Four.all .idle
        positions :=
          s.positions.map fun _ r =>
            { r with
              state := if r.reads then .coupled else .vacant
              coupleEdge := false
              uncoupleEdge := false
              serial := none
              count := 0
              recoupled := false
              welcome := .done
              enrollTimer := if r.reads then some r.enrollTimeout else none
              holdTimer := none
              linkFault := false
              detectMissing := false
              uncoupled := false
              claimedHead := none }
        samples := Four.all { list := [], nextTag := 0, timer := none, mute := 0, missed := 0 }
        circuits := Four.all []
        feeds := Eight.all .none
        notices :=
          { s.notices with
            queue := []
            stack := []
            announce :=
              { circuits := Four.all (Twelve.all .none), positions := Four.all .none, feeds := Eight.all .none }
            counter := 0
            scanDue := false }
        port :=
          { s.port with
            queue := []
            error := none
            lcs := .taken none
            lightingReply :=
              [0x80, byte s.port.queue.length] ++
                (match s.port.error with
                  | some e => [byte e.kind.code, e.code, e.sequence, if e.more then 1 else 0]
                  | none => [0, 0, 0, 0]) ++
                [s.port.nextSeq] } }

/-- The read commands, on the lighting port in RUN and on the display port in both power states (R146, R147, R182): OK
with the record of the state at that moment, BAD_ARGUMENT with zero bytes for an argument out of range, zero bytes for
an address without a record, and nothing else changes. A code unknown on its port is answered UNKNOWN_COMMAND (R138).
The bytes of READ_DRIVE (11.6), READ_POSITION (11.7), READ_SUMMARY (11.10) the codes of READ_CIRCUIT (11.8) and of
READ_FEED (11.9), and the announce byte (11.4) are written out. That a timer frozen in REST reads the time it keeps is
the model's choice (log 38). -/
def Obligations.Reads : Prop :=
  ∀ (s : State) (port : Port), s.resetAsserted = false → (port = .lighting → s.power = .run) →
    let replied (bytes : List Byte) : State :=
      match port with
      | .lighting => s.repliedLighting bytes
      | .display => s.repliedDisplay bytes
    exec (.readDrive port) s = .next (replied (0x80 :: s.drive.record)) ∧
    exec (.readSummary port) s = .next (replied (0x80 :: s.summaryRecord)) ∧
    (∀ (b : Byte) (p : Fin 4), b.toNat = p.val + 1 →
      exec (.readPosition port b) s = .next (replied (0x80 :: s.positionRecord p)) ∧
      ∀ (i : Byte) (c : Fin 12), i.toNat = c.val →
        (s.circuit p c = none →
          exec (.readCircuit port b i) s = .next (replied [0x80, 0, 0, 0, 0, 0, 0, 0])) ∧
        ∀ r, s.circuit p c = some r → exec (.readCircuit port b i) s =
          .next
            (replied
              [0x80, 1, byte (r.feed.val + 8 * bit r.required + 16 * bit r.lowCurrent), byte r.verdict.code,
                byte r.verdict.kinds, byte (r.streak + 16 * holdCode r.verdict.hold), byte (lastReadingBits r.last),
                (s.notices.announceOf (.circuit p c)).byte])) ∧
    (∀ (b : Byte) (f : Fin 8), b.toNat = f.val →
      exec (.readFeed port b) s =
        .next
          (replied
            ([0x80] ++
              (match s.feeds.get f with
                | .none => [0, 0]
                | .driverDead => [1, 0]
                | .driverStuck => [2, 0]
                | .broken start stop => [3, byte (start.val + 1 + 16 * (stop.val + 1))]) ++
              [byte (s.drive.functions.get f).sense.condition.code, (s.notices.announceOf (.feed f)).byte]))) ∧
    (∀ b : Byte, b.toNat = 0 ∨ 5 ≤ b.toNat →
      exec (.readPosition port b) s = .next (replied (0xC1 :: List.replicate 31 0)) ∧
      ∀ i, exec (.readCircuit port b i) s = .next (replied [0xC1, 0, 0, 0, 0, 0, 0, 0])) ∧
    (∀ b i : Byte, 12 ≤ i.toNat → exec (.readCircuit port b i) s = .next (replied [0xC1, 0, 0, 0, 0, 0, 0, 0])) ∧
    (∀ b : Byte, 8 ≤ b.toNat → exec (.readFeed port b) s = .next (replied [0xC1, 0, 0, 0, 0])) ∧
    (∀ code : Byte, port.knows code = false → exec (.unknownCommand port code) s = .next (replied [0xC0])) ∧
    (∀ c : SenseCondition, c.code =
      match c with
      | .none => 0
      | .driverDead => 1
      | .driverStuck => 2) ∧
    (let kind (k : FaultKind) : Nat :=
      match k with
      | .open => 1
      | .degraded => 2
      | .overload => 3
      | .feedLoss => 4
      | .backfeed => 5
     ∀ v : Verdict,
      v.code =
        (match v with
          | .unseen => 0
          | .good => 1
          | .suspect _ => 2
          | .fault _ _ _ => 3
          | .recovering _ _ => 4
          | .shadowed => 5) ∧
      v.kinds =
        (match v with
          | .suspect k => kind k
          | .fault k none _ => kind k
          | .fault k (some j) _ => kind k + 16 * kind j
          | .recovering k _ => kind k
          | _ => 0) ∧
      holdCode v.hold =
        match v with
        | .fault _ _ (some .local) => 1
        | .fault _ _ (some .deferred) => 2
        | .recovering _ (some .local) => 1
        | .recovering _ (some .deferred) => 2
        | _ => 0) ∧
    lastReadingBits none = 0 ∧
    (∀ (volt : Bool) (current : CurrentClass), lastReadingBits (some (volt, current)) =
      1 + 2 * bit volt +
        4 *
          match current with
          | .none => 0
          | .low => 1
          | .nominal => 2
          | .high => 3) ∧
    s.drive.record.length = 37 ∧ s.summaryRecord.length = 27 ∧ (∀ p, (s.positionRecord p).length = 31) ∧
    (let condition (c : SenseCondition) : Nat :=
      match c with
      | .none => 0
      | .driverDead => 1
      | .driverStuck => 2
     s.drive.record =
      (([0, 1, 2, 3, 4, 5, 6, 7] : List (Fin 8)).flatMap fun f =>
        let r := s.drive.functions.get f
        (match r.mode with
          | .off => [0, 0]
          | .on => [1, 0]
          | .cadence g => [2, byte g.val]
          | .dim duty => [3, byte duty]) ++
          [byte
              ((match r.drive with
                  | .undriven => 0
                  | .dim _ => 1
                  | .full => 2) +
                4 * condition r.sense.condition),
            byte r.age]) ++
        [byte
            (bit (s.drive.filtered.get 0) + 2 * bit (s.drive.filtered.get 1) + 4 * bit (s.drive.filtered.get 2) +
              8 * bit (s.drive.filtered.get 3)),
          s.drive.assign.get 0, s.drive.assign.get 1, s.drive.assign.get 2, s.drive.assign.get 3]) ∧
    (let n := s.notices
     s.summaryRecord =
      [match s.power with
          | .run => 0
          | .rest => 1,
        byte s.port.queue.length, s.port.nextSeq,
        match s.port.error with
          | none => 0
          | some e => if e.more = true then 3 else 1,
        byte (s.sampling.period / 50), byte s.sampling.timeout, byte s.sampling.muteCount, byte s.sampling.guard,
        byte s.judging.confirm, byte s.judging.clear, s.judging.latched.setWidth 8, byte (n.severity.get 0),
        byte (n.severity.get 1), byte (n.severity.get 2), byte (n.severity.get 3), byte (n.severity.get 4),
        byte (n.severity.get 5), byte (n.severity.get 6), byte (n.severity.get 7), byte n.positionLevel,
        byte n.detectLevel, byte n.mask, if n.holdAll = true then 1 else 0, byte n.queue.length,
        byte (n.queue.countP fun x => x.service == .pending), byte n.stack.length, if s.datn = true then 1 else 0]) ∧
    (∀ a : Announce, a.byte =
      match a with
      | .none => 0
      | .queued => 1
      | .acked => 2
      | .owedFault k =>
        byte
          (3 +
            16 *
              match k with
              | .circuit .open => 1
              | .circuit .degraded => 2
              | .circuit .overload => 3
              | .circuit .feedLoss => 4
              | .circuit .backfeed => 5
              | .position .silent => 1
              | .position .mute => 2
              | .position .linkFault => 3
              | .position .detectMissing => 4
              | .position .uncoupled => 5
              | .feed .driverDead => 1
              | .feed .driverStuck => 2
              | .feed .couplingBreak => 3
              | .cleared => 15)
      | .owedClear => byte (4 + 16 * 15)) ∧
    ∀ p,
      let r := s.positions.get p
      let c := s.link.channels.get p
      let m := s.samples.get p
      let timer (unit : Nat) (t : Option Nat) : List Byte :=
        match t with
        | some time => [byte ((time + unit - 1) / unit), byte ((time + unit - 1) / unit / 256)]
        | none => [0xFF, 0xFF]
      let expected (d : DriveClass) : Nat :=
        match d with
        | .undriven => 0
        | .dim => 1
        | .full => 2
      let sample (x : Option SampleRecord) : List Byte :=
        match x with
        | none => [0, 0, 0, 0, 0]
        | some y =>
          match y.outstanding with
          | none => [byte (y.tag.toNat + 32), 0, 0, 0, 0]
          | some o =>
            let snapshot :=
              (([0, 1, 2, 3, 4, 5, 6, 7] : List (Fin 8)).map fun f => 4 ^ f.val * expected (o.snapshot.get f)).sum
            [byte (y.tag.toNat + 16 + 32), byte snapshot, byte (snapshot / 256), o.blur,
              byte ((o.deadline + 999) / 1000)]
      s.positionRecord p =
        [match r.state with
            | .vacant => 0
            | .coupled => 1
            | .silent => 2
            | .enrolled => 3
            | .mute => 4
            | .departed => 5,
          byte
            (bit r.coupledHigh + 2 * bit r.wakeEnable + 4 * bit r.reads + 8 * bit r.coupleEdge +
              16 * bit r.uncoupleEdge + 32 * bit r.recoupled + 64 * bit c.enabled + 128 * bit r.serial.isSome)] ++
          (match r.serial with
            | some v => [v.extractLsb' 0 8, v.extractLsb' 8 8, v.extractLsb' 16 8]
            | none => [0, 0, 0]) ++
          [byte r.count,
            byte
              ((match r.welcome with
                  | .done => 0
                  | .waiting => 1
                  | .owed => 2) +
                4 * bit r.linkFault + 8 * bit r.detectMissing + 16 * bit r.uncoupled),
            (s.notices.announceOf (.position p)).byte, byte (r.enrollTimeout / 250000)] ++
          timer 1000 r.enrollTimer ++ timer 10000 r.holdTimer ++ [byte s.holdTime, byte c.streak] ++
          timer 1000 m.timer ++ [byte m.nextTag.toNat, byte m.mute, byte m.missed, byte m.list.length] ++
          sample m.list[0]? ++ sample m.list[1]?
end

