-- ==== Sys2Proof/Laws/Tables.lean ====
section
/-! SUPPORT. The laws of the fixed-size tables: reading an entry after a write, tables equal by their entries, and
membership in the lists of indices. -/

namespace Sys2Proof

/-! ## Four -/

/-- A property of the four indices holds of each. -/
theorem forallFour {P : Fin 4 → Prop} (h0 : P 0) (h1 : P 1) (h2 : P 2) (h3 : P 3) : ∀ i, P i
  | 0 => h0
  | 1 => h1
  | 2 => h2
  | 3 => h3

/-- Reading an entry after a write. -/
theorem Four.get_set {α : Type} (t : Four α) (i j : Fin 4) (x : α) :
    (t.set i x).get j = if j = i then x else t.get j := by
  induction i using forallFour <;> induction j using forallFour <;> rfl

@[simp] theorem Four.get_set_self {α : Type} (t : Four α) (i : Fin 4) (x : α) : (t.set i x).get i = x := by
  simp [Four.get_set]

@[simp] theorem Four.get_set_ne {α : Type} (t : Four α) {i j : Fin 4} (x : α) (h : j ≠ i) :
    (t.set i x).get j = t.get j := by
  simp [Four.get_set, h]

/-- A second write to an entry replaces the first. -/
@[simp] theorem Four.set_set {α : Type} (t : Four α) (i : Fin 4) (x y : α) : (t.set i x).set i y = t.set i y := by
  induction i using forallFour <;> rfl

/-- Reading an entry after a change. -/
theorem Four.get_modify {α : Type} (t : Four α) (i j : Fin 4) (f : α → α) :
    (t.modify i f).get j = if j = i then f (t.get j) else t.get j := by
  by_cases h : j = i
  · subst h
    simp [Four.modify]
  · simp [Four.modify, h]

@[simp] theorem Four.get_modify_self {α : Type} (t : Four α) (i : Fin 4) (f : α → α) :
    (t.modify i f).get i = f (t.get i) := by
  simp [Four.get_modify]

@[simp] theorem Four.get_modify_ne {α : Type} (t : Four α) {i j : Fin 4} (f : α → α) (h : j ≠ i) :
    (t.modify i f).get j = t.get j := by
  simp [Four.get_modify, h]

@[simp] theorem Four.get_map {α β : Type} (t : Four α) (f : Fin 4 → α → β) (i : Fin 4) :
    (t.map f).get i = f i (t.get i) := by
  induction i using forallFour <;> rfl

@[simp] theorem Four.get_all {α : Type} (x : α) (i : Fin 4) : (Four.all x).get i = x := by
  induction i using forallFour <;> rfl

/-- Tables with the same entries are the same. -/
theorem Four.ext_get {α : Type} {t u : Four α} (h : ∀ i, t.get i = u.get i) : t = u := by
  have h0 := h 0
  have h1 := h 1
  have h2 := h 2
  have h3 := h 3
  cases t
  cases u
  simp_all [Four.get]

/-- Writing back the entry that stands changes nothing. -/
@[simp] theorem Four.set_get {α : Type} (t : Four α) (i : Fin 4) : t.set i (t.get i) = t := by
  refine Four.ext_get fun j => ?_
  by_cases h : j = i
  · subst h
    simp
  · simp [h]

/-- A change that leaves the entry as it is changes nothing. -/
theorem Four.modify_eq_self {α : Type} (t : Four α) (i : Fin 4) (f : α → α) (h : f (t.get i) = t.get i) :
    t.modify i f = t := by
  simp [Four.modify, h]

/-- Two changes of one entry in turn. -/
theorem Four.modify_modify {α : Type} (t : Four α) (i : Fin 4) (f g : α → α) :
    (t.modify i f).modify i g = t.modify i (g ∘ f) := by
  simp [Four.modify]

/-- A map that leaves every entry as it is changes nothing. -/
theorem Four.map_eq_self {α : Type} (t : Four α) (f : Fin 4 → α → α) (h : ∀ i, f i (t.get i) = t.get i) :
    t.map f = t :=
  Four.ext_get fun i => by simp [h]

@[simp] theorem mem_fourIndices (i : Fin 4) : i ∈ fourIndices := by
  induction i using forallFour <;> decide

/-! ## Eight -/

/-- A property of the eight indices holds of each. -/
theorem forallEight {P : Fin 8 → Prop} (h0 : P 0) (h1 : P 1) (h2 : P 2) (h3 : P 3) (h4 : P 4) (h5 : P 5) (h6 : P 6)
    (h7 : P 7) : ∀ i, P i
  | 0 => h0
  | 1 => h1
  | 2 => h2
  | 3 => h3
  | 4 => h4
  | 5 => h5
  | 6 => h6
  | 7 => h7

/-- Reading an entry after a write. -/
theorem Eight.get_set {α : Type} (t : Eight α) (i j : Fin 8) (x : α) :
    (t.set i x).get j = if j = i then x else t.get j := by
  induction i using forallEight <;> induction j using forallEight <;> rfl

@[simp] theorem Eight.get_set_self {α : Type} (t : Eight α) (i : Fin 8) (x : α) : (t.set i x).get i = x := by
  simp [Eight.get_set]

@[simp] theorem Eight.get_set_ne {α : Type} (t : Eight α) {i j : Fin 8} (x : α) (h : j ≠ i) :
    (t.set i x).get j = t.get j := by
  simp [Eight.get_set, h]

/-- Reading an entry after a change. -/
theorem Eight.get_modify {α : Type} (t : Eight α) (i j : Fin 8) (f : α → α) :
    (t.modify i f).get j = if j = i then f (t.get j) else t.get j := by
  by_cases h : j = i
  · subst h
    simp [Eight.modify]
  · simp [Eight.modify, h]

@[simp] theorem Eight.get_modify_self {α : Type} (t : Eight α) (i : Fin 8) (f : α → α) :
    (t.modify i f).get i = f (t.get i) := by
  simp [Eight.get_modify]

@[simp] theorem Eight.get_modify_ne {α : Type} (t : Eight α) {i j : Fin 8} (f : α → α) (h : j ≠ i) :
    (t.modify i f).get j = t.get j := by
  simp [Eight.get_modify, h]

@[simp] theorem Eight.get_map {α β : Type} (t : Eight α) (f : Fin 8 → α → β) (i : Fin 8) :
    (t.map f).get i = f i (t.get i) := by
  induction i using forallEight <;> rfl

@[simp] theorem Eight.get_all {α : Type} (x : α) (i : Fin 8) : (Eight.all x).get i = x := by
  induction i using forallEight <;> rfl

/-- Tables with the same entries are the same. -/
theorem Eight.ext_get {α : Type} {t u : Eight α} (h : ∀ i, t.get i = u.get i) : t = u := by
  have h0 := h 0
  have h1 := h 1
  have h2 := h 2
  have h3 := h 3
  have h4 := h 4
  have h5 := h 5
  have h6 := h 6
  have h7 := h 7
  cases t
  cases u
  simp_all [Eight.get]

/-- A change that leaves the entry as it is changes nothing. -/
theorem Eight.modify_eq_self {α : Type} (t : Eight α) (i : Fin 8) (f : α → α) (h : f (t.get i) = t.get i) :
    t.modify i f = t := by
  refine Eight.ext_get fun j => ?_
  by_cases hj : j = i
  · subst hj
    simp [h]
  · simp [hj]

/-- The entries of a table are what its indices read. -/
theorem Eight.mem_toList {α : Type} (t : Eight α) (x : α) : x ∈ t.toList ↔ ∃ i, t.get i = x := by
  simp only [Eight.toList, List.mem_cons, List.not_mem_nil, or_false]
  refine ⟨fun h => ?_, fun ⟨i, h⟩ => ?_⟩
  · rcases h with h | h | h | h | h | h | h | h
    · exact ⟨0, h.symm⟩
    · exact ⟨1, h.symm⟩
    · exact ⟨2, h.symm⟩
    · exact ⟨3, h.symm⟩
    · exact ⟨4, h.symm⟩
    · exact ⟨5, h.symm⟩
    · exact ⟨6, h.symm⟩
    · exact ⟨7, h.symm⟩
  · subst h
    revert i
    apply forallEight <;> simp [Eight.get]

@[simp] theorem mem_eightIndices (i : Fin 8) : i ∈ eightIndices := by
  induction i using forallEight <;> decide

/-! ## Twelve -/

/-- A property of the twelve indices holds of each. -/
theorem forallTwelve {P : Fin 12 → Prop} (h0 : P 0) (h1 : P 1) (h2 : P 2) (h3 : P 3) (h4 : P 4) (h5 : P 5) (h6 : P 6)
    (h7 : P 7) (h8 : P 8) (h9 : P 9) (h10 : P 10) (h11 : P 11) : ∀ i, P i
  | 0 => h0
  | 1 => h1
  | 2 => h2
  | 3 => h3
  | 4 => h4
  | 5 => h5
  | 6 => h6
  | 7 => h7
  | 8 => h8
  | 9 => h9
  | 10 => h10
  | 11 => h11

/-- Reading an entry after a write. -/
theorem Twelve.get_set {α : Type} (t : Twelve α) (i j : Fin 12) (x : α) :
    (t.set i x).get j = if j = i then x else t.get j := by
  induction i using forallTwelve <;>
    induction j using forallTwelve <;> rfl

@[simp] theorem mem_twelveIndices (i : Fin 12) : i ∈ twelveIndices := by
  induction i using forallTwelve <;> decide

end Sys2Proof
end

