-- ==== Sys2Proof/Laws/State.lean ====
section
/-! SUPPORT. Every field of the state after every named write of Machine/Ops.lean. -/

namespace Sys2Proof.Machine

variable (s : State)

/-! ## updFunction -/

@[simp] theorem State.updFunction_resetAsserted (f : Fin 8) (g : FunctionRecord → FunctionRecord) :
    (s.updFunction f g).resetAsserted = s.resetAsserted := rfl
@[simp] theorem State.updFunction_power (f : Fin 8) (g : FunctionRecord → FunctionRecord) :
    (s.updFunction f g).power = s.power := rfl
@[simp] theorem State.updFunction_ov (f : Fin 8) (g : FunctionRecord → FunctionRecord) :
    (s.updFunction f g).ov = s.ov := rfl
@[simp] theorem State.updFunction_cd (f : Fin 8) (g : FunctionRecord → FunctionRecord) :
    (s.updFunction f g).cd = s.cd := rfl
@[simp] theorem State.updFunction_fs (f : Fin 8) (g : FunctionRecord → FunctionRecord) :
    (s.updFunction f g).fs = s.fs := rfl
@[simp] theorem State.updFunction_drive (f : Fin 8) (g : FunctionRecord → FunctionRecord) :
    (s.updFunction f g).drive = { s.drive with functions := s.drive.functions.modify f g } := rfl
@[simp] theorem State.updFunction_link (f : Fin 8) (g : FunctionRecord → FunctionRecord) :
    (s.updFunction f g).link = s.link := rfl
@[simp] theorem State.updFunction_assembly (f : Fin 8) (g : FunctionRecord → FunctionRecord) :
    (s.updFunction f g).assembly = s.assembly := rfl
@[simp] theorem State.updFunction_positions (f : Fin 8) (g : FunctionRecord → FunctionRecord) :
    (s.updFunction f g).positions = s.positions := rfl
@[simp] theorem State.updFunction_holdTime (f : Fin 8) (g : FunctionRecord → FunctionRecord) :
    (s.updFunction f g).holdTime = s.holdTime := rfl
@[simp] theorem State.updFunction_samples (f : Fin 8) (g : FunctionRecord → FunctionRecord) :
    (s.updFunction f g).samples = s.samples := rfl
@[simp] theorem State.updFunction_sampling (f : Fin 8) (g : FunctionRecord → FunctionRecord) :
    (s.updFunction f g).sampling = s.sampling := rfl
@[simp] theorem State.updFunction_circuits (f : Fin 8) (g : FunctionRecord → FunctionRecord) :
    (s.updFunction f g).circuits = s.circuits := rfl
@[simp] theorem State.updFunction_judging (f : Fin 8) (g : FunctionRecord → FunctionRecord) :
    (s.updFunction f g).judging = s.judging := rfl
@[simp] theorem State.updFunction_feeds (f : Fin 8) (g : FunctionRecord → FunctionRecord) :
    (s.updFunction f g).feeds = s.feeds := rfl
@[simp] theorem State.updFunction_notices (f : Fin 8) (g : FunctionRecord → FunctionRecord) :
    (s.updFunction f g).notices = s.notices := rfl
@[simp] theorem State.updFunction_port (f : Fin 8) (g : FunctionRecord → FunctionRecord) :
    (s.updFunction f g).port = s.port := rfl
@[simp] theorem State.updFunction_freeIndex (f : Fin 8) (g : FunctionRecord → FunctionRecord) :
    (s.updFunction f g).freeIndex = s.freeIndex := rfl
@[simp] theorem State.updFunction_pending (f : Fin 8) (g : FunctionRecord → FunctionRecord) :
    (s.updFunction f g).pending = s.pending := rfl

/-! ## updGenerator -/

@[simp] theorem State.updGenerator_resetAsserted (g : Fin 4) (h : Generator → Generator) :
    (s.updGenerator g h).resetAsserted = s.resetAsserted := rfl
@[simp] theorem State.updGenerator_power (g : Fin 4) (h : Generator → Generator) :
    (s.updGenerator g h).power = s.power := rfl
@[simp] theorem State.updGenerator_ov (g : Fin 4) (h : Generator → Generator) : (s.updGenerator g h).ov = s.ov := rfl
@[simp] theorem State.updGenerator_cd (g : Fin 4) (h : Generator → Generator) : (s.updGenerator g h).cd = s.cd := rfl
@[simp] theorem State.updGenerator_fs (g : Fin 4) (h : Generator → Generator) : (s.updGenerator g h).fs = s.fs := rfl
@[simp] theorem State.updGenerator_drive (g : Fin 4) (h : Generator → Generator) :
    (s.updGenerator g h).drive = { s.drive with generators := s.drive.generators.modify g h } := rfl
@[simp] theorem State.updGenerator_link (g : Fin 4) (h : Generator → Generator) :
    (s.updGenerator g h).link = s.link := rfl
@[simp] theorem State.updGenerator_assembly (g : Fin 4) (h : Generator → Generator) :
    (s.updGenerator g h).assembly = s.assembly := rfl
@[simp] theorem State.updGenerator_positions (g : Fin 4) (h : Generator → Generator) :
    (s.updGenerator g h).positions = s.positions := rfl
@[simp] theorem State.updGenerator_holdTime (g : Fin 4) (h : Generator → Generator) :
    (s.updGenerator g h).holdTime = s.holdTime := rfl
@[simp] theorem State.updGenerator_samples (g : Fin 4) (h : Generator → Generator) :
    (s.updGenerator g h).samples = s.samples := rfl
@[simp] theorem State.updGenerator_sampling (g : Fin 4) (h : Generator → Generator) :
    (s.updGenerator g h).sampling = s.sampling := rfl
@[simp] theorem State.updGenerator_circuits (g : Fin 4) (h : Generator → Generator) :
    (s.updGenerator g h).circuits = s.circuits := rfl
@[simp] theorem State.updGenerator_judging (g : Fin 4) (h : Generator → Generator) :
    (s.updGenerator g h).judging = s.judging := rfl
@[simp] theorem State.updGenerator_feeds (g : Fin 4) (h : Generator → Generator) :
    (s.updGenerator g h).feeds = s.feeds := rfl
@[simp] theorem State.updGenerator_notices (g : Fin 4) (h : Generator → Generator) :
    (s.updGenerator g h).notices = s.notices := rfl
@[simp] theorem State.updGenerator_port (g : Fin 4) (h : Generator → Generator) :
    (s.updGenerator g h).port = s.port := rfl
@[simp] theorem State.updGenerator_freeIndex (g : Fin 4) (h : Generator → Generator) :
    (s.updGenerator g h).freeIndex = s.freeIndex := rfl
@[simp] theorem State.updGenerator_pending (g : Fin 4) (h : Generator → Generator) :
    (s.updGenerator g h).pending = s.pending := rfl

/-! ## updChannel -/

@[simp] theorem State.updChannel_resetAsserted (p : Fin 4) (f : Channel → Channel) :
    (s.updChannel p f).resetAsserted = s.resetAsserted := rfl
@[simp] theorem State.updChannel_power (p : Fin 4) (f : Channel → Channel) : (s.updChannel p f).power = s.power := rfl
@[simp] theorem State.updChannel_ov (p : Fin 4) (f : Channel → Channel) : (s.updChannel p f).ov = s.ov := rfl
@[simp] theorem State.updChannel_cd (p : Fin 4) (f : Channel → Channel) : (s.updChannel p f).cd = s.cd := rfl
@[simp] theorem State.updChannel_fs (p : Fin 4) (f : Channel → Channel) : (s.updChannel p f).fs = s.fs := rfl
@[simp] theorem State.updChannel_drive (p : Fin 4) (f : Channel → Channel) : (s.updChannel p f).drive = s.drive := rfl
@[simp] theorem State.updChannel_link (p : Fin 4) (f : Channel → Channel) :
    (s.updChannel p f).link = { s.link with channels := s.link.channels.modify p f } := rfl
@[simp] theorem State.updChannel_assembly (p : Fin 4) (f : Channel → Channel) :
    (s.updChannel p f).assembly = s.assembly := rfl
@[simp] theorem State.updChannel_positions (p : Fin 4) (f : Channel → Channel) :
    (s.updChannel p f).positions = s.positions := rfl
@[simp] theorem State.updChannel_holdTime (p : Fin 4) (f : Channel → Channel) :
    (s.updChannel p f).holdTime = s.holdTime := rfl
@[simp] theorem State.updChannel_samples (p : Fin 4) (f : Channel → Channel) :
    (s.updChannel p f).samples = s.samples := rfl
@[simp] theorem State.updChannel_sampling (p : Fin 4) (f : Channel → Channel) :
    (s.updChannel p f).sampling = s.sampling := rfl
@[simp] theorem State.updChannel_circuits (p : Fin 4) (f : Channel → Channel) :
    (s.updChannel p f).circuits = s.circuits := rfl
@[simp] theorem State.updChannel_judging (p : Fin 4) (f : Channel → Channel) :
    (s.updChannel p f).judging = s.judging := rfl
@[simp] theorem State.updChannel_feeds (p : Fin 4) (f : Channel → Channel) : (s.updChannel p f).feeds = s.feeds := rfl
@[simp] theorem State.updChannel_notices (p : Fin 4) (f : Channel → Channel) :
    (s.updChannel p f).notices = s.notices := rfl
@[simp] theorem State.updChannel_port (p : Fin 4) (f : Channel → Channel) : (s.updChannel p f).port = s.port := rfl
@[simp] theorem State.updChannel_freeIndex (p : Fin 4) (f : Channel → Channel) :
    (s.updChannel p f).freeIndex = s.freeIndex := rfl
@[simp] theorem State.updChannel_pending (p : Fin 4) (f : Channel → Channel) :
    (s.updChannel p f).pending = s.pending := rfl

/-! ## updPosition -/

@[simp] theorem State.updPosition_resetAsserted (p : Fin 4) (f : Position → Position) :
    (s.updPosition p f).resetAsserted = s.resetAsserted := rfl
@[simp] theorem State.updPosition_power (p : Fin 4) (f : Position → Position) :
    (s.updPosition p f).power = s.power := rfl
@[simp] theorem State.updPosition_ov (p : Fin 4) (f : Position → Position) : (s.updPosition p f).ov = s.ov := rfl
@[simp] theorem State.updPosition_cd (p : Fin 4) (f : Position → Position) : (s.updPosition p f).cd = s.cd := rfl
@[simp] theorem State.updPosition_fs (p : Fin 4) (f : Position → Position) : (s.updPosition p f).fs = s.fs := rfl
@[simp] theorem State.updPosition_drive (p : Fin 4) (f : Position → Position) :
    (s.updPosition p f).drive = s.drive := rfl
@[simp] theorem State.updPosition_link (p : Fin 4) (f : Position → Position) :
    (s.updPosition p f).link = s.link := rfl
@[simp] theorem State.updPosition_assembly (p : Fin 4) (f : Position → Position) :
    (s.updPosition p f).assembly = s.assembly := rfl
@[simp] theorem State.updPosition_positions (p : Fin 4) (f : Position → Position) :
    (s.updPosition p f).positions = s.positions.modify p f := rfl
@[simp] theorem State.updPosition_holdTime (p : Fin 4) (f : Position → Position) :
    (s.updPosition p f).holdTime = s.holdTime := rfl
@[simp] theorem State.updPosition_samples (p : Fin 4) (f : Position → Position) :
    (s.updPosition p f).samples = s.samples := rfl
@[simp] theorem State.updPosition_sampling (p : Fin 4) (f : Position → Position) :
    (s.updPosition p f).sampling = s.sampling := rfl
@[simp] theorem State.updPosition_circuits (p : Fin 4) (f : Position → Position) :
    (s.updPosition p f).circuits = s.circuits := rfl
@[simp] theorem State.updPosition_judging (p : Fin 4) (f : Position → Position) :
    (s.updPosition p f).judging = s.judging := rfl
@[simp] theorem State.updPosition_feeds (p : Fin 4) (f : Position → Position) :
    (s.updPosition p f).feeds = s.feeds := rfl
@[simp] theorem State.updPosition_notices (p : Fin 4) (f : Position → Position) :
    (s.updPosition p f).notices = s.notices := rfl
@[simp] theorem State.updPosition_port (p : Fin 4) (f : Position → Position) :
    (s.updPosition p f).port = s.port := rfl
@[simp] theorem State.updPosition_freeIndex (p : Fin 4) (f : Position → Position) :
    (s.updPosition p f).freeIndex = s.freeIndex := rfl
@[simp] theorem State.updPosition_pending (p : Fin 4) (f : Position → Position) :
    (s.updPosition p f).pending = s.pending := rfl

/-! ## updSampling -/

@[simp] theorem State.updSampling_resetAsserted (p : Fin 4) (f : Sampling → Sampling) :
    (s.updSampling p f).resetAsserted = s.resetAsserted := rfl
@[simp] theorem State.updSampling_power (p : Fin 4) (f : Sampling → Sampling) :
    (s.updSampling p f).power = s.power := rfl
@[simp] theorem State.updSampling_ov (p : Fin 4) (f : Sampling → Sampling) : (s.updSampling p f).ov = s.ov := rfl
@[simp] theorem State.updSampling_cd (p : Fin 4) (f : Sampling → Sampling) : (s.updSampling p f).cd = s.cd := rfl
@[simp] theorem State.updSampling_fs (p : Fin 4) (f : Sampling → Sampling) : (s.updSampling p f).fs = s.fs := rfl
@[simp] theorem State.updSampling_drive (p : Fin 4) (f : Sampling → Sampling) :
    (s.updSampling p f).drive = s.drive := rfl
@[simp] theorem State.updSampling_link (p : Fin 4) (f : Sampling → Sampling) :
    (s.updSampling p f).link = s.link := rfl
@[simp] theorem State.updSampling_assembly (p : Fin 4) (f : Sampling → Sampling) :
    (s.updSampling p f).assembly = s.assembly := rfl
@[simp] theorem State.updSampling_positions (p : Fin 4) (f : Sampling → Sampling) :
    (s.updSampling p f).positions = s.positions := rfl
@[simp] theorem State.updSampling_holdTime (p : Fin 4) (f : Sampling → Sampling) :
    (s.updSampling p f).holdTime = s.holdTime := rfl
@[simp] theorem State.updSampling_samples (p : Fin 4) (f : Sampling → Sampling) :
    (s.updSampling p f).samples = s.samples.modify p f := rfl
@[simp] theorem State.updSampling_sampling (p : Fin 4) (f : Sampling → Sampling) :
    (s.updSampling p f).sampling = s.sampling := rfl
@[simp] theorem State.updSampling_circuits (p : Fin 4) (f : Sampling → Sampling) :
    (s.updSampling p f).circuits = s.circuits := rfl
@[simp] theorem State.updSampling_judging (p : Fin 4) (f : Sampling → Sampling) :
    (s.updSampling p f).judging = s.judging := rfl
@[simp] theorem State.updSampling_feeds (p : Fin 4) (f : Sampling → Sampling) :
    (s.updSampling p f).feeds = s.feeds := rfl
@[simp] theorem State.updSampling_notices (p : Fin 4) (f : Sampling → Sampling) :
    (s.updSampling p f).notices = s.notices := rfl
@[simp] theorem State.updSampling_port (p : Fin 4) (f : Sampling → Sampling) :
    (s.updSampling p f).port = s.port := rfl
@[simp] theorem State.updSampling_freeIndex (p : Fin 4) (f : Sampling → Sampling) :
    (s.updSampling p f).freeIndex = s.freeIndex := rfl
@[simp] theorem State.updSampling_pending (p : Fin 4) (f : Sampling → Sampling) :
    (s.updSampling p f).pending = s.pending := rfl

/-! ## setAssembly -/

@[simp] theorem State.setAssembly_resetAsserted (p : Fin 4) (a : Assembly) :
    (s.setAssembly p a).resetAsserted = s.resetAsserted := rfl
@[simp] theorem State.setAssembly_power (p : Fin 4) (a : Assembly) : (s.setAssembly p a).power = s.power := rfl
@[simp] theorem State.setAssembly_ov (p : Fin 4) (a : Assembly) : (s.setAssembly p a).ov = s.ov := rfl
@[simp] theorem State.setAssembly_cd (p : Fin 4) (a : Assembly) : (s.setAssembly p a).cd = s.cd := rfl
@[simp] theorem State.setAssembly_fs (p : Fin 4) (a : Assembly) : (s.setAssembly p a).fs = s.fs := rfl
@[simp] theorem State.setAssembly_drive (p : Fin 4) (a : Assembly) : (s.setAssembly p a).drive = s.drive := rfl
@[simp] theorem State.setAssembly_link (p : Fin 4) (a : Assembly) : (s.setAssembly p a).link = s.link := rfl
@[simp] theorem State.setAssembly_assembly (p : Fin 4) (a : Assembly) :
    (s.setAssembly p a).assembly = s.assembly.set p a := rfl
@[simp] theorem State.setAssembly_positions (p : Fin 4) (a : Assembly) :
    (s.setAssembly p a).positions = s.positions := rfl
@[simp] theorem State.setAssembly_holdTime (p : Fin 4) (a : Assembly) :
    (s.setAssembly p a).holdTime = s.holdTime := rfl
@[simp] theorem State.setAssembly_samples (p : Fin 4) (a : Assembly) : (s.setAssembly p a).samples = s.samples := rfl
@[simp] theorem State.setAssembly_sampling (p : Fin 4) (a : Assembly) :
    (s.setAssembly p a).sampling = s.sampling := rfl
@[simp] theorem State.setAssembly_circuits (p : Fin 4) (a : Assembly) :
    (s.setAssembly p a).circuits = s.circuits := rfl
@[simp] theorem State.setAssembly_judging (p : Fin 4) (a : Assembly) : (s.setAssembly p a).judging = s.judging := rfl
@[simp] theorem State.setAssembly_feeds (p : Fin 4) (a : Assembly) : (s.setAssembly p a).feeds = s.feeds := rfl
@[simp] theorem State.setAssembly_notices (p : Fin 4) (a : Assembly) : (s.setAssembly p a).notices = s.notices := rfl
@[simp] theorem State.setAssembly_port (p : Fin 4) (a : Assembly) : (s.setAssembly p a).port = s.port := rfl
@[simp] theorem State.setAssembly_freeIndex (p : Fin 4) (a : Assembly) :
    (s.setAssembly p a).freeIndex = s.freeIndex := rfl
@[simp] theorem State.setAssembly_pending (p : Fin 4) (a : Assembly) : (s.setAssembly p a).pending = s.pending := rfl

/-! ## setCircuits -/

@[simp] theorem State.setCircuits_resetAsserted (p : Fin 4) (rs : List Circuit) :
    (s.setCircuits p rs).resetAsserted = s.resetAsserted := rfl
@[simp] theorem State.setCircuits_power (p : Fin 4) (rs : List Circuit) : (s.setCircuits p rs).power = s.power := rfl
@[simp] theorem State.setCircuits_ov (p : Fin 4) (rs : List Circuit) : (s.setCircuits p rs).ov = s.ov := rfl
@[simp] theorem State.setCircuits_cd (p : Fin 4) (rs : List Circuit) : (s.setCircuits p rs).cd = s.cd := rfl
@[simp] theorem State.setCircuits_fs (p : Fin 4) (rs : List Circuit) : (s.setCircuits p rs).fs = s.fs := rfl
@[simp] theorem State.setCircuits_drive (p : Fin 4) (rs : List Circuit) : (s.setCircuits p rs).drive = s.drive := rfl
@[simp] theorem State.setCircuits_link (p : Fin 4) (rs : List Circuit) : (s.setCircuits p rs).link = s.link := rfl
@[simp] theorem State.setCircuits_assembly (p : Fin 4) (rs : List Circuit) :
    (s.setCircuits p rs).assembly = s.assembly := rfl
@[simp] theorem State.setCircuits_positions (p : Fin 4) (rs : List Circuit) :
    (s.setCircuits p rs).positions = s.positions := rfl
@[simp] theorem State.setCircuits_holdTime (p : Fin 4) (rs : List Circuit) :
    (s.setCircuits p rs).holdTime = s.holdTime := rfl
@[simp] theorem State.setCircuits_samples (p : Fin 4) (rs : List Circuit) :
    (s.setCircuits p rs).samples = s.samples := rfl
@[simp] theorem State.setCircuits_sampling (p : Fin 4) (rs : List Circuit) :
    (s.setCircuits p rs).sampling = s.sampling := rfl
@[simp] theorem State.setCircuits_circuits (p : Fin 4) (rs : List Circuit) :
    (s.setCircuits p rs).circuits = s.circuits.set p rs := rfl
@[simp] theorem State.setCircuits_judging (p : Fin 4) (rs : List Circuit) :
    (s.setCircuits p rs).judging = s.judging := rfl
@[simp] theorem State.setCircuits_feeds (p : Fin 4) (rs : List Circuit) : (s.setCircuits p rs).feeds = s.feeds := rfl
@[simp] theorem State.setCircuits_notices (p : Fin 4) (rs : List Circuit) :
    (s.setCircuits p rs).notices = s.notices := rfl
@[simp] theorem State.setCircuits_port (p : Fin 4) (rs : List Circuit) : (s.setCircuits p rs).port = s.port := rfl
@[simp] theorem State.setCircuits_freeIndex (p : Fin 4) (rs : List Circuit) :
    (s.setCircuits p rs).freeIndex = s.freeIndex := rfl
@[simp] theorem State.setCircuits_pending (p : Fin 4) (rs : List Circuit) :
    (s.setCircuits p rs).pending = s.pending := rfl

/-! ## setCircuit -/

@[simp] theorem State.setCircuit_resetAsserted (p : Fin 4) (c : Fin 12) (r : Circuit) :
    (s.setCircuit p c r).resetAsserted = s.resetAsserted := rfl
@[simp] theorem State.setCircuit_power (p : Fin 4) (c : Fin 12) (r : Circuit) :
    (s.setCircuit p c r).power = s.power := rfl
@[simp] theorem State.setCircuit_ov (p : Fin 4) (c : Fin 12) (r : Circuit) : (s.setCircuit p c r).ov = s.ov := rfl
@[simp] theorem State.setCircuit_cd (p : Fin 4) (c : Fin 12) (r : Circuit) : (s.setCircuit p c r).cd = s.cd := rfl
@[simp] theorem State.setCircuit_fs (p : Fin 4) (c : Fin 12) (r : Circuit) : (s.setCircuit p c r).fs = s.fs := rfl
@[simp] theorem State.setCircuit_drive (p : Fin 4) (c : Fin 12) (r : Circuit) :
    (s.setCircuit p c r).drive = s.drive := rfl
@[simp] theorem State.setCircuit_link (p : Fin 4) (c : Fin 12) (r : Circuit) :
    (s.setCircuit p c r).link = s.link := rfl
@[simp] theorem State.setCircuit_assembly (p : Fin 4) (c : Fin 12) (r : Circuit) :
    (s.setCircuit p c r).assembly = s.assembly := rfl
@[simp] theorem State.setCircuit_positions (p : Fin 4) (c : Fin 12) (r : Circuit) :
    (s.setCircuit p c r).positions = s.positions := rfl
@[simp] theorem State.setCircuit_holdTime (p : Fin 4) (c : Fin 12) (r : Circuit) :
    (s.setCircuit p c r).holdTime = s.holdTime := rfl
@[simp] theorem State.setCircuit_samples (p : Fin 4) (c : Fin 12) (r : Circuit) :
    (s.setCircuit p c r).samples = s.samples := rfl
@[simp] theorem State.setCircuit_sampling (p : Fin 4) (c : Fin 12) (r : Circuit) :
    (s.setCircuit p c r).sampling = s.sampling := rfl
@[simp] theorem State.setCircuit_circuits (p : Fin 4) (c : Fin 12) (r : Circuit) :
    (s.setCircuit p c r).circuits = s.circuits.set p ((s.circuits.get p).set c.val r) := rfl
@[simp] theorem State.setCircuit_judging (p : Fin 4) (c : Fin 12) (r : Circuit) :
    (s.setCircuit p c r).judging = s.judging := rfl
@[simp] theorem State.setCircuit_feeds (p : Fin 4) (c : Fin 12) (r : Circuit) :
    (s.setCircuit p c r).feeds = s.feeds := rfl
@[simp] theorem State.setCircuit_notices (p : Fin 4) (c : Fin 12) (r : Circuit) :
    (s.setCircuit p c r).notices = s.notices := rfl
@[simp] theorem State.setCircuit_port (p : Fin 4) (c : Fin 12) (r : Circuit) :
    (s.setCircuit p c r).port = s.port := rfl
@[simp] theorem State.setCircuit_freeIndex (p : Fin 4) (c : Fin 12) (r : Circuit) :
    (s.setCircuit p c r).freeIndex = s.freeIndex := rfl
@[simp] theorem State.setCircuit_pending (p : Fin 4) (c : Fin 12) (r : Circuit) :
    (s.setCircuit p c r).pending = s.pending := rfl

/-! ## setFeed -/

@[simp] theorem State.setFeed_resetAsserted (f : Fin 8) (c : FeedCondition) :
    (s.setFeed f c).resetAsserted = s.resetAsserted := rfl
@[simp] theorem State.setFeed_power (f : Fin 8) (c : FeedCondition) : (s.setFeed f c).power = s.power := rfl
@[simp] theorem State.setFeed_ov (f : Fin 8) (c : FeedCondition) : (s.setFeed f c).ov = s.ov := rfl
@[simp] theorem State.setFeed_cd (f : Fin 8) (c : FeedCondition) : (s.setFeed f c).cd = s.cd := rfl
@[simp] theorem State.setFeed_fs (f : Fin 8) (c : FeedCondition) : (s.setFeed f c).fs = s.fs := rfl
@[simp] theorem State.setFeed_drive (f : Fin 8) (c : FeedCondition) : (s.setFeed f c).drive = s.drive := rfl
@[simp] theorem State.setFeed_link (f : Fin 8) (c : FeedCondition) : (s.setFeed f c).link = s.link := rfl
@[simp] theorem State.setFeed_assembly (f : Fin 8) (c : FeedCondition) : (s.setFeed f c).assembly = s.assembly := rfl
@[simp] theorem State.setFeed_positions (f : Fin 8) (c : FeedCondition) :
    (s.setFeed f c).positions = s.positions := rfl
@[simp] theorem State.setFeed_holdTime (f : Fin 8) (c : FeedCondition) : (s.setFeed f c).holdTime = s.holdTime := rfl
@[simp] theorem State.setFeed_samples (f : Fin 8) (c : FeedCondition) : (s.setFeed f c).samples = s.samples := rfl
@[simp] theorem State.setFeed_sampling (f : Fin 8) (c : FeedCondition) : (s.setFeed f c).sampling = s.sampling := rfl
@[simp] theorem State.setFeed_circuits (f : Fin 8) (c : FeedCondition) : (s.setFeed f c).circuits = s.circuits := rfl
@[simp] theorem State.setFeed_judging (f : Fin 8) (c : FeedCondition) : (s.setFeed f c).judging = s.judging := rfl
@[simp] theorem State.setFeed_feeds (f : Fin 8) (c : FeedCondition) : (s.setFeed f c).feeds = s.feeds.set f c := rfl
@[simp] theorem State.setFeed_notices (f : Fin 8) (c : FeedCondition) : (s.setFeed f c).notices = s.notices := rfl
@[simp] theorem State.setFeed_port (f : Fin 8) (c : FeedCondition) : (s.setFeed f c).port = s.port := rfl
@[simp] theorem State.setFeed_freeIndex (f : Fin 8) (c : FeedCondition) :
    (s.setFeed f c).freeIndex = s.freeIndex := rfl
@[simp] theorem State.setFeed_pending (f : Fin 8) (c : FeedCondition) : (s.setFeed f c).pending = s.pending := rfl

/-! ## updNotices -/

@[simp] theorem State.updNotices_resetAsserted (f : NoticeUnit → NoticeUnit) :
    (s.updNotices f).resetAsserted = s.resetAsserted := rfl
@[simp] theorem State.updNotices_power (f : NoticeUnit → NoticeUnit) : (s.updNotices f).power = s.power := rfl
@[simp] theorem State.updNotices_ov (f : NoticeUnit → NoticeUnit) : (s.updNotices f).ov = s.ov := rfl
@[simp] theorem State.updNotices_cd (f : NoticeUnit → NoticeUnit) : (s.updNotices f).cd = s.cd := rfl
@[simp] theorem State.updNotices_fs (f : NoticeUnit → NoticeUnit) : (s.updNotices f).fs = s.fs := rfl
@[simp] theorem State.updNotices_drive (f : NoticeUnit → NoticeUnit) : (s.updNotices f).drive = s.drive := rfl
@[simp] theorem State.updNotices_link (f : NoticeUnit → NoticeUnit) : (s.updNotices f).link = s.link := rfl
@[simp] theorem State.updNotices_assembly (f : NoticeUnit → NoticeUnit) :
    (s.updNotices f).assembly = s.assembly := rfl
@[simp] theorem State.updNotices_positions (f : NoticeUnit → NoticeUnit) :
    (s.updNotices f).positions = s.positions := rfl
@[simp] theorem State.updNotices_holdTime (f : NoticeUnit → NoticeUnit) :
    (s.updNotices f).holdTime = s.holdTime := rfl
@[simp] theorem State.updNotices_samples (f : NoticeUnit → NoticeUnit) : (s.updNotices f).samples = s.samples := rfl
@[simp] theorem State.updNotices_sampling (f : NoticeUnit → NoticeUnit) :
    (s.updNotices f).sampling = s.sampling := rfl
@[simp] theorem State.updNotices_circuits (f : NoticeUnit → NoticeUnit) :
    (s.updNotices f).circuits = s.circuits := rfl
@[simp] theorem State.updNotices_judging (f : NoticeUnit → NoticeUnit) : (s.updNotices f).judging = s.judging := rfl
@[simp] theorem State.updNotices_feeds (f : NoticeUnit → NoticeUnit) : (s.updNotices f).feeds = s.feeds := rfl
@[simp] theorem State.updNotices_notices (f : NoticeUnit → NoticeUnit) : (s.updNotices f).notices = f s.notices := rfl
@[simp] theorem State.updNotices_port (f : NoticeUnit → NoticeUnit) : (s.updNotices f).port = s.port := rfl
@[simp] theorem State.updNotices_freeIndex (f : NoticeUnit → NoticeUnit) :
    (s.updNotices f).freeIndex = s.freeIndex := rfl
@[simp] theorem State.updNotices_pending (f : NoticeUnit → NoticeUnit) : (s.updNotices f).pending = s.pending := rfl

/-! ## updPort -/

@[simp] theorem State.updPort_resetAsserted (f : PortControl → PortControl) :
    (s.updPort f).resetAsserted = s.resetAsserted := rfl
@[simp] theorem State.updPort_power (f : PortControl → PortControl) : (s.updPort f).power = s.power := rfl
@[simp] theorem State.updPort_ov (f : PortControl → PortControl) : (s.updPort f).ov = s.ov := rfl
@[simp] theorem State.updPort_cd (f : PortControl → PortControl) : (s.updPort f).cd = s.cd := rfl
@[simp] theorem State.updPort_fs (f : PortControl → PortControl) : (s.updPort f).fs = s.fs := rfl
@[simp] theorem State.updPort_drive (f : PortControl → PortControl) : (s.updPort f).drive = s.drive := rfl
@[simp] theorem State.updPort_link (f : PortControl → PortControl) : (s.updPort f).link = s.link := rfl
@[simp] theorem State.updPort_assembly (f : PortControl → PortControl) : (s.updPort f).assembly = s.assembly := rfl
@[simp] theorem State.updPort_positions (f : PortControl → PortControl) : (s.updPort f).positions = s.positions := rfl
@[simp] theorem State.updPort_holdTime (f : PortControl → PortControl) : (s.updPort f).holdTime = s.holdTime := rfl
@[simp] theorem State.updPort_samples (f : PortControl → PortControl) : (s.updPort f).samples = s.samples := rfl
@[simp] theorem State.updPort_sampling (f : PortControl → PortControl) : (s.updPort f).sampling = s.sampling := rfl
@[simp] theorem State.updPort_circuits (f : PortControl → PortControl) : (s.updPort f).circuits = s.circuits := rfl
@[simp] theorem State.updPort_judging (f : PortControl → PortControl) : (s.updPort f).judging = s.judging := rfl
@[simp] theorem State.updPort_feeds (f : PortControl → PortControl) : (s.updPort f).feeds = s.feeds := rfl
@[simp] theorem State.updPort_notices (f : PortControl → PortControl) : (s.updPort f).notices = s.notices := rfl
@[simp] theorem State.updPort_port (f : PortControl → PortControl) : (s.updPort f).port = f s.port := rfl
@[simp] theorem State.updPort_freeIndex (f : PortControl → PortControl) : (s.updPort f).freeIndex = s.freeIndex := rfl
@[simp] theorem State.updPort_pending (f : PortControl → PortControl) : (s.updPort f).pending = s.pending := rfl

/-! ## updLink -/

@[simp] theorem State.updLink_resetAsserted (f : Link → Link) : (s.updLink f).resetAsserted = s.resetAsserted := rfl
@[simp] theorem State.updLink_power (f : Link → Link) : (s.updLink f).power = s.power := rfl
@[simp] theorem State.updLink_ov (f : Link → Link) : (s.updLink f).ov = s.ov := rfl
@[simp] theorem State.updLink_cd (f : Link → Link) : (s.updLink f).cd = s.cd := rfl
@[simp] theorem State.updLink_fs (f : Link → Link) : (s.updLink f).fs = s.fs := rfl
@[simp] theorem State.updLink_drive (f : Link → Link) : (s.updLink f).drive = s.drive := rfl
@[simp] theorem State.updLink_link (f : Link → Link) : (s.updLink f).link = f s.link := rfl
@[simp] theorem State.updLink_assembly (f : Link → Link) : (s.updLink f).assembly = s.assembly := rfl
@[simp] theorem State.updLink_positions (f : Link → Link) : (s.updLink f).positions = s.positions := rfl
@[simp] theorem State.updLink_holdTime (f : Link → Link) : (s.updLink f).holdTime = s.holdTime := rfl
@[simp] theorem State.updLink_samples (f : Link → Link) : (s.updLink f).samples = s.samples := rfl
@[simp] theorem State.updLink_sampling (f : Link → Link) : (s.updLink f).sampling = s.sampling := rfl
@[simp] theorem State.updLink_circuits (f : Link → Link) : (s.updLink f).circuits = s.circuits := rfl
@[simp] theorem State.updLink_judging (f : Link → Link) : (s.updLink f).judging = s.judging := rfl
@[simp] theorem State.updLink_feeds (f : Link → Link) : (s.updLink f).feeds = s.feeds := rfl
@[simp] theorem State.updLink_notices (f : Link → Link) : (s.updLink f).notices = s.notices := rfl
@[simp] theorem State.updLink_port (f : Link → Link) : (s.updLink f).port = s.port := rfl
@[simp] theorem State.updLink_freeIndex (f : Link → Link) : (s.updLink f).freeIndex = s.freeIndex := rfl
@[simp] theorem State.updLink_pending (f : Link → Link) : (s.updLink f).pending = s.pending := rfl

end Sys2Proof.Machine
end

