-- ==== Sys2Proof/Laws/Frames.lean ====
section
/-! SUPPORT. What each operation can change. A lemma `X_outsideM` says that operation X changes nothing outside the
fields that M names: `outsideNotices` (the notice unit), `outsideClaims` (feed records, circuit table, notice unit),
`outsideRoster` (those, positions, samples, link and assembly). A field that M keeps follows by `congrArg`. -/

namespace Sys2Proof.Machine

/-- The state with its notice unit blanked. -/
def State.outsideNotices (s : State) : State := { s with notices := NoticeUnit.initial }

/-- The state with its feed records, circuit table and notice unit blanked. -/
def State.outsideClaims (s : State) : State :=
  { s with feeds := Eight.all .none, circuits := Four.all [], notices := NoticeUnit.initial }

/-- The state with everything blanked that an event of the link or of a position can reach. -/
def State.outsideRoster (s : State) : State :=
  { s with
    feeds := Eight.all .none
    circuits := Four.all []
    notices := NoticeUnit.initial
    positions := Four.all (Position.initial false)
    samples := Four.all Sampling.initial
    link := Link.initial
    assembly := Four.all .idle }

/-- A fold keeps what each of its steps keeps. -/
theorem foldl_keeps {α β σ : Type} (π : σ → β) (f : σ → α → σ) (h : ∀ s x, π (f s x) = π s) (l : List α) (s : σ) :
    π (l.foldl f s) = π s := by
  induction l generalizing s with
  | nil => rfl
  | cons x xs ih => simp [ih, h]

/-- What changes only the notice unit changes nothing outside the claims. -/
theorem keepsClaims {s t : State} (h : t.outsideNotices = s.outsideNotices) : t.outsideClaims = s.outsideClaims := by
  have := congrArg State.outsideClaims h
  exact this

/-- What changes nothing outside the claims changes nothing outside the roster. -/
theorem keepsRoster {s t : State} (h : t.outsideClaims = s.outsideClaims) : t.outsideRoster = s.outsideRoster := by
  have := congrArg State.outsideRoster h
  exact this

variable (s : State)

/-! ## The named writes: outsideNotices -/

@[simp] theorem State.updNotices_outsideNotices (f : NoticeUnit → NoticeUnit) :
    (s.updNotices f).outsideNotices = s.outsideNotices := rfl

/-! ## The notice unit -/

@[simp] theorem State.raise_outsideNotices (x : Subject) (k : NoticeKind) :
    (s.raise x k).outsideNotices = s.outsideNotices := by
  unfold State.raise
  (repeat' (first | split | dsimp only)) <;> simp

@[simp] theorem State.resolve_outsideNotices (x : Subject) :
    (s.resolve x).outsideNotices = s.outsideNotices := by
  unfold State.resolve
  (repeat' (first | split | dsimp only)) <;> simp

@[simp] theorem State.departCircuit_outsideNotices (p : Fin 4) (c : Fin 12) :
    (s.departCircuit p c).outsideNotices = s.outsideNotices := by
  unfold State.departCircuit
  (repeat' (first | split | dsimp only)) <;> simp

@[simp] theorem State.departClaims_outsideNotices (p : Fin 4) :
    (s.departClaims p).outsideNotices = s.outsideNotices := by
  unfold State.departClaims
  refine foldl_keeps State.outsideNotices _ (fun s x => ?_) _ _
  (repeat' (first | split | dsimp only)) <;> simp

@[simp] theorem State.withdrawCircuit_outsideNotices (p : Fin 4) (c : Fin 12) :
    (s.withdrawCircuit p c).outsideNotices = s.outsideNotices := by
  unfold State.withdrawCircuit
  (repeat' (first | split | dsimp only)) <;> simp

@[simp] theorem State.scanSubject_outsideNotices (x : Subject) :
    (s.scanSubject x).outsideNotices = s.outsideNotices := by
  unfold State.scanSubject
  (repeat' (first | split | dsimp only)) <;> simp

@[simp] theorem State.scan_outsideNotices :
    s.scan.outsideNotices = s.outsideNotices := by
  unfold State.scan
  refine foldl_keeps State.outsideNotices _ (fun s x => ?_) _ _
  (repeat' (first | split | dsimp only)) <;> simp

@[simp] theorem State.scanIfDue_outsideNotices :
    s.scanIfDue.outsideNotices = s.outsideNotices := by
  unfold State.scanIfDue
  (repeat' (first | split | dsimp only)) <;> simp

@[simp] theorem State.feedClaim_outsideNotices (f : Fin 8) (a b : FeedCondition) :
    (s.feedClaim f a b).outsideNotices = s.outsideNotices := by
  unfold State.feedClaim
  (repeat' (first | split | dsimp only)) <;> simp

@[simp] theorem State.verdictClaim_outsideNotices (p : Fin 4) (c : Fin 12) (a b : Verdict) :
    (s.verdictClaim p c a b).outsideNotices = s.outsideNotices := by
  unfold State.verdictClaim
  (repeat' (first | split | dsimp only)) <;> simp

/-! ## The named writes: outsideClaims -/

@[simp] theorem State.updNotices_outsideClaims (f : NoticeUnit → NoticeUnit) :
    (s.updNotices f).outsideClaims = s.outsideClaims := rfl

@[simp] theorem State.setFeed_outsideClaims (f : Fin 8) (a : FeedCondition) :
    (s.setFeed f a).outsideClaims = s.outsideClaims := rfl

@[simp] theorem State.setCircuits_outsideClaims (p : Fin 4) (rs : List Circuit) :
    (s.setCircuits p rs).outsideClaims = s.outsideClaims := rfl

@[simp] theorem State.setCircuit_outsideClaims (p : Fin 4) (c : Fin 12) (r : Circuit) :
    (s.setCircuit p c r).outsideClaims = s.outsideClaims := rfl

/-! ## Feed records, circuit table, notice unit -/

@[simp] theorem State.raise_outsideClaims (x : Subject) (k : NoticeKind) :
    (s.raise x k).outsideClaims = s.outsideClaims := keepsClaims (s.raise_outsideNotices x k)

@[simp] theorem State.resolve_outsideClaims (x : Subject) :
    (s.resolve x).outsideClaims = s.outsideClaims := keepsClaims (s.resolve_outsideNotices x)

@[simp] theorem State.departCircuit_outsideClaims (p : Fin 4) (c : Fin 12) :
    (s.departCircuit p c).outsideClaims = s.outsideClaims := keepsClaims (s.departCircuit_outsideNotices p c)

@[simp] theorem State.departClaims_outsideClaims (p : Fin 4) :
    (s.departClaims p).outsideClaims = s.outsideClaims := keepsClaims (s.departClaims_outsideNotices p)

@[simp] theorem State.withdrawCircuit_outsideClaims (p : Fin 4) (c : Fin 12) :
    (s.withdrawCircuit p c).outsideClaims = s.outsideClaims := keepsClaims (s.withdrawCircuit_outsideNotices p c)

@[simp] theorem State.scanSubject_outsideClaims (x : Subject) :
    (s.scanSubject x).outsideClaims = s.outsideClaims := keepsClaims (s.scanSubject_outsideNotices x)

@[simp] theorem State.scan_outsideClaims :
    s.scan.outsideClaims = s.outsideClaims := keepsClaims (s.scan_outsideNotices)

@[simp] theorem State.scanIfDue_outsideClaims :
    s.scanIfDue.outsideClaims = s.outsideClaims := keepsClaims (s.scanIfDue_outsideNotices)

@[simp] theorem State.feedClaim_outsideClaims (f : Fin 8) (a b : FeedCondition) :
    (s.feedClaim f a b).outsideClaims = s.outsideClaims := keepsClaims (s.feedClaim_outsideNotices f a b)

@[simp] theorem State.verdictClaim_outsideClaims (p : Fin 4) (c : Fin 12) (a b : Verdict) :
    (s.verdictClaim p c a b).outsideClaims = s.outsideClaims := keepsClaims (s.verdictClaim_outsideNotices p c a b)

@[simp] theorem State.shadow_outsideClaims (p : Fin 4) (c : Fin 12) :
    (s.shadow p c).outsideClaims = s.outsideClaims := by
  unfold State.shadow
  (repeat' (first | split | dsimp only)) <;> simp

@[simp] theorem State.shadowOf_outsideClaims (f : Fin 8) (p : Fin 4) (c : Fin 12) :
    (s.shadowOf f p c).outsideClaims = s.outsideClaims := by
  unfold State.shadowOf
  (repeat' (first | split | dsimp only)) <;> simp

@[simp] theorem State.shadowWhere_outsideClaims (f : Fin 8) (g : Fin 4 → Bool) :
    (s.shadowWhere f g).outsideClaims = s.outsideClaims := by
  unfold State.shadowWhere
  refine foldl_keeps State.outsideClaims _ (fun s x => ?_) _ _
  exact foldl_keeps State.outsideClaims _ (fun s y => by simp) _ _

@[simp] theorem State.unshadow_outsideClaims (f : Fin 8) :
    (s.unshadow f).outsideClaims = s.outsideClaims := rfl

@[simp] theorem State.holdOutcome_outsideClaims (p : Fin 4) (c : Fin 12) (o : Hold) :
    (s.holdOutcome p c o).outsideClaims = s.outsideClaims := by
  unfold State.holdOutcome
  (repeat' (first | split | dsimp only)) <;> simp

@[simp] theorem State.holdOutcomes_outsideClaims (f : Fin 8) (p : Fin 4) (o : Hold) :
    (s.holdOutcomes f p o).outsideClaims = s.outsideClaims := by
  unfold State.holdOutcomes
  refine foldl_keeps State.outsideClaims _ (fun s x => ?_) _ _
  (repeat' (first | split | dsimp only)) <;> simp

@[simp] theorem State.setCondition_outsideClaims (f : Fin 8) (a : FeedCondition) :
    (s.setCondition f a).outsideClaims = s.outsideClaims := by
  unfold State.setCondition
  (repeat' (first | split | dsimp only)) <;> simp

@[simp] theorem State.clearCondition_outsideClaims (f : Fin 8) :
    (s.clearCondition f).outsideClaims = s.outsideClaims := by
  unfold State.clearCondition
  (repeat' (first | split | dsimp only)) <;> simp

@[simp] theorem State.evaluate_outsideClaims (f : Fin 8) (p : Fin 4) :
    (s.evaluate f p).outsideClaims = s.outsideClaims := by
  unfold State.evaluate
  (repeat' (first | split | dsimp only)) <;> simp

@[simp] theorem State.pass_outsideClaims (f : Fin 8) (n : Nat) (e : Option (Fin 4)) :
    (s.pass f n e).outsideClaims = s.outsideClaims := by
  unfold State.pass
  refine foldl_keeps State.outsideClaims _ (fun s x => ?_) _ _
  (repeat' (first | split | dsimp only)) <;> simp

@[simp] theorem State.passAll_outsideClaims (n : Nat) :
    (s.passAll n).outsideClaims = s.outsideClaims := by
  unfold State.passAll
  refine foldl_keeps State.outsideClaims _ (fun s x => ?_) _ _
  (repeat' (first | split | dsimp only)) <;> simp

@[simp] theorem State.clearBreaksEndingAt_outsideClaims (p : Fin 4) :
    (s.clearBreaksEndingAt p).outsideClaims = s.outsideClaims := by
  unfold State.clearBreaksEndingAt
  refine foldl_keeps State.outsideClaims _ (fun s x => ?_) _ _
  (repeat' (first | split | dsimp only)) <;> simp

@[simp] theorem State.circuitsGone_outsideClaims (p : Fin 4) :
    (s.circuitsGone p).outsideClaims = s.outsideClaims := by
  unfold State.circuitsGone
  (repeat' (first | split | dsimp only)) <;> simp

@[simp] theorem State.shadowedReading_outsideClaims (f : Fin 8) (p : Fin 4) (v : Bool) (e : DriveClass) :
    (s.shadowedReading f p v e).outsideClaims = s.outsideClaims := by
  unfold State.shadowedReading
  (repeat' (first | split | dsimp only)) <;> simp

@[simp] theorem State.applyVerdict_outsideClaims (p : Fin 4) (c : Fin 12) (a b : Circuit) :
    (s.applyVerdict p c a b).outsideClaims = s.outsideClaims := by
  unfold State.applyVerdict
  (repeat' (first | split | dsimp only)) <;> simp

@[simp] theorem State.replaceCandidate_outsideClaims (p : Fin 4) (c : Fin 12) :
    (s.replaceCandidate p c).outsideClaims = s.outsideClaims := by
  unfold State.replaceCandidate
  (repeat' (first | split | dsimp only)) <;> simp

@[simp] theorem State.judgeReading_outsideClaims (p : Fin 4) (c : Fin 12) (r : Circuit) (o : Finding) :
    (s.judgeReading p c r o).outsideClaims = s.outsideClaims := by
  unfold State.judgeReading
  (repeat' (first | split | dsimp only)) <;> simp

@[simp] theorem State.takeReading_outsideClaims (p : Fin 4) (x : Reading) (e : DriveClass) :
    (s.takeReading p x e).outsideClaims = s.outsideClaims := by
  unfold State.takeReading
  (repeat' (first | split | dsimp only)) <;> simp

@[simp] theorem State.releaseAt_outsideClaims (p : Fin 4) (c : Fin 12) :
    (s.releaseAt p c).outsideClaims = s.outsideClaims := by
  unfold State.releaseAt
  (repeat' (first | split | dsimp only)) <;> simp

@[simp] theorem State.releaseEvery_outsideClaims :
    s.releaseEvery.outsideClaims = s.outsideClaims := by
  unfold State.releaseEvery
  refine foldl_keeps State.outsideClaims _ (fun s x => ?_) _ _
  exact foldl_keeps State.outsideClaims _ (fun s y => by simp) _ _

@[simp] theorem State.judgeOne_outsideClaims (p : Fin 4) (o : Outstanding) (x : Reading) :
    (s.judgeOne p o x).outsideClaims = s.outsideClaims := by
  unfold State.judgeOne
  (repeat' (first | split | dsimp only)) <;> simp

@[simp] theorem State.senseClaim_outsideClaims (f : Fin 8) (a b : SenseCondition) :
    (s.senseClaim f a b).outsideClaims = s.outsideClaims := by
  unfold State.senseClaim
  (repeat' (first | split | dsimp only)) <;> simp

/-! ## The named writes: outsideRoster -/

@[simp] theorem State.updNotices_outsideRoster (f : NoticeUnit → NoticeUnit) :
    (s.updNotices f).outsideRoster = s.outsideRoster := rfl

@[simp] theorem State.setFeed_outsideRoster (f : Fin 8) (a : FeedCondition) :
    (s.setFeed f a).outsideRoster = s.outsideRoster := rfl

@[simp] theorem State.setCircuits_outsideRoster (p : Fin 4) (rs : List Circuit) :
    (s.setCircuits p rs).outsideRoster = s.outsideRoster := rfl

@[simp] theorem State.setCircuit_outsideRoster (p : Fin 4) (c : Fin 12) (r : Circuit) :
    (s.setCircuit p c r).outsideRoster = s.outsideRoster := rfl

@[simp] theorem State.updPosition_outsideRoster (p : Fin 4) (f : Position → Position) :
    (s.updPosition p f).outsideRoster = s.outsideRoster := rfl

@[simp] theorem State.updSampling_outsideRoster (p : Fin 4) (f : Sampling → Sampling) :
    (s.updSampling p f).outsideRoster = s.outsideRoster := rfl

@[simp] theorem State.updChannel_outsideRoster (p : Fin 4) (f : Channel → Channel) :
    (s.updChannel p f).outsideRoster = s.outsideRoster := rfl

@[simp] theorem State.updLink_outsideRoster (f : Link → Link) :
    (s.updLink f).outsideRoster = s.outsideRoster := rfl

@[simp] theorem State.setAssembly_outsideRoster (p : Fin 4) (a : Assembly) :
    (s.setAssembly p a).outsideRoster = s.outsideRoster := rfl

/-! ## The roster -/

@[simp] theorem State.raise_outsideRoster (x : Subject) (k : NoticeKind) :
    (s.raise x k).outsideRoster = s.outsideRoster := keepsRoster (s.raise_outsideClaims x k)

@[simp] theorem State.resolve_outsideRoster (x : Subject) :
    (s.resolve x).outsideRoster = s.outsideRoster := keepsRoster (s.resolve_outsideClaims x)

@[simp] theorem State.departCircuit_outsideRoster (p : Fin 4) (c : Fin 12) :
    (s.departCircuit p c).outsideRoster = s.outsideRoster := keepsRoster (s.departCircuit_outsideClaims p c)

@[simp] theorem State.departClaims_outsideRoster (p : Fin 4) :
    (s.departClaims p).outsideRoster = s.outsideRoster := keepsRoster (s.departClaims_outsideClaims p)

@[simp] theorem State.withdrawCircuit_outsideRoster (p : Fin 4) (c : Fin 12) :
    (s.withdrawCircuit p c).outsideRoster = s.outsideRoster := keepsRoster (s.withdrawCircuit_outsideClaims p c)

@[simp] theorem State.scanSubject_outsideRoster (x : Subject) :
    (s.scanSubject x).outsideRoster = s.outsideRoster := keepsRoster (s.scanSubject_outsideClaims x)

@[simp] theorem State.scan_outsideRoster :
    s.scan.outsideRoster = s.outsideRoster := keepsRoster (s.scan_outsideClaims)

@[simp] theorem State.scanIfDue_outsideRoster :
    s.scanIfDue.outsideRoster = s.outsideRoster := keepsRoster (s.scanIfDue_outsideClaims)

@[simp] theorem State.feedClaim_outsideRoster (f : Fin 8) (a b : FeedCondition) :
    (s.feedClaim f a b).outsideRoster = s.outsideRoster := keepsRoster (s.feedClaim_outsideClaims f a b)

@[simp] theorem State.verdictClaim_outsideRoster (p : Fin 4) (c : Fin 12) (a b : Verdict) :
    (s.verdictClaim p c a b).outsideRoster = s.outsideRoster := keepsRoster (s.verdictClaim_outsideClaims p c a b)

@[simp] theorem State.shadow_outsideRoster (p : Fin 4) (c : Fin 12) :
    (s.shadow p c).outsideRoster = s.outsideRoster := keepsRoster (s.shadow_outsideClaims p c)

@[simp] theorem State.shadowOf_outsideRoster (f : Fin 8) (p : Fin 4) (c : Fin 12) :
    (s.shadowOf f p c).outsideRoster = s.outsideRoster := keepsRoster (s.shadowOf_outsideClaims f p c)

@[simp] theorem State.shadowWhere_outsideRoster (f : Fin 8) (g : Fin 4 → Bool) :
    (s.shadowWhere f g).outsideRoster = s.outsideRoster := keepsRoster (s.shadowWhere_outsideClaims f g)

@[simp] theorem State.unshadow_outsideRoster (f : Fin 8) :
    (s.unshadow f).outsideRoster = s.outsideRoster := keepsRoster (s.unshadow_outsideClaims f)

@[simp] theorem State.holdOutcome_outsideRoster (p : Fin 4) (c : Fin 12) (o : Hold) :
    (s.holdOutcome p c o).outsideRoster = s.outsideRoster := keepsRoster (s.holdOutcome_outsideClaims p c o)

@[simp] theorem State.holdOutcomes_outsideRoster (f : Fin 8) (p : Fin 4) (o : Hold) :
    (s.holdOutcomes f p o).outsideRoster = s.outsideRoster := keepsRoster (s.holdOutcomes_outsideClaims f p o)

@[simp] theorem State.setCondition_outsideRoster (f : Fin 8) (a : FeedCondition) :
    (s.setCondition f a).outsideRoster = s.outsideRoster := keepsRoster (s.setCondition_outsideClaims f a)

@[simp] theorem State.clearCondition_outsideRoster (f : Fin 8) :
    (s.clearCondition f).outsideRoster = s.outsideRoster := keepsRoster (s.clearCondition_outsideClaims f)

@[simp] theorem State.evaluate_outsideRoster (f : Fin 8) (p : Fin 4) :
    (s.evaluate f p).outsideRoster = s.outsideRoster := keepsRoster (s.evaluate_outsideClaims f p)

@[simp] theorem State.pass_outsideRoster (f : Fin 8) (n : Nat) (e : Option (Fin 4)) :
    (s.pass f n e).outsideRoster = s.outsideRoster := keepsRoster (s.pass_outsideClaims f n e)

@[simp] theorem State.passAll_outsideRoster (n : Nat) :
    (s.passAll n).outsideRoster = s.outsideRoster := keepsRoster (s.passAll_outsideClaims n)

@[simp] theorem State.clearBreaksEndingAt_outsideRoster (p : Fin 4) :
    (s.clearBreaksEndingAt p).outsideRoster = s.outsideRoster := keepsRoster (s.clearBreaksEndingAt_outsideClaims p)

@[simp] theorem State.circuitsGone_outsideRoster (p : Fin 4) :
    (s.circuitsGone p).outsideRoster = s.outsideRoster := keepsRoster (s.circuitsGone_outsideClaims p)

@[simp] theorem State.shadowedReading_outsideRoster (f : Fin 8) (p : Fin 4) (v : Bool) (e : DriveClass) :
    (s.shadowedReading f p v e).outsideRoster = s.outsideRoster := keepsRoster (s.shadowedReading_outsideClaims f p v e)

@[simp] theorem State.applyVerdict_outsideRoster (p : Fin 4) (c : Fin 12) (a b : Circuit) :
    (s.applyVerdict p c a b).outsideRoster = s.outsideRoster := keepsRoster (s.applyVerdict_outsideClaims p c a b)

@[simp] theorem State.replaceCandidate_outsideRoster (p : Fin 4) (c : Fin 12) :
    (s.replaceCandidate p c).outsideRoster = s.outsideRoster := keepsRoster (s.replaceCandidate_outsideClaims p c)

@[simp] theorem State.judgeReading_outsideRoster (p : Fin 4) (c : Fin 12) (r : Circuit) (o : Finding) :
    (s.judgeReading p c r o).outsideRoster = s.outsideRoster := keepsRoster (s.judgeReading_outsideClaims p c r o)

@[simp] theorem State.takeReading_outsideRoster (p : Fin 4) (x : Reading) (e : DriveClass) :
    (s.takeReading p x e).outsideRoster = s.outsideRoster := keepsRoster (s.takeReading_outsideClaims p x e)

@[simp] theorem State.releaseAt_outsideRoster (p : Fin 4) (c : Fin 12) :
    (s.releaseAt p c).outsideRoster = s.outsideRoster := keepsRoster (s.releaseAt_outsideClaims p c)

@[simp] theorem State.releaseEvery_outsideRoster :
    s.releaseEvery.outsideRoster = s.outsideRoster := keepsRoster (s.releaseEvery_outsideClaims)

@[simp] theorem State.judgeOne_outsideRoster (p : Fin 4) (o : Outstanding) (x : Reading) :
    (s.judgeOne p o x).outsideRoster = s.outsideRoster := keepsRoster (s.judgeOne_outsideClaims p o x)

@[simp] theorem State.senseClaim_outsideRoster (f : Fin 8) (a b : SenseCondition) :
    (s.senseClaim f a b).outsideRoster = s.outsideRoster := keepsRoster (s.senseClaim_outsideClaims f a b)

@[simp] theorem State.offer_outsideRoster (p : Fin 4) (w : LinkWord) :
    (s.offer p w).outsideRoster = s.outsideRoster := by
  unfold State.offer
  (repeat' (first | split | dsimp only)) <;> simp

@[simp] theorem State.flushChannel_outsideRoster (p : Fin 4) :
    (s.flushChannel p).outsideRoster = s.outsideRoster := by
  unfold State.flushChannel
  (repeat' (first | split | dsimp only)) <;> simp

@[simp] theorem State.countFailure_outsideRoster (p : Fin 4) :
    (s.countFailure p).outsideRoster = s.outsideRoster := by
  unfold State.countFailure
  (repeat' (first | split | dsimp only)) <;> simp

@[simp] theorem State.countSuccess_outsideRoster (p : Fin 4) :
    (s.countSuccess p).outsideRoster = s.outsideRoster := by
  unfold State.countSuccess
  (repeat' (first | split | dsimp only)) <;> simp

@[simp] theorem State.startSampling_outsideRoster (p : Fin 4) :
    (s.startSampling p).outsideRoster = s.outsideRoster := by
  unfold State.startSampling
  (repeat' (first | split | dsimp only)) <;> simp

@[simp] theorem State.flushSamples_outsideRoster (p : Fin 4) :
    (s.flushSamples p).outsideRoster = s.outsideRoster := by
  unfold State.flushSamples
  (repeat' (first | split | dsimp only)) <;> simp

@[simp] theorem State.stopSampling_outsideRoster (p : Fin 4) :
    (s.stopSampling p).outsideRoster = s.outsideRoster := by
  unfold State.stopSampling
  (repeat' (first | split | dsimp only)) <;> simp

@[simp] theorem State.muteClaim_outsideRoster (p : Fin 4) :
    (s.muteClaim p).outsideRoster = s.outsideRoster := by
  unfold State.muteClaim
  (repeat' (first | split | dsimp only)) <;> simp

@[simp] theorem State.matchedClaim_outsideRoster (p : Fin 4) :
    (s.matchedClaim p).outsideRoster = s.outsideRoster := by
  unfold State.matchedClaim
  (repeat' (first | split | dsimp only)) <;> simp

@[simp] theorem State.countMissed_outsideRoster (p : Fin 4) :
    (s.countMissed p).outsideRoster = s.outsideRoster := by
  unfold State.countMissed
  (repeat' (first | split | dsimp only)) <;> simp

@[simp] theorem State.issueSample_outsideRoster (p : Fin 4) :
    (s.issueSample p).outsideRoster = s.outsideRoster := by
  unfold State.issueSample
  (repeat' (first | split | dsimp only)) <;> simp

@[simp] theorem State.sampleSent_outsideRoster (p : Fin 4) (g : BitVec 4) :
    (s.sampleSent p g).outsideRoster = s.outsideRoster := by
  unfold State.sampleSent
  (repeat' (first | split | dsimp only)) <;> simp

@[simp] theorem State.sampleFailed_outsideRoster (p : Fin 4) (g : BitVec 4) :
    (s.sampleFailed p g).outsideRoster = s.outsideRoster := by
  unfold State.sampleFailed
  (repeat' (first | split | dsimp only)) <;> simp

@[simp] theorem State.blur_outsideRoster (f : Fin 8) :
    (s.blur f).outsideRoster = s.outsideRoster := rfl

@[simp] theorem State.settleReport_outsideRoster (p : Fin 4) (g : BitVec 4) (rs : List Reading) :
    (s.settleReport p g rs).outsideRoster = s.outsideRoster := by
  unfold State.settleReport
  (repeat' (first | split | dsimp only)) <;> simp [foldl_keeps State.outsideRoster]

@[simp] theorem State.missDeadline_outsideRoster (p : Fin 4) (g : BitVec 4) :
    (s.missDeadline p g).outsideRoster = s.outsideRoster := by
  unfold State.missDeadline
  (repeat' (first | split | dsimp only)) <;> simp

@[simp] theorem State.sampleTimerRunsOut_outsideRoster (p : Fin 4) :
    (s.sampleTimerRunsOut p).outsideRoster = s.outsideRoster := by
  unfold State.sampleTimerRunsOut
  (repeat' (first | split | dsimp only)) <;> simp

@[simp] theorem State.positionClaim_outsideRoster (p : Fin 4) :
    (s.positionClaim p).outsideRoster = s.outsideRoster := by
  unfold State.positionClaim
  (repeat' (first | split | dsimp only)) <;> simp

@[simp] theorem State.settle_outsideRoster :
    s.settle.outsideRoster = s.outsideRoster := by
  unfold State.settle
  rw [State.scanIfDue_outsideRoster]
  exact foldl_keeps State.outsideRoster _ (fun s p => by simp) _ _

@[simp] theorem State.startEnrollTimer_outsideRoster (p : Fin 4) :
    (s.startEnrollTimer p).outsideRoster = s.outsideRoster := by
  unfold State.startEnrollTimer
  (repeat' (first | split | dsimp only)) <;> simp

@[simp] theorem State.offerRecall_outsideRoster (p : Fin 4) :
    (s.offerRecall p).outsideRoster = s.outsideRoster := by
  unfold State.offerRecall
  (repeat' (first | split | dsimp only)) <;> simp

@[simp] theorem State.askToEnroll_outsideRoster (p : Fin 4) (x : PositionState) :
    (s.askToEnroll p x).outsideRoster = s.outsideRoster := by
  unfold State.askToEnroll
  (repeat' (first | split | dsimp only)) <;> simp

@[simp] theorem State.evaluatePosition_outsideRoster (p : Fin 4) :
    (s.evaluatePosition p).outsideRoster = s.outsideRoster := by
  unfold State.evaluatePosition
  (repeat' (first | split | dsimp only)) <;> simp

@[simp] theorem State.offerWelcome_outsideRoster (p : Fin 4) :
    (s.offerWelcome p).outsideRoster = s.outsideRoster := by
  unfold State.offerWelcome
  (repeat' (first | split | dsimp only)) <;> simp

@[simp] theorem State.welcomeSent_outsideRoster (p : Fin 4) :
    (s.welcomeSent p).outsideRoster = s.outsideRoster := by
  unfold State.welcomeSent
  (repeat' (first | split | dsimp only)) <;> simp

@[simp] theorem State.welcomeFailed_outsideRoster (p : Fin 4) :
    (s.welcomeFailed p).outsideRoster = s.outsideRoster := by
  unfold State.welcomeFailed
  (repeat' (first | split | dsimp only)) <;> simp

@[simp] theorem State.reportSent_outsideRoster (p : Fin 4) (w : LinkWord) :
    (s.reportSent p w).outsideRoster = s.outsideRoster := by
  unfold State.reportSent
  (repeat' (first | split | dsimp only)) <;> simp

@[simp] theorem State.reportFailed_outsideRoster (p : Fin 4) (w : LinkWord) :
    (s.reportFailed p w).outsideRoster = s.outsideRoster := by
  unfold State.reportFailed
  (repeat' (first | split | dsimp only)) <;> simp

@[simp] theorem State.setChannelEnable_outsideRoster (p : Fin 4) (on : Bool) :
    (s.setChannelEnable p on).outsideRoster = s.outsideRoster := by
  unfold State.setChannelEnable
  (repeat' (first | split | dsimp only)) <;> simp [foldl_keeps State.outsideRoster]

@[simp] theorem State.purge_outsideRoster (p : Fin 4) :
    (s.purge p).outsideRoster = s.outsideRoster := by
  unfold State.purge
  (repeat' (first | split | dsimp only)) <;> simp [foldl_keeps State.outsideRoster]

@[simp] theorem State.enroll_outsideRoster (p : Fin 4) (n : BitVec 24) (ds : List CircuitDef) :
    (s.enroll p n ds).outsideRoster = s.outsideRoster := by
  unfold State.enroll
  (repeat' (first | split | dsimp only)) <;> simp

@[simp] theorem State.identify_outsideRoster (p : Fin 4) (n : BitVec 24) (ds : List CircuitDef) :
    (s.identify p n ds).outsideRoster = s.outsideRoster := by
  unfold State.identify
  (repeat' (first | split | dsimp only)) <;> simp

@[simp] theorem State.acceptHello_outsideRoster (p : Fin 4) (n : BitVec 24) (ds : List CircuitDef) :
    (s.acceptHello p n ds).outsideRoster = s.outsideRoster := by
  unfold State.acceptHello
  (repeat' (first | split | dsimp only)) <;> simp

@[simp] theorem State.cutReceive_outsideRoster (p : Fin 4) :
    (s.cutReceive p).outsideRoster = s.outsideRoster := by
  unfold State.cutReceive
  (repeat' (first | split | dsimp only)) <;> simp

@[simp] theorem State.depart_outsideRoster (p : Fin 4) :
    (s.depart p).outsideRoster = s.outsideRoster := by
  unfold State.depart
  (repeat' (first | split | dsimp only)) <;> simp

@[simp] theorem State.coupleEdge_outsideRoster (p : Fin 4) :
    (s.coupleEdge p).outsideRoster = s.outsideRoster := by
  unfold State.coupleEdge
  (repeat' (first | split | dsimp only)) <;> simp

@[simp] theorem State.uncoupleEdge_outsideRoster (p : Fin 4) :
    (s.uncoupleEdge p).outsideRoster = s.outsideRoster := by
  unfold State.uncoupleEdge
  (repeat' (first | split | dsimp only)) <;> simp

@[simp] theorem State.processEdge_outsideRoster (p : Fin 4) (b : Bool) :
    (s.processEdge p b).outsideRoster = s.outsideRoster := by
  unfold State.processEdge
  (repeat' (first | split | dsimp only)) <;> simp

@[simp] theorem State.processPending_outsideRoster (p : Fin 4) :
    (s.processPending p).outsideRoster = s.outsideRoster := by
  unfold State.processPending
  (repeat' (first | split | dsimp only)) <;> simp

@[simp] theorem State.enrollRunsOut_outsideRoster (p : Fin 4) :
    (s.enrollRunsOut p).outsideRoster = s.outsideRoster := by
  unfold State.enrollRunsOut
  (repeat' (first | split | dsimp only)) <;> simp

@[simp] theorem State.holdRunsOut_outsideRoster (p : Fin 4) :
    (s.holdRunsOut p).outsideRoster = s.outsideRoster := by
  unfold State.holdRunsOut
  (repeat' (first | split | dsimp only)) <;> simp

@[simp] theorem State.forgetPosition_outsideRoster (p : Fin 4) :
    (s.forgetPosition p).outsideRoster = s.outsideRoster := by
  unfold State.forgetPosition
  (repeat' (first | split | dsimp only)) <;> simp

@[simp] theorem State.offerReject_outsideRoster (p : Fin 4) (r : RejectReason) :
    (s.offerReject p r).outsideRoster = s.outsideRoster := by
  unfold State.offerReject
  (repeat' (first | split | dsimp only)) <;> simp

@[simp] theorem State.breakOff_outsideRoster (p : Fin 4) :
    (s.breakOff p).outsideRoster = s.outsideRoster := by
  unfold State.breakOff
  (repeat' (first | split | dsimp only)) <;> simp

@[simp] theorem State.misfit_outsideRoster (p : Fin 4) :
    (s.misfit p).outsideRoster = s.outsideRoster := by
  unfold State.misfit
  (repeat' (first | split | dsimp only)) <;> simp

@[simp] theorem State.takeHelloWord_outsideRoster (p : Fin 4) (n : Nat) :
    (s.takeHelloWord p n).outsideRoster = s.outsideRoster := by
  unfold State.takeHelloWord
  (repeat' (first | split | dsimp only)) <;> simp

@[simp] theorem State.takeSerialWord_outsideRoster (p : Fin 4) (v : Byte) :
    (s.takeSerialWord p v).outsideRoster = s.outsideRoster := by
  unfold State.takeSerialWord
  (repeat' (first | split | dsimp only)) <;> simp

@[simp] theorem State.takeCircuitWord_outsideRoster (p : Fin 4) (d : CircuitDef) (z : Bool) :
    (s.takeCircuitWord p d z).outsideRoster = s.outsideRoster := by
  unfold State.takeCircuitWord
  (repeat' (first | split | dsimp only)) <;> simp

@[simp] theorem State.takeReportWord_outsideRoster (p : Fin 4) (g : BitVec 4) (n : Nat) :
    (s.takeReportWord p g n).outsideRoster = s.outsideRoster := by
  unfold State.takeReportWord
  (repeat' (first | split | dsimp only)) <;> simp

@[simp] theorem State.takeReadingWord_outsideRoster (p : Fin 4) (i : Nat) (v : Bool) (c : CurrentClass) (z : Bool) :
    (s.takeReadingWord p i v c z).outsideRoster = s.outsideRoster := by
  unfold State.takeReadingWord
  (repeat' (first | split | dsimp only)) <;> simp

@[simp] theorem State.takeWord_outsideRoster (p : Fin 4) (w : NodeWord) :
    (s.takeWord p w).outsideRoster = s.outsideRoster := by
  unfold State.takeWord
  (repeat' (first | split | dsimp only)) <;> simp

@[simp] theorem State.enter_outsideRoster (e : Engine) (n : Nat) :
    (s.enter e n).outsideRoster = s.outsideRoster := by
  unfold State.enter
  (repeat' (first | split | dsimp only)) <;> simp

@[simp] theorem State.goOn_outsideRoster (e : Engine) (n : Nat) :
    (s.goOn e n).outsideRoster = s.outsideRoster := by
  unfold State.goOn
  (repeat' (first | split | dsimp only)) <;> simp

@[simp] theorem State.enterIdle_outsideRoster :
    s.enterIdle.outsideRoster = s.outsideRoster := by
  unfold State.enterIdle
  (repeat' (first | split | dsimp only)) <;> simp

@[simp] theorem State.enterSetup_outsideRoster (p : Fin 4) :
    (s.enterSetup p).outsideRoster = s.outsideRoster := by
  unfold State.enterSetup
  (repeat' (first | split | dsimp only)) <;> simp

@[simp] theorem State.afterReceive_outsideRoster :
    s.afterReceive.outsideRoster = s.outsideRoster := by
  unfold State.afterReceive
  (repeat' (first | split | dsimp only)) <;> simp

@[simp] theorem State.takeCutHello_outsideRoster (p : Fin 4) (w : NodeWord) :
    (s.takeCutHello p w).outsideRoster = s.outsideRoster := by
  unfold State.takeCutHello
  (repeat' (first | split | dsimp only)) <;> simp

@[simp] theorem State.endReceive_outsideRoster (p : Fin 4) (d : BitVec 12) (a b : Bool) :
    (s.endReceive p d a b).outsideRoster = s.outsideRoster := by
  unfold State.endReceive
  (repeat' (first | split | dsimp only)) <;> simp

@[simp] theorem State.popHead_outsideRoster (p : Fin 4) :
    (s.popHead p).outsideRoster = s.outsideRoster := by
  unfold State.popHead
  (repeat' (first | split | dsimp only)) <;> simp

@[simp] theorem State.transmitSucceeds_outsideRoster (p : Fin 4) :
    (s.transmitSucceeds p).outsideRoster = s.outsideRoster := by
  unfold State.transmitSucceeds
  (repeat' (first | split | dsimp only)) <;> simp

@[simp] theorem State.transmitFails_outsideRoster (p : Fin 4) :
    (s.transmitFails p).outsideRoster = s.outsideRoster := by
  unfold State.transmitFails
  (repeat' (first | split | dsimp only)) <;> simp

@[simp] theorem State.attemptFails_outsideRoster :
    s.attemptFails.outsideRoster = s.outsideRoster := by
  unfold State.attemptFails
  (repeat' (first | split | dsimp only)) <;> simp

end Sys2Proof.Machine
end

