-- ==== Sys2Proof/Laws/Settle.lean ====
section
/-! SUPPORT. The end of an event: what `settle` changes, that it leaves nothing to send, and that it changes nothing
where nothing is to be sent. -/

namespace Sys2Proof.Machine

/-- A position record with its present head condition as the one claimed. -/
def Position.claimed (r : Position) : Position := { r with claimedHead := r.head }

@[simp] theorem Position.claimed_head (r : Position) : r.claimed.head = r.head := rfl

@[simp] theorem Position.claimed_claimedHead (r : Position) : r.claimed.claimedHead = r.head := rfl

@[simp] theorem Position.claimed_claimed (r : Position) : r.claimed.claimed = r.claimed := rfl

@[simp] theorem Position.claimed_state (r : Position) : r.claimed.state = r.state := rfl

/-- A record whose head is the one claimed is unchanged. -/
theorem Position.claimed_eq_self {r : Position} (h : r.claimedHead = r.head) : r.claimed = r := by
  cases r
  simp_all [Position.claimed, Position.head]

variable (s : State)

/-- A state that differs in the notice unit at most, written out. -/
theorem State.eq_of_outsideNotices {t : State} (h : s.outsideNotices = t.outsideNotices) :
    s = { t with notices := s.notices } := by
  cases s
  cases t
  simp only [State.outsideNotices, State.mk.injEq] at h
  simp_all

/-- A state that differs in the feed records, the circuit table and the notice unit at most, written out. -/
theorem State.eq_of_outsideClaims {t : State} (h : s.outsideClaims = t.outsideClaims) :
    s = { t with feeds := s.feeds, circuits := s.circuits, notices := s.notices } := by
  cases s
  cases t
  simp only [State.outsideClaims, State.mk.injEq] at h
  simp_all

/-- A state that differs within the roster at most, written out. -/
theorem State.eq_of_outsideRoster {t : State} (h : s.outsideRoster = t.outsideRoster) :
    s = { t with
      feeds := s.feeds, circuits := s.circuits, notices := s.notices, positions := s.positions, samples := s.samples,
      link := s.link, assembly := s.assembly } := by
  cases s
  cases t
  simp only [State.outsideRoster, State.mk.injEq] at h
  simp_all

/-- Raising and resolving leave the positions alone. -/
@[simp] theorem State.raise_positions (x : Subject) (k : NoticeKind) : (s.raise x k).positions = s.positions := by
  rw [(s.raise x k).eq_of_outsideNotices (s.raise_outsideNotices x k)]

@[simp] theorem State.resolve_positions (x : Subject) : (s.resolve x).positions = s.positions := by
  rw [(s.resolve x).eq_of_outsideNotices (s.resolve_outsideNotices x)]

@[simp] theorem State.scanIfDue_positions : s.scanIfDue.positions = s.positions := by
  rw [s.scanIfDue.eq_of_outsideNotices s.scanIfDue_outsideNotices]

/-- A position claim writes the claimed head of its position. -/
theorem State.positionClaim_positions (p : Fin 4) :
    (s.positionClaim p).positions = s.positions.modify p Position.claimed := by
  unfold State.positionClaim
  by_cases h : (s.positions.get p).head = (s.positions.get p).claimedHead
  · rw [if_pos h]
    exact (Four.modify_eq_self _ _ _ (Position.claimed_eq_self h.symm)).symm
  · simp only [if_neg h]
    cases (s.positions.get p).head <;> simp <;> rfl

/-- The positions after `settle`. -/
theorem State.settle_positions : s.settle.positions = s.positions.map fun _ r => r.claimed := by
  simp only [State.settle, State.scanIfDue_positions, fourIndices, List.foldl_cons, List.foldl_nil,
    State.positionClaim_positions]
  refine Four.ext_get fun p => ?_
  induction p using forallFour <;> simp

/-- The scan leaves no scan due. -/
theorem State.scanSubject_scanDue (x : Subject) : (s.scanSubject x).notices.scanDue = s.notices.scanDue := by
  unfold State.scanSubject
  repeat' split
  all_goals first | rfl | skip
  cases x <;> rfl

theorem State.scan_scanDue : s.scan.notices.scanDue = s.notices.scanDue := by
  unfold State.scan
  generalize scanOrder = l
  exact foldl_keeps (fun s : State => s.notices.scanDue) State.scanSubject (fun s x => s.scanSubject_scanDue x) l s

theorem State.scanIfDue_scanDue : s.scanIfDue.notices.scanDue = false := by
  unfold State.scanIfDue
  split
  · rw [State.scan_scanDue]
    rfl
  · simp_all

/-- After `settle` nothing is left to send. -/
theorem State.settle_quiet : s.settle.Quiet := by
  refine ⟨State.scanIfDue_scanDue _, fun p => ?_⟩
  rw [State.settle_positions]
  simp

/-- `settle` changes nothing where nothing is to be sent. -/
theorem State.settle_of_quiet (h : s.Quiet) : s.settle = s := by
  have hp : ∀ p, s.positionClaim p = s := fun p => by
    unfold State.positionClaim
    exact if_pos (h.2 p).symm
  have hf : ∀ l : List (Fin 4), l.foldl State.positionClaim s = s := fun l => by
    induction l with
    | nil => rfl
    | cons x xs ih => rw [List.foldl_cons, hp, ih]
  simp [State.settle, hf, State.scanIfDue, h.1]

/-- The state with its positions and its notice unit blanked. -/
def State.outsideSettle (s : State) : State :=
  { s with positions := Four.all (Position.initial false), notices := NoticeUnit.initial }

theorem State.positionClaim_outsideSettle (p : Fin 4) : (s.positionClaim p).outsideSettle = s.outsideSettle := by
  have h : ∀ t : State, t.outsideNotices.outsideSettle = t.outsideSettle := fun _ => rfl
  unfold State.positionClaim
  dsimp only
  split
  · rfl
  · split
    · rw [← h, State.raise_outsideNotices]
      rfl
    · rw [← h, State.resolve_outsideNotices]
      rfl

theorem State.settle_outsideSettle : s.settle.outsideSettle = s.outsideSettle := by
  have h : ∀ t : State, t.outsideNotices.outsideSettle = t.outsideSettle := fun _ => rfl
  unfold State.settle
  rw [← h, State.scanIfDue_outsideNotices, h]
  exact foldl_keeps State.outsideSettle _ (fun s p => s.positionClaim_outsideSettle p) _ _

/-- `settle` changes the claimed heads and the notice unit only. -/
theorem State.settle_eq :
    s.settle = { s with positions := s.positions.map (fun _ r => r.claimed), notices := s.settle.notices } := by
  have h := s.settle_outsideSettle
  have hp := s.settle_positions
  generalize s.settle = t at h hp ⊢
  cases s
  cases t
  simp only [State.outsideSettle, State.mk.injEq] at h
  simp_all

end Sys2Proof.Machine
end

