-- ==== Sys2Proof/Laws/Attribution.lean ====
section
/-! SUPPORT. The attribution unit: what a condition that is written or cleared, and a hold outcome, do to the feed
records and to the circuit table, entry by entry. -/

namespace Sys2Proof.Machine

/-- A record after a shadow claim for the circuits of a function (R117). -/
def Circuit.shadowedBy (r : Circuit) (f : Fin 8) : Circuit :=
  if r.isOf f && r.verdict != .shadowed then { r with verdict := .shadowed, streak := 0 } else r

/-- A shadow claim twice is one. -/
theorem Circuit.shadowedBy_shadowedBy (r : Circuit) (f : Fin 8) : (r.shadowedBy f).shadowedBy f = r.shadowedBy f := by
  unfold Circuit.shadowedBy
  split
  · simp
  · rename_i h; simp

/-- A raise writes no circuit record. -/
@[simp] theorem State.raise_circuits (s : State) (x : Subject) (k : NoticeKind) : (s.raise x k).circuits = s.circuits
    := by
  rw [State.eq_of_outsideNotices _ (State.raise_outsideNotices s x k)]

/-- A resolve writes no circuit record. -/
@[simp] theorem State.resolve_circuits (s : State) (x : Subject) : (s.resolve x).circuits = s.circuits := by
  rw [State.eq_of_outsideNotices _ (State.resolve_outsideNotices s x)]

/-- A raise writes no feed condition. -/
@[simp] theorem State.raise_feeds (s : State) (x : Subject) (k : NoticeKind) : (s.raise x k).feeds = s.feeds := by
  rw [State.eq_of_outsideNotices _ (State.raise_outsideNotices s x k)]

/-- A resolve writes no feed condition. -/
@[simp] theorem State.resolve_feeds (s : State) (x : Subject) : (s.resolve x).feeds = s.feeds := by
  rw [State.eq_of_outsideNotices _ (State.resolve_outsideNotices s x)]

/-- A list with an entry replaced by its image. -/
theorem set_eq_modify {α : Type} {l : List α} {i : Nat} {x : α} (h : l[i]? = some x) (g : α → α) : l.set i (g x) =
    l.modify i g := by
  apply List.ext_getElem?
  intro j
  rw [List.getElem?_set, List.getElem?_modify]
  obtain ⟨hi, hx⟩ := List.getElem?_eq_some_iff.mp h
  by_cases e : i = j
  · subst e; simp [hi, hx]
  · simp [e]

/-- A change at an index without an entry changes nothing. -/
theorem modify_of_none {α : Type} {l : List α} {i : Nat} (h : l[i]? = none) (g : α → α) : l.modify i g = l := by
  apply List.ext_getElem?
  intro j
  rw [List.getElem?_modify]
  by_cases e : i = j
  · subst e; simp [h]
  · simp [e]

/-- A change that leaves its entry as it is changes nothing. -/
theorem modify_of_fixed {α : Type} {l : List α} {i : Nat} {x : α} (h : l[i]? = some x) (g : α → α) (hg : g x = x)
    : l.modify i g = l := by
  apply List.ext_getElem?
  intro j
  rw [List.getElem?_modify]
  by_cases e : i = j
  · subst e; simp [h, hg]
  · simp [e]

/-- A shadow claim to one address changes that record only (R117). -/
theorem State.shadowOf_circuits (s : State) (f : Fin 8) (p : Fin 4) (c : Fin 12) :
    (s.shadowOf f p c).circuits = s.circuits.modify p fun rs => rs.modify c.val fun r => r.shadowedBy f := by
  unfold State.shadowOf
  cases h : s.circuit p c with
  | none =>
    simp only
    exact (Four.modify_eq_self s.circuits p (fun rs => rs.modify c.val fun r => r.shadowedBy f)
        (modify_of_none h _)).symm
  | some r =>
    simp only
    have hid : (r.shadowedBy f = r) → s.circuits =
        s.circuits.modify p fun rs => rs.modify c.val fun r => r.shadowedBy f :=
      fun e => (Four.modify_eq_self s.circuits p (fun rs => rs.modify c.val fun r => r.shadowedBy f)
        (modify_of_fixed h (fun r => r.shadowedBy f) e)).symm
    by_cases hf : r.isOf f = true
    · simp only [hf, if_true, State.shadow, h]
      by_cases hv : r.verdict = .shadowed
      · simp only [hv]
        exact hid (by simp [Circuit.shadowedBy, hv])
      · have e : (s.setCircuit p c { r with verdict := .shadowed, streak := 0 }).circuits =
          s.circuits.modify p fun rs => rs.modify c.val fun r => r.shadowedBy f := by
          show s.circuits.set p _ = s.circuits.set p _
          congr 1
          have : ({ r with verdict := .shadowed, streak := 0 } : Circuit) = r.shadowedBy f :=
              by simp [Circuit.shadowedBy, hf, hv]
          rw [this]
          exact set_eq_modify h (fun r => r.shadowedBy f)
        cases hv' : r.verdict <;> simp only [State.resolve_circuits] <;> first | exact e | exact absurd hv' hv
    · simp only [hf]
      exact hid (by simp [Circuit.shadowedBy, hf])

/-- A fold that changes the entries at some indices. -/
theorem foldl_modify {α : Type} (g : α → α) (hg : ∀ x, g (g x) = g x) (l : List (Fin 12)) (rs : List α) (j : Nat) :
    (l.foldl (fun rs c => rs.modify c.val g) rs)[j]? = if j ∈ l.map Fin.val then rs[j]?.map g else rs[j]? := by
  induction l generalizing rs with
  | nil => simp
  | cons c cs ih =>
    rw [List.foldl_cons, ih, List.getElem?_modify]
    by_cases e : c.val = j
    · subst e
      by_cases h : c.val ∈ cs.map Fin.val
      · rw [if_pos h, if_pos (by simp)]; cases rs[c.val]? <;> simp [hg]
      · rw [if_neg h, if_pos (by simp)]; simp
    · have : (j ∈ (c :: cs).map Fin.val) ↔ j ∈ cs.map Fin.val := by
        simp only [List.map_cons, List.mem_cons]
        constructor
        · rintro (h | h); exact absurd h.symm e; exact h
        · exact Or.inr
      simp only [this, e, if_false]
      simp

/-- Shadow claims to addresses of one position. -/
theorem State.foldl_shadowOf (s : State) (f : Fin 8) (p : Fin 4) (l : List (Fin 12)) :
    (l.foldl (fun s c => s.shadowOf f p c) s).circuits = s.circuits.modify p fun rs => l.foldl
        (fun rs c => rs.modify c.val fun r => r.shadowedBy f) rs := by
  induction l generalizing s with
  | nil => exact (Four.modify_eq_self _ _ _ rfl).symm
  | cons c cs ih =>
    rw [List.foldl_cons, ih, State.shadowOf_circuits]
    refine Four.ext_get fun q => ?_
    simp only [Four.get_modify]
    split <;> rfl

/-- Shadow claims at a set of positions change the circuits of the function there (R117). -/
theorem State.shadowWhere_circuits (s : State) (f : Fin 8) (w : Fin 4 → Bool) (p : Fin 4) (h :
    (s.circuits.get p).length ≤ 12) :
    (s.shadowWhere f w).circuits.get p = if w p then
        (s.circuits.get p).map fun r => r.shadowedBy f else s.circuits.get p := by
  have one : ∀ (rs : List Circuit), rs.length ≤ 12 → twelveIndices.foldl
      (fun rs c => rs.modify c.val fun r => r.shadowedBy f) rs = rs.map fun r => r.shadowedBy f := by
    intro rs h
    apply List.ext_getElem?
    intro j
    rw [foldl_modify _ (fun r => r.shadowedBy_shadowedBy f), List.getElem?_map]
    split
    · rfl
    · rename_i hj
      have : rs.length ≤ j := by
        apply Decidable.byContradiction
        intro hlt
        apply hj
        exact List.mem_map.mpr ⟨⟨j, by omega⟩, mem_twelveIndices _, rfl⟩
      rw [List.getElem?_eq_none this]; rfl
  have gen : ∀ (l : List (Fin 4)) (t : State), (t.circuits.get p).length ≤ 12 →
      (l.foldl (fun s p => twelveIndices.foldl (fun s c => s.shadowOf f p c) s) t).circuits.get p = if p ∈ l then
          (t.circuits.get p).map fun r => r.shadowedBy f else t.circuits.get p := by
    intro l
    induction l with
    | nil => intro t _; simp
    | cons q qs ih =>
      intro t ht
      rw [List.foldl_cons, ih]
      · rw [State.foldl_shadowOf, Four.get_modify]
        by_cases e : p = q
        · subst e
          rw [if_pos rfl, one _ ht]
          simp only [List.map_map, List.mem_cons, true_or, if_true]
          split
          · congr 1; funext r; exact r.shadowedBy_shadowedBy f
          · rfl
        · simp [e]
      · rw [State.foldl_shadowOf, Four.get_modify]
        split
        · rename_i e; rw [one _ ht]; simpa using ht
        · exact ht
  unfold State.shadowWhere
  rw [gen _ _ h]
  simp

/-- A shadow claim writes no feed condition. -/
theorem State.shadowOf_feeds (s : State) (f : Fin 8) (p : Fin 4) (c : Fin 12) : (s.shadowOf f p c).feeds = s.feeds :=
    by
  unfold State.shadowOf State.shadow
  dsimp only
  repeat' split
  all_goals first | rfl | simp

/-- Shadow claims write no feed condition. -/
theorem State.shadowWhere_feeds (s : State) (f : Fin 8) (w : Fin 4 → Bool) : (s.shadowWhere f w).feeds = s.feeds :=
  foldl_keeps State.feeds _ (fun _ p => foldl_keeps State.feeds _ (fun s c => s.shadowOf_feeds f p c) _ _) _ _

/-- The notice claim of a change of condition writes no circuit record. -/
@[simp] theorem State.feedClaim_circuits (s : State) (f : Fin 8) (a b : FeedCondition) :
    (s.feedClaim f a b).circuits = s.circuits := by
  rw [State.eq_of_outsideNotices _ (State.feedClaim_outsideNotices s f a b)]
/-- The notice claim of a change of condition writes no feed condition. -/
@[simp] theorem State.feedClaim_feeds (s : State) (f : Fin 8) (a b : FeedCondition) : (s.feedClaim f a b).feeds =
    s.feeds := by
  rw [State.eq_of_outsideNotices _ (State.feedClaim_outsideNotices s f a b)]

/-! ## A condition written or cleared -/

@[simp] theorem State.setCondition_feeds (s : State) (f : Fin 8) (after : FeedCondition) :
    (s.setCondition f after).feeds = s.feeds.set f after := by
  simp only [State.setCondition, State.feedClaim_feeds, State.shadowWhere_feeds]
  rfl

/-- A condition that is written shadows the function's circuits at the newly covered positions (R124). -/
theorem State.setCondition_circuits (s : State) (f : Fin 8) (after : FeedCondition) (p : Fin 4)
    (h : (s.circuits.get p).length ≤ 12) :
    (s.setCondition f after).circuits.get p =
      if after.covers p && !(s.feeds.get f).covers p then (s.circuits.get p).map fun r => r.shadowedBy f
      else s.circuits.get p := by
  simp only [State.setCondition, State.feedClaim_circuits]
  exact State.shadowWhere_circuits (s.setFeed f after) f _ p h

@[simp] theorem State.clearCondition_feeds (s : State) (f : Fin 8) :
    (s.clearCondition f).feeds = s.feeds.set f .none := by
  simp only [State.clearCondition, State.resolve_feeds]
  rfl

/-- A condition that is cleared unshadows the function's circuits everywhere (R127). -/
@[simp] theorem State.clearCondition_circuits (s : State) (f : Fin 8) :
    (s.clearCondition f).circuits = s.circuits.map fun _ rs => rs.map fun r => r.unshadow f := by
  simp only [State.clearCondition, State.resolve_circuits]
  rfl

/-! ## Hold outcomes -/

/-- A record after a hold outcome claim for the circuits of a function (R116). -/
def Circuit.heldBy (r : Circuit) (f : Fin 8) (outcome : Hold) : Circuit :=
  if r.isOf f && r.verdict.lostFeed then
    { r with
      verdict :=
        match r.verdict with
        | .fault k candidate _ => .fault k candidate (some outcome)
        | other => other }
  else r

/-- A hold outcome writes no feed condition. -/
@[simp] theorem State.holdOutcome_feeds (s : State) (p : Fin 4) (c : Fin 12) (o : Hold) :
    (s.holdOutcome p c o).feeds = s.feeds := by
  unfold State.holdOutcome
  dsimp only
  repeat' split
  all_goals first | rfl | simp

/-- Hold outcomes write no feed condition. -/
@[simp] theorem State.holdOutcomes_feeds (s : State) (f : Fin 8) (p : Fin 4) (o : Hold) :
    (s.holdOutcomes f p o).feeds = s.feeds := by
  refine foldl_keeps State.feeds _ (fun s c => ?_) _ _
  repeat' split
  all_goals first | rfl | simp

/-- A hold outcome twice is one. -/
theorem Circuit.heldBy_heldBy (r : Circuit) (f : Fin 8) (o : Hold) : (r.heldBy f o).heldBy f o = r.heldBy f o := by
  by_cases h : (r.isOf f && r.verdict.lostFeed) = true
  · have e : r.heldBy f o = _ := if_pos h
    cases hv : r.verdict <;> simp_all [Circuit.heldBy, Verdict.lostFeed, Circuit.isOf]
  · have e : r.heldBy f o = r := if_neg h
    rw [e, e]

/-- The claim to one address changes that record only (R116). -/
theorem State.holdOutcome_circuits (s : State) (p : Fin 4) (c : Fin 12) (f : Fin 8) (o : Hold) :
    (match s.circuit p c with
      | some r => if r.isOf f then s.holdOutcome p c o else s
      | none => s).circuits =
      s.circuits.modify p fun rs => rs.modify c.val fun r => r.heldBy f o := by
  cases h : s.circuit p c with
  | none =>
    exact (Four.modify_eq_self s.circuits p (fun rs => rs.modify c.val fun r => r.heldBy f o)
      (modify_of_none h _)).symm
  | some r =>
    have same : r.heldBy f o = r → s.circuits = s.circuits.modify p fun rs => rs.modify c.val fun r => r.heldBy f o :=
      fun e => (Four.modify_eq_self s.circuits p (fun rs => rs.modify c.val fun r => r.heldBy f o)
        (modify_of_fixed h (fun r => r.heldBy f o) e)).symm
    by_cases hf : r.isOf f = true
    · simp only [hf, if_true, State.holdOutcome, h]
      cases hv : r.verdict with
      | fault k candidate hold =>
        cases k with
        | feedLoss =>
          have e : (s.setCircuit p c { r with verdict := .fault .feedLoss candidate (some o) }).circuits =
              s.circuits.modify p fun rs => rs.modify c.val fun r => r.heldBy f o := by
            change s.circuits.set p _ = s.circuits.set p _
            congr 1
            have : ({ r with verdict := .fault .feedLoss candidate (some o) } : Circuit) = r.heldBy f o := by
              simp [Circuit.heldBy, hf, hv, Verdict.lostFeed]
            rw [this]
            exact set_eq_modify h (fun r => r.heldBy f o)
          simp only
          split
          · rw [State.raise_circuits]
            exact e
          · exact e
        | _ => exact same (by simp [Circuit.heldBy, hv, Verdict.lostFeed])
      | _ => exact same (by simp [Circuit.heldBy, hv, Verdict.lostFeed])
    · simp only [hf]
      exact same (by simp [Circuit.heldBy, hf])

/-- Hold outcomes change the lost circuits of the function at that position only (R116). -/
theorem State.holdOutcomes_circuits (s : State) (f : Fin 8) (p : Fin 4) (o : Hold)
    (h : (s.circuits.get p).length ≤ 12) :
    (s.holdOutcomes f p o).circuits = s.circuits.modify p fun rs => rs.map fun r => r.heldBy f o := by
  have go : ∀ (l : List (Fin 12)) (t : State),
      (l.foldl
          (fun s c =>
            match s.circuit p c with
            | some r => if r.isOf f then s.holdOutcome p c o else s
            | none => s) t).circuits =
        t.circuits.modify p fun rs => l.foldl (fun rs c => rs.modify c.val fun r => r.heldBy f o) rs := by
    intro l
    induction l with
    | nil => exact fun t => (Four.modify_eq_self _ _ _ rfl).symm
    | cons c cs ih =>
      intro t
      rw [List.foldl_cons, ih, State.holdOutcome_circuits, Four.modify_modify]
      rfl
  have start : s.holdOutcomes f p o =
      twelveIndices.foldl
        (fun s c =>
          match s.circuit p c with
          | some r => if r.isOf f then s.holdOutcome p c o else s
          | none => s) s := by
    unfold State.holdOutcomes
    congr
  rw [start, go]
  unfold Four.modify
  congr 1
  apply List.ext_getElem?
  intro j
  rw [foldl_modify _ (fun r => r.heldBy_heldBy f o), List.getElem?_map]
  split
  · rfl
  · rename_i hj
    have : (s.circuits.get p).length ≤ j := by
      apply Decidable.byContradiction
      intro hlt
      apply hj
      exact List.mem_map.mpr ⟨⟨j, by omega⟩, mem_twelveIndices _, rfl⟩
    rw [List.getElem?_eq_none this]
    rfl

end Sys2Proof.Machine
end

