-- ==== Sys2Proof/Laws/Commands.lean ====
section
/-! SUPPORT. The posted commands: which they are and what each posts, said once by cases of `Instr` and true by
computation; what a posted command that runs alone does; the argument checks on bytes in range. -/

namespace Sys2Proof

open Machine

variable (a b c d e : Byte)

@[simp] theorem Instr.posts_setMode : (Instr.setMode a b c).posts = setModeArgs a b c := rfl
@[simp] theorem Instr.posts_setDim : (Instr.setDim a b).posts = setDimArgs a b := rfl
@[simp] theorem Instr.posts_setCadence : (Instr.setCadence a b c d e).posts = setCadenceArgs a b c d e := rfl
@[simp] theorem Instr.posts_restartCadences : (Instr.restartCadences a).posts = restartCadencesArgs a := rfl
@[simp] theorem Instr.posts_setOverride : (Instr.setOverride a b).posts = setOverrideArgs a b := rfl
@[simp] theorem Instr.posts_setSampling : (Instr.setSampling a b c d).posts = setSamplingArgs a b c d := rfl
@[simp] theorem Instr.posts_setJudging : (Instr.setJudging a b c).posts = setJudgingArgs a b c := rfl
@[simp] theorem Instr.posts_setSeverity : (Instr.setSeverity a b).posts = setSeverityArgs a b := rfl
@[simp] theorem Instr.posts_setLevels : (Instr.setLevels a b).posts = setLevelsArgs a b := rfl
@[simp] theorem Instr.posts_setCoupling : (Instr.setCoupling a b c d).posts = setCouplingArgs a b c d := rfl
@[simp] theorem Instr.posts_release : (Instr.release a b).posts = releaseArgs a b := rfl
@[simp] theorem Instr.posts_forget : (Instr.forget a).posts = forgetArgs a := rfl
@[simp] theorem Instr.posts_rest : Instr.rest.posts = some .rest := rfl

namespace Machine

/-- A byte that names an index passes its check. -/
theorem indexArg_of_eq {n : Nat} {x : Byte} {i : Fin n} (h : x.toNat = i.val) : indexArg n x = some i := by
  simp [indexArg, h]

/-- A byte in its range passes its check. -/
theorem rangeArg_of_le {x : Byte} {low high : Nat} (h : low ≤ x.toNat) (h' : x.toNat ≤ high) :
    rangeArg x low high = some x.toNat := by
  simp [rangeArg, h, h']

/-- A byte that names a position passes its check. -/
theorem positionArg_of_eq {x : Byte} {p : Fin 4} (h : x.toNat = p.val + 1) : positionArg x = some p := by
  have := p.isLt
  simp only [positionArg, h]
  rw [dif_pos (by omega)]
  rfl

/-- A posted command is one event that posts what its arguments give. -/
theorem exec_of_posted (i : Instr) (s : State) (h : i.isPosted = true) :
    exec i s = event s fun s => s.post i.posts := by
  cases i <;> first | exact rfl | exact absurd h Bool.false_ne_true

/-- An accepted command that is taken from an empty queue at once. -/
theorem State.accept_taken (s : State) (h : s.port.queue = []) (command : PostedCommand) :
    (s.accept command).updPort (fun port => { port with queue := [] }) = s.served := by
  simp only [State.accept, State.updPort, State.served, PortControl.served]
  congr 2
  · exact h.symm

/-- A posted command that comes to an empty queue and does not wait runs alone (R141). -/
theorem exec_alone (i : Instr) (s : State) (command : PostedCommand) (h : s.Ready) (hi : i.isPosted = true)
    (hp : i.posts = some command) (hw : s.waits command = false) :
    exec i s = .next (s.served.execute { command := command, sequence := s.port.nextSeq }).settle := by
  obtain ⟨⟨ha, hr⟩, -, he⟩ := h
  have h1 : s.wakeIfResting = s := if_neg (by rw [hr]; decide)
  have h2 : (s.accept command).port.queue = [{ command := command, sequence := s.port.nextSeq }] := by
    simp [State.accept, State.updPort, he]
  have h3 : (s.accept command).power = .run := hr
  have h4 : (s.accept command).waits command = false := by cases command <;> exact hw
  rw [exec_of_posted i s hi]
  simp only [event, ha, Bool.false_eq_true, if_false, State.post, hp, h1, he, List.length_nil, Nat.zero_lt_succ, if_true,
    State.drain, h2, List.length_singleton, State.runQueue, h3, h4, and_self, State.accept_taken s he]

end Machine

end Sys2Proof
end

