-- ==== Sys2Proof/Laws/Drive.lean ====
section
/-! SUPPORT. What a resolution does: the fold of `resolveWhere` is the one change `withResolved`, and the drive of every
function it covers is then the one its inputs resolve to. -/

namespace Sys2Proof.Machine

/-! ## Sets of functions -/

/-- Membership after adding a function. -/
theorem inSet_withMember (set : BitVec 8) (f g : Fin 8) : inSet (withMember set f) g = (inSet set g || g == f) := by
  have h : g.val < 8 := g.isLt
  simp only [inSet, withMember, BitVec.getLsbD_or, BitVec.getLsbD_twoPow]
  by_cases e : g = f
  · subst e
    simp [h]
  · have : ¬ f.val = g.val := fun x => e (Fin.ext x.symm)
    simp [e, this, h]

/-- Membership after adding the functions of a condition, one by one. -/
theorem inSet_foldl (which : Fin 8 → Bool) (l : List (Fin 8)) (set : BitVec 8) (g : Fin 8) :
    inSet (l.foldl (fun set f => if which f then withMember set f else set) set) g =
      (inSet set g || (l.any (fun f => f == g) && which g)) := by
  induction l generalizing set with
  | nil => simp
  | cons x xs ih =>
    rw [List.foldl_cons, ih]
    by_cases e : x = g
    · subst e
      cases h : which x <;> simp [inSet_withMember]
    · have h1 : (x == g) = false := by simp [e]
      have h2 : (g == x) = false := by simpa using fun y : g = x => e y.symm
      cases h : which x <;> simp [inSet_withMember, h1, h2]

/-- The functions of `setOf` are those of the condition. -/
@[simp] theorem inSet_setOf (which : Fin 8 → Bool) (g : Fin 8) : inSet (setOf which) g = which g := by
  have h : eightIndices.any (fun f => f == g) = true := by
    simp
  simp only [setOf, inSet_foldl, h]
  simp [inSet]

/-- Sets with the same members are the same. -/
theorem set_ext {a b : BitVec 8} (h : ∀ f, inSet a f = inSet b f) : a = b := by
  apply BitVec.eq_of_getLsbD_eq
  intro i hi
  exact h ⟨i, hi⟩

/-- Membership in a union. -/
theorem inSet_or (a b : BitVec 8) (f : Fin 8) : inSet (a ||| b) f = (inSet a f || inSet b f) := by
  simp [inSet]

/-! ## Resolutions -/

/-- A resolution reads modes, assignments, filtered levels and step bits only. -/
theorem DriveUnit.resolution_congr {d e : DriveUnit} (hg : e.generators = d.generators) (ha : e.assign = d.assign)
    (hf : e.filtered = d.filtered) (f : Fin 8) (hm : (e.functions.get f).mode = (d.functions.get f).mode) :
    e.resolution f = d.resolution f := by
  have h1 : e.overridden f = d.overridden f := by rw [DriveUnit.overridden, DriveUnit.overridden, ha, hf]
  have h2 : ∀ m, e.driveOfMode m = d.driveOfMode m := fun m => by
    cases m <;> simp only [DriveUnit.driveOfMode, hg]
  rw [DriveUnit.resolution, DriveUnit.resolution, h1, h2, hm]

/-- `withResolved` leaves every resolution as it is. -/
@[simp] theorem State.withResolved_resolution (s : State) (which : Fin 8 → Bool) (f : Fin 8) :
    (s.withResolved which).drive.resolution f = s.drive.resolution f := by
  refine DriveUnit.resolution_congr (d := s.drive) (e := (s.withResolved which).drive) rfl rfl rfl f ?_
  simp only [State.withResolved, Eight.get_map]
  split <;> rfl

/-- The drive of a function after `withResolved`. -/
theorem State.withResolved_drive (s : State) (which : Fin 8 → Bool) (f : Fin 8) :
    ((s.withResolved which).drive.functions.get f).drive =
      if which f then s.drive.resolution f else (s.drive.functions.get f).drive := by
  simp only [State.withResolved, Eight.get_map, DriveUnit.changes]
  by_cases h : (s.drive.functions.get f).drive = s.drive.resolution f <;> by_cases hw : which f = true <;>
    simp_all [FunctionRecord.changeTo]

/-- What changes after `withResolved` under a second condition. -/
theorem State.withResolved_changes (s : State) (a b : Fin 8 → Bool) (f : Fin 8) :
    (s.withResolved a).drive.changes b f = (s.drive.changes b f && !s.drive.changes a f) := by
  simp only [DriveUnit.changes, State.withResolved_resolution, State.withResolved_drive]
  by_cases h : (s.drive.functions.get f).drive = s.drive.resolution f <;> cases a f <;> cases b f <;> simp [h]

/-- Nothing to resolve. -/
theorem State.withResolved_none (s : State) : s.withResolved (fun _ => false) = s := by
  have h0 : setOf (fun _ => false) = 0 := set_ext fun f => by
    rw [inSet_setOf]
    simp [inSet]
  have hc : s.drive.changes (fun _ => false) = fun _ => false := by funext f; simp [DriveUnit.changes]
  have hr : (fun r : SampleRecord => r.blurredBy 0) = id := by
    funext r
    cases r with
    | mk tag o => cases o <;> simp [SampleRecord.blurredBy]
  have hd : (s.drive.functions.map fun f r =>
      if s.drive.changes (fun _ => false) f then r.changeTo (s.drive.resolution f) else r) = s.drive.functions :=
    Eight.ext_get fun f => by simp [hc]
  have hs : (s.samples.map fun _ m =>
      { m with list := m.list.map fun r => r.blurredBy (setOf (s.drive.changes fun _ => false)) }) = s.samples :=
    Four.ext_get fun p => by rw [Four.get_map, hc, h0, hr, List.map_id]
  simp only [State.withResolved, hd, hs]

/-- Two resolutions after one another. -/
theorem State.withResolved_withResolved (s : State) (a b : Fin 8 → Bool) :
    (s.withResolved a).withResolved b = s.withResolved (fun f => a f || b f) := by
  have hc : ∀ f, s.drive.changes (fun f => a f || b f) f = (s.drive.changes a f || s.drive.changes b f) := fun f => by
    simp only [DriveUnit.changes]
    cases a f <;> cases b f <;> simp
  have hset : setOf (s.drive.changes a) ||| setOf ((s.withResolved a).drive.changes b) =
      setOf (s.drive.changes fun f => a f || b f) := set_ext fun f => by
    rw [inSet_or, inSet_setOf, inSet_setOf, inSet_setOf, State.withResolved_changes, hc]
    cases s.drive.changes a f <;> cases s.drive.changes b f <;> rfl
  have hd : ((s.withResolved a).withResolved b).drive = (s.withResolved (fun f => a f || b f)).drive := by
    have : ((s.withResolved a).withResolved b).drive.functions =
        (s.withResolved (fun f => a f || b f)).drive.functions := Eight.ext_get fun f => by
      have e := State.withResolved_changes s a b f
      have r := State.withResolved_resolution s a f
      simp only [State.withResolved, Eight.get_map] at e r ⊢
      rw [e, r, hc]
      cases h : s.drive.changes a f <;> cases h' : s.drive.changes b f <;> simp
    simp only [State.withResolved] at this ⊢
    rw [this]
  have hb : ∀ r : SampleRecord, (r.blurredBy (setOf (s.drive.changes a))).blurredBy
      (setOf ((s.withResolved a).drive.changes b)) = r.blurredBy (setOf (s.drive.changes fun f => a f || b f)) :=
    fun r => by
      cases r with
      | mk tag o => cases o <;> simp [SampleRecord.blurredBy, BitVec.or_assoc, ← hset]
  have hs : ((s.withResolved a).withResolved b).samples = (s.withResolved (fun f => a f || b f)).samples :=
    Four.ext_get fun p => by
      have : ((s.withResolved a).samples.get p).list.map (fun r => r.blurredBy (setOf ((s.withResolved a).drive.changes b))) =
          (s.samples.get p).list.map (fun r => r.blurredBy (setOf (s.drive.changes fun f => a f || b f))) := by
        simp only [State.withResolved, Four.get_map, List.map_map]
        exact List.map_congr_left fun r _ => hb r
      simp only [State.withResolved, Four.get_map] at this ⊢
      rw [this]
  simp only [State.withResolved] at hd hs ⊢
  rw [hs]
  simp only [State.mk.injEq, true_and, and_true]
  exact hd

/-- One function resolved. -/
theorem State.resolveFunction_eq (s : State) (f : Fin 8) : s.resolveFunction f = s.withResolved (fun g => g == f) := by
  by_cases h : s.drive.resolution f = (s.drive.functions.get f).drive
  · have hc : s.drive.changes (fun g => g == f) = s.drive.changes (fun _ => false) := by
      funext g
      by_cases e : g = f
      · subst e
        simp [DriveUnit.changes, h]
      · simp [DriveUnit.changes, e]
    have : s.withResolved (fun g => g == f) = s.withResolved (fun _ => false) := by
      simp only [State.withResolved, hc]
    rw [this, State.withResolved_none]
    simp [State.resolveFunction, h]
  · have hc : ∀ g, s.drive.changes (fun g => g == f) g = (g == f) := fun g => by
      by_cases e : g = f
      · subst e
        simpa [DriveUnit.changes] using fun x : (s.drive.functions.get g).drive = s.drive.resolution g => h x.symm
      · simp [DriveUnit.changes, e]
    have hfn : (s.drive.functions.map fun g r =>
        if s.drive.changes (fun g => g == f) g then r.changeTo (s.drive.resolution g) else r) =
        s.drive.functions.modify f fun r => r.changeTo (s.drive.resolution f) := Eight.ext_get fun g => by
      rw [Eight.get_map, hc, Eight.get_modify]
      by_cases e : g = f <;> simp [e]
    have hset : setOf (s.drive.changes fun g => g == f) = withMember 0 f := set_ext fun g => by
      rw [inSet_setOf, hc, inSet_withMember]
      simp [inSet]
    have hb : ∀ r : SampleRecord, r.blurredBy (withMember 0 f) = r.blurred f := fun r => by
      cases r with
      | mk tag o =>
        cases o with
        | none => simp [SampleRecord.blurredBy, SampleRecord.blurred]
        | some o =>
          simp only [SampleRecord.blurredBy, SampleRecord.blurred, Option.map_some]
          congr 3
          exact set_ext fun g => by rw [inSet_or, inSet_withMember, inSet_withMember]; simp [inSet]
    simp only [State.resolveFunction, h, if_false, State.blur, State.updFunction, State.withResolved, hfn, hset, hb]

/-- A resolution of the functions of a list. -/
theorem State.foldl_resolveFunction (l : List (Fin 8)) (s : State) :
    l.foldl State.resolveFunction s = s.withResolved (fun g => l.any fun f => g == f) := by
  induction l generalizing s with
  | nil => exact (State.withResolved_none s).symm
  | cons x xs ih =>
    rw [List.foldl_cons, State.resolveFunction_eq, ih, State.withResolved_withResolved]
    rfl

/-- The resolution of the functions of a condition, in one change. -/
theorem State.resolveWhere_eq (s : State) (which : Fin 8 → Bool) : s.resolveWhere which = s.withResolved which := by
  rw [State.resolveWhere, State.foldl_resolveFunction]
  congr 1
  funext g
  by_cases h : which g = true
  · simp only [h, List.any_eq_true, List.mem_filter]
    exact ⟨g, ⟨mem_eightIndices g, h⟩, by simp⟩
  · simp only [Bool.not_eq_true] at h
    rw [h]
    simp only [List.any_eq_false, List.mem_filter]
    rintro x ⟨_, hx⟩ e
    simp only [beq_iff_eq] at e
    subst e
    rw [h] at hx
    exact absurd hx (by simp)

end Sys2Proof.Machine
end

