-- ==== Sys2Proof/Laws/Moves.lean ====
section
/-! SUPPORT. What a step can do, said once: every event of the part is made of the moves listed here, so what each move
keeps, every event keeps. `Moves` lists the moves of a part in RUN; an invariant is proved by showing its moves and
citing the theorems below. `limit` says whether the invariant is to bound the assembly records. -/

namespace Sys2Proof.Machine

/-- Sampling of p is stopped and its list is empty. -/
abbrev State.stoppedAt (s : State) (p : Fin 4) : Prop := (s.samples.get p).list = [] ∧ (s.samples.get p).timer = none

/-- The moves of the part in RUN, each of which keeps P. -/
structure Moves (limit : Prop) (P : State → Prop) : Prop where
  bounded : ∀ s, limit → P s → s.AssembliesBounded
  raise : ∀ s x k, P s → P (s.raise x k)
  resolve : ∀ s x, P s → P (s.resolve x)
  departCircuit : ∀ s p c, P s → P (s.departCircuit p c)
  withdrawCircuit : ∀ s p c, P s → P (s.withdrawCircuit p c)
  scanSubject : ∀ s x, P s → P (s.scanSubject x)
  scanMark : ∀ s b, P s → P (s.updNotices fun n => { n with scanDue := b })
  setCondition : ∀ s f a, (∀ q, (s.feeds.get f).covers q = true → a.covers q = true) → P s → P (s.setCondition f a)
  clearCondition : ∀ s f, P s → P (s.clearCondition f)
  holdOutcome : ∀ s p c o, P s → P (s.holdOutcome p c o)
  setCircuit : ∀ s p c r r', s.circuit p c = some r → r'.feed = r.feed →
    (r'.verdict = .shadowed ↔ r.verdict = .shadowed) → P s → P (s.setCircuit p c r')
  dropRecords : ∀ s p, P s → P ((s.setCircuits p []).updPosition p fun r => { r with serial := none, count := 0 })
  enroll : ∀ s p serial defs, (limit → defs.length ≤ 12) → P s → P (s.enroll p serial defs)
  updPosition : ∀ s p f, ((f (s.positions.get p)).state.accepted = (s.positions.get p).state.accepted ∨
    (f (s.positions.get p)).state.accepted = true ∨ s.stoppedAt p) → P s → P (s.updPosition p f)
  startSampling : ∀ s p, (s.positions.get p).state.accepted = true → P s → P (s.startSampling p)
  stopSampling : ∀ s p, P s → P (s.stopSampling p)
  count : ∀ s p f, (∀ m, (f m).list = m.list ∧ (f m).timer = m.timer) → P s → P (s.updSampling p f)
  shrink : ∀ s p l, l.Sublist (s.samples.get p).list → P s → P (s.updSampling p fun m => { m with list := l })
  sampleSent : ∀ s p tag, P s → P (s.sampleSent p tag)
  sampleTimer : ∀ s p, (s.samples.get p).timer.isSome = true → P s → P ((s.startSampling p).issueSample p)
  offer : ∀ s p w, P s → P (s.offer p w)
  updChannel : ∀ s p f, (∀ c, (f c).queue.length ≤ c.queue.length) → P s → P (s.updChannel p f)
  updLink : ∀ s f, ((f s.link).engine = s.link.engine ∨ (f s.link).engine ≠ .off) →
    (∀ p, ((f s.link).channels.get p).queue.length ≤ (s.link.channels.get p).queue.length) →
    (f s.link).cut = s.link.cut → P s → P (s.updLink f)
  cut : ∀ s a, (limit → ∀ x, a = some x → x.Bounded) → P s → P (s.updLink fun l => { l with cut := a })
  setAssembly : ∀ s p a, (limit → a.Bounded) → P s → P (s.setAssembly p a)
  drive : ∀ s fs d, P s → P { s with fs := fs, drive := d }

namespace Moves

variable {limit : Prop} {P : State → Prop} (m : Moves limit P) {s : State}

include m

omit m in
/-- A fold keeps what each of its steps keeps. -/
theorem fold {α : Type} (f : State → α → State) (h : ∀ s x, P s → P (f s x)) (l : List α) {s : State} (hs : P s) :
    P (l.foldl f s) := by
  induction l generalizing s with
  | nil => exact hs
  | cons x xs ih => exact ih (h s x hs)

omit m in
/-- A choice keeps what both of its sides keep. -/
theorem choose {c : Prop} [Decidable c] {a b : State} (ha : P a) (hb : P b) : P (if c then a else b) := by
  split
  · exact ha
  · exact hb

/-! ## Notices and the end of an event -/

theorem scanIfDue (hs : P s) : P s.scanIfDue := by
  unfold State.scanIfDue
  split
  · exact fold _ m.scanSubject _ (m.scanMark _ _ hs)
  · exact hs

/-- A change of a position record that keeps its state. -/
theorem amend (p : Fin 4) (f : Position → Position) (h : ∀ r, (f r).state = r.state) (hs : P s) :
    P (s.updPosition p f) := m.updPosition _ _ _ (Or.inl (by rw [h])) hs

theorem positionClaim (p : Fin 4) (hs : P s) : P (s.positionClaim p) := by
  unfold State.positionClaim
  dsimp only
  split
  · exact hs
  · split
    · exact m.raise _ _ _ (m.amend p (fun r => { r with claimedHead := r.head }) (fun _ => rfl) hs)
    · exact m.resolve _ _ (m.amend p (fun r => { r with claimedHead := r.head }) (fun _ => rfl) hs)

theorem settle (hs : P s) : P s.settle := m.scanIfDue (fold _ (fun _ p => m.positionClaim p) _ hs)

theorem departClaims (p : Fin 4) (hs : P s) : P (s.departClaims p) :=
  fold _ (fun _ c => m.departCircuit _ p c) _ hs

/-! ## Attribution -/

theorem holdOutcomes (f : Fin 8) (p : Fin 4) (o : Hold) (hs : P s) : P (s.holdOutcomes f p o) := by
  refine fold _ (fun s c h => ?_) _ hs
  repeat' split
  all_goals first | exact m.holdOutcome _ _ _ _ h | exact h

omit m in
theorem supplier_lt {f : Fin 8} {p q : Fin 4} (h : s.supplier f p = some q) : q < p := by
  have := List.find?_some h
  simp only [Bool.and_eq_true, decide_eq_true_eq] at this
  exact this.1

omit m in
theorem startLink_le {o : Option (Fin 4)} {p : Fin 4} (h : ∀ q, o = some q → q < p) : startLink o ≤ p := by
  cases o with
  | none => exact Fin.zero_le p
  | some q =>
    have := h q rfl
    simp only [startLink]
    omega

theorem evaluate (f : Fin 8) (p : Fin 4) (hc : (s.feeds.get f).covers p = false) (hs : P s) :
    P (s.evaluate f p) := by
  unfold State.evaluate
  repeat' split
  all_goals first
    | exact m.holdOutcomes _ _ _ hs
    | skip
  refine m.setCondition _ _ _ (fun q hq => ?_) hs
  have h0 : startLink (s.supplier f p) ≤ p := startLink_le fun q h => supplier_lt h
  simp only [FeedCondition.covers, decide_eq_true_eq]
  cases hf : s.feeds.get f with
  | none => simp [hf, FeedCondition.covers] at hq
  | driverDead => simp [hf, FeedCondition.covers] at hc
  | driverStuck => simp [hf, FeedCondition.covers] at hc
  | broken k e =>
    simp only [hf, FeedCondition.covers, decide_eq_false_iff_not, decide_eq_true_eq] at hc hq
    omega

theorem pass (f : Fin 8) (start : Nat) (entry : Option (Fin 4)) (hs : P s) : P (s.pass f start entry) := by
  refine fold _ (fun s r h => ?_) _ hs
  split
  · rename_i hv
    refine m.evaluate _ _ ?_ h
    simp only [State.passVisits, Bool.and_eq_true, Bool.not_eq_true'] at hv
    exact hv.1.2
  · exact h

theorem passAll (start : Nat) (hs : P s) : P (s.passAll start) := fold _ (fun _ f => m.pass f start none) _ hs

theorem clearBreaksEndingAt (p : Fin 4) (hs : P s) : P (s.clearBreaksEndingAt p) := by
  refine fold _ (fun s f h => ?_) _ hs
  repeat' split
  all_goals first | exact h | exact m.clearCondition _ _ h

theorem circuitsGone (p : Fin 4) (hs : P s) : P (s.circuitsGone p) := m.passAll _ (m.clearBreaksEndingAt p hs)

theorem shadowedReading (f : Fin 8) (p : Fin 4) (v : Bool) (e : DriveClass) (hs : P s) :
    P (s.shadowedReading f p v e) := by
  unfold State.shadowedReading
  repeat' split
  all_goals first | exact hs | exact m.clearCondition _ _ hs

/-! ## Verdicts -/

theorem verdictClaim (p : Fin 4) (c : Fin 12) (a b : Verdict) (hs : P s) : P (s.verdictClaim p c a b) := by
  unfold State.verdictClaim
  repeat' split
  all_goals first | exact hs | exact m.raise _ _ _ hs | exact m.resolve _ _ hs

theorem applyVerdict (p : Fin 4) (c : Fin 12) {a b : Circuit} (h : s.circuit p c = some a) (hf : b.feed = a.feed)
    (hv : b.verdict = .shadowed ↔ a.verdict = .shadowed) (hs : P s) : P (s.applyVerdict p c a b) := by
  have h' := m.verdictClaim p c a.verdict b.verdict (m.setCircuit s p c a b h hf hv hs)
  unfold State.applyVerdict
  dsimp only
  split
  · exact h'
  · exact m.pass _ _ _ h'

theorem replaceCandidate (p : Fin 4) (c : Fin 12) (hs : P s) : P (s.replaceCandidate p c) := by
  unfold State.replaceCandidate
  repeat' split
  all_goals first
    | exact hs
    | skip
  rename_i hr _ _ _ hv _
  exact m.applyVerdict p c hr rfl (by simp [hv, Circuit.confirmed]) hs

omit m in
theorem judge_feed (j : Judging) (r : Circuit) (o : Finding) : (r.judge j o).feed = r.feed := by
  unfold Circuit.judge Circuit.judgeHealthy Circuit.judgeSuspect Circuit.judgeFault Circuit.judgeRecovering
    Circuit.suspected Circuit.withCandidate Circuit.recovered Circuit.cleared Circuit.confirmed
  repeat' split
  all_goals rfl

omit m in
theorem judge_shadowed (j : Judging) (r : Circuit) (o : Finding) (h : r.verdict ≠ .shadowed) :
    (r.judge j o).verdict ≠ .shadowed := by
  unfold Circuit.judge Circuit.judgeHealthy Circuit.judgeSuspect Circuit.judgeFault Circuit.judgeRecovering
    Circuit.suspected Circuit.withCandidate Circuit.recovered Circuit.cleared Circuit.confirmed
  repeat' split
  all_goals simp_all

theorem judgeReading (p : Fin 4) (c : Fin 12) {r : Circuit} (o : Finding) (h : s.circuit p c = some r)
    (hv : r.verdict ≠ .shadowed) (hs : P s) : P (s.judgeReading p c r o) := by
  have h1 : P (s.applyVerdict p c r (r.judge s.judging o)) :=
    m.applyVerdict p c h (judge_feed _ _ _) ⟨fun x => absurd x (judge_shadowed _ _ _ hv), fun x => absurd x hv⟩ hs
  unfold State.judgeReading
  dsimp only
  split
  · exact m.replaceCandidate _ _ h1
  · exact h1

omit m in
/-- A record that was just written is there. -/
theorem circuit_setCircuit {p : Fin 4} {c : Fin 12} {r r' : Circuit} (h : s.circuit p c = some r) :
    (s.setCircuit p c r').circuit p c = some r' := by
  have hl : c.val < (s.circuits.get p).length := by
    simp only [State.circuit] at h
    exact (List.getElem?_eq_some_iff.mp h).1
  simp only [State.circuit, State.setCircuit, State.setCircuits, Four.get_set_self]
  rw [List.getElem?_set_self hl]

theorem takeReading (p : Fin 4) (x : Reading) (e : DriveClass) (hs : P s) : P (s.takeReading p x e) := by
  unfold State.takeReading
  split
  · rename_i old h
    have h1 := m.setCircuit s p x.circuit old { old with last := some (x.volt, x.current) } h rfl Iff.rfl hs
    dsimp only
    split
    · exact m.shadowedReading _ _ _ _ h1
    · rename_i hv
      exact m.judgeReading _ _ _ (circuit_setCircuit h) hv h1
  · exact hs

theorem releaseAt (p : Fin 4) (c : Fin 12) (hs : P s) : P (s.releaseAt p c) := by
  unfold State.releaseAt
  split
  · rename_i r h
    split
    · rename_i hl
      refine m.applyVerdict p c h rfl ⟨fun x => by simp at x, fun x => ?_⟩ hs
      simp [Circuit.isLatched, x] at hl
    · exact hs
  · exact hs

theorem releaseEvery (hs : P s) : P s.releaseEvery :=
  fold _ (fun _ p h => fold _ (fun _ c => m.releaseAt p c) _ h) _ hs

/-! ## Sense checks -/

theorem senseClaim (f : Fin 8) (a b : SenseCondition) (hs : P s) : P (s.senseClaim f a b) := by
  unfold State.senseClaim
  repeat' split
  all_goals first
    | exact hs
    | exact m.clearCondition _ _ hs
    | exact m.setCondition _ _ _ (fun _ _ => rfl) hs

theorem senseFunction (f : Fin 8) (hs : P s) : P (s.senseFunction f) := by
  unfold State.senseFunction
  dsimp only
  repeat' split
  all_goals first
    | exact hs
    | exact m.senseClaim _ _ _ (m.drive s s.fs _ hs)

theorem senseTickWith (fs : BitVec 8) (hs : P s) : P (s.senseTickWith fs) :=
  fold _ (fun _ f => m.senseFunction f) _ (m.drive s _ _ hs)

/-! ## Samples -/

theorem muteClaim (p : Fin 4) (hs : P s) : P (s.muteClaim p) := by
  unfold State.muteClaim
  split
  · exact m.updPosition _ _ _ (Or.inr (Or.inl rfl)) hs
  · exact hs

theorem matchedClaim (p : Fin 4) (hs : P s) : P (s.matchedClaim p) := by
  unfold State.matchedClaim
  split
  · exact m.updPosition _ _ _ (Or.inr (Or.inl rfl)) hs
  · exact hs

theorem countMissed (p : Fin 4) (hs : P s) : P (s.countMissed p) := by
  have h := m.count s p (fun m => { m with mute := min 7 (m.mute + 1), missed := min 255 (m.missed + 1) })
    (fun _ => ⟨rfl, rfl⟩) hs
  unfold State.countMissed
  dsimp only
  split
  · exact m.muteClaim _ h
  · exact h

/-- A part of the list of p. -/
theorem shrinkBy (p : Fin 4) (f : List SampleRecord → List SampleRecord) (h : ∀ l, (f l).Sublist l) (hs : P s) :
    P (s.updSampling p fun m => { m with list := f m.list }) := by
  have e : (s.updSampling p fun m => { m with list := f m.list }) =
      s.updSampling p fun m => { m with list := f (s.samples.get p).list } := rfl
  rw [e]
  exact m.shrink _ _ _ (h _) hs

theorem sampleFailed (p : Fin 4) (tag : BitVec 4) (hs : P s) : P (s.sampleFailed p tag) :=
  m.shrinkBy p (fun l => l.filter fun r => !r.queuedAs tag) (fun _ => List.filter_sublist) hs

theorem judgeOne (p : Fin 4) (o : Outstanding) (x : Reading) (hs : P s) : P (s.judgeOne p o x) := by
  unfold State.judgeOne
  repeat' split
  all_goals first | exact hs | exact m.takeReading _ _ _ hs

omit m in
theorem splitAtTag_sublist {tag : BitVec 4} {l older newer : List SampleRecord} {o : Outstanding}
    (h : splitAtTag tag l = some (older, o, newer)) : newer.Sublist l := by
  induction l generalizing older o newer with
  | nil => simp [splitAtTag] at h
  | cons r rs ih =>
    unfold splitAtTag at h
    split at h
    · simp only [Option.some.injEq, Prod.mk.injEq] at h
      rw [← h.2.2]
      exact List.sublist_cons_self _ _
    all_goals
      simp only [Option.map_eq_some_iff, Prod.mk.injEq] at h
      obtain ⟨⟨a, b, c⟩, h1, h2, h3⟩ := h
      simp only [Prod.mk.injEq] at h3
      rw [← h3.2]
      exact (ih h1).trans (List.sublist_cons_self _ _)

theorem settleReport (p : Fin 4) (tag : BitVec 4) (readings : List Reading) (hs : P s) :
    P (s.settleReport p tag readings) := by
  unfold State.settleReport
  split
  · split
    · rename_i older o newer h
      dsimp only
      refine m.matchedClaim p (m.count _ _ _ (fun _ => ⟨rfl, rfl⟩) ?_)
      refine fold _ (fun _ x => m.judgeOne p o x) _ ?_
      refine fold _ (fun _ _ => m.countMissed p) _ ?_
      exact m.shrink _ _ _ (splitAtTag_sublist h) hs
    · exact hs
  · exact hs

theorem missDeadline (p : Fin 4) (tag : BitVec 4) (hs : P s) : P (s.missDeadline p tag) := by
  unfold State.missDeadline
  split
  · exact m.countMissed p (m.shrinkBy p (fun l => l.filter fun r => !r.outstandingAs tag)
      (fun _ => List.filter_sublist) hs)
  · exact hs

theorem sampleTimerRunsOut (p : Fin 4) (hs : P s) : P (s.sampleTimerRunsOut p) := by
  unfold State.sampleTimerRunsOut
  split
  · exact m.sampleTimer _ _ ‹_› hs
  · exact hs

/-! ## Link -/

theorem countFailure (p : Fin 4) (hs : P s) : P (s.countFailure p) := by
  have h := m.updChannel s p (fun c => { c with streak := min 15 (c.streak + 1) }) (fun _ => Nat.le_refl _) hs
  unfold State.countFailure
  dsimp only
  split
  · exact m.amend p (fun r => { r with linkFault := true }) (fun _ => rfl) h
  · exact h

theorem countSuccess (p : Fin 4) (hs : P s) : P (s.countSuccess p) := by
  have h := m.updChannel s p (fun c => { c with streak := 0 }) (fun _ => Nat.le_refl _) hs
  unfold State.countSuccess
  dsimp only
  split
  · exact m.amend p (fun r => { r with linkFault := false }) (fun _ => rfl) h
  · exact h

theorem flushChannel (p : Fin 4) (hs : P s) : P (s.flushChannel p) := by
  have h1 := m.updChannel s p (fun c => { c with queue := c.queue.take 1 })
    (fun c => List.length_take_le' 1 c.queue) hs
  have h2 := m.updChannel s p (fun c => { c with queue := [], attempts := 0 }) (fun c => Nat.zero_le _) hs
  have h : ∀ u : State, P u → P (if s.link.engine.activeOn p then u.updLink fun l => { l with discarded := true } else u) :=
    fun u hu => by
      split
      · exact m.updLink _ _ (Or.inl rfl) (fun _ => Nat.le_refl _) rfl hu
      · exact hu
  unfold State.flushChannel
  refine h _ ?_
  split
  · exact h1
  · exact h2

theorem enter (e : Engine) (time : Nat) (he : e ≠ .off) (hs : P s) : P (s.enter e time) :=
  m.updLink _ _ (Or.inr he) (fun _ => Nat.le_refl _) rfl hs

theorem goOn (e : Engine) (time : Nat) (he : e ≠ .off) (hs : P s) : P (s.goOn e time) :=
  m.updLink _ _ (Or.inr he) (fun _ => Nat.le_refl _) rfl hs

theorem enterIdle (hs : P s) : P s.enterIdle := m.enter _ _ (by simp) hs

theorem enterSetup (p : Fin 4) (hs : P s) : P (s.enterSetup p) :=
  m.enter _ _ (by simp) (m.updLink _ _ (Or.inl rfl) (fun _ => Nat.le_refl _) rfl hs)

theorem afterReceive (hs : P s) : P s.afterReceive := by
  unfold State.afterReceive
  split
  · exact m.enterSetup _ hs
  · exact m.enterIdle hs

theorem popHead (p : Fin 4) (hs : P s) : P (s.popHead p) :=
  m.updChannel _ _ _ (fun c => by simp) hs

/-! ## Positions -/

theorem startEnrollTimer (p : Fin 4) (hs : P s) : P (s.startEnrollTimer p) := m.amend p _ (fun _ => rfl) hs

theorem offerRecall (p : Fin 4) (hs : P s) : P (s.offerRecall p) := m.offer _ _ _ hs

/-- The position is not sampled: it is not ENROLLED or MUTE, or its sampling is stopped. -/
theorem leave (p : Fin 4) (f : Position → Position)
    (h : (s.positions.get p).state.accepted = false ∨ s.stoppedAt p)
    (hs : P s) : P (s.updPosition p f) := by
  refine m.updPosition _ _ _ ?_ hs
  rcases h with h | h
  · rw [h]
    cases (f (s.positions.get p)).state.accepted
    · exact Or.inl rfl
    · exact Or.inr (Or.inl rfl)
  · exact Or.inr (Or.inr h)

theorem askToEnroll (p : Fin 4) (state : PositionState)
    (h : (s.positions.get p).state.accepted = false ∨ s.stoppedAt p) (hs : P s) : P (s.askToEnroll p state) :=
  m.offerRecall p (m.startEnrollTimer p (m.leave p _ h hs))

theorem evaluatePosition (p : Fin 4) (h : (s.positions.get p).state.accepted = false ∨ s.stoppedAt p) (hs : P s) :
    P (s.evaluatePosition p) := by
  unfold State.evaluatePosition
  split
  · exact m.askToEnroll p _ h hs
  · exact m.leave p _ h hs

theorem offerWelcome (p : Fin 4) (hs : P s) : P (s.offerWelcome p) := by
  unfold State.offerWelcome
  split
  · exact m.amend p (fun r => { r with welcome := .waiting, enrollTimer := none }) (fun _ => rfl) (m.offer _ _ _ hs)
  · exact m.startEnrollTimer p (m.amend p (fun r => { r with welcome := .owed }) (fun _ => rfl) hs)

theorem welcomeSent (p : Fin 4) (hs : P s) : P (s.welcomeSent p) := by
  unfold State.welcomeSent
  split
  · rename_i h
    split
    all_goals first
      | exact hs
      | refine m.startSampling _ _ ?_ (m.amend p (fun r => { r with welcome := .done, enrollTimer := none })
          (fun _ => rfl) hs)
        simpa using h
  · exact hs

theorem welcomeFailed (p : Fin 4) (hs : P s) : P (s.welcomeFailed p) := by
  unfold State.welcomeFailed
  repeat' split
  all_goals first
    | exact hs
    | exact m.startEnrollTimer p (m.amend p (fun r => { r with welcome := .owed }) (fun _ => rfl) hs)

theorem reportSent (p : Fin 4) (w : LinkWord) (hs : P s) : P (s.reportSent p w) := by
  cases w
  · exact m.welcomeSent p hs
  · exact m.sampleSent _ _ _ hs
  · exact hs
  · exact hs

theorem reportFailed (p : Fin 4) (w : LinkWord) (hs : P s) : P (s.reportFailed p w) := by
  cases w
  · exact m.welcomeFailed p hs
  · exact m.sampleFailed _ _ hs
  · exact hs
  · exact hs

theorem setChannelEnable (p : Fin 4) (on : Bool) (hs : P s) : P (s.setChannelEnable p on) := by
  unfold State.setChannelEnable
  dsimp only
  split
  · exact hs
  · split
    · exact m.updChannel _ _ _ (fun _ => Nat.le_refl _) hs
    · exact fold _ (fun _ w => m.reportFailed p w) _ (m.updChannel _ _ _ (fun _ => Nat.zero_le _) hs)

theorem purge (p : Fin 4) (hs : P s) : P (s.purge p) :=
  m.circuitsGone p (fold _ (fun _ c => m.withdrawCircuit _ p c) _ (m.dropRecords s p hs))

theorem identify (p : Fin 4) (serial : BitVec 24) (defs : List CircuitDef) (h : limit → defs.length ≤ 12) (hs : P s) :
    P (s.identify p serial defs) := by
  unfold State.identify
  split
  all_goals first
    | exact m.enroll _ _ _ _ h hs
    | (split
       · exact hs
       · exact m.enroll _ _ _ _ h (m.purge p hs))

theorem acceptHello (p : Fin 4) (serial : BitVec 24) (defs : List CircuitDef) (h : limit → defs.length ≤ 12)
    (hs : P s) : P (s.acceptHello p serial defs) := by
  refine m.scanMark _ _ (m.passAll _ (m.offerWelcome p (m.count _ _ _ (fun _ => ⟨rfl, rfl⟩) (m.stopSampling _ _ ?_))))
  exact m.updPosition _ _ _ (Or.inr (Or.inl rfl)) (m.identify p serial defs h hs)

omit m in
theorem stopSampling_stopped (p : Fin 4) : (s.stopSampling p).stoppedAt p := by
  simp [State.stopSampling, State.stoppedAt]

/-- Flushing, clearing and stopping a position, as its departure and FORGET do. -/
theorem quieten (p : Fin 4) (hs : P s) : P (((s.flushChannel p).setAssembly p .idle).stopSampling p) :=
  m.stopSampling _ _ (m.setAssembly _ _ _ (fun _ => trivial) (m.flushChannel p hs))

theorem cutReceive (p : Fin 4) (hs : P s) : P (s.cutReceive p) := by
  refine choose (m.cut _ _ (fun l x hx => ?_) hs) hs
  split at hx
  · rw [← Option.some.inj hx]
    exact (m.bounded s l hs).1 p
  · exact absurd hx (by simp)

theorem depart (p : Fin 4) (hs : P s) : P (s.depart p) := by
  unfold State.depart
  dsimp only
  refine choose ?_ (m.purge p ?_) <;>
    exact m.clearBreaksEndingAt p (m.departClaims p
      (m.leave p _ (Or.inr (stopSampling_stopped p)) (m.quieten p (m.cutReceive p hs))))

theorem coupleEdge (p : Fin 4) (hs : P s) : P (s.coupleEdge p) := by
  unfold State.coupleEdge
  dsimp only
  split
  · rename_i h
    exact m.askToEnroll p _ (Or.inl (by rw [h]; rfl)) hs
  · exact hs
  · exact hs
  · exact m.amend p (fun r => { r with detectMissing := false }) (fun _ => rfl) hs
  · exact m.amend p (fun r => { r with detectMissing := false }) (fun _ => rfl) hs
  · split
    · exact hs
    · exact m.offerRecall p (m.startEnrollTimer p (m.amend p (fun r => { r with recoupled := true }) (fun _ => rfl) hs))

theorem uncoupleEdge (p : Fin 4) (hs : P s) : P (s.uncoupleEdge p) := by
  unfold State.uncoupleEdge
  split
  · exact hs
  · rename_i h
    exact m.leave p _ (Or.inl (by rw [h]; rfl)) hs
  · rename_i h
    exact m.leave p _ (Or.inl (by rw [h]; rfl)) hs
  · exact m.depart p hs
  · exact m.depart p hs
  · split
    · exact m.amend p (fun r => { r with recoupled := false, enrollTimer := none }) (fun _ => rfl) hs
    · exact hs

theorem processEdge (p : Fin 4) (couple : Bool) (hs : P s) : P (s.processEdge p couple) := by
  unfold State.processEdge
  split
  · exact m.coupleEdge p (m.amend p (fun r => { r with coupleEdge := false }) (fun _ => rfl) hs)
  · exact m.uncoupleEdge p (m.amend p (fun r => { r with uncoupleEdge := false }) (fun _ => rfl) hs)

theorem processPending (p : Fin 4) (hs : P s) : P (s.processPending p) := by
  unfold State.processPending
  dsimp only
  split
  · exact hs
  · exact m.processEdge _ _ hs
  · exact m.processEdge _ _ hs
  · exact m.processEdge _ _ (m.processEdge _ _ hs)

omit m in
/-- A purge changes the serial and the count of its position, the feed records, the circuit table and the notices. -/
theorem purge_positions (p : Fin 4) :
    (s.purge p).positions = s.positions.modify p fun r => { r with serial := none, count := 0 } := by
  have h : ∀ (l : List (Fin 12)) (t : State), (l.foldl (fun s c => s.withdrawCircuit p c) t).outsideClaims =
      t.outsideClaims := fun l t => foldl_keeps State.outsideClaims _ (fun s c => s.withdrawCircuit_outsideClaims p c) l t
  unfold State.purge
  dsimp only
  rw [State.eq_of_outsideClaims _ (State.circuitsGone_outsideClaims _ p)]
  dsimp only
  rw [State.eq_of_outsideClaims _ (h _ _)]
  rfl

omit m in
theorem purge_samples (p : Fin 4) : (s.purge p).samples = s.samples := by
  have h : ∀ (l : List (Fin 12)) (t : State), (l.foldl (fun s c => s.withdrawCircuit p c) t).outsideClaims =
      t.outsideClaims := fun l t => foldl_keeps State.outsideClaims _ (fun s c => s.withdrawCircuit_outsideClaims p c) l t
  unfold State.purge
  dsimp only
  rw [State.eq_of_outsideClaims _ (State.circuitsGone_outsideClaims _ p)]
  dsimp only
  rw [State.eq_of_outsideClaims _ (h _ _)]
  rfl

theorem enrollRunsOut (p : Fin 4) (hs : P s) : P (s.enrollRunsOut p) := by
  have stop : P (s.updPosition p fun r => { r with enrollTimer := none }) := m.amend p _ (fun _ => rfl) hs
  unfold State.enrollRunsOut
  dsimp only
  split
  · exact hs
  · split
    · rename_i h
      exact m.askToEnroll p _ (Or.inl (by rw [h]; rfl)) hs
    · rename_i h
      exact m.askToEnroll p _ (Or.inl (by rw [h]; rfl)) hs
    · rename_i h
      split
      · refine m.askToEnroll p _ (Or.inl ?_) (m.amend p (fun r => { r with holdTimer := none, recoupled := false })
          (fun _ => rfl) (m.purge p hs))
        simp [purge_positions, h, PositionState.accepted]
      · exact stop
    · split
      · exact m.offerWelcome p hs
      · exact stop
    · split
      · exact m.offerWelcome p hs
      · exact stop
    · exact stop

theorem holdRunsOut (p : Fin 4) (hs : P s) : P (s.holdRunsOut p) := by
  unfold State.holdRunsOut
  dsimp only
  split
  · exact hs
  · rename_i h
    have hd : (s.positions.get p).state = .departed := by
      simp only [Bool.or_eq_true, bne_iff_ne, not_or, Decidable.not_not] at h
      exact h.2
    refine m.evaluatePosition p (Or.inl ?_) (m.amend p (fun r => { r with recoupled := false, holdTimer := none })
      (fun _ => rfl) (m.purge p hs))
    simp [purge_positions, hd, PositionState.accepted]

theorem forgetPosition (p : Fin 4) (hs : P s) : P (s.forgetPosition p) := by
  have h0 := m.quieten p hs
  have s0 : (((s.flushChannel p).setAssembly p .idle).stopSampling p).stoppedAt p := stopSampling_stopped p
  unfold State.forgetPosition
  dsimp only
  generalize ((s.flushChannel p).setAssembly p .idle).stopSampling p = t at h0 s0 ⊢
  have h1 : ∀ u : State, P u → u.stoppedAt p → P (((u.updPosition p fun r =>
      { r with
        enrollTimer := none
        holdTimer := none
        recoupled := false
        welcome := .done
        uncoupled := false
        detectMissing := false }).clearBreaksEndingAt p).evaluatePosition p) := fun u hu su => by
    refine m.evaluatePosition p (Or.inr ?_) (m.clearBreaksEndingAt p (m.amend p _ (fun _ => rfl) hu))
    rw [State.eq_of_outsideClaims _ (State.clearBreaksEndingAt_outsideClaims _ p)]
    exact su
  split
  · exact h1 _ (m.purge p h0) (by rw [State.stoppedAt, purge_samples]; exact s0)
  · exact h1 _ h0 s0

/-! ## Assembling -/

theorem offerReject (p : Fin 4) (r : RejectReason) (hs : P s) : P (s.offerReject p r) := m.offer _ _ _ hs

theorem idle (p : Fin 4) (hs : P s) : P (s.setAssembly p .idle) := m.setAssembly _ _ _ (fun _ => trivial) hs

theorem breakOff (p : Fin 4) (hs : P s) : P (s.breakOff p) := by
  unfold State.breakOff
  split
  · exact hs
  · exact m.offerReject p _ (m.idle p hs)
  · exact m.idle p hs

theorem misfit (p : Fin 4) (hs : P s) : P (s.misfit p) := by
  unfold State.misfit
  split
  · exact hs
  · exact m.offerReject p _ (m.idle p hs)
  · exact m.idle p hs

theorem boundedAt (p : Fin 4) (hl : limit) (hs : P s) {a : Assembly} (h : s.assembly.get p = a) : a.Bounded :=
  h ▸ (m.bounded s hl hs).1 p

theorem takeHelloWord (p : Fin 4) (count : Nat) (hs : P s) : P (s.takeHelloWord p count) := by
  unfold State.takeHelloWord
  split
  · rename_i h
    refine m.setAssembly _ _ _ (fun _ => ?_) (m.breakOff p hs)
    simp only [goodCount, Bool.and_eq_true, decide_eq_true_eq] at h
    exact ⟨h.2, Nat.zero_le _, h.1⟩
  · exact m.offerReject p _ hs

theorem takeSerialWord (p : Fin 4) (v : Byte) (hs : P s) : P (s.takeSerialWord p v) := by
  unfold State.takeSerialWord
  split
  · rename_i ha
    split
    · rename_i hl
      refine m.setAssembly _ _ _ (fun l => ?_) hs
      have b := m.boundedAt p l hs ha
      exact ⟨b.1, by simp; omega, b.2.2⟩
    · exact m.misfit p hs
  · exact m.misfit p hs
  · exact m.misfit p hs

theorem takeCircuitWord (p : Fin 4) (d : CircuitDef) (z : Bool) (hs : P s) : P (s.takeCircuitWord p d z) := by
  unfold State.takeCircuitWord
  split
  · rename_i ha
    split
    · exact m.misfit p hs
    · split
      · exact m.offerReject p _ (m.idle p hs)
      · split
        · rename_i hn
          refine m.acceptHello p _ _ (fun l => ?_) (m.idle p hs)
          have b := m.boundedAt p l hs ha
          have := b.1
          simp only [List.length_append, List.length_cons, List.length_nil]
          omega
        · rename_i hn
          refine m.setAssembly _ _ _ (fun l => ?_) hs
          have b := m.boundedAt p l hs ha
          have := b.2.2
          refine ⟨b.1, b.2.1, ?_⟩
          simp only [List.length_append, List.length_cons, List.length_nil]
          omega
  · exact m.misfit p hs
  · exact m.misfit p hs

theorem takeReportWord (p : Fin 4) (tag : BitVec 4) (count : Nat) (hs : P s) : P (s.takeReportWord p tag count) := by
  unfold State.takeReportWord
  split
  · rename_i h
    refine m.setAssembly _ _ _ (fun _ => ?_) (m.breakOff p hs)
    simp only [goodCount, Bool.and_eq_true, decide_eq_true_eq] at h
    exact ⟨h.2, h.1, Nat.le_refl _⟩
  · exact hs

omit m in
theorem withReading_length (l : List Reading) (i : Nat) (v : Bool) (c : CurrentClass) (z : Bool) :
    (withReading l i v c z).length ≤ l.length + 1 := by
  unfold withReading
  repeat' split
  all_goals simp

theorem takeReadingWord (p : Fin 4) (i : Nat) (v : Bool) (c : CurrentClass) (z : Bool) (hs : P s) :
    P (s.takeReadingWord p i v c z) := by
  unfold State.takeReadingWord
  split
  · rename_i readings _ ha
    dsimp only
    split
    · exact m.settleReport p _ _ (m.idle p hs)
    · refine m.setAssembly _ _ _ (fun l => ?_) hs
      have b := m.boundedAt p l hs ha
      have := b.2.1
      have := b.2.2
      have := withReading_length readings i v c z
      exact ⟨b.1, by omega, by omega⟩
  · exact m.misfit p hs
  · exact m.misfit p hs

theorem takeWord (p : Fin 4) (w : NodeWord) (hs : P s) : P (s.takeWord p w) := by
  cases w
  · exact m.takeHelloWord _ _ hs
  · exact m.takeSerialWord _ _ hs
  · exact m.takeCircuitWord _ _ _ hs
  · exact m.takeReportWord _ _ _ hs
  · exact m.takeReadingWord _ _ _ _ _ hs
  · exact hs

/-! ## The ends of transfers -/

omit m in
/-- A HELLO that a word completes at a record within its limits has at most twelve definitions. -/
theorem completedBy_length {a : Assembly} {w : NodeWord} {hello : BitVec 24 × List CircuitDef} (ha : a.Bounded)
    (h : a.completedBy w = some hello) : hello.2.length ≤ 12 := by
  unfold Assembly.completedBy at h
  split at h
  · split at h
    · rename_i hn
      have := ha.1
      simp only [Option.some.injEq] at h
      rw [← h]
      simp only [List.length_append, List.length_cons, List.length_nil]
      omega
    · exact absurd h (by simp)
  · exact absurd h (by simp)

theorem takeCutHello (p : Fin 4) (w : NodeWord) (hs : P s) : P (s.takeCutHello p w) := by
  unfold State.takeCutHello
  split
  · rename_i hello h
    refine choose (m.acceptHello p _ _ (fun l => ?_) hs) hs
    obtain ⟨a, ha, hw⟩ := Option.bind_eq_some_iff.mp h
    exact completedBy_length ((m.bounded s l hs).2 a ha) hw
  · exact hs

theorem endReceive (p : Fin 4) (d : BitVec 12) (a b : Bool) (hs : P s) : P (s.endReceive p d a b) := by
  have h := m.countSuccess p hs
  unfold State.endReceive
  dsimp only
  split
  · refine m.afterReceive ?_
    split
    · exact m.takeCutHello _ _ h
    · exact m.takeWord _ _ h
  · exact m.afterReceive (m.countFailure p hs)

theorem transmitSucceeds (p : Fin 4) (hs : P s) : P (s.transmitSucceeds p) := by
  unfold State.transmitSucceeds
  split
  · have h := m.countSuccess p (m.popHead p hs)
    refine m.enterIdle ?_
    split
    · exact h
    · exact m.reportSent _ _ h
  · exact m.enterIdle (m.countSuccess p hs)

theorem transmitFails (p : Fin 4) (hs : P s) : P (s.transmitFails p) := by
  unfold State.transmitFails
  dsimp only
  split
  · split
    · exact m.enterIdle (m.countFailure p (m.popHead p hs))
    · split
      · exact m.enterIdle (m.countFailure p (m.updChannel _ _ _ (fun _ => Nat.le_refl _) hs))
      · exact m.enterIdle (m.reportFailed p _ (m.countFailure p (m.popHead p hs)))
  · exact m.enterIdle (m.countFailure p hs)

end Moves

end Sys2Proof.Machine
end

