-- ==== Sys2Proof/Laws/Events.lean ====
section
/-! SUPPORT. What a whole step can do: to the moves of a part in RUN come the settings, the ports, the display commands,
the two power states, the resets and the clock. An invariant whose moves are shown here is kept by `exec` and `step`. -/

namespace Sys2Proof.Machine

/-- The state of a part that wakes, before the pending edges are processed (R179, steps 1 to 3). -/
def State.roused (s : State) (seen : BitVec 4) : State :=
  (({ s with power := .run } : State).enterIdle).updLink fun l =>
    { l with channels := l.channels.map fun p c => { c with wakeHold := wakeHoldOf seen p } }

/-- The moves of a command, each of which keeps P. -/
structure ExecMoves (limit : Prop) (P : State → Prop) : Prop extends Moves limit P where
  sampling : ∀ s x, P s → P { s with sampling := x }
  judging : ∀ s x, P s → P { s with judging := x }
  holdTime : ∀ s x, P s → P { s with holdTime := x }
  inputs : ∀ s ov cd d, P s → P { s with ov := ov, cd := cd, drive := d }
  freeIndex : ∀ s n, P s → P { s with freeIndex := n }
  blur : ∀ s f, P s → P (s.blur f)
  port : ∀ s f, (f s.port).queue.length ≤ s.port.queue.length → P s → P (s.updPort f)
  accept : ∀ s c, s.port.queue.length < 4 → P s → P (s.accept c)
  severity : ∀ s f v, P s → P (s.setSeverityOf f v)
  levels : ∀ s a b, P s → P (s.setLevelsOf a b)
  mask : ∀ s m h, P s → P (s.updNotices fun n => { n with mask := m, holdAll := h })
  taken : ∀ s, P s → P (s.updNotices NoticeUnit.taken)
  finish : ∀ s x top rest mark a, s.notices.stack = top :: rest → s.notices.inSlot top = some x →
    x.service = .inService mark → (a = .none ∨ a = .acked) → P s → P (s.updNotices fun n => n.finish x a)
  repost : ∀ s x top rest mark k v, s.notices.stack = top :: rest → s.notices.inSlot top = some x →
    x.service = .inService mark → P s → P (s.updNotices fun n => n.repost x k v)
  enterRest : ∀ s, s.restRefused = false → P s → P s.enterRest
  rouse : ∀ s seen, P s → P (s.roused seen)
  blank : ∀ s asserted ov cd, P s → P { State.blank ov cd s.fs s.freeIndex s.pending with resetAsserted := asserted }
  cleared : ∀ s, s.power = .run → P s → P s.cleared
  passAlways : ∀ s cd, P s → P (s.passAlways cd)
  passRun : ∀ s, s.power = .run → P s → P s.passRun

namespace ExecMoves

variable {limit : Prop} {P : State → Prop} (m : ExecMoves limit P) {s : State}

include m

/-! ## Drive -/

theorem resolveFunction (f : Fin 8) (hs : P s) : P (s.resolveFunction f) := by
  unfold State.resolveFunction
  dsimp only
  split
  · exact hs
  · exact m.blur _ _ (m.drive s s.fs _ hs)

theorem resolveWhere (which : Fin 8 → Bool) (hs : P s) : P (s.resolveWhere which) :=
  Moves.fold _ (fun _ f => m.resolveFunction f) _ hs

theorem setFunctionMode (f : Fin 8) (x : Mode) (hs : P s) : P (s.setFunctionMode f x) :=
  m.resolveFunction f (m.drive s s.fs _ hs)

theorem setGeneratorCadence (g : Fin 4) (c : Cadence) (hs : P s) : P (s.setGeneratorCadence g c) :=
  Moves.choose (m.drive s s.fs _ hs) (m.drive s s.fs _ hs)

theorem restartGenerators (set : BitVec 4) (hs : P s) : P (s.restartGenerators set) :=
  m.resolveWhere _ (m.drive s s.fs _ hs)

theorem setAssignment (i : Fin 4) (set : BitVec 8) (hs : P s) : P (s.setAssignment i set) :=
  m.resolveWhere _ (m.drive s s.fs _ hs)

theorem stepRunsOut (g : Fin 4) (hs : P s) : P (s.stepRunsOut g) := m.resolveWhere _ (m.drive s s.fs _ hs)

theorem overrideFilterPasses (i : Fin 4) (hs : P s) : P (s.overrideFilterPasses i) :=
  Moves.choose hs (m.resolveWhere _ (m.drive s s.fs _ hs))

theorem overrideInput (i : Fin 4) (l : Bool) (hs : P s) : P (s.overrideInput i l) :=
  Moves.choose hs (m.inputs s _ s.cd _ hs)

theorem pwmPeriodStarts (hs : P s) : P s.pwmPeriodStarts := m.drive s s.fs _ hs

/-! ## Waking -/

theorem wake (seen : BitVec 4) (hs : P s) : P (s.wake seen) :=
  m.settle (Moves.fold _ (fun _ p => m.processPending p) _ (m.rouse s seen hs))

theorem wakeIfResting (hs : P s) : P s.wakeIfResting := Moves.choose (m.wake _ hs) hs

theorem linkWake (channels : BitVec 4) (hs : P s) : P (s.linkWake channels) := Moves.choose (m.wake _ hs) hs

theorem detectFlips (p : Fin 4) (hs : P s) : P (s.detectFlips p) :=
  m.amend p _ (fun _ => rfl) (m.inputs s s.ov _ s.drive hs)

omit m in
theorem flagEdge_state (r : Position) : r.flagEdge.state = r.state := by
  unfold Position.flagEdge
  split <;> rfl

theorem detectFilterPasses (p : Fin 4) (hs : P s) : P (s.detectFilterPasses p) := by
  have h := m.detectFlips p hs
  unfold State.detectFilterPasses
  dsimp only
  split
  · exact m.settle (m.processEdge _ _ h)
  · have h' := m.amend p Position.flagEdge flagEdge_state h
    exact Moves.choose (m.wake _ h') h'

/-! ## The lighting queue -/

theorem refuse (k : ErrorKind) (e : Posted) (hs : P s) : P (s.refuse k e) :=
  m.port _ _ (Nat.le_refl _) hs

theorem setCouplingOf (p : Fin 4) (a b c : Bool) (e h : Nat) (hs : P s) : P (s.setCouplingOf p a b c e h) := by
  have hp : ∀ r : Position, (r.withPolarity a (s.cd.get p)).state = r.state := fun r => by
    unfold Position.withPolarity
    split <;> rfl
  exact m.setChannelEnable p c (m.holdTime _ _ (m.amend p _ (fun r => hp r) hs))

theorem restOrPass (q : BitVec 8) (h : s.restRefused = false) (hs : P s) : P (s.restOrPass q) := by
  have hr : s.settle.restRefused = false := by
    rw [s.settle_eq]
    exact h
  have hq : s.port.queue.length ≤ s.settle.enterRest.port.queue.length := by
    rw [s.settle_eq]
    exact Nat.le_refl _
  have h1 := m.freeIndex _ (s.freeIndex + 1)
    (m.port _ (fun _ => { s.port with lcs := s.port.lcs.atRest q (Config.lcsStillAsserted s.freeIndex) }) hq
      (m.enterRest _ hr (m.settle hs)))
  exact Moves.choose (m.wake _ h1) h1

theorem execute (e : Posted) (hs : P s) : P (s.execute e) := by
  unfold State.execute
  split
  · exact m.setFunctionMode _ _ hs
  · exact m.setFunctionMode _ _ hs
  · exact m.setGeneratorCadence _ _ hs
  · exact m.restartGenerators _ hs
  · exact m.setAssignment _ _ hs
  · exact m.sampling _ _ hs
  · exact m.judging _ _ hs
  · exact m.severity _ _ _ hs
  · exact m.levels _ _ _ hs
  · exact Moves.choose (m.refuse _ _ hs) (m.setCouplingOf _ _ _ _ _ _ hs)
  · exact Moves.choose (m.releaseAt _ _ hs) (m.refuse _ _ hs)
  · exact m.releaseEvery hs
  · exact Moves.choose (m.refuse _ _ hs) (m.forgetPosition _ hs)
  · split
    · exact m.refuse _ _ hs
    · exact m.restOrPass _ (by simp_all) hs

theorem runQueue (n : Nat) (hs : P s) : P (s.runQueue n) := by
  induction n generalizing s with
  | zero => exact hs
  | succ n ih =>
    unfold State.runQueue
    split
    · rename_i e rest hq
      split
      · exact ih (m.execute e (m.port _ _ (by simp [hq]) hs))
      · exact hs
    · exact hs

theorem drain (hs : P s) : P s.drain := m.settle (m.runQueue _ hs)

theorem answerLighting (c : Option (BitVec 8)) (r : List Byte) (hs : P s) : P (s.answerLighting c r) :=
  m.port _ _ (Nat.le_refl _) hs

theorem answerDisplay (r : List Byte) (hs : P s) : P (s.answerDisplay r) := m.port _ _ (Nat.le_refl _) hs

theorem post (c : Option PostedCommand) (hs : P s) : P (s.post c) := by
  have h := m.wakeIfResting hs
  unfold State.post
  dsimp only
  split
  · exact m.answerLighting _ _ h
  · split
    · exact m.drain (m.accept _ _ ‹_› h)
    · exact m.answerLighting _ _ h

theorem serve (port : Port) (answer : State → List Byte) (hs : P s) : P (s.serve port answer) := by
  cases port
  · exact m.answerLighting _ _ (m.wakeIfResting hs)
  · exact m.answerDisplay _ hs

theorem sync (hs : P s) : P s.sync := m.port _ _ (Nat.le_refl _) (m.answerLighting _ _ hs)

/-! ## Resets -/

/-- The positions that a reset evaluates are not sampled. -/
theorem evaluateAll (hs : P s) (h : ∀ p, s.stoppedAt p) : P (fourIndices.foldl State.evaluatePosition s) := by
  have hsm : ∀ (t : State) (p : Fin 4), (t.evaluatePosition p).samples = t.samples := fun t p => by
    unfold State.evaluatePosition
    split
    · simp only [State.askToEnroll, State.offerRecall, State.offer]
      split <;> rfl
    · rfl
  have : ∀ (l : List (Fin 4)) (t : State), P t → (∀ p, t.stoppedAt p) → P (l.foldl State.evaluatePosition t) := by
    intro l
    induction l with
    | nil => exact fun _ h _ => h
    | cons x xs ih =>
      intro t ht hst
      refine ih _ (m.evaluatePosition x (Or.inr (hst x)) ht) fun p => ?_
      have := hst p
      simp only [State.stoppedAt, hsm] at this ⊢
      exact this
  exact this _ _ hs h

theorem releaseReset (cd : BitVec 4) (hs : P s) : P (s.releaseReset cd) :=
  m.evaluateAll (m.drive _ s.fs _ (m.blank s false s.ov _ hs)) fun p => by
    simp [State.resolveAtRelease, State.blank, Sampling.initial, State.stoppedAt]

theorem restartBlocks (h : s.power = .run) (hs : P s) : P s.restartBlocks :=
  m.evaluateAll (m.cleared s h hs) fun p => by simp [State.cleared, Sampling.initial, State.stoppedAt]

/-! ## The display port -/

theorem finishTop {x : Notice} {top : Fin 16} {rest : List (Fin 16)} {mark : Mark} (h1 : s.notices.stack = top :: rest)
    (h2 : s.notices.inSlot top = some x) (h3 : x.service = .inService mark) (hs : P s) : P (s.finishTop x mark) := by
  cases mark with
  | none =>
    refine m.scanIfDue (m.answerDisplay _ (m.finish _ _ _ _ _ _ h1 h2 h3 ?_ hs))
    cases x.kind <;> simp [NoticeKind.acknowledged]
  | resolved => exact m.scanIfDue (m.answerDisplay _ (m.finish _ _ _ _ _ _ h1 h2 h3 (Or.inl rfl) hs))
  | superseded k => exact m.answerDisplay _ (m.repost _ _ _ _ _ _ _ h1 h2 h3 hs)

theorem done (slot : Fin 16) (hs : P s) : P (s.done slot) := by
  unfold State.done
  split
  · exact m.answerDisplay _ hs
  · rename_i top rest h1
    split
    · rename_i e
      subst e
      split
      · rename_i x h2
        split
        · exact m.finishTop h1 h2 ‹_› hs
        · exact m.answerDisplay _ hs
      · exact m.answerDisplay _ hs
    · exact m.answerDisplay _ hs

/-! ## Every command -/

omit m in
/-- A command has one next state, and P holds of it. -/
theorem event_keeps {f : State → State} (h : s.resetAsserted = false → P (f s)) (hs : P s) {t : State}
    (e : event s f = .next t) : P t := by
  unfold event at e
  simp only [Host.Outcome.next.injEq] at e
  rw [← e]
  split
  · exact hs
  · exact h (by simp_all)

omit m in
theorem runEvent_keeps {f : State → State} (h : P (f s)) (hs : P s) {t : State} (e : runEvent s f = .next t) : P t :=
  event_keeps (fun _ => Moves.choose h hs) hs e

omit m in
/-- A lighting transaction finds the part in RUN. -/
theorem wakeIfResting_power : s.wakeIfResting.power = .run := by
  unfold State.wakeIfResting
  split
  · have h1 : ∀ (l : List (Fin 4)) (t : State), (l.foldl State.processPending t).power = t.power := fun l t => by
      rw [State.eq_of_outsideRoster _
        (foldl_keeps State.outsideRoster State.processPending (fun s p => s.processPending_outsideRoster p) l t)]
    unfold State.wake
    rw [State.settle_eq]
    exact h1 _ _
  · rename_i h
    cases hp : s.power with
    | run => rfl
    | rest => exact absurd hp h

theorem attemptFails (hs : P s) : P s.attemptFails := by
  unfold State.attemptFails
  split
  all_goals first | exact hs | exact m.settle (m.transmitFails _ hs)

/-- Every command keeps P. -/
theorem exec {c : Instr} {t : State} (hs : P s) (e : Machine.exec c s = .next t) : P t := by
  cases c with
  | pinResetAssert =>
    simp only [Machine.exec, execPinResetAssert, Host.Outcome.next.injEq] at e
    rw [← e]
    exact m.blank s true _ _ hs
  | pinResetRelease cd =>
    simp only [Machine.exec, execPinResetRelease, Host.Outcome.next.injEq] at e
    rw [← e]
    exact Moves.choose (m.releaseReset cd hs) hs
  | overrideFilterChange i =>
    simp only [Machine.exec, execOverrideFilterChange] at e
    refine event_keeps (fun _ => ?_) hs e
    exact m.overrideFilterPasses i hs
  | overrideInputChange i l =>
    simp only [Machine.exec, execOverrideInputChange, Host.Outcome.next.injEq] at e
    rw [← e]
    exact m.overrideInput i l hs
  | stepExpiry g =>
    simp only [Machine.exec, execStepExpiry] at e
    refine runEvent_keeps ?_ hs e
    exact m.stepRunsOut g hs
  | dimPeriodStart =>
    simp only [Machine.exec, execDimPeriodStart] at e
    refine event_keeps (fun _ => ?_) hs e
    exact m.pwmPeriodStarts hs
  | senseTick fs =>
    simp only [Machine.exec, execSenseTick] at e
    refine runEvent_keeps ?_ hs e
    exact m.settle (m.senseTickWith fs hs)
  | startBit cs =>
    simp only [Machine.exec, execStartBit] at e
    refine runEvent_keeps ?_ hs e
    split
    all_goals first | exact hs | exact m.enter _ _ (by simp) hs
  | receiveEnd d a b =>
    simp only [Machine.exec, execReceiveEnd] at e
    refine runEvent_keeps ?_ hs e
    split
    all_goals first | exact hs | exact m.settle (m.endReceive _ _ _ _ hs)
  | wordTimeout =>
    simp only [Machine.exec, execWordTimeout] at e
    refine runEvent_keeps ?_ hs e
    split
    all_goals first | exact hs | exact m.settle (m.afterReceive (m.countFailure _ hs))
  | transmitStart =>
    simp only [Machine.exec, execTransmitStart] at e
    refine runEvent_keeps ?_ hs e
    split
    all_goals first | exact hs | exact m.enterSetup _ hs
  | inhibitSettleEnd =>
    simp only [Machine.exec, execInhibitSettleEnd] at e
    refine runEvent_keeps ?_ hs e
    split
    all_goals first | exact hs | exact m.goOn _ _ (by simp) hs
  | firstFallingEdge =>
    simp only [Machine.exec, execFirstFallingEdge] at e
    refine runEvent_keeps ?_ hs e
    split
    all_goals first | exact hs | exact m.goOn _ _ (by simp) hs
  | transmitCatch =>
    simp only [Machine.exec, execTransmitCatch] at e
    refine runEvent_keeps ?_ hs e
    split
    all_goals first | exact hs | exact m.settle (m.transmitSucceeds _ hs)
  | txNoClock =>
    simp only [Machine.exec, execTxNoClock] at e
    refine runEvent_keeps ?_ hs e
    split
    all_goals first | exact hs | exact m.settle (m.transmitFails _ hs)
  | noCatch =>
    simp only [Machine.exec, execNoCatch] at e
    refine runEvent_keeps ?_ hs e
    exact m.attemptFails hs
  | transmitTimeout =>
    simp only [Machine.exec, execTransmitTimeout] at e
    refine runEvent_keeps ?_ hs e
    exact m.attemptFails hs
  | settleEnd =>
    simp only [Machine.exec, execSettleEnd] at e
    refine runEvent_keeps ?_ hs e
    exact Moves.choose (m.enterIdle hs) hs
  | wakeSettleEnd p =>
    simp only [Machine.exec, execWakeSettleEnd] at e
    refine runEvent_keeps ?_ hs e
    exact m.updChannel _ _ _ (fun _ => Nat.le_refl _) hs
  | gapTimerExpiry p =>
    simp only [Machine.exec, execGapTimerExpiry] at e
    refine runEvent_keeps ?_ hs e
    exact m.breakOff p hs
  | linkWakeStartBit cs =>
    simp only [Machine.exec, execLinkWakeStartBit] at e
    refine event_keeps (fun _ => ?_) hs e
    exact m.linkWake cs hs
  | detectFilterChange p =>
    simp only [Machine.exec, execDetectFilterChange] at e
    refine event_keeps (fun _ => ?_) hs e
    exact m.detectFilterPasses p hs
  | enrollTimerExpiry p =>
    simp only [Machine.exec, execEnrollTimerExpiry] at e
    refine runEvent_keeps ?_ hs e
    exact m.settle (m.enrollRunsOut p hs)
  | holdTimerExpiry p =>
    simp only [Machine.exec, execHoldTimerExpiry] at e
    refine runEvent_keeps ?_ hs e
    exact m.settle (m.holdRunsOut p hs)
  | sampleTimerExpiry p =>
    simp only [Machine.exec, execSampleTimerExpiry] at e
    refine runEvent_keeps ?_ hs e
    exact m.sampleTimerRunsOut p hs
  | deadlineExpiry p tag =>
    simp only [Machine.exec, execDeadlineExpiry] at e
    refine runEvent_keeps ?_ hs e
    exact m.settle (m.missDeadline p tag hs)
  | take =>
    simp only [Machine.exec, execTake] at e
    refine event_keeps (fun _ => ?_) hs e
    exact m.taken _ (m.answerDisplay _ hs)
  | peek =>
    simp only [Machine.exec, execPeek] at e
    refine event_keeps (fun _ => ?_) hs e
    exact m.answerDisplay _ hs
  | done slot =>
    simp only [Machine.exec, execDone] at e
    refine event_keeps (fun _ => ?_) hs e
    split
    · exact m.done _ hs
    · exact m.answerDisplay _ hs
  | setMask a b =>
    simp only [Machine.exec, execSetMask] at e
    refine event_keeps (fun _ => ?_) hs e
    split
    · exact m.answerDisplay _ (m.mask _ _ _ hs)
    · exact m.answerDisplay _ hs
  | readNotice slot =>
    simp only [Machine.exec, execReadNotice] at e
    refine event_keeps (fun _ => ?_) hs e
    exact m.answerDisplay _ hs
  | unknownCommand port code =>
    simp only [Machine.exec, execUnknownCommand] at e
    refine event_keeps (fun _ => ?_) hs e
    exact Moves.choose hs (m.serve _ _ hs)
  | lcsAssert =>
    simp only [Machine.exec, execLcsAssert] at e
    refine event_keeps (fun _ => ?_) hs e
    exact m.port _ _ (Nat.le_refl _) (m.wakeIfResting hs)
  | setMode a b c =>
    simp only [Machine.exec, execSetMode] at e
    refine event_keeps (fun _ => ?_) hs e
    exact m.post _ hs
  | setDim a b =>
    simp only [Machine.exec, execSetDim] at e
    refine event_keeps (fun _ => ?_) hs e
    exact m.post _ hs
  | setCadence a b c d f =>
    simp only [Machine.exec, execSetCadence] at e
    refine event_keeps (fun _ => ?_) hs e
    exact m.post _ hs
  | restartCadences a =>
    simp only [Machine.exec, execRestartCadences] at e
    refine event_keeps (fun _ => ?_) hs e
    exact m.post _ hs
  | setOverride a b =>
    simp only [Machine.exec, execSetOverride] at e
    refine event_keeps (fun _ => ?_) hs e
    exact m.post _ hs
  | setSampling a b c d =>
    simp only [Machine.exec, execSetSampling] at e
    refine event_keeps (fun _ => ?_) hs e
    exact m.post _ hs
  | setJudging a b c =>
    simp only [Machine.exec, execSetJudging] at e
    refine event_keeps (fun _ => ?_) hs e
    exact m.post _ hs
  | setSeverity a b =>
    simp only [Machine.exec, execSetSeverity] at e
    refine event_keeps (fun _ => ?_) hs e
    exact m.post _ hs
  | setLevels a b =>
    simp only [Machine.exec, execSetLevels] at e
    refine event_keeps (fun _ => ?_) hs e
    exact m.post _ hs
  | setCoupling a b c d =>
    simp only [Machine.exec, execSetCoupling] at e
    refine event_keeps (fun _ => ?_) hs e
    exact m.post _ hs
  | release a b =>
    simp only [Machine.exec, execRelease] at e
    refine event_keeps (fun _ => ?_) hs e
    exact m.post _ hs
  | forget a =>
    simp only [Machine.exec, execForget] at e
    refine event_keeps (fun _ => ?_) hs e
    exact m.post _ hs
  | rest =>
    simp only [Machine.exec, execRest] at e
    refine event_keeps (fun _ => ?_) hs e
    exact m.post _ hs
  | headExecution =>
    simp only [Machine.exec, execHeadExecution] at e
    refine runEvent_keeps ?_ hs e
    exact m.drain hs
  | sync =>
    simp only [Machine.exec, execSync] at e
    refine event_keeps (fun _ => ?_) hs e
    exact m.sync (m.wakeIfResting hs)
  | restart =>
    simp only [Machine.exec, execRestart] at e
    refine event_keeps (fun _ => ?_) hs e
    exact m.answerLighting _ _ (m.restartBlocks wakeIfResting_power (m.wakeIfResting hs))
  | readDrive port =>
    simp only [Machine.exec, execReadDrive] at e
    refine event_keeps (fun _ => ?_) hs e
    exact m.serve _ _ hs
  | readPosition port a =>
    simp only [Machine.exec, execReadPosition] at e
    refine event_keeps (fun _ => ?_) hs e
    exact m.serve _ _ hs
  | readCircuit port a b =>
    simp only [Machine.exec, execReadCircuit] at e
    refine event_keeps (fun _ => ?_) hs e
    exact m.serve _ _ hs
  | readFeed port a =>
    simp only [Machine.exec, execReadFeed] at e
    refine event_keeps (fun _ => ?_) hs e
    exact m.serve _ _ hs
  | readSummary port =>
    simp only [Machine.exec, execReadSummary] at e
    refine event_keeps (fun _ => ?_) hs e
    exact m.serve _ _ hs

/-- A microsecond keeps P. -/
theorem advance (hs : P s) : P s.advance := by
  have h := m.freeIndex s (s.freeIndex + 1) hs
  unfold State.advance
  dsimp only
  split
  · exact m.inputs _ s.ov _ s.drive h
  · split
    · rename_i hp
      exact m.passRun _ hp (m.passAlways _ _ (m.port _ _ (Nat.le_refl _) h))
    · exact m.passAlways _ _ (m.port _ _ (Nat.le_refl _) h)

end ExecMoves

/-- All moves of a step: those of a command, and a change of the commands that wait. -/
structure EventMoves (limit : Prop) (P : State → Prop) : Prop extends ExecMoves limit P where
  pending : ∀ s l, P s → P { s with pending := l }

/-- Every step keeps P. -/
theorem EventMoves.step {limit : Prop} {P : State → Prop} (m : EventMoves limit P) {s t : State} (hs : P s)
    (e : Machine.step s = .next t) : P t := by
  unfold Machine.step at e
  split at e
  · exact m.exec (m.pending _ _ hs) e
  · split at e
    · exact m.exec (m.freeIndex _ _ hs) e
    · simp only [Host.Outcome.next.injEq] at e
      rw [← e]
      exact m.advance hs

end Sys2Proof.Machine
end

