-- ==== Sys2Proof/Laws/Notices.lean ====
section
/-! SUPPORT. The notice unit: what its shared operations do to the notices, the announce states and the stack, and that
each of them keeps the unit in order (`NoticeUnit.Sound`). -/

namespace Sys2Proof.Machine

/-! ## Announce states -/
/-- A written announce state is read back, and every other subject keeps its own. -/
theorem NoticeUnit.announceOf_setAnnounce (n : NoticeUnit) (x y : Subject) (a : Announce) :
    (n.setAnnounce x a).announceOf y = if y = x then a else n.announceOf y := by
  cases x <;> cases y <;> simp [NoticeUnit.setAnnounce, NoticeUnit.announceOf, Four.get_modify, Four.get_set,
      Eight.get_set]
  rename_i p c q d
  by_cases h : q = p <;> by_cases h' : d = c <;> simp [h, h', Twelve.get_set]

@[simp] theorem NoticeUnit.setAnnounce_queue (n : NoticeUnit) (x : Subject) (a : Announce) :
    (n.setAnnounce x a).queue = n.queue := by cases x <;> rfl
@[simp] theorem NoticeUnit.setAnnounce_stack (n : NoticeUnit) (x : Subject) (a : Announce) :
    (n.setAnnounce x a).stack = n.stack := by cases x <;> rfl
@[simp] theorem NoticeUnit.setAnnounce_counter (n : NoticeUnit) (x : Subject) (a : Announce) :
    (n.setAnnounce x a).counter = n.counter := by cases x <;> rfl

/-- An insertion adds one notice. -/
theorem mem_insertNotice {x y : Notice} {l : List Notice} : y ∈ insertNotice x l ↔ y = x ∨ y ∈ l := by
  induction l with
  | nil => simp [insertNotice]
  | cons z zs ih =>
    unfold insertNotice
    split
    · simp
    · simp [ih]; constructor <;> (intro h; rcases h with h | h | h <;> simp [h])

/-- An insertion keeps the slots rising. -/
theorem pairwise_insertNotice {x : Notice} {l : List Notice} (h : l.Pairwise fun a b => a.slot < b.slot)
    (hx : ∀ y ∈ l, y.slot ≠ x.slot) : (insertNotice x l).Pairwise fun a b => a.slot < b.slot := by
  induction l with
  | nil => simp [insertNotice]
  | cons z zs ih =>
    rw [List.pairwise_cons] at h
    unfold insertNotice
    split
    · rename_i hz
      rw [List.pairwise_cons]
      refine ⟨fun y hy => ?_, List.pairwise_cons.mpr h⟩
      rcases List.mem_cons.mp hy with e | e
      · rw [e]; exact hz
      · exact Nat.lt_trans hz (h.1 y e)
    · rename_i hz
      rw [List.pairwise_cons]
      refine ⟨fun y hy => ?_, ih h.2 fun y hy => hx y (List.mem_cons_of_mem _ hy)⟩
      rcases mem_insertNotice.mp hy with e | e
      · have := hx z List.mem_cons_self
        rw [e]; omega
      · exact h.1 y e

/-- An insertion keeps the subjects distinct. -/
theorem subjects_insertNotice {x : Notice} {l : List Notice} (h : l.Pairwise fun a b => a.subject ≠ b.subject)
    (hx : ∀ y ∈ l, y.subject ≠ x.subject) : (insertNotice x l).Pairwise fun a b => a.subject ≠ b.subject := by
  induction l with
  | nil => simp [insertNotice]
  | cons z zs ih =>
    rw [List.pairwise_cons] at h
    unfold insertNotice
    split
    · rw [List.pairwise_cons]
      exact ⟨fun y hy => (hx y hy).symm, List.pairwise_cons.mpr h⟩
    · rw [List.pairwise_cons]
      refine ⟨fun y hy => ?_, ih h.2 fun y hy => hx y (List.mem_cons_of_mem _ hy)⟩
      rcases mem_insertNotice.mp hy with e | e
      · rw [e]; exact hx z List.mem_cons_self
      · exact h.1 y e

/-! ## reading the queue -/

/-- At most one notice is in a slot. -/
theorem eq_of_slot {l : List Notice} (h : l.Pairwise fun a b => a.slot < b.slot) {x y : Notice} (hx : x ∈ l) (hy
    : y ∈ l)
    (e : x.slot = y.slot) : x = y := by
  induction l with
  | nil => simp at hx
  | cons z zs ih =>
    rw [List.pairwise_cons] at h
    rcases List.mem_cons.mp hx with a | a <;> rcases List.mem_cons.mp hy with b | b
    · rw [a, b]
    · have := h.1 y b; rw [a] at e; omega
    · have := h.1 x a; rw [b] at e; omega
    · exact ih h.2 a b

/-- At most one notice is held for a subject. -/
theorem eq_of_subject {l : List Notice} (h : l.Pairwise fun a b => a.subject ≠ b.subject) {x y : Notice} (hx : x ∈ l)
    (hy : y ∈ l)
    (e : x.subject = y.subject) : x = y := by
  induction l with
  | nil => simp at hx
  | cons z zs ih =>
    rw [List.pairwise_cons] at h
    rcases List.mem_cons.mp hx with a | a <;> rcases List.mem_cons.mp hy with b | b
    · rw [a, b]
    · have := h.1 y b; rw [a] at e; exact absurd e this
    · have := h.1 x a; rw [b] at e; exact absurd e.symm this
    · exact ih h.2 a b

/-- What a slot gives is in the queue and in that slot. -/
theorem NoticeUnit.inSlot_some {n : NoticeUnit} {i : Fin 16} {x : Notice} (h : n.inSlot i = some x) : x ∈ n.queue ∧
    x.slot = i := by
  have h1 := List.mem_of_find?_eq_some h
  have h2 := List.find?_some h
  exact ⟨h1, by simpa using h2⟩

theorem NoticeUnit.inSlot_none {n : NoticeUnit} {i : Fin 16} (h : n.inSlot i = none) : ∀ x ∈ n.queue, x.slot ≠ i := by
  intro x hx e
  have := List.find?_eq_none.mp h x hx
  simp [e] at this

/-- A notice of the queue is what its slot gives. -/
theorem NoticeUnit.inSlot_of_mem {n : NoticeUnit} (h : n.queue.Pairwise fun a b => a.slot < b.slot) {x : Notice} (hx
    : x ∈ n.queue) : n.inSlot x.slot = some x := by
  cases hf : n.inSlot x.slot with
  | none => exact absurd rfl (n.inSlot_none hf x hx)
  | some y =>
    have := n.inSlot_some hf
    rw [eq_of_slot h this.1 hx this.2]

theorem NoticeUnit.held_some {n : NoticeUnit} {i : Subject} {x : Notice} (h : n.held i = some x) : x ∈ n.queue ∧
    x.subject = i := by
  have h1 := List.mem_of_find?_eq_some h
  have h2 := List.find?_some h
  exact ⟨h1, by simpa using h2⟩

theorem NoticeUnit.held_none {n : NoticeUnit} {i : Subject} (h : n.held i = none) : ∀ x ∈ n.queue, x.subject ≠ i := by
  intro x hx e
  have := List.find?_eq_none.mp h x hx
  simp [e] at this

/-- Level lookup depends only on slots & levels. -/
theorem NoticeUnit.levelIn_of_mem {n : NoticeUnit} (h : n.queue.Pairwise fun a b => a.slot < b.slot) {x : Notice} (hx
    : x ∈ n.queue) : n.levelIn x.slot = x.level := by
  simp [NoticeUnit.levelIn, n.inSlot_of_mem h hx]

/-- A change that keeps the stack and, of the notices on the stack, slot and level. -/
theorem levelIn_kept {n n' : NoticeUnit} (hn : n.queue.Pairwise fun a b => a.slot < b.slot)
    (hn' : n'.queue.Pairwise fun a b => a.slot < b.slot)
    (h5 : ∀ i ∈ n.stack, ∃ x ∈ n.queue, x.slot = i)
    (h : ∀ x ∈ n.queue, x.slot ∈ n.stack → ∃ y ∈ n'.queue, y.slot = x.slot ∧ y.level = x.level) :
    ∀ i ∈ n.stack, n'.levelIn i = n.levelIn i := by
  intro i hi
  obtain ⟨x, hx, e⟩ := h5 i hi
  subst e
  obtain ⟨y, hy, e1, e2⟩ := h x hx hi
  rw [n.levelIn_of_mem hn hx, ← e1, n'.levelIn_of_mem hn' hy, e2]

theorem levels_kept {n n' : NoticeUnit} (hp : n.stack.Pairwise fun a b => n.levelIn b < n.levelIn a)
    (h : ∀ i ∈ n.stack, n'.levelIn i = n.levelIn i) : n.stack.Pairwise fun a b => n'.levelIn b < n'.levelIn a := by
  refine List.Pairwise.imp_of_mem ?_ hp
  intro a b ha hb hab
  rw [h a ha, h b hb]; exact hab

theorem map_subject {l : List Notice} {g : Notice → Notice} (hg : ∀ x, (g x).subject = x.subject) {y : Subject} :
    (∃ x ∈ l, x.subject = y) ↔ ∃ x ∈ l.map g, x.subject = y := by
  constructor
  · rintro ⟨x, hx, e⟩
    exact ⟨g x, List.mem_map.mpr ⟨x, hx, rfl⟩, by rw [hg, e]⟩
  · rintro ⟨z, hz, e⟩
    obtain ⟨x, hx, rfl⟩ := List.mem_map.mp hz
    exact ⟨x, hx, by rw [← hg, e]⟩

/-! ## operations -/

theorem NoticeUnit.Sound.setScan {n : NoticeUnit} (h : n.Sound) (b : Bool) : ({ n with scanDue := b }
    : NoticeUnit).Sound := h

/-- A subject that holds no notice takes another announce state than QUEUED. -/
theorem NoticeUnit.Sound.setAnnounce {n : NoticeUnit} (h : n.Sound) {x : Subject} {a : Announce} (hx : ∀ y ∈ n.queue,
    y.subject ≠ x) (ha : a ≠ .queued) :
    (n.setAnnounce x a).Sound := by
  obtain ⟨h1, h2, h3, h4, h5, h6, h7⟩ := h
  refine ⟨by simpa using h1, by simpa using h2, ?_, by simpa using h4, by simpa using h5, ?_, by simpa using h7⟩
  · intro y
    rw [NoticeUnit.announceOf_setAnnounce, NoticeUnit.setAnnounce_queue]
    split
    · rename_i e; subst e
      constructor
      · intro e; exact absurd e ha
      · rintro ⟨z, hz, e⟩; exact absurd e (hx z hz)
    · exact h3 y
  · simpa [NoticeUnit.levelIn, NoticeUnit.inSlot] using h6

/-- Changes of a notice in place. -/
theorem NoticeUnit.Sound.updSlot {n : NoticeUnit} (h : n.Sound) (slot : Fin 16) (f : Notice → Notice)
    (hs : ∀ x ∈ n.queue, x.slot = slot → (f x).slot = x.slot ∧ (f x).subject = x.subject ∧ ((f x).service =
        .pending ↔ x.service = .pending) ∧ (x.service ≠ .pending → (f x).level = x.level)) :
    (n.updSlot slot f).Sound := by
  obtain ⟨h1, h2, h3, h4, h5, h6, h7⟩ := h
  have hg : ∀ x ∈ n.queue, (if x.slot = slot then f x else x).slot = x.slot ∧ (if x.slot =
      slot then f x else x).subject = x.subject ∧ ((if x.slot = slot then f x else x).service = .pending ↔ x.service =
      .pending) ∧ (x.service ≠ .pending → (if x.slot = slot then f x else x).level = x.level) := by
    intro x hx
    split
    · exact hs x hx ‹_›
    · simp
  have p1 : (n.updSlot slot f).queue.Pairwise fun a b => a.slot < b.slot := by
    simp only [NoticeUnit.updSlot, List.pairwise_map]
    refine List.Pairwise.imp_of_mem ?_ h1
    intro a b ha hb hab
    rw [(hg a ha).1, (hg b hb).1]; exact hab
  refine ⟨p1, ?_, ?_, ?_, ?_, ?_, h7⟩
  · simp only [NoticeUnit.updSlot, List.pairwise_map]
    refine List.Pairwise.imp_of_mem ?_ h2
    intro a b ha hb hab
    rw [(hg a ha).2.1, (hg b hb).2.1]; exact hab
  · intro y
    have : (n.updSlot slot f).announceOf y = n.announceOf y := by cases y <;> rfl
    rw [this, h3 y]
    simp only [NoticeUnit.updSlot, List.mem_map]
    constructor
    · rintro ⟨x, hx, e⟩; exact ⟨_, ⟨x, hx, rfl⟩, by rw [(hg x hx).2.1, e]⟩
    · rintro ⟨_, ⟨x, hx, rfl⟩, e⟩; exact ⟨x, hx, by rw [← (hg x hx).2.1, e]⟩
  · intro y hy
    simp only [NoticeUnit.updSlot, List.mem_map] at hy
    obtain ⟨x, hx, rfl⟩ := hy
    rw [(hg x hx).1, show (n.updSlot slot f).stack = n.stack from rfl, h4 x hx]
    exact not_congr (hg x hx).2.2.1.symm
  · intro i hi
    obtain ⟨x, hx, e⟩ := h5 i hi
    exact ⟨_, List.mem_map.mpr ⟨x, hx, rfl⟩, by rw [(hg x hx).1, e]⟩
  · refine levels_kept (n := n) h6 (levelIn_kept h1 p1 h5 ?_)
    intro x hx hst
    refine ⟨_, List.mem_map.mpr ⟨x, hx, rfl⟩, (hg x hx).1, (hg x hx).2.2.2 ((h4 x hx).mp hst)⟩

/-- A PENDING notice is removed and its subject takes a state other than QUEUED. -/
theorem NoticeUnit.Sound.removed {n : NoticeUnit} (h : n.Sound) {x : Notice} (hx : x ∈ n.queue) (hp : x.service =
    .pending) {a : Announce} (ha : a ≠ .queued) :
    ((n.removeSlot x.slot).setAnnounce x.subject a).Sound := by
  obtain ⟨h1, h2, h3, h4, h5, h6, h7⟩ := h
  have hq : ∀ y, y ∈ (n.removeSlot x.slot).queue ↔ y ∈ n.queue ∧ y ≠ x := by
    intro y
    simp only [NoticeUnit.removeSlot, List.mem_filter, bne_iff_ne]
    constructor
    · rintro ⟨a, b⟩; exact ⟨a, fun e => b (by rw [e])⟩
    · rintro ⟨a, b⟩; exact ⟨a, fun e => b (eq_of_slot h1 a hx e)⟩
  have p1 : (n.removeSlot x.slot).queue.Pairwise fun a b => a.slot < b.slot := h1.filter _
  have hns : x.slot ∉ n.stack := by rw [h4 x hx, hp]; simp
  refine ⟨by rw [NoticeUnit.setAnnounce_queue]; exact p1, by rw [NoticeUnit.setAnnounce_queue]; exact h2.filter _, ?_,
      ?_, ?_, ?_,
    by rw [NoticeUnit.setAnnounce_stack]; exact h7⟩
  · intro y
    rw [NoticeUnit.announceOf_setAnnounce, NoticeUnit.setAnnounce_queue]
    split
    · rename_i e; subst e
      constructor
      · intro e; exact absurd e ha
      · rintro ⟨z, hz, e⟩
        rw [hq] at hz
        exact absurd (eq_of_subject h2 hz.1 hx e) hz.2
    · rename_i e
      have : (n.removeSlot x.slot).announceOf y = n.announceOf y := by cases y <;> rfl
      rw [this, h3]
      constructor
      · rintro ⟨z, hz, e'⟩; exact ⟨z, (hq z).mpr ⟨hz, fun k => e (by rw [← e', k])⟩, e'⟩
      · rintro ⟨z, hz, e'⟩; exact ⟨z, ((hq z).mp hz).1, e'⟩
  · intro y hy
    rw [NoticeUnit.setAnnounce_queue, hq] at hy
    rw [NoticeUnit.setAnnounce_stack]
    exact h4 y hy.1
  · intro i hi
    rw [NoticeUnit.setAnnounce_stack] at hi
    obtain ⟨y, hy, e⟩ := h5 i hi
    refine ⟨y, ?_, e⟩
    rw [NoticeUnit.setAnnounce_queue, hq]
    exact ⟨hy, fun k => hns (by rw [← k, e]; exact hi)⟩
  · rw [NoticeUnit.setAnnounce_stack]
    refine levels_kept (n := n) h6 (levelIn_kept h1 (by simpa using p1) h5 ?_)
    intro y hy hst
    refine ⟨y, ?_, rfl, rfl⟩
    rw [NoticeUnit.setAnnounce_queue, hq]
    exact ⟨hy, fun k => hns (by rw [← k]; exact hst)⟩

/-- A new notice in a free slot for a subject that holds none keeps the unit in order. -/
theorem NoticeUnit.Sound.occupy {n : NoticeUnit} (h : n.Sound) {slot : Fin 16} {x : Subject} (k : NoticeKind) (l
    : Nat)
    (hs : ∀ y ∈ n.queue, y.slot ≠ slot) (hx : ∀ y ∈ n.queue, y.subject ≠ x) : (n.occupy slot x k l).Sound := by
  obtain ⟨h1, h2, h3, h4, h5, h6, h7⟩ := h
  have hns : slot ∉ n.stack := fun hi => by
    obtain ⟨y, hy, e⟩ := h5 _ hi
    exact hs y hy e
  have p1 : (n.occupy slot x k l).queue.Pairwise fun a b => a.slot < b.slot := by
    simpa [NoticeUnit.occupy] using pairwise_insertNotice h1 hs
  refine ⟨p1, by simpa [NoticeUnit.occupy] using subjects_insertNotice h2 hx, ?_, ?_, ?_, ?_,
      by simpa [NoticeUnit.occupy] using h7⟩
  · intro y
    simp only [NoticeUnit.occupy, NoticeUnit.announceOf_setAnnounce, NoticeUnit.setAnnounce_queue, mem_insertNotice]
    split
    · rename_i e; subst e; simp
    · rename_i e
      have := h3 y
      constructor
      · intro a
        obtain ⟨z, hz, e'⟩ := this.mp a
        exact ⟨z, Or.inr hz, e'⟩
      · rintro ⟨z, hz | hz, e'⟩
        · rw [hz] at e'; exact absurd e'.symm e
        · exact this.mpr ⟨z, hz, e'⟩
  · intro y hy
    simp only [NoticeUnit.occupy, NoticeUnit.setAnnounce_queue, mem_insertNotice] at hy
    have : (n.occupy slot x k l).stack = n.stack := by simp [NoticeUnit.occupy]
    rw [this]
    rcases hy with e | hy
    · rw [e]; simp [hns]
    · exact h4 y hy
  · intro i hi
    have : (n.occupy slot x k l).stack = n.stack := by simp [NoticeUnit.occupy]
    rw [this] at hi
    obtain ⟨y, hy, e⟩ := h5 i hi
    refine ⟨y, ?_, e⟩
    simp only [NoticeUnit.occupy, NoticeUnit.setAnnounce_queue, mem_insertNotice]
    exact Or.inr hy
  · have : (n.occupy slot x k l).stack = n.stack := by simp [NoticeUnit.occupy]
    rw [this]
    refine levels_kept (n := n) h6 (levelIn_kept h1 p1 h5 ?_)
    intro y hy hst
    refine ⟨y, ?_, rfl, rfl⟩
    simp only [NoticeUnit.occupy, NoticeUnit.setAnnounce_queue, mem_insertNotice]
    exact Or.inr hy

/-- The free slot holds no notice. -/
theorem NoticeUnit.freeSlot_free {n : NoticeUnit} {i : Fin 16} (h : n.freeSlot = some i) : ∀ y ∈ n.queue, y.slot ≠ i
    := by
  have := List.find?_some h
  exact n.inSlot_none (by simpa using this)

theorem NoticeKind.owed_ne (k : NoticeKind) : k.owed ≠ .queued := by cases k <;> simp [NoticeKind.owed]

/-! ## The best of a list -/

/-- The step of a fold that keeps the better of two, as `victim` and `candidate` are written. -/
def keepBetter {α : Type} (better : α → α → Bool) (best : Option α) (x : α) : Option α :=
  match best with
  | none => some x
  | some b => if better x b then some x else some b

theorem foldl_keepBetter_some {α : Type} (better : α → α → Bool) (l : List α) (b : α) :
    ∃ v, l.foldl (keepBetter better) (some b) = some v ∧ (v = b ∨ v ∈ l) := by
  induction l generalizing b with
  | nil => exact ⟨b, rfl, Or.inl rfl⟩
  | cons x xs ih =>
    by_cases h : better x b = true
    · obtain ⟨v, hv, hm⟩ := ih x
      refine ⟨v, by simpa [keepBetter, h] using hv, Or.inr ?_⟩
      exact hm.elim (fun e => e ▸ List.mem_cons_self) (List.mem_cons_of_mem _)
    · obtain ⟨v, hv, hm⟩ := ih b
      exact ⟨v, by simpa [keepBetter, h] using hv, hm.imp_right (List.mem_cons_of_mem _)⟩

/-- What is kept is of the list. -/
theorem mem_of_keepBetter {α : Type} {better : α → α → Bool} {l : List α} {v : α}
    (h : l.foldl (keepBetter better) none = some v) : v ∈ l := by
  cases l with
  | nil => cases h
  | cons x xs =>
    obtain ⟨w, hw, hm⟩ := foldl_keepBetter_some better xs x
    have e : some v = some w := h.symm.trans hw
    cases e
    exact hm.elim (fun e => e ▸ List.mem_cons_self) (List.mem_cons_of_mem _)

/-- Nothing is kept of the empty list only. -/
theorem keepBetter_eq_none {α : Type} {better : α → α → Bool} {l : List α} :
    l.foldl (keepBetter better) none = none ↔ l = [] := by
  cases l with
  | nil => simp
  | cons x xs =>
    obtain ⟨w, hw, -⟩ := foldl_keepBetter_some better xs x
    have e : (x :: xs).foldl (keepBetter better) none = some w := hw
    simp [e]

/-- One that is better than every other, and not bettered by one, is kept. -/
theorem keepBetter_of_best {α : Type} {better : α → α → Bool} {l : List α} {v : α} (hv : v ∈ l)
    (h : ∀ y ∈ l, y ≠ v → better v y = true ∧ better y v = false) : l.foldl (keepBetter better) none = some v := by
  have stay : ∀ xs : List α, (∀ y ∈ xs, y ≠ v → better y v = false) →
      xs.foldl (keepBetter better) (some v) = some v := by
    intro xs
    induction xs with
    | nil => intro _; rfl
    | cons x xs ih =>
      intro hx
      have e : keepBetter better (some v) x = some v := by
        by_cases c : x = v
        · subst c
          simp [keepBetter]
        · simp [keepBetter, hx x List.mem_cons_self c]
      rw [List.foldl_cons, e]
      exact ih fun y hy => hx y (List.mem_cons_of_mem _ hy)
  have go : ∀ (xs : List α) (b : Option α), v ∈ xs → (∀ y ∈ xs, y ≠ v → better v y = true ∧ better y v = false) →
      (∀ y, b = some y → y ≠ v → better v y = true) → xs.foldl (keepBetter better) b = some v := by
    intro xs
    induction xs with
    | nil => intro b hm _ _; cases hm
    | cons x xs ih =>
      intro b hm hx hb
      by_cases c : x = v
      · subst c
        have e : keepBetter better b x = some x := by
          cases b with
          | none => rfl
          | some y =>
            by_cases c : y = x
            · subst c
              simp [keepBetter]
            · simp [keepBetter, hb y rfl c]
        rw [List.foldl_cons, e]
        exact stay xs fun y hy hn => (hx y (List.mem_cons_of_mem _ hy) hn).2
      · have hm' : v ∈ xs := (List.mem_cons.mp hm).resolve_left fun e => c e.symm
        rw [List.foldl_cons]
        refine ih _ hm' (fun y hy => hx y (List.mem_cons_of_mem _ hy)) fun y hy hn => ?_
        cases b with
        | none =>
          cases hy
          exact (hx x List.mem_cons_self c).1
        | some z =>
          by_cases d : better x z = true
          · have e : some x = some y := by simpa [keepBetter, d] using hy
            cases e
            exact (hx x List.mem_cons_self c).1
          · have e : some z = some y := by simpa [keepBetter, d] using hy
            cases e
            exact hb _ rfl hn
  exact go l none hv h fun y hy => nomatch hy

theorem NoticeUnit.victim_eq (n : NoticeUnit) (level : Nat) :
    n.victim level =
      (n.queue.filter fun x => x.service == .pending && decide (x.level < level)).foldl
        (keepBetter n.displacedBefore) none := by
  unfold NoticeUnit.victim
  congr
  funext best x
  cases best <;> rfl

theorem NoticeUnit.candidate_eq (n : NoticeUnit) :
    n.candidate = (n.queue.filter n.takeable).foldl (keepBetter n.preferred) none := by
  unfold NoticeUnit.candidate
  congr
  funext best x
  cases best <;> rfl

/-- A displaced notice is PENDING and of a lower level. -/
theorem NoticeUnit.victim_mem {n : NoticeUnit} {l : Nat} {v : Notice} (h : n.victim l = some v) :
    v ∈ n.queue ∧ v.service = .pending ∧ v.level < l := by
  have := mem_of_keepBetter (n.victim_eq l ▸ h)
  simpa using this

/-- Nothing is displaced exactly when no PENDING notice is of a lower level. -/
theorem NoticeUnit.victim_eq_none {n : NoticeUnit} {l : Nat} :
    n.victim l = none ↔ ∀ y ∈ n.queue, y.service = .pending → ¬ y.level < l := by
  rw [n.victim_eq, keepBetter_eq_none]
  simp

/-- A notice to take is takeable. -/
theorem NoticeUnit.candidate_takeable {n : NoticeUnit} {x : Notice} (h : n.candidate = some x) :
    x ∈ n.queue ∧ n.takeable x = true := by
  have := mem_of_keepBetter (n.candidate_eq ▸ h)
  simpa using this

/-- Nothing is to be taken exactly when no notice is takeable. -/
theorem NoticeUnit.candidate_eq_none {n : NoticeUnit} :
    n.candidate = none ↔ ∀ y ∈ n.queue, n.takeable y = false := by
  rw [n.candidate_eq, keepBetter_eq_none]
  simp

/-! ## Placing and the claims -/

/-- A placing for a subject that holds no notice keeps the unit in order (R157, R158). -/
theorem NoticeUnit.Sound.place {n : NoticeUnit} (h : n.Sound) {x : Subject} (k : NoticeKind) (l : Nat) (hx
    : ∀ y ∈ n.queue, y.subject ≠ x) : (n.place x k l).Sound := by
  unfold NoticeUnit.place
  split
  · rename_i slot hf
    exact h.occupy k l (n.freeSlot_free hf) hx
  · split
    · rename_i v hv
      obtain ⟨m1, m2, m3⟩ := n.victim_mem hv
      have hr := h.removed m1 m2 v.kind.owed_ne
      refine hr.occupy k l ?_ ?_
      · intro y hy
        simp only [NoticeUnit.setAnnounce_queue, NoticeUnit.removeSlot, List.mem_filter, bne_iff_ne] at hy
        exact hy.2
      · intro y hy
        simp only [NoticeUnit.setAnnounce_queue, NoticeUnit.removeSlot, List.mem_filter, bne_iff_ne] at hy
        exact hx y hy.1
    · exact h.setAnnounce hx k.owed_ne

/-- A raise-or-update claim keeps the unit in order (R157, R160). -/
theorem State.raise_sound (s : State) (x : Subject) (k : NoticeKind) (h : s.NoticesSound) : (s.raise x k).NoticesSound
    := by
  unfold State.raise
  dsimp only
  split
  · rename_i y hy
    obtain ⟨m1, m2⟩ := NoticeUnit.held_some hy
    split
    · rename_i hs
      refine NoticeUnit.Sound.updSlot h _ _ ?_
      intro z hz e
      have : z = y := eq_of_slot h.1 hz m1 e
      subst this
      simp [hs]
    · rename_i hs
      refine NoticeUnit.Sound.updSlot h _ _ ?_
      intro z hz e
      have : z = y := eq_of_slot h.1 hz m1 e
      subst this
      simp [hs]
  · rename_i hn
    exact NoticeUnit.Sound.place h _ _ (NoticeUnit.held_none hn)

theorem NoticeUnit.Sound.withdrawPending {n : NoticeUnit} (h : n.Sound) {x : Notice} (hx : x ∈ n.queue) (hp
    : x.service = .pending) {a : Announce} (ha : a ≠ .queued) : (n.withdrawPending x a).Sound :=
  NoticeUnit.Sound.setScan (h.removed hx hp ha) true

/-- A resolve claim keeps the unit in order (R159, R160). -/
theorem State.resolve_sound (s : State) (x : Subject) (h : s.NoticesSound) : (s.resolve x).NoticesSound := by
  unfold State.resolve
  split
  · rename_i y hy
    obtain ⟨m1, m2⟩ := NoticeUnit.held_some hy
    split
    · rename_i hs
      split
      · exact h
      · exact NoticeUnit.Sound.withdrawPending h m1 hs (by simp)
    · rename_i hs
      refine NoticeUnit.Sound.updSlot h _ _ ?_
      intro z hz e
      have : z = y := eq_of_slot h.1 hz m1 e
      subst this
      simp [hs]
  · rename_i hn
    have hh := NoticeUnit.held_none hn
    split
    · exact NoticeUnit.Sound.place (NoticeUnit.Sound.setAnnounce h hh (by simp)) _ _ (by simpa using hh)
    · exact NoticeUnit.Sound.setAnnounce h hh (by simp)
    all_goals exact h

/-- A departure claim keeps the unit in order (R161). -/
theorem State.departCircuit_sound (s : State) (p : Fin 4) (c : Fin 12) (h : s.NoticesSound) :
    (s.departCircuit p c).NoticesSound := by
  unfold State.departCircuit
  split
  · rename_i y hy
    obtain ⟨m1, m2⟩ := NoticeUnit.held_some hy
    split
    · exact NoticeUnit.Sound.withdrawPending h m1 ‹_› (NoticeKind.owed_ne _)
    · exact h
  · exact h

/-- A withdrawal claim keeps the unit in order (R162). -/
theorem State.withdrawCircuit_sound (s : State) (p : Fin 4) (c : Fin 12) (h : s.NoticesSound) :
    (s.withdrawCircuit p c).NoticesSound := by
  unfold State.withdrawCircuit
  split
  · rename_i y hy
    obtain ⟨m1, m2⟩ := NoticeUnit.held_some hy
    split
    · exact NoticeUnit.Sound.withdrawPending h m1 ‹_› (by simp)
    · rename_i hs
      refine NoticeUnit.Sound.updSlot h _ _ ?_
      intro z hz e
      have : z = y := eq_of_slot h.1 hz m1 e
      subst this
      simp [hs]
  · rename_i hn
    exact NoticeUnit.Sound.setAnnounce h (NoticeUnit.held_none hn) (by simp)

/-- The scan at a subject keeps the unit in order (R163). -/
theorem State.scanSubject_sound (s : State) (x : Subject) (h : s.NoticesSound) : (s.scanSubject x).NoticesSound := by
  unfold State.scanSubject
  split
  · split
    · rename_i slot k hf ho
      refine NoticeUnit.Sound.occupy h _ _ (NoticeUnit.freeSlot_free hf) ?_
      intro y hy e
      have := (h.2.2.1 x).mpr ⟨y, hy, e⟩
      rw [this] at ho
      simp [Announce.owedKind] at ho
    · exact h
    · exact h
  · exact h

/-- Levels worked out again keep the unit in order (R154). -/
theorem State.relevel_sound (s : State) (w : Notice → Bool) (h : s.NoticesSound) : (s.relevel w).NoticesSound := by
  obtain ⟨h1, h2, h3, h4, h5, h6, h7⟩ := h
  let g : Notice → Notice := fun x =>
    if x.service == .pending && w x then { x with level := s.level x.subject x.kind } else x
  have hg : ∀ x, (g x).slot = x.slot ∧ (g x).subject = x.subject ∧ (g x).service = x.service ∧ (x.service ≠ .pending →
      (g x).level = x.level) := by
    intro x
    simp only [g]
    split
    · rename_i hc
      refine ⟨rfl, rfl, rfl, fun hn => ?_⟩
      simp at hc
      exact absurd hc.1 hn
    · simp
  have p1 : (s.notices.queue.map g).Pairwise fun a b => a.slot < b.slot := by
    simp only [List.pairwise_map, (hg _).1]; exact h1
  refine ⟨p1, ?_, ?_, ?_, ?_, ?_, h7⟩
  · show (s.notices.queue.map g).Pairwise _
    simp only [List.pairwise_map, (hg _).2.1]; exact h2
  · intro y
    have : (s.relevel w).notices.announceOf y = s.notices.announceOf y := by cases y <;> rfl
    rw [this, h3 y]
    exact map_subject (fun x => (hg x).2.1)
  · intro y hy
    obtain ⟨x, hx, rfl⟩ := List.mem_map.mp (show y ∈ s.notices.queue.map g from hy)
    rw [(hg x).1, (hg x).2.2.1]; exact h4 x hx
  · intro i hi
    obtain ⟨x, hx, e⟩ := h5 i hi
    exact ⟨g x, List.mem_map.mpr ⟨x, hx, rfl⟩, by rw [(hg x).1, e]⟩
  · refine levels_kept (n := s.notices) h6 (levelIn_kept h1 p1 h5 ?_)
    intro x hx hst
    exact ⟨g x, List.mem_map.mpr ⟨x, hx, rfl⟩, (hg x).1, (hg x).2.2.2 ((h4 x hx).mp hst)⟩

theorem NoticeUnit.topLevel_eq (n : NoticeUnit) : n.topLevel = match n.stack with | [] => 0 | t :: _ => n.levelIn t :=
    by
  unfold NoticeUnit.topLevel NoticeUnit.levelIn
  rcases n.stack with _ | ⟨t, r⟩ <;> rfl

/-- TAKE keeps the unit in order (R167). -/
theorem NoticeUnit.Sound.taken {n : NoticeUnit} (h : n.Sound) : n.taken.Sound := by
  unfold NoticeUnit.taken
  split
  · exact h
  · rename_i hlen
    split
    · rename_i x hc
      obtain ⟨m1, m2⟩ := NoticeUnit.candidate_takeable hc
      simp only [NoticeUnit.takeable, Bool.and_eq_true, beq_iff_eq, decide_eq_true_eq] at m2
      obtain ⟨⟨hp, hth⟩, _⟩ := m2
      obtain ⟨h1, h2, h3, h4, h5, h6, h7⟩ := h
      let m : NoticeUnit :=
        { n.updSlot x.slot fun y => { y with service := .inService .none } with stack := x.slot :: n.stack }
      let g : Notice → Notice := fun y => if y.slot = x.slot then { y with service := .inService .none } else y
      have hg : ∀ y, (g y).slot = y.slot ∧ (g y).subject = y.subject ∧ (g y).level = y.level := by
        intro y; simp only [g]; split <;> simp
      have p1 : (n.queue.map g).Pairwise fun a b => a.slot < b.slot := by
        simp only [List.pairwise_map, (hg _).1]; exact h1
      have hns : x.slot ∉ n.stack := by rw [h4 x m1, hp]; simp
      have hlev : ∀ i, m.levelIn i = n.levelIn i := by
        intro i
        cases hf : n.inSlot i with
        | none =>
          have h' : m.inSlot i = none := by
            apply List.find?_eq_none.mpr
            intro y hy
            obtain ⟨z, hz, rfl⟩ := List.mem_map.mp (show y ∈ n.queue.map g from hy)
            have := n.inSlot_none hf z hz
            simp [(hg z).1, this]
          simp [NoticeUnit.levelIn, hf, h']
        | some y =>
          obtain ⟨a, b⟩ := n.inSlot_some hf
          subst b
          rw [n.levelIn_of_mem h1 a, ← (hg y).1, ← (hg y).2.2]
          exact NoticeUnit.levelIn_of_mem (n := m) p1 (List.mem_map.mpr ⟨y, a, rfl⟩)
      refine ⟨p1, ?_, ?_, ?_, ?_, ?_, ?_⟩
      · show (n.queue.map g).Pairwise _
        simp only [List.pairwise_map, (hg _).2.1]; exact h2
      · intro y
        have : m.announceOf y = n.announceOf y := by cases y <;> rfl
        rw [this, h3 y]
        exact map_subject (fun x => (hg x).2.1)
      · intro y hy
        obtain ⟨z, hz, rfl⟩ := List.mem_map.mp (show y ∈ n.queue.map g from hy)
        rw [(hg z).1]
        simp only [List.mem_cons, g]
        by_cases e : z.slot = x.slot
        · simp [e]
        · simp [e, h4 z hz]
      · intro i hi
        rcases List.mem_cons.mp hi with e | e
        · exact ⟨g x, List.mem_map.mpr ⟨x, m1, rfl⟩, by rw [(hg x).1, e]⟩
        · obtain ⟨y, hy, e'⟩ := h5 i e
          exact ⟨g y, List.mem_map.mpr ⟨y, hy, rfl⟩, by rw [(hg y).1, e']⟩
      · have hk : n.stack.Pairwise fun a b => m.levelIn b < m.levelIn a := by
          refine List.Pairwise.imp_of_mem (fun _ _ k => ?_) h6
          rw [hlev, hlev]
          exact k
        refine List.pairwise_cons.mpr ⟨?_, hk⟩
        intro i hi
        change m.levelIn i < m.levelIn x.slot
        rw [hlev, hlev]
        rw [n.levelIn_of_mem h1 m1]
        have ht : n.topLevel < x.level := by
          have : n.topLevel ≤ n.threshold := by unfold NoticeUnit.threshold; omega
          omega
        rw [NoticeUnit.topLevel_eq] at ht
        rcases hst : n.stack with _ | ⟨t, r⟩
        · rw [hst] at hi; simp at hi
        · rw [hst] at hi h6 ht
          simp only at ht
          rcases List.mem_cons.mp hi with e | e
          · rw [e]; exact ht
          · exact Nat.lt_trans ((List.pairwise_cons.mp h6).1 i e) ht
      · simp only [List.length_cons]; omega
    · exact h

/-- The top notice leaving its slot keeps the unit in order (R168). -/
theorem NoticeUnit.Sound.finish {n : NoticeUnit} (h : n.Sound) {top : Fin 16} {rest : List (Fin 16)} {x : Notice} (hst
    : n.stack = top :: rest) (hx : n.inSlot top = some x) {a : Announce} (ha : a ≠ .queued) : (n.finish x a).Sound :=
    by
  obtain ⟨m1, m2⟩ := n.inSlot_some hx
  obtain ⟨h1, h2, h3, h4, h5, h6, h7⟩ := h
  have hnd : top ∉ rest := by
    intro hi
    rw [hst] at h6
    exact absurd ((List.pairwise_cons.mp h6).1 top hi) (Nat.lt_irrefl _)
  have hq : ∀ y, y ∈ (n.removeSlot x.slot).queue ↔ y ∈ n.queue ∧ y ≠ x := by
    intro y
    simp only [NoticeUnit.removeSlot, List.mem_filter, bne_iff_ne]
    constructor
    · rintro ⟨a, b⟩; exact ⟨a, fun e => b (by rw [e])⟩
    · rintro ⟨a, b⟩; exact ⟨a, fun e => b (eq_of_slot h1 a m1 e)⟩
  have hQ : (n.finish x a).queue = (n.removeSlot x.slot).queue := by simp [NoticeUnit.finish]
  have hS : (n.finish x a).stack = rest := by simp [NoticeUnit.finish, hst]
  have p1 : (n.finish x a).queue.Pairwise fun a b => a.slot < b.slot := by rw [hQ]; exact h1.filter _
  refine ⟨p1, by rw [hQ]; exact h2.filter _, ?_, ?_, ?_, ?_, ?_⟩
  · intro y
    have : (n.finish x a).announceOf y = ((n.removeSlot x.slot).setAnnounce x.subject a).announceOf y :=
        by cases y <;> rfl
    rw [this, hQ, NoticeUnit.announceOf_setAnnounce]
    split
    · rename_i e; subst e
      constructor
      · intro e; exact absurd e ha
      · rintro ⟨z, hz, e⟩
        rw [hq] at hz
        exact absurd (eq_of_subject h2 hz.1 m1 e) hz.2
    · rename_i e
      have : (n.removeSlot x.slot).announceOf y = n.announceOf y := by cases y <;> rfl
      rw [this, h3]
      constructor
      · rintro ⟨z, hz, e'⟩; exact ⟨z, (hq z).mpr ⟨hz, fun k => e (by rw [← e', k])⟩, e'⟩
      · rintro ⟨z, hz, e'⟩; exact ⟨z, ((hq z).mp hz).1, e'⟩
  · intro y hy
    rw [hQ, hq] at hy
    rw [hS]
    have := h4 y hy.1
    rw [hst, List.mem_cons] at this
    have hne : y.slot ≠ top := fun e => hy.2 (eq_of_slot h1 hy.1 m1 (by rw [e, m2]))
    rw [← this]; simp [hne]
  · intro i hi
    rw [hS] at hi
    obtain ⟨y, hy, e⟩ := h5 i (by rw [hst]; exact List.mem_cons_of_mem _ hi)
    refine ⟨y, ?_, e⟩
    rw [hQ, hq]
    exact ⟨hy, fun k => hnd (by rw [← m2, ← k, e]; exact hi)⟩
  · rw [hS]
    have h6' : rest.Pairwise fun a b => n.levelIn b < n.levelIn a := by rw [hst] at h6; exact
        (List.pairwise_cons.mp h6).2
    refine List.Pairwise.imp_of_mem ?_ h6'
    have hl : ∀ i ∈ rest, (n.finish x a).levelIn i = n.levelIn i := by
      intro i hi
      obtain ⟨y, hy, e⟩ := h5 i (by rw [hst]; exact List.mem_cons_of_mem _ hi)
      subst e
      rw [n.levelIn_of_mem h1 hy]
      refine NoticeUnit.levelIn_of_mem p1 ?_
      rw [hQ, hq]
      exact ⟨hy, fun k => hnd (by rw [← m2, ← k]; exact hi)⟩
    intro a b ha hb hab
    rw [hl a ha, hl b hb]; exact hab
  · rw [hS]; rw [hst] at h7; simp only [List.length_cons] at h7; omega

/-- The top notice becoming PENDING again keeps the unit in order (R168). -/
theorem NoticeUnit.Sound.repost {n : NoticeUnit} (h : n.Sound) {top : Fin 16} {rest : List (Fin 16)} {x : Notice} (hst
    : n.stack = top :: rest) (hx : n.inSlot top = some x) (k : NoticeKind) (l : Nat) : (n.repost x k l).Sound := by
  obtain ⟨m1, m2⟩ := n.inSlot_some hx
  obtain ⟨h1, h2, h3, h4, h5, h6, h7⟩ := h
  have hnd : top ∉ rest := by
    intro hi
    rw [hst] at h6
    exact absurd ((List.pairwise_cons.mp h6).1 top hi) (Nat.lt_irrefl _)
  let g : Notice → Notice := fun y =>
    if y.slot = x.slot then { y with kind := k, level := l, service := .pending, arrival := n.counter } else y
  have hQ : (n.repost x k l).queue = n.queue.map g := rfl
  have hS : (n.repost x k l).stack = rest := by simp [NoticeUnit.repost, hst]
  have hg : ∀ y, (g y).slot = y.slot ∧ (g y).subject = y.subject := by
    intro y; simp only [g]; split <;> simp
  have p1 : (n.repost x k l).queue.Pairwise fun a b => a.slot < b.slot := by
    rw [hQ]; simp only [List.pairwise_map, (hg _).1]; exact h1
  refine ⟨p1, ?_, ?_, ?_, ?_, ?_, ?_⟩
  · rw [hQ]; simp only [List.pairwise_map, (hg _).2]; exact h2
  · intro y
    have : (n.repost x k l).announceOf y = n.announceOf y := by cases y <;> rfl
    rw [this, hQ, h3 y]
    exact map_subject (fun x => (hg x).2)
  · intro y hy
    rw [hQ] at hy
    obtain ⟨z, hz, rfl⟩ := List.mem_map.mp hy
    rw [(hg z).1, hS]
    have h4z := h4 z hz
    rw [hst, List.mem_cons] at h4z
    simp only [g]
    by_cases e : z.slot = x.slot
    · simp only [e, if_true, ne_eq, not_true_eq_false, iff_false]
      rw [m2]; exact hnd
    · have e' : z.slot ≠ top := by rw [← m2]; exact e
      simp only [e, if_false]
      rw [← h4z]; simp [e']
  · intro i hi
    rw [hS] at hi
    obtain ⟨y, hy, e⟩ := h5 i (by rw [hst]; exact List.mem_cons_of_mem _ hi)
    exact ⟨g y, by rw [hQ]; exact List.mem_map.mpr ⟨y, hy, rfl⟩, by rw [(hg y).1, e]⟩
  · rw [hS]
    have h6' : rest.Pairwise fun a b => n.levelIn b < n.levelIn a := by rw [hst] at h6; exact
        (List.pairwise_cons.mp h6).2
    refine List.Pairwise.imp_of_mem ?_ h6'
    have hl : ∀ i ∈ rest, (n.repost x k l).levelIn i = n.levelIn i := by
      intro i hi
      obtain ⟨y, hy, e⟩ := h5 i (by rw [hst]; exact List.mem_cons_of_mem _ hi)
      subst e
      rw [n.levelIn_of_mem h1 hy]
      have hne : y.slot ≠ x.slot := fun e => hnd (by rw [← m2, ← e]; exact hi)
      refine NoticeUnit.levelIn_of_mem p1 ?_
      rw [hQ]
      exact List.mem_map.mpr ⟨y, hy, by simp [g, hne]⟩
    intro a b ha hb hab
    rw [hl a ha, hl b hb]; exact hab
  · rw [hS]; rw [hst] at h7; simp only [List.length_cons] at h7; omega

/-- A unit without notices is in order. -/
theorem NoticeUnit.sound_of_empty (n : NoticeUnit) (h1 : n.queue = []) (h2 : n.stack = []) (h3 : n.announce =
    Announcements.initial) : n.Sound := by
  unfold NoticeUnit.Sound
  rw [h1, h2]
  refine ⟨List.Pairwise.nil, List.Pairwise.nil, ?_, by simp, by simp, List.Pairwise.nil, by simp⟩
  intro x
  constructor
  · intro h
    cases x <;> simp [NoticeUnit.announceOf, h3, Announcements.initial] at h
    rename_i p c
    have : ∀ (t : Twelve Announce), t = Twelve.all .none → ∀ c, t.get c = .none := by
      intro t ht c; subst ht; induction c using forallTwelve <;> rfl
    rw [this _ rfl c] at h
    cases h
  · rintro ⟨x, hx, _⟩; cases hx

end Sys2Proof.Machine
end

