-- ==== Sys2Proof/Laws/Roster.lean ====
section
/-! SUPPORT. What an offer, an evaluation of a position and an evaluation of all four make of the state, each in one
change; and the lowest index at which a condition holds. -/

namespace Sys2Proof.Machine

/-- The lowest index at which a condition holds. -/
theorem find_fourIndices (c : Fin 4 → Bool) (p : Fin 4) :
    fourIndices.find? c = some p ↔ c p = true ∧ ∀ q, q < p → c q = false := by
  have lower : ∀ P : Fin 4 → Prop, (∀ q : Fin 4, q < p → P q) ↔
      ((0 < p → P 0) ∧ (1 < p → P 1) ∧ (2 < p → P 2) ∧ (3 < p → P 3)) := fun P =>
    ⟨fun h => ⟨h 0, h 1, h 2, h 3⟩, fun h => forallFour h.1 h.2.1 h.2.2.1 h.2.2.2⟩
  rw [lower]
  simp only [fourIndices, List.find?_cons, List.find?_nil]
  cases h0 : c 0 <;> cases h1 : c 1 <;> cases h2 : c 2 <;> cases h3 : c 3 <;>
    induction p using forallFour <;> simp only [h0, h1, h2, h3] <;> decide

/-- A channel after a word was offered to its queue (R38). -/
def Channel.offered (c : Channel) (w : LinkWord) : Channel :=
  if c.accepts then { c with queue := c.queue ++ [w] } else c

/-- A position record after its evaluation (R65). -/
def Position.evaluated (r : Position) : Position :=
  { r with
    state := if r.reads then .coupled else .vacant
    enrollTimer := if r.reads then some r.enrollTimeout else none }

variable (s : State)

/-- An offer changes one channel. -/
theorem State.offer_eq (p : Fin 4) (w : LinkWord) :
    s.offer p w =
      { s with link := { s.link with channels := s.link.channels.modify p fun c => c.offered w } } := by
  unfold State.offer State.accepts
  split
  · rename_i h
    simp only [State.updChannel, Channel.offered, Four.modify, if_pos h]
  · rename_i h
    rw [Four.modify_eq_self _ _ _ (by simp [Channel.offered, h])]

/-- A failed transfer adds one to the streak and sets LINK_FAULT as it passes from 3 to 4. -/
theorem State.countFailure_eq (p : Fin 4) :
    s.countFailure p =
      { s with
        link :=
          { s.link with channels := s.link.channels.modify p fun c => { c with streak := min 15 (c.streak + 1) } }
        positions :=
          s.positions.modify p fun r =>
            { r with linkFault := r.linkFault || decide ((s.link.channels.get p).streak = 3) } } := by
  by_cases h : (s.link.channels.get p).streak = 3
  · simp [State.countFailure, State.updChannel, State.updPosition, h]
  · simp only [State.countFailure, State.updChannel, h, if_false, decide_false, Bool.or_false]
    congr 1
    exact (Four.modify_eq_self _ _ _ rfl).symm

/-- The flush of a departure: the channel keeps its word in flight alone, a transfer on it is discarded, and the assembly
record cleared under a receive from ENROLLED is kept for the instant. -/
theorem State.cutReceive_flushChannel (p : Fin 4) :
    (s.cutReceive p).flushChannel p =
      { s with
        link :=
          { s.link with
            discarded := s.link.discarded || s.link.engine.activeOn p
            cut :=
              if s.link.engine = .rxActive p then
                (if (s.positions.get p).state = .enrolled then some (s.assembly.get p) else none)
              else s.link.cut
            channels :=
              s.link.channels.modify p fun c =>
                { c with
                  queue := if s.link.engine.inFlight p then c.queue.take 1 else []
                  attempts := if s.link.engine.inFlight p then c.attempts else 0 } } } := by
  unfold State.cutReceive State.flushChannel
  by_cases h : s.link.engine = .rxActive p
  · simp [h, State.updLink, State.updChannel, Engine.inFlight, Engine.activeOn]
  · simp only [h, if_false]
    by_cases hf : s.link.engine.inFlight p = true <;> by_cases ha : s.link.engine.activeOn p = true <;>
      simp [hf, ha, State.updLink, State.updChannel]

/-- A successful transfer clears the streak, and LINK_FAULT where the streak was 4 or more. -/
theorem State.countSuccess_eq (p : Fin 4) :
    s.countSuccess p =
      { s with
        link := { s.link with channels := s.link.channels.modify p fun c => { c with streak := 0 } }
        positions :=
          s.positions.modify p fun r =>
            { r with linkFault := r.linkFault && decide ((s.link.channels.get p).streak < 4) } } := by
  by_cases h : 4 ≤ (s.link.channels.get p).streak
  · have h' : ¬ (s.link.channels.get p).streak < 4 := Nat.not_lt.2 h
    simp [State.countSuccess, State.updChannel, State.updPosition, h, h']
  · have h' : (s.link.channels.get p).streak < 4 := Nat.not_le.1 h
    simp only [State.countSuccess, State.updChannel, h, if_false, h', decide_true, Bool.and_true]
    congr 1
    exact (Four.modify_eq_self _ _ _ rfl).symm

/-- An evaluation changes one position and its channel. -/
theorem State.evaluatePosition_eq (p : Fin 4) :
    s.evaluatePosition p =
      { s with
        positions := s.positions.modify p Position.evaluated
        link :=
          { s.link with
            channels :=
              s.link.channels.modify p fun c => if (s.positions.get p).reads then c.offered .recall else c } } := by
  unfold State.evaluatePosition
  split
  · rename_i h
    simp only [State.askToEnroll, State.offerRecall, State.startEnrollTimer, State.offer_eq, State.updPosition,
      Four.modify, Four.get_set_self, Four.set_set, if_pos h, Position.evaluated]
  · rename_i h
    simp only [State.updPosition, Position.evaluated, Four.modify, h, Bool.false_eq_true, if_false, Four.set_get]

/-- The evaluation of all four positions. -/
theorem State.foldl_evaluatePosition :
    fourIndices.foldl State.evaluatePosition s =
      { s with
        positions := s.positions.map fun _ r => r.evaluated
        link :=
          { s.link with
            channels :=
              s.link.channels.map fun p c => if (s.positions.get p).reads then c.offered .recall else c } } := by
  simp only [fourIndices, List.foldl_cons, List.foldl_nil, State.evaluatePosition_eq]
  congr 1

end Sys2Proof.Machine
end

