-- ==== Sys2Proof/Tests/Slice0.lean ====
section
/-! SUPPORT. Checks on small concrete states: the well-formedness of commands, the words and frames of spec 11, worked
examples of the spec, and for each statement's hypotheses a state that meets them. -/

namespace Sys2Proof.Tests

open Sys2Proof Sys2Proof.Machine

/-! ## Well-formed commands -/

/-- Each check of a command's arguments, with an argument that it refuses. -/
def illFormed : List Instr :=
  [.startBit 0, .linkWakeStartBit 0, .done 16, .setMask 7 0, .setMask 0 2, .readNotice 16,
    .unknownCommand .lighting 0x01, .unknownCommand .display 0x60, .setMode 8 0 0, .setMode 0 3 0, .setMode 0 2 4,
    .setDim 8 1, .setDim 0 0, .setDim 0 17, .setCadence 4 0 0 2 0, .setCadence 0 0 0 1 0, .setCadence 0 0 0 17 0,
    .setCadence 0 0 0 2 8, .restartCadences 16, .setOverride 4 0] ++
  [.setSampling 0 20 1 0, .setSampling 41 20 1 0, .setSampling 1 19 1 0, .setSampling 1 251 1 0,
    .setSampling 1 20 0 0, .setSampling 1 20 8 0, .setSampling 1 20 1 101, .setJudging 0 1 0, .setJudging 16 1 0,
    .setJudging 1 0 0, .setJudging 1 16 0, .setJudging 1 1 32, .setSeverity 8 1, .setSeverity 0 0, .setSeverity 0 8,
    .setLevels 0 1, .setLevels 8 1, .setLevels 1 0, .setLevels 1 8] ++
  [.setCoupling 0 0 1 0, .setCoupling 5 0 1 0, .setCoupling 1 8 1 0, .setCoupling 1 0 0 0, .setCoupling 1 0 17 0,
    .release 5 0, .release 1 12, .forget 0, .forget 5, .readPosition .display 0, .readPosition .lighting 5,
    .readCircuit .display 0 0, .readCircuit .lighting 1 12, .readFeed .display 8]

/-- Commands at the ends of their arguments' ranges, and with bytes that are not read (R181). -/
def wellFormed : List Instr :=
  [.startBit 1, .linkWakeStartBit 8, .done 15, .setMask 6 1, .readNotice 15, .unknownCommand .lighting 0x60,
    .unknownCommand .display 0x01, .setMode 7 2 3, .setMode 0 1 255, .setDim 7 16, .setDim 0 1,
    .setCadence 3 255 255 16 7, .setCadence 0 0 0 2 0, .restartCadences 15, .setOverride 3 255,
    .setSampling 40 250 7 100, .setSampling 1 20 1 0, .setJudging 15 15 31, .setSeverity 7 7, .setLevels 1 7] ++
  [.setCoupling 4 7 16 255, .setCoupling 1 0 1 0, .release 0 255, .release 4 11, .forget 4, .forget 1, .rest, .take,
    .readPosition .lighting 4, .readCircuit .display 4 11, .readFeed .lighting 7]

theorem test_illFormed_refused : illFormed.all (fun i => !i.wf) = true := by decide

theorem test_wellFormed_taken : wellFormed.all (fun i => i.wf) = true := by decide

/-! ## Words and frames of spec 11 -/

/-- SET_CADENCE of CG2 with steps 0, 2 and 9 of 10 on, 100 ms each (spec 11.2): 12h, 02h, 05h, 02h, 0Ah, 01h. -/
theorem test_frame_setCadence :
    decodeFrame .lighting [0x12, 0x02, 0x05, 0x02, 0x0A, 0x01] = .command (.setCadence 0x02 0x05 0x02 0x0A 0x01) ∧
      setCadenceArgs 0x02 0x05 0x02 0x0A 0x01 =
        some (.setCadence 2 { pattern := 0b1000000101, length := 10, width := 1 }) := by
  decide

theorem test_frames :
    decodeFrame .lighting [0x30, 0x02, 0x05, 0x04, 0x1E] = .command (.setCoupling 0x02 0x05 0x04 0x1E) ∧
    decodeFrame .lighting [0x32, 0x02, 0x05, 0xFF] = .command (.release 0x02 0x05) ∧
    decodeFrame .lighting [0x60] = .command (.unknownCommand .lighting 0x60) ∧
    decodeFrame .lighting [0x10, 0x00] = .tooShort ∧ decodeFrame .lighting [] = .tooShort ∧
    decodeFrame .display [0x62, 0x01] = .command (.done 0x01) ∧
    decodeFrame .display [0x10, 0x00, 0x01, 0x00] = .command (.unknownCommand .display 0x10) := by
  decide

/-- A flags byte of 05h: coupled = high, wake disabled, channel enabled; the timeout in quarter seconds. -/
theorem test_setCoupling_fields :
    setCouplingArgs 0x02 0x05 0x04 0x1E = some (.setCoupling 1 true false true 1000000 30) := by
  decide

theorem test_release_all_reads_no_circuit : releaseArgs 0x00 0xFF = some .releaseAll := by decide

/-- The word of spec 11.1: READING of index 2, volt present, NOMINAL, is kind 5 with value 52h; five ones, so that a
parity bit of 0 makes a good word. -/
theorem test_word_reading :
    NodeWord.decode 0x525 = .reading 2 true .nominal false ∧ goodWord 0x525 false true = true ∧
      goodWord 0x525 true true = false ∧ goodWord 0x525 false false = false := by
  decide

/-- One word of every kind (spec 11.1). -/
theorem test_words :
    NodeWord.decode 0x0C1 = .hello 12 ∧ NodeWord.decode 0xA72 = .serial 0xA7 ∧
    NodeWord.decode 0x193 = .circuit { feed := 1, required := true, lowCurrent := true } false ∧
    NodeWord.decode 0x203 = .circuit { feed := 0, required := false, lowCurrent := false } true ∧
    NodeWord.decode 0x3B4 = .report 0xB 3 ∧ NodeWord.decode 0xE55 = .reading 5 false .high true ∧
    NodeWord.decode 0x000 = .unknown ∧ NodeWord.decode 0xFF6 = .unknown := by
  decide

/-- Words for a node (R46): WELCOME(3), SAMPLE(9), REJECT(ORDER), RECALL. -/
theorem test_words_sent :
    (LinkWord.welcome 2).bits = 0x038 ∧ (LinkWord.sample 9).bits = 0x099 ∧ (LinkWord.reject .order).bits = 0x04A ∧
      LinkWord.recall.bits = 0x00B := by
  decide

/-- RECALL on the data line (R25): start low, then bits 1101 0000 0000 from bit 0 up, parity 0 for its three ones, and
the line released from edge 14 on. -/
theorem test_recall_on_the_line :
    (List.range 16).map (txLevel .recall) =
      [false, true, true, false, true, false, false, false, false, false, false, false, false, false, true, true] := by
  decide

/-! ## Small states -/

/-- What a command makes of a state. -/
def ran (c : Instr) (s : State) : State :=
  match exec c s with
  | .next t => t
  | .fault _ => s
  | .refused _ => s

/-- The state right after reset; position 2 (index 1) ENROLLED with one circuit, fed by F1 and required. -/
def trailer : State :=
  ((State.reset.updPosition 1 fun r =>
      { r with state := .enrolled, detect := true, serial := some 0x010203, count := 1 }).setCircuits 1
    [{ feed := 1, required := true, lowCurrent := false, verdict := .good, streak := 0, last := none }])

/-- The trailer with F1 switched on for 200 ms, and a sample with tag 4 out. -/
def sampled : State :=
  (trailer.updFunction 1 fun r => { r with mode := .on, drive := .full, age := 200, wave := .high }).updSampling 1
    fun m =>
      { m with
        list := [{ tag := 4, outstanding := some { snapshot := Eight.all .full, blur := 0, deadline := 60000 } }] }

/-- The part in REST. -/
def resting : State := State.reset.parkedFrom

/-- A notice of the trailer's circuit in slot 0. -/
def openNotice (service : Service) : Notice :=
  { slot := 0, subject := .circuit 1 0, kind := .circuit .open, level := 5, service := service, arrival := 0 }

/-- The trailer with its circuit in FAULT(OPEN) and a notice for it. -/
def noticed (service : Service) : State :=
  ((trailer.setCircuits 1
      [{ feed := 1, required := true, lowCurrent := false, verdict := .fault .open none none, streak := 0
         last := some (true, .none) }]).updNotices fun n =>
    { n.setAnnounce (.circuit 1 0) .queued with
      queue := [openNotice service]
      stack := if service = .pending then [] else [0]
      counter := 1 })

/-! ## Reset and the reads -/

theorem test_readSummary_after_reset :
    (ran (.readSummary .display) State.reset).port.displayReply =
      [0x80, 0, 0, 0, 0, 4, 60, 3, 20, 3, 5, 0x14, 6, 4, 5, 5, 3, 3, 2, 2, 5, 3, 0, 0, 0, 0, 0, 0] := by
  decide

theorem test_readDrive_after_reset :
    (ran (.readDrive .lighting) State.reset).port.lightingReply.length = 38 := by decide

theorem test_readPosition_of_trailer :
    (ran (.readPosition .lighting 2) trailer).port.lightingReply.take 10 = [0x80, 3, 0xC5, 3, 2, 1, 1, 0, 0, 4] := by
  decide

theorem test_readCircuit_of_trailer :
    (ran (.readCircuit .lighting 2 0) trailer).port.lightingReply = [0x80, 1, 0x09, 1, 0, 0, 0, 0] := by decide

theorem test_readFeed_out_of_range :
    (ran (.readFeed .display 8) State.reset).port.displayReply = [0xC1, 0, 0, 0, 0] := by decide

theorem test_unknownCommand :
    (ran (.unknownCommand .lighting 0x60) State.reset).port.lightingReply = [0xC0] := by decide

theorem test_pinReset_with_a_unit_coupled :
    let t := ran (.pinResetRelease 0b0010) (ran .pinResetAssert trailer)
    (t.positions.get 1).state = .coupled ∧ (t.positions.get 1).enrollTimer = some 1000000 ∧
      (t.link.channels.get 1).queue = [.recall] ∧ (t.positions.get 0).state = .vacant ∧ t.circuits.get 1 = [] := by
  decide

theorem test_brake_switch_under_reset :
    (ran (.overrideInputChange 0 true) (ran .pinResetAssert State.reset)).functionOutput 0 = true := by decide

/-! ## The function drive unit -/

theorem test_setMode_on :
    let t := ran (.setMode 1 1 0) State.reset
    t.functionOutput 1 = true ∧ (t.drive.functions.get 1).drive = .full ∧ t.port.lightingReply = [0x81, 0] ∧
      t.port.nextSeq = 1 ∧ t.port.queue = [] := by
  decide

theorem test_setDim_waits_for_the_period :
    let t := ran (.setDim 1 8) State.reset
    t.functionOutput 1 = false ∧ (ran .dimPeriodStart t).functionOutput 1 = true := by
  decide

theorem test_setMode_bad_generator : (ran (.setMode 1 2 4) State.reset).port.lightingReply = [0xC1, 0] := by decide

theorem test_cadence_of_a_flasher :
    let t := ran (.setMode 2 2 0) State.reset
    t.functionOutput 2 = true ∧ ((t.drive.generators.get 0).cadence.length, (t.drive.generators.get 0).step) = (14, 0) ∧
      (ran (.stepExpiry 0) (t.updGenerator 0 fun g => { g with step := 6 })).functionOutput 2 = false := by
  decide

theorem test_setCadence_in_use_is_staged :
    let t := ran (.setCadence 0 1 0 2 0) (ran (.setMode 2 2 0) State.reset)
    (t.drive.generators.get 0).staged = some { pattern := 1, length := 2, width := 0 } ∧
      ((ran (.restartCadences 1) t).drive.generators.get 0).cadence = { pattern := 1, length := 2, width := 0 } := by
  decide

theorem test_override_holds_full :
    let t := ran (.overrideFilterChange 0) { State.reset with ov := ⟨true, false, false, false⟩ }
    (t.drive.functions.get 0).drive = .full ∧ (ran (.setOverride 0 0) t).functionOutput 0 = false := by
  decide

theorem test_sense_tick_confirms_a_dead_driver :
    let s := sampled.updFunction 1 fun r => { r with sense := { condition := .none, kind := .dead, count := 2 } }
    let t := ran (.senseTick 0) s
    (t.drive.functions.get 1).sense = { condition := .driverDead, kind := .none, count := 0 } ∧
      t.feeds.get 1 = .driverDead ∧ (t.circuit 1 0).map (fun r => r.verdict) = some .shadowed ∧
      t.notices.queue.map (fun x => (x.subject, x.level)) = [(.feed 1, 5)] := by
  decide +kernel

/-! ## The coupling link -/

theorem test_startBit_takes_the_lowest :
    (ran (.startBit 0b1010) State.reset).link.engine = .rxActive 1 ∧
      (ran (.startBit 0b1010) State.reset).link.timer = 4000 := by
  decide

theorem test_receiveEnd_bad_parity_counts :
    let s := ran (.startBit 0b0010) State.reset
    ((ran (.receiveEnd 0x525 true true) s).link.channels.get 1).streak = 1 ∧
      (ran (.receiveEnd 0x525 true true) s).link.engine = .rxIdle := by
  decide

theorem test_transmit_of_a_recall :
    let s := (State.reset.offer 2 .recall).updLink fun l => { l with timer := 0 }
    let t := ran .firstFallingEdge (ran .inhibitSettleEnd (ran .transmitStart s))
    t.link.engine = .txActive 2 ∧ (ran .transmitCatch t).link.engine = .rxIdle ∧
      ((ran .transmitCatch t).link.channels.get 2).queue = [] ∧
      ((ran .noCatch t).link.channels.get 2).attempts = 1 ∧
      ((ran .transmitTimeout t).link.channels.get 2).streak = 1 := by
  decide

theorem test_txNoClock_third_failure_drops :
    let s := (State.reset.offer 2 .recall).updChannel 2 fun c => { c with attempts := 2, streak := 3 }
    let t := ran .txNoClock (ran .inhibitSettleEnd (ran .transmitStart s))
    (t.link.channels.get 2).queue = [] ∧ (t.positions.get 2).linkFault = true ∧
      t.notices.queue.map (fun x => (x.subject, x.kind, x.level)) = [(.position 2, .position .linkFault, 5)] := by
  decide

theorem test_word_timeout :
    (ran .wordTimeout (ran (.startBit 1) State.reset)).link.engine = .rxIdle := by decide

/-- The last CIRCUIT of a HELLO of one circuit enrolls the position (R57, R69). -/
theorem test_hello_completes :
    let s := (State.reset.setAssembly 0 (.hello 1 [0x03, 0x02, 0x01] [] 15000)).enter (.rxActive 0) 4000
    let t := ran (.receiveEnd 0x093 true true) s
    (t.positions.get 0).state = .enrolled ∧ (t.positions.get 0).serial = some 0x010203 ∧
      (t.link.channels.get 0).queue = [.welcome 0] ∧ t.link.engine = .txSetup 0 ∧
      (t.circuit 0 0).map (fun r => (r.feed, r.required, r.verdict)) = some (1, true, .unseen) ∧
      (t.positions.get 0).detectMissing = true := by
  decide +kernel

theorem test_gapTimerExpiry_rejects :
    let t := ran (.gapTimerExpiry 0) (State.reset.setAssembly 0 (.hello 1 [] [] 0))
    t.assembly.get 0 = .idle ∧ (t.link.channels.get 0).queue = [.reject .incomplete] := by
  decide

/-! ## Positions and sampling -/

theorem test_detect_couples :
    let t := ran (.detectFilterChange 3) State.reset
    (t.positions.get 3).state = .coupled ∧ (t.link.channels.get 3).queue = [.recall] := by
  decide

theorem test_detect_departs :
    let t := ran (.detectFilterChange 1) trailer
    (t.positions.get 1).state = .departed ∧ (t.positions.get 1).holdTimer = some 30000000 ∧
      t.notices.queue.map (fun x => (x.subject, x.kind, x.level)) = [(.position 1, .position .uncoupled, 2)] := by
  decide

theorem test_enroll_timer_silent :
    let t := ran (.enrollTimerExpiry 3) (ran (.detectFilterChange 3) State.reset)
    (t.positions.get 3).state = .silent ∧ (t.link.channels.get 3).queue = [.recall, .recall] := by
  decide

theorem test_hold_timer_purges :
    let t := ran (.holdTimerExpiry 1) (ran (.detectFilterChange 1) trailer)
    (t.positions.get 1).state = .vacant ∧ t.circuits.get 1 = [] ∧ (t.positions.get 1).serial = none := by
  decide +kernel

theorem test_sample_issued :
    let t := ran (.sampleTimerExpiry 1) (trailer.updSampling 1 fun m => { m with timer := some 0, nextTag := 4 })
    (t.samples.get 1).list = [{ tag := 4, outstanding := none }] ∧ (t.samples.get 1).nextTag = 5 ∧
      (t.link.channels.get 1).queue = [.sample 4] ∧ (t.samples.get 1).timer = some 200000 := by
  decide

theorem test_deadline_mutes :
    let t := ran (.deadlineExpiry 1 4) (sampled.updSampling 1 fun m => { m with mute := 2 })
    (t.samples.get 1).list = [] ∧ (t.samples.get 1).missed = 1 ∧ (t.positions.get 1).state = .mute := by
  decide

/-- A report with the trailer's lamp open begins a suspicion (R93, R105). -/
theorem test_report_judged :
    let t := sampled.settleReport 1 4 [{ circuit := 0, volt := true, current := .none }]
    (t.samples.get 1).list = [] ∧ (t.circuit 1 0).map (fun r => (r.verdict, r.streak)) = some (.suspect .open, 1) := by
  decide

/-- The table of spec 06's worked example, row by row: a record, a reading, the record after it. -/
theorem test_tail_lamp :
    let j : Judging := { confirm := 3, clear := 5, latched := 0b10100 }
    let lamp (v : Verdict) (n : Nat) : Circuit :=
      { feed := 1, required := true, lowCurrent := false, verdict := v, streak := n, last := none }
    [(lamp .unseen 0, classify .full true .nominal false, lamp .good 0),
      (lamp .good 0, classify .dim true .low false, lamp .good 0),
      (lamp .good 0, classify .full true .low false, lamp (.suspect .degraded) 1),
      (lamp (.suspect .degraded) 1, classify .full true .none false, lamp (.suspect .open) 1),
      (lamp (.suspect .open) 1, classify .full true .none false, lamp (.suspect .open) 2),
      (lamp (.suspect .open) 2, classify .full true .none false, lamp (.fault .open none none) 0),
      (lamp (.fault .open none none) 0, classify .full true .high false, lamp (.fault .open (some .overload) none) 1),
      (lamp (.fault .open (some .overload) none) 1, classify .undriven false .none false,
        lamp (.fault .open (some .overload) none) 1),
      (lamp (.fault .open (some .overload) none) 1, classify .full true .high false,
        lamp (.fault .open (some .overload) none) 2),
      (lamp (.fault .open (some .overload) none) 2, classify .full true .high false,
        lamp (.fault .overload none none) 0),
      (lamp (.fault .overload none none) 0, classify .full true .nominal false,
        lamp (.fault .overload none none) 0)].all (fun x => x.1.judge j x.2.1 == x.2.2) = true := by
  decide

/-! ## The lighting port -/

theorem test_queue_waits_and_runs :
    let s := ran (.startBit 0b0010) trailer
    let t := ran (.forget 2) s
    t.port.queue.length = 1 ∧ (ran .sync t).port.lightingReply = [0x82, 1, 0, 0, 0] ∧
      (ran .headExecution t).port.queue.length = 1 ∧
      ((ran .headExecution (t.enter .rxIdle 1000)).positions.get 1).state = .coupled := by
  decide +kernel

theorem test_deferred_error :
    let t := ran (.forget 1) State.reset
    t.port.lightingReply = [0x81, 0] ∧ t.latn = true ∧ (ran .sync t).port.lightingReply = [0x80, 1, 0x31, 0, 0] ∧
      (ran .sync t).latn = false := by
  decide

theorem test_release_nothing_latched :
    (ran (.release 2 0) trailer).port.error.map (fun e => e.kind) = some .nothingLatched := by decide

theorem test_release_latched :
    let s := trailer.setCircuit 1 0
      { feed := 1, required := true, lowCurrent := false, verdict := .fault .overload none none, streak := 0
        last := none }
    ((ran (.release 0 0) s).circuit 1 0).map (fun r => r.verdict) = some .unseen := by
  decide +kernel

theorem test_settings :
    (ran (.setSampling 1 80 3 20) State.reset).sampling = { period := 50, timeout := 80, muteCount := 3, guard := 20 } ∧
    (ran (.setJudging 1 2 0x1F) State.reset).judging = { confirm := 1, clear := 2, latched := 0x1F } ∧
    (ran (.setLevels 7 1) State.reset).notices.positionLevel = 7 ∧
    (ran (.setSeverity 3 7) State.reset).notices.severity.get 3 = 7 ∧
    ((ran (.setCoupling 2 0 4 60) State.reset).link.channels.get 1).enabled = false := by
  decide

theorem test_rest_refused_and_entered :
    (ran .rest (ran (.setDim 0 16) State.reset)).port.error.map (fun e => (e.kind, e.code)) =
        some (.restRefused, 0x3F) ∧
      (ran .rest State.reset).power = .rest ∧ (ran .lcsAssert (ran .rest State.reset)).power = .run := by
  decide

theorem test_wake_by_link :
    let s := resting.updPosition 1 fun r => { r with wakeEnable := true }
    (ran (.linkWakeStartBit 0b0001) s).power = .rest ∧ (ran (.linkWakeStartBit 0b0010) s).power = .run ∧
      ((ran (.linkWakeStartBit 0b0010) s).link.channels.get 1).wakeHold = some 120 ∧
      ((ran (.wakeSettleEnd 1) (ran (.linkWakeStartBit 0b0010) s)).link.channels.get 1).wakeHold = none := by
  decide

theorem test_restart :
    let t := ran .restart trailer
    t.link.engine = .settle ∧ (t.positions.get 1).state = .coupled ∧ t.circuits.get 1 = [] ∧
      t.port.lightingReply = [0x80, 0, 0, 0, 0, 0, 0] ∧ (ran .settleEnd t).link.engine = .rxIdle := by
  decide

/-! ## Notices -/

theorem test_take_and_done :
    let t := ran .take (noticed .pending)
    (noticed .pending).datn = true ∧ t.datn = false ∧ t.notices.stack = [0] ∧
      (ran (.done 0) t).notices.announceOf (.circuit 1 0) = .acked ∧ (ran (.done 1) t).port.displayReply = [0xC4, 0] ∧
      (ran (.done 16) t).port.displayReply = [0xC1, 0] := by
  decide +kernel

theorem test_peek_changes_nothing :
    (ran .peek (noticed .pending)).notices = (noticed .pending).notices ∧
      (ran .peek (noticed .pending)).port.displayReply = (ran .take (noticed .pending)).port.displayReply := by
  decide

theorem test_done_superseded :
    let s := noticed (.inService (.superseded (.circuit .overload)))
    (ran (.done 0) s).port.displayReply = [0x85, 3] ∧
      (ran (.done 0) s).notices.queue.map (fun x => (x.kind, x.service, x.arrival)) =
        [(.circuit .overload, .pending, 1)] := by
  decide

theorem test_setMask :
    (ran (.setMask 5 0) (noticed .pending)).datn = false ∧ (ran (.setMask 4 0) (noticed .pending)).datn = true ∧
      (ran (.readNotice 0) (noticed .pending)).port.displayReply.take 2 = [0x80, 1] := by
  decide

theorem test_break_behind_the_tractor :
    let t := (trailer.setCircuits 1
      [{ feed := 1, required := true, lowCurrent := false, verdict := .suspect .feedLoss, streak := 2
         last := none }]).takeReading 1 { circuit := 0, volt := false, current := .none } .full
    t.feeds.get 1 = .broken 0 1 ∧ (t.circuit 1 0).map (fun r => r.verdict) = some .shadowed ∧
      t.notices.queue.map (fun x => (x.subject, x.kind)) = [(.feed 1, .feed .couplingBreak)] := by
  decide +kernel

/-! ## States that meet the hypotheses of the statements

Each theorem is named after the statement whose hypotheses it meets; where a statement has several clauses, each one's
hypotheses are met, at a boundary of their ranges where there is one. -/

/-- A state after a change of its drive unit. -/
def driven (s : State) (f : DriveUnit → DriveUnit) : State := { s with drive := f s.drive }

/-- A state in an engine state. -/
def engaged (s : State) (e : Engine) : State := s.updLink fun l => { l with engine := e }

theorem test_witness_StepOnEmptyQueue :
    (State.reset.pending = [] ∧ State.reset.due = none) ∧
    (driven State.reset fun d => { d with pwmPhase := 5000 }).due = some .dimPeriodStart ∧
    (driven State.reset fun d => { d with filterCount := ⟨0, 10000, 0, 0⟩ }).due = some (.overrideFilterChange 1) ∧
    (State.reset.updPosition 3 fun r => { r with filterCount := 20000 }).due = some (.detectFilterChange 3) ∧
    (resting.pending = [] ∧ resting.power = .rest ∧ resting.resetAsserted = false ∧ resting.due = none) ∧
    (driven resting fun d => { d with pwmPhase := 5000 }).due = some .dimPeriodStart ∧
    (ran .pinResetAssert State.reset).due = none ∧ (ran .pinResetAssert State.reset).pending = [] ∧
    (State.reset.updSampling 2 fun m => { m with timer := some 0 }).due = some (.sampleTimerExpiry 2) ∧
    (engaged (State.reset.updLink fun l => { l with timer := 0 }) (.txWait 1)).due = some .txNoClock := by
  decide

/-- Also for `ResetState`. -/
theorem test_witness_PinReset :
    let s := ran .pinResetAssert State.reset
    s.resetAsserted = true ∧ s.ov = Four.all false ∧ s.fs = 0 ∧ s.freeIndex = 0 ∧ s.pending = [] ∧
      Instr.take ≠ .pinResetAssert := by
  decide

/-- For the seven statements that every step keeps an invariant. -/
theorem test_witness_StepKeeps :
    State.reset.Quiet ∧ State.reset.DrivesResolved ∧ State.reset.WithinCapacity ∧ State.reset.SamplesKept ∧
      State.reset.ShadowsAgree ∧ State.reset.RestHonest ∧ State.reset.NoticesSound ∧
      ∃ t, step State.reset = .next t := by
  refine ⟨by decide, by decide, by decide, by decide, ⟨⟨fun p => ?_, fun _ h => ?_⟩, by decide⟩,
    ⟨by decide, fun h => absurd h (by decide)⟩, ?_, _, rfl⟩
  · rw [show State.reset.assembly.get p = .idle from by revert p; decide]
    exact True.intro
  · exact absurd h (by simp [State.reset, State.blank, Link.initial])
  · exact NoticeUnit.sound_of_empty _ rfl rfl rfl

/-- DONE(3) bit by bit, most significant bit first, with the first bit of another byte; a transaction cut short within
its argument byte; what the display port drives before, in and after it (R136, R137). -/
theorem test_transaction_bits :
    let code := [false, true, true, false, false, false, true, false]
    let slot := [false, false, false, false, false, false, true, true]
    decodeTransaction .display (code ++ slot ++ [true]) = .command (.done 3) ∧
      decodeTransaction .display (code ++ slot.take 7) = .tooShort ∧ bytesOfBits slot = [3] ∧
      slot = (List.range 8).map (serialBit 3) ∧ State.reset.dataOut .display 0 = none ∧
      (ran (.done 3) State.reset).dataOut .display 0 = some 0xC5 ∧
      (ran (.done 3) State.reset).dataOut .display 7 = some 0 ∧
      (ran .pinResetAssert (ran (.done 3) State.reset)).dataOut .display 0 = none ∧
      (ran .lcsAssert State.reset).dataOut .lighting 5 = some 0 ∧
      (List.range 4).map (transactionByte 1 [0xC5, 0]) = [0, 0, 0xC5, 0] := by
  decide

theorem test_witness_FramesDecode :
    (Instr.setMode 0 1 0).frame = some (.lighting, [0x10, 0, 1, 0]) ∧
      (Instr.unknownCommand .display 0x10).frame = some (.display, [0x10]) ∧
      (Instr.unknownCommand .display 0x10).wf = true := by
  decide

theorem test_witness_DriveResolution :
    (∃ i, (DriveUnit.initial ⟨true, false, false, false⟩).filtered.get i = true ∧
        inSet ((DriveUnit.initial ⟨true, false, false, false⟩).assign.get i) 0 = true) ∧
      ¬ ∃ i, State.reset.drive.filtered.get i = true ∧ inSet (State.reset.drive.assign.get i) 0 = true := by
  decide

/-- For the statements about an awake part, and for the ones about a posted command that runs alone. -/
theorem test_witness_awake_and_ready :
    State.reset.Awake ∧ State.reset.Ready ∧ trailer.Ready ∧ sampled.Ready ∧ State.reset.link.engine = .rxIdle := by
  decide

/-- For the clauses on the outputs and on the link lines: an output that is high and one that is low; the engine OFF. -/
theorem test_witness_outputs_and_lines :
    (sampled.drive.functions.get 1).wave = .high ∧ sampled.functionOutput 1 = true ∧
      (sampled.drive.functions.get 0).wave = .low ∧ resting.link.engine = .off ∧
      (engaged State.reset (.txActive 1)).clockHeldLow 0 = true ∧
      (engaged State.reset (.txActive 1)).clockHeldLow 1 = false ∧
      (engaged State.reset (.txWait 1)).dataHeldLow 1 0 = true := by
  decide

theorem test_witness_DimPeriodStart :
    (driven State.reset fun d => { d with functions := d.functions.modify 7 fun r => { r with wave := .pwm 16 } }
      ).drive.functions.a7.wave = .pwm 16 := by
  decide

theorem test_witness_SenseStreaks :
    SenseCheck.cleared.condition = .none ∧
      ({ condition := .driverDead, kind := .none, count := 0 } : SenseCheck).condition = .driverDead ∧
      ({ condition := .driverStuck, kind := .agree, count := 15 } : SenseCheck).condition = .driverStuck := by
  decide

/-- For each clause: the lowest of channels 2 and 4, no channel, a word to send, no word, and the two engine states. -/
theorem test_witness_TransfersBegin :
    let open_ (channels : BitVec 4) (p : Fin 4) : Bool :=
      channels.getLsbD p.val && (State.reset.link.channels.get p).enabled &&
        (State.reset.link.channels.get p).wakeHold.isNone
    (open_ 0b1010 1 = true ∧ ∀ q, q < 1 → open_ 0b1010 q = false) ∧ (∀ q, open_ 0 q = false) ∧
      (State.reset.offer 2 .recall).link.nextToServe = some 2 ∧ State.reset.link.nextToServe = none ∧
      (engaged State.reset (.txSetup 3)).link.engine = .txSetup 3 ∧
      (engaged State.reset (.txWait 0)).link.engine = .txWait 0 := by
  decide

theorem test_witness_ReceiveEnds :
    (ones 0x525 + bit true) % 2 = 0 ∧ (ones 0x525 + bit false) % 2 = 1 ∧
      (engaged State.reset (.rxActive 0)).link.engine = .rxActive 0 ∧ (engaged State.reset (.rxActive 0)).Awake := by
  decide

/-- An uncouple edge from ENROLLED under the receive of the last CIRCUIT of a HELLO keeps the assembly record and marks
the receive discarded; the word then completes the HELLO, and another word does not; with time the record is gone (R72;
log 34). Which of the two happens at that instant rests on a free value, so no theorem shows it. -/
theorem test_witness_cut_hello :
    let s := (engaged trailer (.rxActive 1)).setAssembly 1 (.hello 1 [3, 2, 1] [] 15000)
    let d : CircuitDef := { feed := 1, required := true, lowCurrent := false }
    let t := ran (.detectFilterChange 1) s
    t.link.cut = some (.hello 1 [3, 2, 1] [] 15000) ∧ t.link.discarded = true ∧ t.assembly.get 1 = .idle ∧
      NodeWord.decode 0x093 = .circuit d false ∧
      (Assembly.hello 1 [3, 2, 1] [] 15000).completedBy (NodeWord.decode 0x093) = some (0x010203, [d]) ∧
      (Assembly.hello 1 [3, 2, 1] [] 15000).completedBy (NodeWord.decode 0x092) = none ∧
      (ran (.receiveEnd 0x092 false true) t).positions = t.positions ∧ t.advance.link.cut = none := by
  decide +kernel

/-- With a word of each kind at the head, and with the transfer discarded. -/
theorem test_witness_TransmitCaught :
    let s (w : LinkWord) := engaged (State.reset.offer 0 w) (.txActive 0)
    ((s .recall).Awake ∧ (s .recall).link.engine = .txActive 0 ∧
        ((s .recall).link.channels.get 0).queue = [.recall] ∧ (s .recall).link.discarded = false) ∧
      ((s (.sample 15)).link.channels.get 0).queue = [.sample 15] ∧
      ((s (.welcome 0)).link.channels.get 0).queue = [.welcome 0] ∧
      ((s (.reject .order)).link.channels.get 0).queue = [.reject .order] ∧
      ((s .recall).updLink fun l => { l with discarded := true }).link.discarded = true := by
  decide

/-- With two attempts failed before, so that this one is the third; and with none. -/
theorem test_witness_TransmitFailed :
    let s (n : Nat) (w : LinkWord) :=
      engaged ((State.reset.offer 0 w).updChannel 0 fun c => { c with attempts := n }) (.txWait 0)
    (∀ n, n < 3 → (s n (.sample 0)).Awake ∧ (s n (.sample 0)).link.engine = .txWait 0 ∧
        ((s n (.sample 0)).link.channels.get 0).queue = [.sample 0] ∧
        ((s n (.sample 0)).link.channels.get 0).attempts = n) ∧
      ((s 2 (.welcome 0)).link.channels.get 0).queue = [.welcome 0] := by
  decide

theorem test_witness_SettlesEnd : (ran .restart State.reset).Awake ∧ (ran .restart State.reset).link.engine = .settle := by
  decide

/-- Counts 1, 12, 0 and 13; an idle record; a HELLO with two and with three bytes of its serial; values 31 and 32; the
last CIRCUIT and one before it; the least unknown kinds. -/
theorem test_witness_HelloAssembly :
    let s (count : Nat) (serial : List Byte) := State.reset.setAssembly 0 (.hello count serial [] 15000)
    (1 ≤ (1#8).toNat ∧ (12#8).toNat ≤ 12 ∧ (0#8).toNat = 0 ∧ 13 ≤ (13#8).toNat) ∧
      State.reset.assembly.get 0 = .idle ∧ (s 1 [3, 2]).assembly.get 0 = .hello 1 [3, 2] [] 15000 ∧
      (s 1 [3, 2, 1]).assembly.get 0 = .hello 1 [3, 2, 1] [] 15000 ∧
      (s 2 [3, 2, 1]).assembly.get 0 = .hello 2 [3, 2, 1] [] 15000 ∧ (31#8).toNat < 32 ∧ 32 ≤ (32#8).toNat ∧
      6 ≤ (6#4).toNat := by
  decide

theorem test_witness_ReportAssembly :
    let s (taken : Nat) := State.reset.setAssembly 0 (.report 4 2 taken [] 15000)
    (1 ≤ (0x10#8).toNat / 16 ∧ (0xCF#8).toNat / 16 ≤ 12 ∧ (0x0F#8).toNat / 16 = 0 ∧ 13 ≤ (0xD0#8).toNat / 16) ∧
      (s 0).assembly.get 0 = .report 4 2 0 [] 15000 ∧ (s 1).assembly.get 0 = .report 4 2 1 [] 15000 := by
  decide

/-- The trailer sends the identity that is held, and another one; no circuit is held DEFERRED. -/
theorem test_witness_HelloAccepted :
    let r := trailer.positions.get 1
    (r.state ≠ .vacant ∧ r.state ≠ .coupled ∧ r.state ≠ .silent ∧ r.serial = some 0x010203 ∧ r.count = 1 ∧
        (trailer.circuits.get 1).map (fun c => (c.feed, c.required, c.lowCurrent)) = [(1, true, false)]) ∧
      r.serial ≠ some 0x010204 ∧ ∀ q, ∀ c ∈ trailer.circuits.get q, c.verdict.deferredLoss = false := by
  decide

/-- The sample out under tag 4 with nothing older; a reading of the trailer's circuit, unblurred; one of no circuit. -/
theorem test_witness_ReportSettled :
    (State.reset.positions.get 0).state ≠ .enrolled ∧ (State.reset.positions.get 0).state ≠ .mute ∧
      (sampled.positions.get 1).state = .enrolled ∧ (sampled.samples.get 1).list.map (fun r => r.tag) = [4] ∧
      ((sampled.samples.get 1).list.all fun r => r.outstanding.isSome) = true ∧
      (sampled.circuit 1 0).map (fun c => inSet 0 c.feed) = some false ∧ sampled.circuit 1 1 = none := by
  decide

/-- The further clauses of `ReportSettled`: readings that name one circuit twice; a SHADOWED circuit, one in
RECOVERING(FEED_LOSS) and one that is neither; a candidate at the threshold and one below it. -/
theorem test_witness_takeReading :
    let x : Reading := { circuit := 0, volt := true, current := .nominal }
    let y : Reading := { circuit := 0, volt := true, current := .low }
    let judged (v : Verdict) : State :=
      trailer.setCircuits 1
        [{ feed := 1, required := true, lowCurrent := false, verdict := v, streak := 3, last := none }]
    firstReadings [] [x, y] = [x] ∧ ((judged .shadowed).circuit 1 0).map (fun c => c.verdict) = some .shadowed ∧
      ((judged (.recovering .feedLoss none)).circuit 1 0).map (fun c => c.verdict) =
        some (.recovering .feedLoss none) ∧
      (trailer.circuit 1 0).map (fun c => c.verdict) = some .good ∧
      ((judged (.fault .feedLoss (some .open) none)).replaceCandidate 1 0 |>.circuit 1 0).map (fun c => c.verdict) =
        some (.fault .open none none) ∧
      (trailer.replaceCandidate 1 0) = trailer := by
  decide +kernel

/-- Each state of a position, with its level as each edge finds it, in RUN and in REST. -/
theorem test_witness_DetectEdges :
    let at_ (state : PositionState) (level : Bool) :=
      State.reset.updPosition 0 fun r => { r with state := state, detect := level }
    (∀ level, ((at_ .vacant level).positions.get 0).reads = level ∧ (at_ .vacant level).power = .run) ∧
      ((at_ .departed false).positions.get 0).state = .departed ∧
      ((at_ .silent true).positions.get 0).state = .silent ∧ ((at_ .mute false).positions.get 0).state = .mute ∧
      resting.power = .rest ∧ resting.resetAsserted = false := by
  decide

theorem test_witness_Departure :
    let t : State := { trailer with holdTime := 0 }
    (trailer.Awake ∧ (trailer.positions.get 1).reads = true ∧ (trailer.positions.get 1).state = .enrolled ∧
        trailer.holdTime ≠ 0) ∧
      t.Awake ∧ (t.positions.get 1).reads = true ∧ (t.positions.get 1).state = .enrolled ∧ t.holdTime = 0 := by
  decide

theorem test_witness_PositionTimers :
    let at_ (state : PositionState) :=
      State.reset.updPosition 0 fun r =>
        { r with state := state, recoupled := true, welcome := .owed, enrollTimer := some 0, holdTimer := some 0 }
    (at_ .departed).Awake ∧ ((at_ .departed).positions.get 0).enrollTimer ≠ none ∧
      ((at_ .departed).positions.get 0).holdTimer ≠ none ∧ ((at_ .departed).positions.get 0).state = .departed ∧
      ((at_ .departed).positions.get 0).recoupled = true ∧ ((at_ .mute).positions.get 0).welcome = .owed ∧
      ((at_ .mute).positions.get 0).state = .mute ∧ ((at_ .coupled).positions.get 0).state = .coupled := by
  decide

/-- For `SampleTimerExpiry` and `DeadlineExpiry`. -/
theorem test_witness_sampling :
    ((trailer.updSampling 1 fun m => { m with timer := some 0 }).samples.get 1).timer ≠ none ∧
      (∃ r ∈ (sampled.samples.get 1).list, (decide (r.tag = 4) && r.outstanding.isSome) = true) ∧ sampled.Awake := by
  decide

/-- Reset lacks every cause of a timer and of a transfer; OFF and SETTLE lack RX_IDLE; REST freezes. -/
theorem test_witness_EventsWithoutCause :
    State.reset.resetAsserted = false ∧ State.reset.Quiet ∧ State.reset.link.engine = .rxIdle ∧
      (engaged State.reset .settle).link.engine ≠ .rxIdle ∧ (State.reset.positions.get 0).enrollTimer = none ∧
      (State.reset.positions.get 0).holdTimer = none ∧ (State.reset.samples.get 0).timer = none ∧
      (State.reset.samples.get 0).list = [] ∧ resting.Quiet ∧ resting.power = .rest ∧
      resting.resetAsserted = false := by
  decide

/-- A start bit on the one channel open in REST, and on none; both flags of a position. -/
theorem test_witness_Waking :
    let s := resting.updPosition 1 fun r => { r with wakeEnable := true, coupleEdge := true, uncoupleEdge := true }
    s.resetAsserted = false ∧ s.power = .rest ∧ s.seenInRest 0b1111 = 0b0010 ∧ s.seenInRest 0b1101 = 0 ∧
      (s.positions.get 1).coupleEdge = true ∧ (s.positions.get 1).uncoupleEdge = true ∧
      Instr.sync.onLighting = true := by
  decide

theorem test_witness_VerdictTable :
    ([Verdict.unseen, .suspect .backfeed, .fault .overload (some .open) none, .recovering .feedLoss (some .local),
        .shadowed].map fun v =>
      ({ feed := 0, required := false, lowCurrent := false, verdict := v, streak := 15, last := none } : Circuit
        ).verdict) =
      [.unseen, .suspect .backfeed, .fault .overload (some .open) none, .recovering .feedLoss (some .local), .shadowed] ∧
      (0b10100#5).getLsbD FaultKind.overload.place = true ∧ (0b10100#5).getLsbD FaultKind.open.place = false := by
  decide

/-- The trailer behind position 2 shows feed; with its circuit lost it lies behind the tractor; and behind a live unit at
position 1. -/
theorem test_witness_FeedEvaluation :
    let lost : Circuit :=
      { feed := 1, required := true, lowCurrent := false, verdict := .fault .feedLoss none (some .deferred), streak := 0
        last := none }
    let s := trailer.setCircuits 1 [lost]
    let t := s.setCircuits 0 [{ lost with verdict := .good }]
    (∀ p, (s.circuits.get p).length ≤ 12) ∧ (∃ c ∈ trailer.circuits.get 1, c.feed = 1 ∧ c.verdict = .good) ∧
      (∀ q, q < 1 → ¬ ∃ c ∈ s.circuits.get q, c.feed = 1) ∧
      (s.drive.functions.get 1).sense.condition = .none ∧
      (∃ c ∈ t.circuits.get 0, c.feed = 1 ∧ c.verdict = .good) := by
  decide

/-- A notice queue that is in order and holds the trailer's notice, PENDING or in service. -/
theorem noticed_sound (service : Service) : (noticed service).NoticesSound := by
  have one : (noticed service).notices.queue = [openNotice service] := rfl
  have ann : ∀ x, (noticed service).notices.announceOf x = if x = .circuit 1 0 then .queued else .none := by
    intro x
    have h := NoticeUnit.announceOf_setAnnounce NoticeUnit.initial (.circuit 1 0) x .queued
    refine Eq.trans ?_ (h.trans ?_)
    · cases x <;> rfl
    · rw [show NoticeUnit.initial.announceOf x = .none from ?_]
      cases x with
      | circuit p c => revert p c; decide
      | position p => revert p; decide
      | feed f => revert f; decide
  refine ⟨by rw [one]; simp, by rw [one]; simp, fun x => ?_, ?_, ?_, ?_, ?_⟩
  · rw [one, ann]
    by_cases h : x = .circuit 1 0
    · simp [h, openNotice]
    · simp [h, openNotice, eq_comm]
  · rw [one]
    by_cases h : service = .pending <;> simp [noticed, State.updNotices, openNotice, h]
  · rw [one]
    by_cases h : service = .pending <;> simp [noticed, State.updNotices, openNotice, h]
  · by_cases h : service = .pending <;> simp [noticed, State.updNotices, h]
  · by_cases h : service = .pending <;> simp [noticed, State.updNotices, h]

/-- Sixteen PENDING notices of level 2, one a slot, for the subjects of position 1 and four of position 2. -/
def crowd : List Notice :=
  sixteenIndices.map fun i =>
    { slot := i
      subject := if h : i.val < 12 then .circuit 0 ⟨i.val, h⟩ else .circuit 1 ⟨i.val - 12, by omega⟩
      kind := .circuit .open
      level := 2
      service := .pending
      arrival := BitVec.ofNat 16 i.val }

/-- A free slot and a full queue; a notice to displace, the latest of the lowest level, and none of a lower level; the
notice held PENDING and in service; the announce states of a subject that holds none. -/
theorem test_witness_NoticeClaims :
    (noticed .pending).NoticesSound ∧ (noticed (.inService .none)).NoticesSound ∧
      (∃ x ∈ (noticed .pending).notices.queue, x.subject = .circuit 1 0 ∧ x.service = .pending) ∧
      (noticed .pending).notices.freeSlot = some 1 ∧
      (∀ slot, ∃ y ∈ crowd, y.slot = slot) ∧ (∀ y ∈ crowd, y.subject ≠ .feed 0 ∧ y.level < 3 ∧ ¬ y.level < 1) ∧
      (({ NoticeUnit.initial with queue := crowd, counter := 16 } : NoticeUnit).victim 3).map
        (fun (v : Notice) => v.slot) = some 15 ∧
      (NoticeUnit.initial.setAnnounce (.feed 0) .acked).announceOf (.feed 0) = .acked := by
  refine ⟨noticed_sound _, noticed_sound _, ?_⟩
  decide +kernel

theorem test_witness_NoticeLevels_and_AttentionLines :
    (trailer.circuit 1 0).isSome = true ∧ (noticed .pending).notices.stack = [] ∧
      (noticed (.inService .none)).notices.stack = [0] ∧
      (∃ x ∈ (noticed (.inService .none)).notices.queue, x.slot = 0 ∧ x.level = 5) := by
  decide

/-- Three notices in service, none takeable, and one that is. -/
theorem test_witness_TakeAndPeek :
    3 ≤ (({ NoticeUnit.initial with stack := [2, 1, 0] } : NoticeUnit)).stack.length ∧
      State.reset.notices.stack.length < 3 ∧ (∀ y ∈ State.reset.notices.queue, State.reset.notices.takeable y = false) ∧
      (noticed .pending).notices.takeable (openNotice .pending) = true ∧ State.reset.resetAsserted = false := by
  decide

theorem test_witness_DoneOfTheTop :
    let n (m : Mark) := (noticed (.inService m)).notices
    (n .none).stack = [0] ∧ (n .none).inSlot 0 = some (openNotice (.inService .none)) ∧
      (n .resolved).inSlot 0 = some (openNotice (.inService .resolved)) ∧ (1 : Fin 16) ≠ 0 ∧ 16 ≤ (16#8).toNat ∧
      State.reset.notices.stack = [] ∧ (State.reset.positions.get 0).state ≠ .enrolled ∧
      (NoticeUnit.initial.setAnnounce (.feed 0) .owedClear).freeSlot = some 0 := by
  decide

theorem test_witness_MaskAndReadNotice :
    (6#8).toNat ≤ 6 ∧ 6 < (7#8).toNat ∧ 1 < (2#8).toNat ∧ 16 ≤ (16#8).toNat ∧ State.reset.notices.queue = [] ∧
      (noticed .pending).notices.inSlot 0 = some (openNotice .pending) := by
  decide

/-- A posted command with good and with bad arguments, room and none, a head that waits and one that does not. -/
theorem test_witness_LightingQueue :
    let s := engaged trailer (.rxActive 1)
    (Instr.forget 2).isPosted = true ∧ (Instr.forget 2).posts = some (.forget 1) ∧ (Instr.forget 5).posts = none ∧
      s.Awake ∧ s.Quiet ∧ s.waits (.forget 1) = true ∧ s.waits (.forget 0) = false ∧ s.port.queue = [] ∧
      (s.accept (.forget 1)).port.queue = [{ command := .forget 1, sequence := 0 }] ∧
      ((((s.accept .rest).accept .rest).accept .rest).accept .rest).port.queue.length = 4 := by
  decide

/-- A SET_COUPLING that disables waits for a receive on its channel when time has passed since the start bit (R23, R27);
no theorem can show the other case, because a free value decides it (log 37). -/
theorem test_disable_waits :
    let s := engaged (State.reset.updLink fun l => { l with timer := 3999 }) (.rxActive 1)
    s.waits (.setCoupling 1 true false false 1000000 30) = true ∧
      s.waits (.setCoupling 2 true false false 1000000 30) = false ∧
      (engaged State.reset (.rxActive 1)).waits (.setCoupling 1 true false true 1000000 30) = true := by
  decide

/-- A generator in use and one that is not; the ends of the arguments' ranges. -/
theorem test_witness_CadenceCommands :
    let s := ran (.setMode 0 2 0) State.reset
    s.Ready ∧ (∃ f, (s.drive.functions.get f).mode = .cadence 0) ∧
      (∀ f, (s.drive.functions.get f).mode ≠ .cadence 1) ∧ 2 ≤ (2#8).toNat ∧ (16#8).toNat ≤ 16 ∧ (15#8).toNat ≤ 15 := by
  decide

/-- A polarity that is the held one and one that is not; a channel that is enabled and one that is not. -/
theorem test_witness_SetCoupling :
    let s := State.reset.updChannel 0 fun c => { c with enabled := false }
    trailer.link.engine.activeOn 1 = false ∧ (trailer.positions.get 1).coupledHigh ≠ (6#8).getLsbD 0 ∧
      (trailer.positions.get 1).state ≠ .vacant ∧ (trailer.positions.get 1).coupledHigh = (7#8).getLsbD 0 ∧
      (trailer.link.channels.get 1).enabled = true ∧ s.Ready ∧ (s.link.channels.get 0).enabled = false ∧
      (3#8).getLsbD 2 = false ∧ (7#8).getLsbD 2 = true := by
  decide

theorem test_witness_Release :
    let s := trailer.setCircuit 1 0
      { feed := 1, required := true, lowCurrent := false, verdict := .fault .overload none none, streak := 0
        last := none }
    s.Ready ∧ (s.circuit 1 0).map (fun r => r.verdict) = some (.fault .overload none none) ∧
      s.judging.isLatched .overload = true ∧ (∀ p, (s.circuits.get p).length ≤ 12) ∧
      (∀ p, ∀ r ∈ trailer.circuits.get p, r.isLatched trailer.judging = false) := by
  decide

theorem test_witness_Forget :
    (trailer.positions.get 1).state ≠ .vacant ∧ (trailer.positions.get 1).state.holdsRecords = true ∧
      (trailer.positions.get 0).state = .vacant ∧ trailer.link.engine.activeOn 1 = false ∧ (2#8).toNat = 1 + 1 := by
  decide

theorem test_witness_EnterRest :
    let refused (s : State) : Bool := eightIndices.any fun f => (s.drive.functions.get f).mode.refusesRest
    refused State.reset = false ∧ refused (ran (.setDim 0 16) State.reset) = true ∧
      (ran (.setDim 0 16) State.reset).Ready ∧ (State.reset.accept .rest).Quiet ∧
      (State.reset.accept .rest).port.queue ≠ [] ∧ State.reset.port.lcs = .idle ∧
      (ran .rest State.reset).port.lcs = .taken (some 0) ∧
      ∀ still, (Transaction.taken (some 0)).atRest 0 still = .taken (some 0) ∧
        Transaction.opened.atRest 0 still = (if still then .opened else .idle) := by
  decide

theorem test_witness_Sync :
    State.reset.port.queue = [] ∧ State.reset.port.error = none ∧ (ran (.forget 1) State.reset).Awake ∧
      (ran (.forget 1) State.reset).port.queue = [] ∧
      (ran (.forget 1) State.reset).port.error =
        some { kind := .badTarget, code := 0x31, sequence := 0, more := false } := by
  decide

theorem test_witness_Reads :
    State.reset.power = .run ∧ resting.power = .rest ∧ trailer.circuit 0 0 = none ∧ (trailer.circuit 1 0).isSome = true ∧
      5 ≤ (5#8).toNat ∧ 12 ≤ (12#8).toNat ∧ 8 ≤ (8#8).toNat ∧ Port.lighting.knows 0x60 = false := by
  decide

end Sys2Proof.Tests
end

section
/-! SUPPORT. The sample timer: when a sample is issued and what it writes, each said once, and the proof of the statement
about its expiry. -/

namespace Sys2Proof.Machine

variable {s : State} {p : Fin 4}

/-- An event of a part in RUN with RSTN released takes its effect. -/
theorem runEvent_of_awake (awake : s.Awake) (f : State → State) : runEvent s f = .next (f s) := by
  obtain ⟨released, running⟩ := awake
  simp [runEvent, event, released, running]

/-- A channel accepts a word when it is enabled and its queue has room (R38). -/
theorem Channel.accepts_iff (c : Channel) : c.accepts = true ↔ c.enabled = true ∧ c.queue.length < 3 := by
  simp [Channel.accepts]

/-- An accepted word goes to the tail of its queue (R38). -/
theorem State.offer_of_accepts (accepted : s.accepts p = true) (w : LinkWord) :
    s.offer p w = s.updChannel p fun c => { c with queue := c.queue ++ [w] } :=
  if_pos accepted

/-- Two changes of one position's sampling state in turn are one. -/
theorem State.updSampling_updSampling (f g : Sampling → Sampling) :
    (s.updSampling p f).updSampling p g = s.updSampling p (g ∘ f) := by
  simp only [State.updSampling, Four.modify_modify]

/-- The tag of a new record is the counter, advanced by one where a record of the list has that tag (R87). -/
theorem Sampling.newTag_eq (m : Sampling) :
    m.newTag = if ∃ r ∈ m.list, r.tag = m.nextTag then m.nextTag + 1 else m.nextTag := by
  simp [Sampling.newTag]

/-- The list has fewer than two records and the channel accepts the word, so that a sample is issued (R86). -/
def State.canIssue (s : State) (p : Fin 4) : Prop :=
  (s.samples.get p).list.length < 2 ∧ s.accepts p = true

theorem State.canIssue_iff :
    s.canIssue p ↔
      (s.samples.get p).list.length < 2 ∧ (s.link.channels.get p).enabled = true ∧
        (s.link.channels.get p).queue.length < 3 := by
  rw [State.canIssue, State.accepts, Channel.accepts_iff]

/-- An issued sample is a QUEUED record at the tail of the list and its word at the tail of the queue (R86, R87). -/
theorem State.issueSample_of_canIssue (room : s.canIssue p) :
    s.issueSample p =
      (s.updSampling p fun m =>
        { m with
          list := m.list ++ [{ tag := (s.samples.get p).newTag, outstanding := none }]
          nextTag := (s.samples.get p).newTag + 1 }).updChannel p fun c =>
            { c with queue := c.queue ++ [.sample (s.samples.get p).newTag] } := by
  refine (if_pos room).trans (State.offer_of_accepts ?_ _)
  exact room.2

/-- A skipped attempt leaves everything as it is, the counter too (R87). -/
theorem State.issueSample_of_not_canIssue (full : ¬ s.canIssue p) : s.issueSample p = s :=
  if_neg full

/-- The restart of the sample timer leaves the next tag as it is. -/
theorem State.startSampling_newTag : ((s.startSampling p).samples.get p).newTag = (s.samples.get p).newTag := by
  simp [State.startSampling, Sampling.newTag]

/-- The restart of the sample timer does not decide whether a sample is issued. -/
theorem State.startSampling_canIssue : (s.startSampling p).canIssue p ↔ s.canIssue p := by
  simp [State.startSampling, State.canIssue, State.accepts]

/-- A running sample timer that runs out starts again, and then a sample is issued (R86). -/
theorem State.sampleTimerRunsOut_of_running (running : (s.samples.get p).timer ≠ none) :
    s.sampleTimerRunsOut p = (s.startSampling p).issueSample p :=
  if_pos (Option.isSome_iff_ne_none.2 running)

/-- The expiry of a running sample timer, as the restart and the attempt to issue a sample. -/
theorem exec_sampleTimerExpiry (awake : s.Awake) (running : (s.samples.get p).timer ≠ none) :
    exec (.sampleTimerExpiry p) s = .next ((s.startSampling p).issueSample p) := by
  rw [← State.sampleTimerRunsOut_of_running running]
  exact runEvent_of_awake awake fun s => s.sampleTimerRunsOut p

end Sys2Proof.Machine

open Sys2Proof Sys2Proof.Machine

/-- Settles O35, by the two outcomes of the attempt to issue a sample: the restart of the timer before it changes neither
whether a sample is issued nor its tag. -/
theorem sampleTimerExpiry : Obligations.SampleTimerExpiry := by
  intro s p awake m c tag running
  have newTag : (s.samples.get p).newTag = tag := Sampling.newTag_eq _
  rw [exec_sampleTimerExpiry awake running]
  by_cases room : s.canIssue p
  · rw [if_pos (State.canIssue_iff.1 room), State.issueSample_of_canIssue (State.startSampling_canIssue.2 room),
      State.startSampling_newTag, newTag, State.startSampling, State.updSampling_updSampling]
    rfl
  · rw [if_neg (mt State.canIssue_iff.2 room),
      State.issueSample_of_not_canIssue (mt State.startSampling_canIssue.1 room)]
    rfl

end

section
/-! SUPPORT. The classification of a reading (R103): the row FULL, the row DIM, which differs from FULL at a low current
alone, and the row UNDRIVEN; and the proof of the statement about the whole table. -/

namespace Sys2Proof.Machine

variable {volt : Bool} {current : CurrentClass} {low : Bool}

/-- The current class is not consulted when the volt bit is absent. -/
@[simp] theorem classify_full_voltAbsent : classify .full false current low = .disagree .feedLoss := rfl

@[simp] theorem classify_full_none : classify .full true .none low = .disagree .open := rfl

/-- A low current under FULL is a lamp with failed elements, unless the circuit is low-current. -/
@[simp] theorem classify_full_low :
    classify .full true .low low = if low then .agree else .disagree .degraded := rfl

@[simp] theorem classify_full_nominal : classify .full true .nominal low = .agree := rfl

@[simp] theorem classify_full_high : classify .full true .high low = .disagree .overload := rfl

/-- A dimmed circuit draws less than its nominal current, so a low current agrees, low-current circuit or not. -/
@[simp] theorem classify_dim_low : classify .dim true .low low = .agree := rfl

/-- Apart from a low current with feed present, a dimmed circuit is judged as one that is driven in full. -/
theorem classify_dim_eq_full (notLow : volt = true → current ≠ .low) :
    classify .dim volt current low = classify .full volt current low := by
  cases volt with
  | false => rfl
  | true =>
    cases current with
    | low => exact absurd rfl (notLow rfl)
    | none => rfl
    | nominal => rfl
    | high => rfl

/-- An undriven circuit is judged by its volt bit alone: dark it is quiet, with any voltage it is back-fed. -/
@[simp] theorem classify_undriven :
    classify .undriven volt current low = if volt then .disagree .backfeed else .quiet := by
  cases volt with
  | false => rfl
  | true => rfl

end Sys2Proof.Machine

open Sys2Proof Sys2Proof.Machine

/-- Settles O39, row by row: DIM takes over every column of FULL but LOW. -/
theorem classificationTable : Obligations.ClassificationTable := by
  intro current low
  have dimLoss : classify .dim false current low = .disagree .feedLoss :=
    (classify_dim_eq_full (by simp)).trans classify_full_voltAbsent
  have dimNone : classify .dim true .none low = .disagree .open :=
    (classify_dim_eq_full (by simp)).trans classify_full_none
  have dimNominal : classify .dim true .nominal low = .agree :=
    (classify_dim_eq_full (by simp)).trans classify_full_nominal
  have dimHigh : classify .dim true .high low = .disagree .overload :=
    (classify_dim_eq_full (by simp)).trans classify_full_high
  exact ⟨classify_full_voltAbsent, dimLoss, classify_undriven, classify_full_none, classify_full_low,
    classify_full_nominal, classify_full_high, dimNone, classify_dim_low, dimNominal, dimHigh, classify_undriven⟩

end

section
/-! SUPPORT. The notice queue read by subject and by slot: what is held for a subject, the lowest free slot, the notice
that is displaced and the one that is taken, each by the property that picks it out of the queue. -/

namespace Sys2Proof.Machine

variable {n : NoticeUnit} {slot : Fin 16} {subject : Subject} {x : Notice} {level : Nat}

/-- The notice of a subject that is in the queue is the one held for it. -/
theorem NoticeUnit.Sound.held_of_mem (sound : n.Sound) (mem : x ∈ n.queue) (isOf : x.subject = subject) :
    n.held subject = some x := by
  obtain ⟨-, subjects, -⟩ := sound
  cases held : n.held subject with
  | none => exact absurd isOf (NoticeUnit.held_none held x mem)
  | some y =>
    obtain ⟨memY, isOfY⟩ := NoticeUnit.held_some held
    rw [eq_of_subject subjects memY mem (isOfY.trans isOf.symm)]

theorem NoticeUnit.held_eq_none (absent : ∀ x ∈ n.queue, x.subject ≠ subject) : n.held subject = none := by
  simpa [NoticeUnit.held] using absent

/-- A subject that is not QUEUED holds no notice (R155). -/
theorem NoticeUnit.Sound.held_eq_none (sound : n.Sound) (notQueued : n.announceOf subject ≠ .queued) :
    n.held subject = none := by
  obtain ⟨-, -, queued, -⟩ := sound
  exact NoticeUnit.held_eq_none fun x mem isOf => notQueued ((queued subject).2 ⟨x, mem, isOf⟩)

/-- The notice in a slot, where the queue has no other one in it. -/
theorem NoticeUnit.inSlot_of_unique (mem : x ∈ n.queue) (lies : x.slot = slot)
    (unique : ∀ y ∈ n.queue, y.slot = slot → y = x) : n.inSlot slot = some x := by
  cases found : n.inSlot slot with
  | none => exact absurd lies (NoticeUnit.inSlot_none found x mem)
  | some y =>
    obtain ⟨memY, liesY⟩ := NoticeUnit.inSlot_some found
    rw [unique y memY liesY]

/-- No notice of the queue is in the slot. -/
def NoticeUnit.Free (n : NoticeUnit) (slot : Fin 16) : Prop := ∀ y ∈ n.queue, y.slot ≠ slot

/-- Some notice of the queue is in the slot. -/
def NoticeUnit.Occupied (n : NoticeUnit) (slot : Fin 16) : Prop := ∃ y ∈ n.queue, y.slot = slot

/-- The slot is free, and none below it is. -/
def NoticeUnit.LowestFree (n : NoticeUnit) (slot : Fin 16) : Prop :=
  n.Free slot ∧ ∀ lower, lower < slot → n.Occupied lower

/-- Every slot is occupied. -/
def NoticeUnit.Full (n : NoticeUnit) : Prop := ∀ slot, n.Occupied slot

theorem NoticeUnit.inSlot_isNone : (n.inSlot slot).isNone = true ↔ n.Free slot := by
  simp [NoticeUnit.inSlot, NoticeUnit.Free]

theorem NoticeUnit.inSlot_isNone_eq_false : (n.inSlot slot).isNone = false ↔ n.Occupied slot := by
  simp [NoticeUnit.inSlot, NoticeUnit.Occupied]

/-- The sixteen indices stand in rising order, each at its own place. -/
theorem sixteenIndices_getElem (i : Nat) (below : i < sixteenIndices.length) :
    sixteenIndices[i] = (⟨i, below⟩ : Fin 16) :=
  (by decide : ∀ i : Fin 16, sixteenIndices[i.val] = i) ⟨i, below⟩

/-- The search for a free slot through the rising indices finds the lowest one. -/
theorem NoticeUnit.freeSlot_of_lowestFree (lowest : n.LowestFree slot) : n.freeSlot = some slot := by
  obtain ⟨free, below⟩ := lowest
  refine List.find?_eq_some_iff_getElem.2
    ⟨NoticeUnit.inSlot_isNone.2 free, slot.val, slot.isLt, sixteenIndices_getElem _ slot.isLt, fun j lower => ?_⟩
  rw [sixteenIndices_getElem, NoticeUnit.inSlot_isNone_eq_false.2 (below _ lower)]
  rfl

theorem NoticeUnit.freeSlot_of_full (full : n.Full) : n.freeSlot = none :=
  List.find?_eq_none.2 fun slot _ => Bool.eq_false_iff.1 (NoticeUnit.inSlot_isNone_eq_false.2 (full slot))

/-- A PENDING notice of a level below a given one, which a new notice of that level may displace (R158). -/
def NoticeUnit.Displaceable (n : NoticeUnit) (level : Nat) (y : Notice) : Prop :=
  y ∈ n.queue ∧ y.service = .pending ∧ y.level < level

/-- Nothing is displaced where nothing can be. -/
theorem NoticeUnit.victim_none (spared : ∀ y, ¬ n.Displaceable level y) : n.victim level = none :=
  NoticeUnit.victim_eq_none.2 fun y mem pending below => spared y ⟨mem, pending, below⟩

theorem NoticeUnit.displacedBefore_iff {x y : Notice} :
    n.displacedBefore x y = true ↔ x.level < y.level ∨ x.level = y.level ∧ n.age x < n.age y := by
  simp [NoticeUnit.displacedBefore]

/-- Of those that can be displaced, the one below or younger than each other one is (R158). -/
theorem NoticeUnit.victim_of_first {v : Notice} (displaceable : n.Displaceable level v)
    (first : ∀ y, n.Displaceable level y → y ≠ v →
      v.level < y.level ∨ v.level = y.level ∧ n.age v < n.age y) :
    n.victim level = some v := by
  obtain ⟨mem, pending, below⟩ := displaceable
  rw [NoticeUnit.victim_eq]
  refine keepBetter_of_best (by simp [mem, pending, below]) fun y memY other => ?_
  have before := first y (by simpa [NoticeUnit.Displaceable] using memY) other
  rw [Bool.eq_false_iff, Ne, NoticeUnit.displacedBefore_iff, NoticeUnit.displacedBefore_iff]
  omega

theorem NoticeUnit.preferred_iff {x y : Notice} :
    n.preferred x y = true ↔ y.level < x.level ∨ x.level = y.level ∧ n.age y < n.age x := by
  simp [NoticeUnit.preferred]

/-- Of the takeable notices, the one above or older than each other one is to be taken (R167). -/
theorem NoticeUnit.candidate_of_first (mem : x ∈ n.queue) (takeable : n.takeable x = true)
    (first : ∀ y ∈ n.queue, n.takeable y = true → y ≠ x →
      y.level < x.level ∨ y.level = x.level ∧ n.age y < n.age x) :
    n.candidate = some x := by
  rw [NoticeUnit.candidate_eq]
  refine keepBetter_of_best (by simp [mem, takeable]) fun y memY other => ?_
  obtain ⟨inQueue, takeableY⟩ := List.mem_filter.1 memY
  have before := first y inQueue takeableY other
  rw [Bool.eq_false_iff, Ne, NoticeUnit.preferred_iff, NoticeUnit.preferred_iff]
  omega

end Sys2Proof.Machine

end

section
/-! SUPPORT. TAKE, PEEK and the attention lines: the three conditions of a takeable notice, the three replies of TAKE
and what it leaves of the notice unit; and the proofs of the statements about them. -/

namespace Sys2Proof.Machine

variable {n : NoticeUnit} {s : State} {x : Notice}

/-- The three conditions of R164. -/
theorem NoticeUnit.takeable_iff :
    n.takeable x = true ↔ x.service = .pending ∧ n.threshold < x.level ∧ n.stack.length < 3 := by
  simp [NoticeUnit.takeable, and_assoc]

@[simp] theorem NoticeUnit.topLevel_of_empty (empty : n.stack = []) : n.topLevel = 0 := by
  simp [NoticeUnit.topLevel, empty]

theorem NoticeUnit.topLevel_of_top {top : Fin 16} {rest : List (Fin 16)} (stack : n.stack = top :: rest)
    (found : n.inSlot top = some x) : n.topLevel = x.level := by
  simp [NoticeUnit.topLevel, stack, found]

/-- The part that hold-all adds to the threshold (R164), with the conditions as propositions. -/
theorem NoticeUnit.threshold_eq :
    n.threshold = max n.mask (max n.topLevel (if n.holdAll = true ∧ n.stack ≠ [] then 6 else 0)) := by
  simp [NoticeUnit.threshold]

theorem NoticeUnit.takeReply_of_full (full : 3 ≤ n.stack.length) : n.takeReply = zeroReply .stackFull 7 :=
  if_pos full

theorem NoticeUnit.takeReply_of_none (room : n.stack.length < 3) (nothing : n.candidate = none) :
    n.takeReply = zeroReply .empty 7 := by
  rw [NoticeUnit.takeReply, if_neg (Nat.not_le.2 room), nothing]

theorem NoticeUnit.takeReply_of_some (room : n.stack.length < 3) (delivered : n.candidate = some x) :
    n.takeReply = 0x80 :: x.delivery := by
  rw [NoticeUnit.takeReply, if_neg (Nat.not_le.2 room), delivered]
  rfl

/-- TAKE delivers a notice, with the result OK, exactly while one is takeable (R165). -/
theorem NoticeUnit.takeReply_ok_iff :
    (∃ data, n.takeReply = 0x80 :: data) ↔ ∃ x ∈ n.queue, n.takeable x = true := by
  by_cases full : 3 ≤ n.stack.length
  · have untakeable : ∀ x, n.takeable x ≠ true := fun x takeable => by
      obtain ⟨-, -, room⟩ := NoticeUnit.takeable_iff.1 takeable
      omega
    simp [NoticeUnit.takeReply_of_full full, zeroReply, reply, Result.code, untakeable]
  · have room : n.stack.length < 3 := Nat.lt_of_not_le full
    cases delivered : n.candidate with
    | none =>
      have untakeable := NoticeUnit.candidate_eq_none.1 delivered
      simpa [NoticeUnit.takeReply_of_none room delivered, zeroReply, reply, Result.code] using untakeable
    | some x =>
      exact iff_of_true ⟨_, NoticeUnit.takeReply_of_some room delivered⟩ ⟨x, NoticeUnit.candidate_takeable delivered⟩

theorem State.datn_iff :
    s.datn = true ↔ s.resetAsserted = false ∧ ∃ x ∈ s.notices.queue, s.notices.takeable x = true := by
  simp [State.datn]

theorem State.latn_iff : s.latn = true ↔ s.resetAsserted = false ∧ s.port.error ≠ none := by
  simp [State.latn, Option.isSome_iff_ne_none]

theorem NoticeUnit.taken_of_full (full : 3 ≤ n.stack.length) : n.taken = n :=
  if_pos full

theorem NoticeUnit.taken_of_none (nothing : n.candidate = none) : n.taken = n := by
  simp [NoticeUnit.taken, nothing]

theorem NoticeUnit.taken_of_some (room : n.stack.length < 3) (delivered : n.candidate = some x) :
    n.taken =
      { n with
        queue := n.queue.map fun y => if y.slot = x.slot then { y with service := .inService .none } else y
        stack := x.slot :: n.stack } := by
  rw [NoticeUnit.taken, if_neg (Nat.not_le.2 room), delivered]
  rfl

/-- A display command is served whenever RSTN is released, in RUN and in REST (R177). -/
theorem event_of_released (released : s.resetAsserted = false) (f : State → State) : event s f = .next (f s) := by
  simp [event, released]

theorem exec_peek (released : s.resetAsserted = false) :
    exec .peek s = .next (s.repliedDisplay s.notices.takeReply) :=
  event_of_released released fun s => s.answerDisplay s.notices.takeReply

theorem exec_take (released : s.resetAsserted = false) :
    exec .take s = .next { s.repliedDisplay s.notices.takeReply with notices := s.notices.taken } :=
  event_of_released released fun s => (s.answerDisplay s.notices.takeReply).updNotices NoticeUnit.taken

/-- A TAKE that delivers nothing is a PEEK. -/
theorem exec_take_of_unchanged (released : s.resetAsserted = false) (unchanged : s.notices.taken = s.notices) :
    exec .take s = .next (s.repliedDisplay s.notices.takeReply) := by
  rw [exec_take released, unchanged]
  rfl

end Sys2Proof.Machine

open Sys2Proof Sys2Proof.Machine

/-- Settles O46, by the three outcomes of TAKE; PEEK has the same reply. -/
theorem takeAndPeek : Obligations.TakeAndPeek := by
  intro s released n
  refine ⟨fun full => ?_, fun room untakeable => ?_, fun x mem takeable first => ?_⟩
  · have replied : n.takeReply = [0xC3, 0, 0, 0, 0, 0, 0, 0] := NoticeUnit.takeReply_of_full full
    rw [exec_take_of_unchanged released (NoticeUnit.taken_of_full full), exec_peek released, replied]
    exact ⟨rfl, rfl⟩
  · have nothing : n.candidate = none := NoticeUnit.candidate_eq_none.2 untakeable
    have replied : n.takeReply = [0x83, 0, 0, 0, 0, 0, 0, 0] := NoticeUnit.takeReply_of_none room nothing
    rw [exec_take_of_unchanged released (NoticeUnit.taken_of_none nothing), exec_peek released, replied]
    exact ⟨rfl, rfl⟩
  · obtain ⟨-, -, room⟩ := NoticeUnit.takeable_iff.1 takeable
    have delivered : n.candidate = some x := NoticeUnit.candidate_of_first mem takeable first
    rw [exec_peek released, exec_take released, NoticeUnit.takeReply_of_some room delivered,
      NoticeUnit.taken_of_some room delivered]
    exact ⟨rfl, rfl⟩

/-- Settles O44: `top` is the level of the top notice, and the rest is the reading of the threshold, of the conditions
of R164 and of the two lines. -/
theorem attentionLines : Obligations.AttentionLines := by
  intro s top n isTop threshold
  have topLevel : n.topLevel = top := by
    cases stack : n.stack with
    | nil =>
      have zero : top = 0 := by simpa [stack] using isTop
      rw [NoticeUnit.topLevel_of_empty stack, zero]
    | cons slot rest =>
      obtain ⟨x, mem, lies, level, unique⟩ :
          ∃ x ∈ n.queue, x.slot = slot ∧ x.level = top ∧ ∀ y ∈ n.queue, y.slot = slot → y = x := by
        simpa only [stack] using isTop
      rw [NoticeUnit.topLevel_of_top stack (NoticeUnit.inSlot_of_unique mem lies unique), level]
  have threshold_eq : n.threshold = threshold := by rw [NoticeUnit.threshold_eq, topLevel]
  refine ⟨threshold_eq, fun x => ?_, State.datn_iff, ?_, State.latn_iff⟩
  · rw [← threshold_eq]
    exact NoticeUnit.takeable_iff
  · rw [NoticeUnit.takeReply_ok_iff]
    exact State.datn_iff

end

section
/-! SUPPORT. The claims on a subject: what a placing, a raise-or-update and a resolve make of the notice unit, by what
is held for the subject and by what the queue has room for; and the proof of the statement about the claims. -/

namespace Sys2Proof

/-- A second write to an entry replaces the first. -/
@[simp] theorem Eight.set_set {α : Type} (t : Eight α) (i : Fin 8) (x y : α) : (t.set i x).set i y = t.set i y := by
  induction i using forallEight <;> rfl

@[simp] theorem Twelve.set_set {α : Type} (t : Twelve α) (i : Fin 12) (x y : α) :
    (t.set i x).set i y = t.set i y := by
  induction i using forallTwelve <;> rfl

namespace Machine

variable {s : State} {n m : NoticeUnit} {slot : Fin 16} {subject : Subject} {kind : NoticeKind} {level : Nat}
  {x v : Notice} {mark : Mark}

/-! ## Announce states and what is owed -/

@[simp] theorem NoticeUnit.setAnnounce_scanDue (n : NoticeUnit) (y : Subject) (a : Announce) :
    (n.setAnnounce y a).scanDue = n.scanDue := by cases y <;> rfl

/-- A second write of a subject's announce state replaces the first. -/
@[simp] theorem NoticeUnit.setAnnounce_setAnnounce (n : NoticeUnit) (y : Subject) (a b : Announce) :
    (n.setAnnounce y a).setAnnounce y b = n.setAnnounce y b := by
  cases y with
  | circuit p c => simp [NoticeUnit.setAnnounce, Four.modify]
  | position p => simp [NoticeUnit.setAnnounce]
  | feed f => simp [NoticeUnit.setAnnounce]

/-- An announce state does not bear on the slots. -/
@[simp] theorem NoticeUnit.setAnnounce_lowestFree (y : Subject) (a : Announce) :
    (n.setAnnounce y a).LowestFree slot ↔ n.LowestFree slot := by
  simp [NoticeUnit.LowestFree, NoticeUnit.Free, NoticeUnit.Occupied]

@[simp] theorem NoticeUnit.setAnnounce_full (y : Subject) (a : Announce) : (n.setAnnounce y a).Full ↔ n.Full := by
  simp [NoticeUnit.Full, NoticeUnit.Occupied]

@[simp] theorem NoticeUnit.setAnnounce_displaceable (y : Subject) (a : Announce) :
    (n.setAnnounce y a).Displaceable level x ↔ n.Displaceable level x := by
  simp [NoticeUnit.Displaceable]

/-- A CLEARED is owed as OWED_CLEAR, a fault kind as OWED_FAULT (R155). -/
theorem NoticeKind.owed_eq (kind : NoticeKind) :
    kind.owed = if kind = .cleared then .owedClear else .owedFault kind := by
  cases kind <;> rfl

/-- Removing a notice from its slot leaves the announce states. -/
theorem NoticeUnit.announceOf_removeSlot (n : NoticeUnit) (slot : Fin 16) (y : Subject) :
    (n.removeSlot slot).announceOf y = n.announceOf y := by
  cases y <;> rfl

/-! ## Placing -/

/-- The subject of a notice that takes a slot is QUEUED, and every other subject keeps its announce state. -/
theorem NoticeUnit.announceOf_occupy (n : NoticeUnit) (y : Subject) :
    (n.occupy slot subject kind level).announceOf y = if y = subject then .queued else n.announceOf y := by
  unfold NoticeUnit.occupy
  rw [NoticeUnit.announceOf_setAnnounce]
  cases y <;> rfl

/-- A notice as it is placed in a slot: PENDING, with the arrival counter's value (R156, R157). -/
def NoticeUnit.newNotice (n : NoticeUnit) (slot : Fin 16) (subject : Subject) (kind : NoticeKind) (level : Nat) :
    Notice :=
  { slot := slot, subject := subject, kind := kind, level := level, service := .pending, arrival := n.counter }

/-- A state differs from another one by a new notice in a slot, in place of what was there, with its subject QUEUED; the
announce states of the other subjects are those of the unit `from_`. -/
def State.Placed (s : State) (subject : Subject) (from_ : NoticeUnit) (t : State) (slot : Fin 16) (kind : NoticeKind)
    (level : Nat) : Prop :=
  t = { s with notices := t.notices } ∧
    (∀ y, y ∈ t.notices.queue ↔
      (y ∈ s.notices.queue ∧ y.slot ≠ slot) ∨ y = s.notices.newNotice slot subject kind level) ∧
    t.notices.counter = s.notices.counter + 1 ∧ t.notices.stack = s.notices.stack ∧
    t.notices.scanDue = s.notices.scanDue ∧
    ∀ x, t.notices.announceOf x = if x = subject then .queued else from_.announceOf x

/-- A new notice that occupies a slot is placed, also in a unit that differs by what the slot held and by announce
states. -/
theorem State.placed_occupy {from_ : NoticeUnit}
    (queue : ∀ y, y ∈ m.queue ↔ y ∈ s.notices.queue ∧ y.slot ≠ slot) (counter : m.counter = s.notices.counter)
    (stack : m.stack = s.notices.stack) (scanDue : m.scanDue = s.notices.scanDue)
    (announce : ∀ x, x ≠ subject → m.announceOf x = from_.announceOf x) :
    s.Placed subject from_ (s.updNotices fun _ => m.occupy slot subject kind level) slot kind level := by
  refine ⟨rfl, fun y => ?_, ?_, ?_, ?_, fun x => ?_⟩
  · simp [NoticeUnit.occupy, NoticeUnit.newNotice, mem_insertNotice, queue, counter, or_comm]
  · simp [NoticeUnit.occupy, counter]
  · simp [NoticeUnit.occupy, stack]
  · simp [NoticeUnit.occupy, scanDue]
  · rw [State.updNotices_notices, NoticeUnit.announceOf_occupy]
    split
    · rfl
    · exact announce x ‹_›

/-- With a free slot, the notice takes the lowest one (R157). -/
theorem NoticeUnit.place_of_free (free : n.LowestFree slot) :
    n.place subject kind level = n.occupy slot subject kind level := by
  simp [NoticeUnit.place, NoticeUnit.freeSlot_of_lowestFree free]

/-- In a full queue, the notice takes the slot of the one that it displaces, whose subject is then owed (R158). -/
theorem NoticeUnit.place_of_displacing (full : n.Full) (displaced : n.victim level = some v) :
    n.place subject kind level =
      ((n.removeSlot v.slot).setAnnounce v.subject v.kind.owed).occupy v.slot subject kind level := by
  simp [NoticeUnit.place, NoticeUnit.freeSlot_of_full full, displaced]

/-- In a full queue where nothing is displaced, the subject is owed (R157). -/
theorem NoticeUnit.place_of_full (full : n.Full) (spared : ∀ y, ¬ n.Displaceable level y) :
    n.place subject kind level = n.setAnnounce subject kind.owed := by
  simp [NoticeUnit.place, NoticeUnit.freeSlot_of_full full, NoticeUnit.victim_none spared]

/-! ## Raise-or-update -/

theorem State.raise_of_pending (held : s.notices.held subject = some x) (pending : x.service = .pending) :
    s.raise subject kind =
      s.updNotices fun n => n.updSlot x.slot fun y => { y with kind := kind, level := s.level subject kind } := by
  simp [State.raise, held, pending]

theorem State.raise_of_inService (held : s.notices.held subject = some x) (serving : x.service = .inService mark) :
    s.raise subject kind =
      s.updNotices fun n => n.updSlot x.slot fun y => { y with service := .inService (markOfRaise x.kind kind) } := by
  simp [State.raise, held, serving]

theorem State.raise_of_absent (absent : ∀ x ∈ s.notices.queue, x.subject ≠ subject) :
    s.raise subject kind = s.updNotices fun n => n.place subject kind (s.level subject kind) := by
  simp [State.raise, NoticeUnit.held_eq_none absent]

/-- A raise for a subject that holds no notice places one in the lowest free slot (R157). -/
theorem State.raise_placed_of_free (absent : ∀ x ∈ s.notices.queue, x.subject ≠ subject)
    (free : s.notices.LowestFree slot) :
    s.Placed subject s.notices (s.raise subject kind) slot kind (s.level subject kind) := by
  have ⟨empty, _⟩ := free
  rw [State.raise_of_absent absent]
  simp only [State.updNotices, NoticeUnit.place_of_free free]
  refine State.placed_occupy (fun y => ?_) rfl rfl rfl fun _ _ => rfl
  exact (and_iff_left_of_imp (empty y)).symm

/-- In a full queue it places one in the slot of the notice that it displaces (R158). -/
theorem State.raise_placed_of_displacing (absent : ∀ x ∈ s.notices.queue, x.subject ≠ subject) (full : s.notices.Full)
    (displaced : s.notices.victim (s.level subject kind) = some v) :
    s.Placed subject (s.notices.setAnnounce v.subject v.kind.owed) (s.raise subject kind) v.slot kind
      (s.level subject kind) := by
  rw [State.raise_of_absent absent]
  simp only [State.updNotices, NoticeUnit.place_of_displacing full displaced]
  refine State.placed_occupy (fun y => ?_) (NoticeUnit.setAnnounce_counter ..) (NoticeUnit.setAnnounce_stack ..)
    (NoticeUnit.setAnnounce_scanDue ..) fun x _ => ?_
  · simp [NoticeUnit.removeSlot]
  · simp only [NoticeUnit.announceOf_setAnnounce, NoticeUnit.announceOf_removeSlot]

/-! ## Resolve -/

theorem State.resolve_of_pending (held : s.notices.held subject = some x) (pending : x.service = .pending) :
    s.resolve subject =
      if x.kind = .cleared then s else s.updNotices fun n => n.withdrawPending x .none := by
  simp [State.resolve, held, pending]

theorem State.resolve_of_inService (held : s.notices.held subject = some x) (serving : x.service = .inService mark) :
    s.resolve subject =
      s.updNotices fun n => n.updSlot x.slot fun y => { y with service := .inService (markOfResolve x.kind) } := by
  simp [State.resolve, held, serving]

/-- What a removal by a resolve leaves of the notice unit, written out (R159, R163). -/
theorem NoticeUnit.withdrawPending_eq (n : NoticeUnit) (x : Notice) (a : Announce) :
    n.withdrawPending x a =
      { n.setAnnounce x.subject a with queue := n.queue.filter fun y => y.slot != x.slot, scanDue := true } := by
  unfold NoticeUnit.withdrawPending
  cases x.subject <;> rfl

theorem State.resolve_of_none (sound : s.NoticesSound)
    (nothing : s.notices.announceOf subject = .none ∨ s.notices.announceOf subject = .owedClear) :
    s.resolve subject = s := by
  rcases nothing with announce | announce
  · have held : s.notices.held subject = none := sound.held_eq_none (by simp [announce])
    simp [State.resolve, held, announce]
  · have held : s.notices.held subject = none := sound.held_eq_none (by simp [announce])
    simp [State.resolve, held, announce]

theorem State.resolve_of_owedFault (sound : s.NoticesSound)
    (owed : s.notices.announceOf subject = .owedFault kind) :
    s.resolve subject = s.updNotices fun n => n.setAnnounce subject .none := by
  have held : s.notices.held subject = none := sound.held_eq_none (by simp [owed])
  simp [State.resolve, held, owed]

/-- The resolve of an acknowledged fault owes a CLEARED and places it at once (R159). -/
theorem State.resolve_of_acked (sound : s.NoticesSound) (acked : s.notices.announceOf subject = .acked) :
    s.resolve subject = s.updNotices fun n => (n.setAnnounce subject .owedClear).place subject .cleared 1 := by
  have held : s.notices.held subject = none := sound.held_eq_none (by simp [acked])
  simp [State.resolve, held, acked]

/-- The CLEARED of an acknowledged subject stays owed in a full queue (R159). -/
theorem State.resolve_acked_of_full (sound : s.NoticesSound) (acked : s.notices.announceOf subject = .acked)
    (full : s.notices.Full) (spared : ∀ y, ¬ s.notices.Displaceable 1 y) :
    s.resolve subject = s.updNotices fun n => n.setAnnounce subject .owedClear := by
  have owed : (s.notices.setAnnounce subject .owedClear).place subject .cleared 1 =
      (s.notices.setAnnounce subject .owedClear).setAnnounce subject NoticeKind.cleared.owed :=
    NoticeUnit.place_of_full (by simpa using full) (by simpa using spared)
  rw [State.resolve_of_acked sound acked]
  simp only [State.updNotices, owed, NoticeUnit.setAnnounce_setAnnounce, NoticeKind.owed]

/-- The CLEARED of an acknowledged subject takes the lowest free slot (R159). -/
theorem State.resolve_acked_placed (sound : s.NoticesSound) (acked : s.notices.announceOf subject = .acked)
    (free : s.notices.LowestFree slot) :
    s.Placed subject s.notices (s.resolve subject) slot .cleared 1 := by
  have ⟨empty, _⟩ := free
  have placed : (s.notices.setAnnounce subject .owedClear).place subject .cleared 1 =
      (s.notices.setAnnounce subject .owedClear).occupy slot subject .cleared 1 :=
    NoticeUnit.place_of_free (by simpa using free)
  rw [State.resolve_of_acked sound acked]
  simp only [State.updNotices, placed]
  refine State.placed_occupy (fun y => ?_) (NoticeUnit.setAnnounce_counter ..) (NoticeUnit.setAnnounce_stack ..)
    (NoticeUnit.setAnnounce_scanDue ..) fun x other => ?_
  · rw [NoticeUnit.setAnnounce_queue]
    exact (and_iff_left_of_imp (empty y)).symm
  · rw [NoticeUnit.announceOf_setAnnounce, if_neg other]

end Machine

end Sys2Proof

open Sys2Proof Sys2Proof.Machine

/-- Settles O45, by what is held for the subject: a notice PENDING, one in service, or none; and then by the room in the
queue (raise) or by the announce state (resolve). -/
theorem noticeClaims : Obligations.NoticeClaims := by
  intro s subject sound n placed lowestFree full displaceable
  refine ⟨fun kind => ⟨fun x mem isOf pending => ?_, fun x mem mark isOf serving => ?_, fun absent => ⟨?_, ?_, ?_⟩⟩,
    fun x mem isOf pending => ?_, fun x mem mark isOf serving => ?_, ?_, ?_, fun acked => ⟨?_, ?_⟩⟩
  · exact State.raise_of_pending (sound.held_of_mem mem isOf) pending
  · exact State.raise_of_inService (sound.held_of_mem mem isOf) serving
  · exact fun slot free => State.raise_placed_of_free absent free
  · intro v isFull canGo first
    have displaced := NoticeUnit.victim_of_first canGo first
    have isPlaced := State.raise_placed_of_displacing absent isFull displaced
    rwa [NoticeKind.owed_eq] at isPlaced
  · intro isFull spared
    rw [State.raise_of_absent absent, ← NoticeKind.owed_eq, ← NoticeUnit.place_of_full isFull spared]
    rfl
  · rw [State.resolve_of_pending (sound.held_of_mem mem isOf) pending, ← isOf, ← NoticeUnit.withdrawPending_eq]
    rfl
  · exact State.resolve_of_inService (sound.held_of_mem mem isOf) serving
  · exact State.resolve_of_none sound
  · exact fun kind owed => State.resolve_of_owedFault sound owed
  · exact State.resolve_acked_of_full sound acked
  · exact fun slot free => State.resolve_acked_placed sound acked free

end

section
/-! SUPPORT. The invariants that the moves of Laws/Events.lean keep one by one: the bounds of the collections, the sample
lists, the shadows and the notice unit; and that a command always answers with a next state. For each invariant: which
fields it reads, and then its moves. -/

namespace Sys2Proof.Machine

/-! ## What a change within the claims leaves -/

section Claims

variable {s t : State} (same : t.outsideClaims = s.outsideClaims)

include same

theorem positions_of_outsideClaims : t.positions = s.positions := by rw [t.eq_of_outsideClaims same]

theorem samples_of_outsideClaims : t.samples = s.samples := by rw [t.eq_of_outsideClaims same]

theorem link_of_outsideClaims : t.link = s.link := by rw [t.eq_of_outsideClaims same]

theorem assembly_of_outsideClaims : t.assembly = s.assembly := by rw [t.eq_of_outsideClaims same]

theorem port_of_outsideClaims : t.port = s.port := by rw [t.eq_of_outsideClaims same]

theorem pending_of_outsideClaims : t.pending = s.pending := by rw [t.eq_of_outsideClaims same]

end Claims

/-! ## Every command answers next -/

/-- A command has one next state, whatever the state. -/
theorem exec_eq_next (c : Instr) (s : State) : ∃ t, exec c s = .next t := by
  cases c <;> exact ⟨_, rfl⟩

theorem step_eq_next (s : State) : ∃ t, step s = .next t := by
  unfold step
  split
  · exact exec_eq_next _ _
  · split
    · exact exec_eq_next _ _
    · exact ⟨_, rfl⟩

/-- No move of a command touches the commands that wait. -/
theorem pendingMoves (l : List Instr) : ExecMoves False (fun s => s.pending = l) where
  bounded _ impossible _ := impossible.elim
  raise s x k h := (pending_of_outsideClaims (s.raise_outsideClaims x k)).trans h
  resolve s x h := (pending_of_outsideClaims (s.resolve_outsideClaims x)).trans h
  departCircuit s p c h := (pending_of_outsideClaims (s.departCircuit_outsideClaims p c)).trans h
  withdrawCircuit s p c h := (pending_of_outsideClaims (s.withdrawCircuit_outsideClaims p c)).trans h
  scanSubject s x h := (pending_of_outsideClaims (s.scanSubject_outsideClaims x)).trans h
  scanMark _ _ h := h
  setCondition s f a _ h := (pending_of_outsideClaims (s.setCondition_outsideClaims f a)).trans h
  clearCondition s f h := (pending_of_outsideClaims (s.clearCondition_outsideClaims f)).trans h
  holdOutcome s p c o h := (pending_of_outsideClaims (s.holdOutcome_outsideClaims p c o)).trans h
  setCircuit _ _ _ _ _ _ _ _ h := h
  dropRecords _ _ h := h
  enroll _ _ _ _ _ h := h
  updPosition _ _ _ _ h := h
  startSampling _ _ _ h := h
  stopSampling _ _ h := h
  count _ _ _ _ h := h
  shrink _ _ _ _ h := h
  sampleSent _ _ _ h := h
  sampleTimer s p _ h := by
    rw [State.eq_of_outsideRoster _ (State.issueSample_outsideRoster _ p)]
    exact h
  offer s p w h := by
    rw [s.offer_eq]
    exact h
  updChannel _ _ _ _ h := h
  updLink _ _ _ _ _ h := h
  cut _ _ _ h := h
  setAssembly _ _ _ _ h := h
  drive _ _ _ h := h
  sampling _ _ h := h
  judging _ _ h := h
  holdTime _ _ h := h
  inputs _ _ _ _ h := h
  freeIndex _ _ h := h
  blur _ _ h := h
  port _ _ _ h := h
  accept _ _ _ h := h
  severity _ _ _ h := h
  levels _ _ _ h := h
  mask _ _ _ h := h
  taken _ h := h
  finish _ _ _ _ _ _ _ _ _ _ h := h
  repost _ _ _ _ _ _ _ _ _ _ h := h
  enterRest _ _ h := h
  rouse _ _ h := h
  blank _ _ _ _ h := h
  cleared _ _ h := h
  passAlways _ _ h := h
  passRun _ _ h := h

/-! ## Capacities -/

/-- The capacities bound three collections, so one that grows none of them keeps them. -/
theorem State.WithinCapacity.of_le {s t : State} (h : s.WithinCapacity)
    (posted : t.port.queue.length ≤ s.port.queue.length)
    (words : ∀ p, (t.link.channels.get p).queue.length ≤ (s.link.channels.get p).queue.length)
    (records : ∀ p, (t.samples.get p).list.length ≤ (s.samples.get p).list.length) : t.WithinCapacity := by
  obtain ⟨hq, hp⟩ := h
  exact ⟨Nat.le_trans posted hq, fun p => ⟨Nat.le_trans (words p) (hp p).1, Nat.le_trans (records p) (hp p).2⟩⟩

theorem State.WithinCapacity.of_claims {s t : State} (h : s.WithinCapacity)
    (same : t.outsideClaims = s.outsideClaims) : t.WithinCapacity :=
  h.of_le (Nat.le_of_eq (by rw [port_of_outsideClaims same]))
    (fun p => Nat.le_of_eq (by rw [link_of_outsideClaims same]))
    fun p => Nat.le_of_eq (by rw [samples_of_outsideClaims same])

/-- An offer to a queue of three is refused, so the capacity holds after it (R38). -/
theorem Channel.offered_length {c : Channel} (w : LinkWord) (h : c.queue.length ≤ 3) :
    (c.offered w).queue.length ≤ 3 := by
  unfold Channel.offered
  split
  · rename_i room
    have short : c.queue.length < 3 := ((Channel.accepts_iff c).1 room).2
    rw [List.length_append]
    exact short
  · exact h

theorem State.WithinCapacity.offer {s : State} (h : s.WithinCapacity) (p : Fin 4) (w : LinkWord) :
    (s.offer p w).WithinCapacity := by
  rw [s.offer_eq]
  refine ⟨h.1, fun q => ⟨?_, (h.2 q).2⟩⟩
  simp only [Four.get_modify]
  split
  · exact Channel.offered_length w (h.2 q).1
  · exact (h.2 q).1

/-- A change of one sampling state that does not lengthen its list. -/
theorem State.WithinCapacity.updSampling {s : State} (h : s.WithinCapacity) (p : Fin 4) (f : Sampling → Sampling)
    (shorter : (f (s.samples.get p)).list.length ≤ (s.samples.get p).list.length) :
    (s.updSampling p f).WithinCapacity := by
  refine h.of_le (Nat.le_refl _) (fun _ => Nat.le_refl _) fun q => ?_
  rw [State.updSampling_samples, Four.get_modify]
  split
  · rename_i e
    subst e
    exact shorter
  · exact Nat.le_refl _

/-- A sample is issued only to a list with fewer than two records (R86). -/
theorem State.WithinCapacity.issueSample {s : State} (h : s.WithinCapacity) (p : Fin 4) :
    (s.issueSample p).WithinCapacity := by
  by_cases room : s.canIssue p
  · rw [State.issueSample_of_canIssue room]
    obtain ⟨short, -, free⟩ := State.canIssue_iff.1 room
    refine ⟨h.1, fun q => ?_⟩
    simp only [State.updChannel_link, State.updSampling_link, State.updChannel_samples, State.updSampling_samples,
      Four.get_modify]
    split
    · rename_i here
      subst here
      simp only [List.length_append, List.length_singleton]
      omega
    · exact h.2 q
  · rw [State.issueSample_of_not_canIssue room]
    exact h

theorem State.WithinCapacity.updPort {s : State} (h : s.WithinCapacity) (f : PortControl → PortControl)
    (shorter : (f s.port).queue.length ≤ s.port.queue.length) : (s.updPort f).WithinCapacity :=
  h.of_le shorter (fun _ => Nat.le_refl _) fun _ => Nat.le_refl _

theorem State.WithinCapacity.updChannel {s : State} (h : s.WithinCapacity) (p : Fin 4) (f : Channel → Channel)
    (shorter : ∀ c, (f c).queue.length ≤ c.queue.length) : (s.updChannel p f).WithinCapacity := by
  refine h.of_le (Nat.le_refl _) (fun q => ?_) fun _ => Nat.le_refl _
  rw [State.updChannel_link, Four.get_modify]
  split
  · exact shorter _
  · exact Nat.le_refl _

/-- A command is accepted by a queue of fewer than four only (R140). -/
theorem State.WithinCapacity.accept {s : State} (h : s.WithinCapacity) (c : PostedCommand)
    (room : s.port.queue.length < 4) : (s.accept c).WithinCapacity := by
  refine ⟨?_, h.2⟩
  simp only [State.accept, State.updPort_port, List.length_append, List.length_singleton]
  omega

theorem capacityMoves : EventMoves False State.WithinCapacity where
  bounded _ impossible _ := impossible.elim
  raise s x k h := h.of_claims (s.raise_outsideClaims x k)
  resolve s x h := h.of_claims (s.resolve_outsideClaims x)
  departCircuit s p c h := h.of_claims (s.departCircuit_outsideClaims p c)
  withdrawCircuit s p c h := h.of_claims (s.withdrawCircuit_outsideClaims p c)
  scanSubject s x h := h.of_claims (s.scanSubject_outsideClaims x)
  scanMark _ _ h := h
  setCondition s f a _ h := h.of_claims (s.setCondition_outsideClaims f a)
  clearCondition s f h := h.of_claims (s.clearCondition_outsideClaims f)
  holdOutcome s p c o h := h.of_claims (s.holdOutcome_outsideClaims p c o)
  setCircuit _ _ _ _ _ _ _ _ h := h
  dropRecords _ _ h := h
  enroll _ _ _ _ _ h := h
  updPosition _ _ _ _ h := h
  startSampling _ p _ h := h.updSampling p _ (Nat.le_refl _)
  stopSampling _ p h := h.updSampling p _ (Nat.zero_le _)
  count _ p f keeps h := h.updSampling p f (Nat.le_of_eq (by rw [(keeps _).1]))
  shrink _ p _ part h := h.updSampling p _ part.length_le
  sampleSent _ p _ h := h.updSampling p _ (by simp)
  sampleTimer _ p _ h := (h.updSampling p _ (Nat.le_refl _)).issueSample p
  offer _ p w h := h.offer p w
  updChannel _ p f shorter h := h.updChannel p f shorter
  updLink _ _ _ shorter _ h := h.of_le (Nat.le_refl _) shorter fun _ => Nat.le_refl _
  cut _ _ _ h := h
  setAssembly _ _ _ _ h := h
  drive _ _ _ h := h
  sampling _ _ h := h
  judging _ _ h := h
  holdTime _ _ h := h
  inputs _ _ _ _ h := h
  freeIndex _ _ h := h
  blur _ _ h := h.of_le (Nat.le_refl _) (fun _ => Nat.le_refl _) fun q => by simp [State.blur]
  port _ f shorter h := h.updPort f shorter
  accept _ c room h := h.accept c room
  severity _ _ _ h := h
  levels _ _ _ h := h
  mask _ _ _ h := h
  taken _ h := h
  finish _ _ _ _ _ _ _ _ _ _ h := h
  repost _ _ _ _ _ _ _ _ _ _ h := h
  enterRest _ _ h := h.of_le (Nat.le_refl _) (fun q => by simp [State.enterRest, State.enter, Channel.atRest])
    fun q => by simp [State.enterRest, State.enter]
  rouse _ _ h := h.of_le (Nat.le_refl _) (fun q => by simp [State.roused, State.enterIdle, State.enter])
    fun _ => Nat.le_refl _
  blank _ _ _ _ _ := ⟨Nat.zero_le _, fun q => by simp [State.blank, Link.initial, Channel.initial, Sampling.initial]⟩
  cleared _ _ _ := ⟨by simp [State.cleared], fun q => by simp [State.cleared, Channel.restart, Sampling.initial]⟩
  passAlways _ _ h := h
  passRun _ _ h := h.of_le (Nat.le_refl _) (fun q => by simp [State.passRun])
    fun q => by simp [State.passRun, Sampling.passRun]
  pending _ _ h := h

end Sys2Proof.Machine

open Sys2Proof Sys2Proof.Machine

/-- Settles O3: no arm of `exec` faults or refuses, and no move of a command touches the commands that wait. -/
theorem everyCommandAnswersNext : Obligations.EveryCommandAnswersNext := by
  refine ⟨fun c s => ?_, step_eq_next⟩
  obtain ⟨t, answer⟩ := exec_eq_next c s
  exact ⟨t, answer, (pendingMoves s.pending).exec rfl answer⟩

/-- Settles O9, by the moves of a step. -/
theorem stepKeepsWithinCapacity : Obligations.StepKeepsWithinCapacity :=
  fun _ _ within moved => capacityMoves.step within moved

end

section
/-! SUPPORT. The sample lists: a list is read by its tags, so what keeps the tags of a list, or drops some, keeps it. -/

namespace Sys2Proof.Machine

/-- The tags of a sample list, oldest first. -/
def Sampling.tags (m : Sampling) : List (BitVec 4) := m.list.map SampleRecord.tag

/-- What is kept of one position's sampling state, with whether the position is ENROLLED or MUTE (R84). -/
def Sampling.Kept (m : Sampling) (accepted : Bool) : Prop :=
  m.list.length ≤ 2 ∧ m.list.Pairwise (fun x y => x.tag ≠ y.tag) ∧ (m.list ≠ [] ∨ m.timer ≠ none → accepted = true)

theorem State.samplesKept_iff (s : State) :
    s.SamplesKept ↔ ∀ p, (s.samples.get p).Kept (s.positions.get p).state.accepted := Iff.rfl

variable {m m' : Sampling} {accepted accepted' : Bool} {s t : State} {p : Fin 4}

theorem Sampling.kept_iff_tags :
    m.Kept accepted ↔ m.tags.length ≤ 2 ∧ m.tags.Nodup ∧ (m.tags ≠ [] ∨ m.timer ≠ none → accepted = true) := by
  simp [Sampling.Kept, Sampling.tags, List.Nodup, List.pairwise_map]

/-- A list that loses records or keeps its tags, with a timer that runs only where it ran. -/
theorem Sampling.Kept.of_tags (h : m.Kept accepted) (part : m'.tags.Sublist m.tags)
    (timer : m'.timer ≠ none → m.timer ≠ none) : m'.Kept accepted := by
  rw [Sampling.kept_iff_tags] at h ⊢
  obtain ⟨short, distinct, sampled⟩ := h
  refine ⟨Nat.le_trans part.length_le short, distinct.sublist part, fun active => sampled ?_⟩
  rcases active with records | running
  · exact Or.inl fun none => records (List.sublist_nil.1 (none ▸ part))
  · exact Or.inr (timer running)

theorem Sampling.Kept.of_same_tags (h : m.Kept accepted) (same : m'.tags = m.tags)
    (timer : m'.timer ≠ none → m.timer ≠ none) : m'.Kept accepted :=
  h.of_tags (same ▸ List.Sublist.refl _) timer

/-- At a position that is ENROLLED or MUTE only the list counts. -/
theorem Sampling.Kept.of_accepted (h : m.Kept accepted) (same : m'.list = m.list) : m'.Kept true := by
  obtain ⟨short, distinct, -⟩ := h
  exact ⟨by rwa [same], by rwa [same], fun _ => rfl⟩

theorem Sampling.kept_of_stopped (empty : m.list = []) (stopped : m.timer = none) : m.Kept accepted := by
  simp [Sampling.Kept, empty, stopped]

theorem Sampling.kept_initial : Sampling.initial.Kept accepted := Sampling.kept_of_stopped rfl rfl

/-- A new record has a tag that no record of a list of at most one has (R87). -/
theorem Sampling.newTag_not_mem (short : m.list.length < 2) : m.newTag ∉ m.tags := by
  match list : m.list with
  | [] => simp [Sampling.tags, list]
  | [r] =>
    simp only [Sampling.newTag, Sampling.tags, list, List.any_cons, List.any_nil, Bool.or_false, List.map_cons,
      List.map_nil, List.mem_singleton]
    split
    · rename_i same
      rw [beq_iff_eq.1 same]
      bv_omega
    · rename_i other
      exact fun same => other (beq_iff_eq.2 same.symm)
  | _ :: _ :: _ =>
    simp only [list, List.length_cons] at short
    omega

/-! ## The moves -/

theorem State.SamplesKept.kept (h : s.SamplesKept) (p : Fin 4) :
    (s.samples.get p).Kept (s.positions.get p).state.accepted := h p

theorem State.SamplesKept.of_eq (h : s.SamplesKept) (samples : t.samples = s.samples)
    (positions : t.positions = s.positions) : t.SamplesKept := by
  unfold State.SamplesKept
  rw [samples, positions]
  exact h

theorem State.SamplesKept.of_claims (h : s.SamplesKept) (same : t.outsideClaims = s.outsideClaims) : t.SamplesKept :=
  h.of_eq (samples_of_outsideClaims same) (positions_of_outsideClaims same)

/-- A change of one sampling state that the position's state allows. -/
theorem State.SamplesKept.updSampling (h : s.SamplesKept) (p : Fin 4) (f : Sampling → Sampling)
    (keeps : (f (s.samples.get p)).Kept (s.positions.get p).state.accepted) : (s.updSampling p f).SamplesKept := by
  rw [State.samplesKept_iff] at h ⊢
  intro q
  rw [State.updSampling_samples, State.updSampling_positions, Four.get_modify]
  split
  · rename_i here
    subst here
    exact keeps
  · exact h q

/-- A position may leave ENROLLED and MUTE only with its sampling stopped. -/
theorem State.SamplesKept.updPosition (h : s.SamplesKept) (p : Fin 4) (f : Position → Position)
    (allowed : (f (s.positions.get p)).state.accepted = (s.positions.get p).state.accepted ∨
      (f (s.positions.get p)).state.accepted = true ∨ s.stoppedAt p) : (s.updPosition p f).SamplesKept := by
  rw [State.samplesKept_iff] at h ⊢
  intro q
  rw [State.updPosition_samples, State.updPosition_positions, Four.get_modify]
  split
  · rename_i here
    subst here
    rcases allowed with same | accepted | ⟨empty, stopped⟩
    · rw [same]
      exact h q
    · rw [accepted]
      exact (h q).of_accepted rfl
    · exact Sampling.kept_of_stopped empty stopped
  · exact h q

/-- The restart of a running sample timer with the attempt to issue a sample (R86, R87). -/
theorem State.SamplesKept.sampleTimer (h : s.SamplesKept) (p : Fin 4) (running : (s.samples.get p).timer.isSome = true) :
    ((s.startSampling p).issueSample p).SamplesKept := by
  obtain ⟨short, distinct, sampled⟩ := h p
  have accepted : (s.positions.get p).state.accepted = true := sampled (Or.inr (Option.isSome_iff_ne_none.1 running))
  have started : (s.startSampling p).SamplesKept :=
    h.updSampling p _ (accepted ▸ (h.kept p).of_accepted rfl)
  by_cases room : (s.startSampling p).canIssue p
  · rw [State.issueSample_of_canIssue room]
    refine State.SamplesKept.of_eq (t := State.updChannel _ _ _) (started.updSampling p
      (fun m => { m with list := m.list ++ [{ tag := _, outstanding := none }], nextTag := _ }) ?_) rfl rfl
    have room' : ((s.startSampling p).samples.get p).list.length < 2 := room.1
    have fresh := Sampling.newTag_not_mem room'
    obtain ⟨-, distinct', -⟩ := Sampling.kept_iff_tags.1 (started p)
    refine Sampling.kept_iff_tags.2 ⟨?_, ?_, fun _ => accepted⟩
    · simp only [Sampling.tags, List.length_map, List.length_append]
      exact room'
    · simpa [Sampling.tags, List.nodup_append] using And.intro distinct' fresh
  · rw [State.issueSample_of_not_canIssue room]
    exact started

theorem samplesMoves : EventMoves False State.SamplesKept where
  bounded _ impossible _ := impossible.elim
  raise s x k h := h.of_claims (s.raise_outsideClaims x k)
  resolve s x h := h.of_claims (s.resolve_outsideClaims x)
  departCircuit s p c h := h.of_claims (s.departCircuit_outsideClaims p c)
  withdrawCircuit s p c h := h.of_claims (s.withdrawCircuit_outsideClaims p c)
  scanSubject s x h := h.of_claims (s.scanSubject_outsideClaims x)
  scanMark _ _ h := h
  setCondition s f a _ h := h.of_claims (s.setCondition_outsideClaims f a)
  clearCondition s f h := h.of_claims (s.clearCondition_outsideClaims f)
  holdOutcome s p c o h := h.of_claims (s.holdOutcome_outsideClaims p c o)
  setCircuit _ _ _ _ _ _ _ _ h := h
  dropRecords _ p h := h.updPosition p _ (Or.inl rfl)
  enroll _ p _ _ _ h := h.updPosition p _ (Or.inl rfl)
  updPosition _ p f allowed h := h.updPosition p f allowed
  startSampling _ p accepted h := h.updSampling p _ (accepted ▸ (h.kept p).of_accepted rfl)
  stopSampling _ p h := h.updSampling p _ (Sampling.kept_of_stopped rfl rfl)
  count _ p f keeps h := h.updSampling p f
    ((h.kept p).of_same_tags (by simp [Sampling.tags, keeps]) (by simp [keeps]))
  shrink _ p _ part h := h.updSampling p _ ((h.kept p).of_tags (part.map _) id)
  sampleSent _ p _ h := h.updSampling p _ ((h.kept p).of_same_tags (by
    simp only [Sampling.tags, List.map_map]
    refine List.map_congr_left fun r _ => ?_
    simp only [Function.comp]
    split <;> rfl) id)
  sampleTimer _ p running h := h.sampleTimer p running
  offer s p w h := by
    rw [s.offer_eq]
    exact h
  updChannel _ _ _ _ h := h
  updLink _ _ _ _ _ h := h
  cut _ _ _ h := h
  setAssembly _ _ _ _ h := h
  drive _ _ _ h := h
  sampling _ _ h := h
  judging _ _ h := h
  holdTime _ _ h := h
  inputs _ _ _ _ h := h
  freeIndex _ _ h := h
  blur s f h := (State.samplesKept_iff _).2 fun p => by
    simp only [State.blur, Four.get_map]
    refine (h.kept p).of_same_tags ?_ id
    simp [Sampling.tags, SampleRecord.blurred]
  port _ _ _ h := h
  accept _ _ _ h := h
  severity _ _ _ h := h
  levels _ _ _ h := h
  mask _ _ _ h := h
  taken _ h := h
  finish _ _ _ _ _ _ _ _ _ _ h := h
  repost _ _ _ _ _ _ _ _ _ _ h := h
  enterRest s _ h := (State.samplesKept_iff _).2 fun p => by
    have state : ((s.positions.get p).atRest).state = (s.positions.get p).state := by
      unfold Position.atRest
      split <;> rfl
    simp only [State.enterRest, State.enter, State.updLink, Four.get_map, state]
    refine (h.kept p).of_tags ?_ id
    simp [Sampling.tags]
  rouse _ _ h := h
  blank _ _ _ _ _ := (State.samplesKept_iff _).2 fun p => by
    simp only [State.blank, Four.get_all]
    exact Sampling.kept_initial
  cleared _ _ _ := (State.samplesKept_iff _).2 fun p => by
    simp only [State.cleared, Four.get_all]
    exact Sampling.kept_initial
  passAlways _ _ h := (State.samplesKept_iff _).2 fun p => by
    simp only [State.passAlways, Four.get_map]
    exact h p
  passRun _ _ h := (State.samplesKept_iff _).2 fun p => by
    simp only [State.passRun, Four.get_map]
    refine (h.kept p).of_same_tags ?_ ?_
    · simp [Sampling.tags, Sampling.passRun, SampleRecord.passRun]
    · simp only [Sampling.passRun, runTimer]
      simp
  pending _ _ h := h

end Sys2Proof.Machine

open Sys2Proof Sys2Proof.Machine

/-- Settles O10, by the moves of a step. -/
theorem stepKeepsSamples : Obligations.StepKeepsSamples := fun _ _ kept moved => samplesMoves.step kept moved

end

section
/-! SUPPORT. The notice unit stays in order: the claims of the attribution unit and the settings, and then the moves. -/

namespace Sys2Proof.Machine

variable {s : State}

/-- A shadow claim sends a resolve at most (R117). -/
theorem State.shadowOf_sound (f : Fin 8) (p : Fin 4) (c : Fin 12) (h : s.NoticesSound) :
    (s.shadowOf f p c).NoticesSound := by
  unfold State.shadowOf State.shadow
  dsimp only
  repeat' split
  all_goals first | exact h | exact State.resolve_sound _ _ h

theorem State.shadowWhere_sound (f : Fin 8) (covered : Fin 4 → Bool) (h : s.NoticesSound) :
    (s.shadowWhere f covered).NoticesSound :=
  Moves.fold (P := State.NoticesSound) _
    (fun _ p h => Moves.fold (P := State.NoticesSound) _ (fun _ c h => State.shadowOf_sound f p c h) _ h) _ h

theorem State.feedClaim_sound (f : Fin 8) (before after : FeedCondition) (h : s.NoticesSound) :
    (s.feedClaim f before after).NoticesSound := by
  unfold State.feedClaim
  repeat' split
  all_goals first | exact h | exact State.resolve_sound _ _ h | exact State.raise_sound _ _ _ h

theorem State.setCondition_sound (f : Fin 8) (after : FeedCondition) (h : s.NoticesSound) :
    (s.setCondition f after).NoticesSound :=
  State.feedClaim_sound f _ _ (State.shadowWhere_sound (s := s.setFeed f after) f _ h)

theorem State.clearCondition_sound (f : Fin 8) (h : s.NoticesSound) : (s.clearCondition f).NoticesSound :=
  State.resolve_sound ((s.setFeed f .none).unshadow f) _ h

/-- A hold outcome raises the circuit's FEED_LOSS at most (R116). -/
theorem State.holdOutcome_sound (p : Fin 4) (c : Fin 12) (outcome : Hold) (h : s.NoticesSound) :
    (s.holdOutcome p c outcome).NoticesSound := by
  unfold State.holdOutcome
  dsimp only
  repeat' split
  all_goals first | exact h | exact State.raise_sound _ _ _ h

/-- After both resets no notice is held. -/
theorem NoticeUnit.restart_sound (n : NoticeUnit) : n.restart.Sound :=
  n.restart.sound_of_empty rfl rfl rfl

theorem noticesMoves : EventMoves False State.NoticesSound where
  bounded _ impossible _ := impossible.elim
  raise s x k h := s.raise_sound x k h
  resolve s x h := s.resolve_sound x h
  departCircuit s p c h := s.departCircuit_sound p c h
  withdrawCircuit s p c h := s.withdrawCircuit_sound p c h
  scanSubject s x h := s.scanSubject_sound x h
  scanMark _ b h := NoticeUnit.Sound.setScan h b
  setCondition _ f a _ h := State.setCondition_sound f a h
  clearCondition _ f h := State.clearCondition_sound f h
  holdOutcome _ p c o h := State.holdOutcome_sound p c o h
  setCircuit _ _ _ _ _ _ _ _ h := h
  dropRecords _ _ h := h
  enroll _ _ _ _ _ h := h
  updPosition _ _ _ _ h := h
  startSampling _ _ _ h := h
  stopSampling _ _ h := h
  count _ _ _ _ h := h
  shrink _ _ _ _ h := h
  sampleSent _ _ _ h := h
  sampleTimer s p _ h := by
    by_cases room : (s.startSampling p).canIssue p
    · rw [State.issueSample_of_canIssue room]
      exact h
    · rw [State.issueSample_of_not_canIssue room]
      exact h
  offer s p w h := by
    rw [s.offer_eq]
    exact h
  updChannel _ _ _ _ h := h
  updLink _ _ _ _ _ h := h
  cut _ _ _ h := h
  setAssembly _ _ _ _ h := h
  drive _ _ _ h := h
  sampling _ _ h := h
  judging _ _ h := h
  holdTime _ _ h := h
  inputs _ _ _ _ h := h
  freeIndex _ _ h := h
  blur _ _ h := h
  port _ _ _ h := h
  accept _ _ _ h := h
  severity s f v h := State.relevel_sound (s.updNotices fun n => { n with severity := n.severity.set f v }) _ h
  levels s a b h := State.relevel_sound (s.updNotices fun n => { n with positionLevel := a, detectLevel := b }) _ h
  mask _ _ _ h := h
  taken _ h := NoticeUnit.Sound.taken h
  finish _ _ _ _ _ a top lies _ ended h := NoticeUnit.Sound.finish h top lies (by rcases ended with rfl | rfl <;> simp)
  repost _ _ _ _ _ k v top lies _ h := NoticeUnit.Sound.repost h top lies k v
  enterRest _ _ h := h
  rouse _ _ h := h
  blank _ _ _ _ _ := NoticeUnit.initial.sound_of_empty rfl rfl rfl
  cleared s _ _ := s.notices.restart_sound
  passAlways _ _ h := h
  passRun _ _ h := h
  pending _ _ h := h

end Sys2Proof.Machine

open Sys2Proof Sys2Proof.Machine

/-- Settles O13, by the moves of a step. -/
theorem stepKeepsNotices : Obligations.StepKeepsNotices := fun _ _ sound moved => noticesMoves.step sound moved

end

section
/-! SUPPORT. The shadows: a verdict is SHADOWED exactly under a covering condition. What the attribution unit's claims do
to one record, and then the moves. -/

namespace Sys2Proof.Machine

variable {s t : State} {p : Fin 4}

/-- The records of one position agree with the conditions of their feeds (R124, R100). -/
def Agree (feeds : Eight FeedCondition) (p : Fin 4) (records : List Circuit) : Prop :=
  records.length ≤ 12 ∧ ∀ r ∈ records, (r.verdict = .shadowed ↔ (feeds.get r.feed).covers p = true)

theorem State.shadowsAgree_iff :
    s.ShadowsAgree ↔ s.AssembliesBounded ∧ ∀ p, Agree s.feeds p (s.circuits.get p) := Iff.rfl

theorem State.ShadowsAgree.of_eq (h : s.ShadowsAgree) (assembly : t.assembly = s.assembly)
    (cut : t.link.cut = s.link.cut) (circuits : t.circuits = s.circuits) (feeds : t.feeds = s.feeds) :
    t.ShadowsAgree := by
  unfold State.ShadowsAgree State.AssembliesBounded
  rw [assembly, cut, circuits, feeds]
  exact h

theorem State.ShadowsAgree.of_notices (h : s.ShadowsAgree) (same : t.outsideNotices = s.outsideNotices) :
    t.ShadowsAgree := by
  rw [t.eq_of_outsideNotices same]
  exact h

/-- A change of feed records and circuit table that leaves the assembly records. -/
theorem State.ShadowsAgree.of_claims (h : s.ShadowsAgree) (same : t.outsideClaims = s.outsideClaims)
    (agree : ∀ p, Agree t.feeds p (t.circuits.get p)) : t.ShadowsAgree := by
  refine ⟨?_, agree⟩
  rw [State.AssembliesBounded, assembly_of_outsideClaims same, link_of_outsideClaims same]
  exact h.1

theorem State.ShadowsAgree.offer (h : s.ShadowsAgree) (p : Fin 4) (w : LinkWord) : (s.offer p w).ShadowsAgree := by
  rw [s.offer_eq]
  exact h

/-! ## Conditions -/

/-- A written condition that covers what was covered (R124, R126): the circuits that it newly covers are shadowed. -/
theorem State.ShadowsAgree.setCondition (h : s.ShadowsAgree) (f : Fin 8) (after : FeedCondition)
    (wider : ∀ q, (s.feeds.get f).covers q = true → after.covers q = true) : (s.setCondition f after).ShadowsAgree := by
  refine h.of_claims (s.setCondition_outsideClaims f after) fun p => ?_
  obtain ⟨few, agree⟩ := h.2 p
  rw [State.setCondition_circuits s f after p few, State.setCondition_feeds]
  split
  · rename_i newly
    obtain ⟨covered, before⟩ : after.covers p = true ∧ (s.feeds.get f).covers p = false := by simpa using newly
    refine ⟨by simpa using few, fun r mem => ?_⟩
    obtain ⟨old, memOld, rfl⟩ := List.mem_map.1 mem
    have feed : (old.shadowedBy f).feed = old.feed := by
      unfold Circuit.shadowedBy
      split <;> rfl
    rw [feed, Eight.get_set]
    by_cases isOf : old.feed = f
    · have shadowed : (old.shadowedBy f).verdict = .shadowed := by
        unfold Circuit.shadowedBy
        split
        · rfl
        · simp_all [Circuit.isOf]
      simp [isOf, shadowed, covered]
    · have same : old.shadowedBy f = old := by simp [Circuit.shadowedBy, Circuit.isOf, isOf]
      rw [same, if_neg isOf]
      exact agree old memOld
  · rename_i notNewly
    refine ⟨few, fun r mem => ?_⟩
    rw [Eight.get_set, agree r mem]
    split
    · rename_i isOf
      rw [isOf]
      exact ⟨wider p, fun covered => by simpa [covered] using notNewly⟩
    · rfl

/-- A cleared condition covers nothing, and its circuits are no longer SHADOWED (R127). -/
theorem State.ShadowsAgree.clearCondition (h : s.ShadowsAgree) (f : Fin 8) : (s.clearCondition f).ShadowsAgree := by
  refine h.of_claims (s.clearCondition_outsideClaims f) fun p => ?_
  obtain ⟨few, agree⟩ := h.2 p
  rw [State.clearCondition_circuits, State.clearCondition_feeds, Four.get_map]
  refine ⟨by simpa using few, fun r mem => ?_⟩
  obtain ⟨old, memOld, rfl⟩ := List.mem_map.1 mem
  have feed : (old.unshadow f).feed = old.feed := by
    unfold Circuit.unshadow
    split <;> rfl
  rw [feed, Eight.get_set]
  by_cases isOf : old.feed = f
  · have lit : (old.unshadow f).verdict ≠ .shadowed := by
      unfold Circuit.unshadow
      split
      · simp
      · simp_all [Circuit.isOf]
    simp [isOf, lit, FeedCondition.covers]
  · have same : old.unshadow f = old := by simp [Circuit.unshadow, Circuit.isOf, isOf]
    rw [same, if_neg isOf]
    exact agree old memOld

/-! ## Records -/

/-- A record written over one of the same feed that is SHADOWED when that is. -/
theorem State.ShadowsAgree.setCircuit (h : s.ShadowsAgree) {p : Fin 4} {c : Fin 12} {r r' : Circuit}
    (present : s.circuit p c = some r) (feed : r'.feed = r.feed)
    (shadowed : r'.verdict = .shadowed ↔ r.verdict = .shadowed) : (s.setCircuit p c r').ShadowsAgree := by
  refine h.of_claims rfl fun q => ?_
  simp only [State.setCircuit, State.setCircuits, Four.get_set]
  split
  · rename_i here
    subst here
    obtain ⟨few, agree⟩ := h.2 q
    refine ⟨by simpa using few, fun x mem => ?_⟩
    rcases List.mem_or_eq_of_mem_set mem with old | rfl
    · exact agree x old
    · rw [shadowed, feed]
      exact agree r (List.mem_of_getElem? present)
  · exact h.2 q

/-- The hold of a lost circuit is no matter of shadows (R116). -/
theorem State.ShadowsAgree.holdOutcome (h : s.ShadowsAgree) (p : Fin 4) (c : Fin 12) (outcome : Hold) :
    (s.holdOutcome p c outcome).ShadowsAgree := by
  unfold State.holdOutcome
  split
  · rename_i r present
    split
    · rename_i candidate hold lost
      have written := h.setCircuit (r' := { r with verdict := .fault .feedLoss candidate (some outcome) }) present rfl
        (by simp [lost])
      dsimp only
      split
      · exact written.of_notices (State.raise_outsideNotices _ _ _)
      · exact written
    all_goals exact h
  · exact h

theorem State.ShadowsAgree.setCircuits (h : s.ShadowsAgree) (p : Fin 4) (records : List Circuit)
    (agree : Agree s.feeds p records) : (s.setCircuits p records).ShadowsAgree := by
  refine h.of_claims rfl fun q => ?_
  simp only [State.setCircuits, Four.get_set]
  split
  · rename_i here
    subst here
    exact agree
  · exact h.2 q

/-- A new enrollment takes its verdicts from the conditions as they stand (R77). -/
theorem State.ShadowsAgree.enroll (h : s.ShadowsAgree) (p : Fin 4) (serial : BitVec 24) (defs : List CircuitDef)
    (few : defs.length ≤ 12) : (s.enroll p serial defs).ShadowsAgree := by
  refine State.ShadowsAgree.of_eq (s := s.setCircuits p _) (h.setCircuits p _ ⟨by simpa using few, fun r mem => ?_⟩)
    rfl rfl rfl rfl
  obtain ⟨d, -, rfl⟩ := List.mem_map.1 mem
  simp [CircuitDef.record]

/-- After both resets there is no record, no assembly and no condition. -/
theorem State.shadowsAgree_of_empty (assembly : s.assembly = Four.all .idle) (cut : s.link.cut = none)
    (circuits : s.circuits = Four.all []) : s.ShadowsAgree := by
  refine ⟨⟨fun p => ?_, fun a cutIs => ?_⟩, fun p => ?_⟩
  · rw [assembly, Four.get_all]
    trivial
  · simp [cut] at cutIs
  · simp [circuits]

/-- Time shortens a gap timer only. -/
theorem Assembly.Bounded.passRun {a : Assembly} (h : a.Bounded) : a.passRun.Bounded := by
  cases a <;> exact h

theorem shadowsMoves : EventMoves True State.ShadowsAgree where
  bounded _ _ h := h.1
  raise s x k h := h.of_notices (s.raise_outsideNotices x k)
  resolve s x h := h.of_notices (s.resolve_outsideNotices x)
  departCircuit s p c h := h.of_notices (s.departCircuit_outsideNotices p c)
  withdrawCircuit s p c h := h.of_notices (s.withdrawCircuit_outsideNotices p c)
  scanSubject s x h := h.of_notices (s.scanSubject_outsideNotices x)
  scanMark _ _ h := h
  setCondition _ f a wider h := h.setCondition f a wider
  clearCondition _ f h := h.clearCondition f
  holdOutcome _ p c o h := h.holdOutcome p c o
  setCircuit _ _ _ _ _ present feed shadowed h := h.setCircuit present feed shadowed
  dropRecords _ p h := h.setCircuits p [] ⟨Nat.zero_le _, fun _ none => absurd none List.not_mem_nil⟩
  enroll _ p serial defs few h := h.enroll p serial defs (few trivial)
  updPosition _ _ _ _ h := h
  startSampling _ _ _ h := h
  stopSampling _ _ h := h
  count _ _ _ _ h := h
  shrink _ _ _ _ h := h
  sampleSent _ _ _ h := h
  sampleTimer s p _ h := by
    by_cases room : (s.startSampling p).canIssue p
    · rw [State.issueSample_of_canIssue room]
      exact h
    · rw [State.issueSample_of_not_canIssue room]
      exact h
  offer _ p w h := h.offer p w
  updChannel _ _ _ _ h := h
  updLink _ _ _ _ cut h := h.of_eq rfl cut rfl rfl
  cut _ _ within h := ⟨⟨h.1.1, fun x isCut => within trivial x isCut⟩, h.2⟩
  setAssembly _ p a within h := by
    refine ⟨⟨fun q => ?_, h.1.2⟩, h.2⟩
    simp only [State.setAssembly, Four.get_set]
    split
    · exact within trivial
    · exact h.1.1 q
  drive _ _ _ h := h
  sampling _ _ h := h
  judging _ _ h := h
  holdTime _ _ h := h
  inputs _ _ _ _ h := h
  freeIndex _ _ h := h
  blur _ _ h := h
  port _ _ _ h := h
  accept _ _ _ h := h
  severity _ _ _ h := h
  levels _ _ _ h := h
  mask _ _ _ h := h
  taken _ h := h
  finish _ _ _ _ _ _ _ _ _ _ h := h
  repost _ _ _ _ _ _ _ _ _ _ h := h
  enterRest _ _ h := ⟨⟨fun p => by
    simp only [State.enterRest, State.enter, State.updLink, Four.get_all]
    trivial, h.1.2⟩, h.2⟩
  rouse _ _ h := h
  blank _ _ _ _ _ := State.shadowsAgree_of_empty rfl rfl rfl
  cleared _ _ _ := State.shadowsAgree_of_empty rfl rfl rfl
  passAlways _ _ h := ⟨⟨h.1.1, fun _ isCut => absurd isCut (by simp [State.passAlways])⟩, h.2⟩
  passRun _ _ h := ⟨⟨fun p => by
    simp only [State.passRun, Four.get_map]
    exact (h.1.1 p).passRun, h.1.2⟩, h.2⟩
  pending _ _ h := h

end Sys2Proof.Machine

open Sys2Proof Sys2Proof.Machine

/-- Settles O11, by the moves of a step; the bounds of the assembly records give the bound of a new enrollment. -/
theorem stepKeepsShadows : Obligations.StepKeepsShadows := fun _ _ agree moved => shadowsMoves.step agree moved

end

section
/-! SUPPORT. The meaning of each command, as the effect that its event runs; the posted commands have it in
`exec_of_posted`. -/

namespace Sys2Proof.Machine

variable (s : State)

theorem exec_eq_pinResetAssert : exec .pinResetAssert s = .next s.assertReset := rfl

theorem exec_eq_pinResetRelease (cd : BitVec 4) :
    exec (.pinResetRelease cd) s = .next (if s.resetAsserted then s.releaseReset cd else s) := rfl

theorem exec_eq_overrideFilterChange (i : Fin 4) :
    exec (.overrideFilterChange i) s = event s fun s => s.overrideFilterPasses i := rfl

theorem exec_eq_overrideInputChange (i : Fin 4) (level : Bool) :
    exec (.overrideInputChange i level) s = .next (s.overrideInput i level) := rfl

theorem exec_eq_stepExpiry (g : Fin 4) : exec (.stepExpiry g) s = runEvent s fun s => s.stepRunsOut g := rfl

theorem exec_eq_dimPeriodStart : exec .dimPeriodStart s = event s State.pwmPeriodStarts := rfl

theorem exec_eq_senseTick (fs : BitVec 8) :
    exec (.senseTick fs) s = runEvent s fun s => (s.senseTickWith fs).settle := rfl

theorem exec_eq_settleEnd :
    exec .settleEnd s = runEvent s fun s => if s.link.engine = .settle then s.enterIdle else s := rfl

theorem exec_eq_wakeSettleEnd (p : Fin 4) :
    exec (.wakeSettleEnd p) s = runEvent s fun s => s.updChannel p fun c => { c with wakeHold := none } := rfl

theorem exec_eq_gapTimerExpiry (p : Fin 4) : exec (.gapTimerExpiry p) s = runEvent s fun s => s.breakOff p := rfl

theorem exec_eq_noCatch : exec .noCatch s = runEvent s State.attemptFails := rfl

theorem exec_eq_transmitTimeout : exec .transmitTimeout s = runEvent s State.attemptFails := rfl

theorem exec_eq_linkWakeStartBit (channels : BitVec 4) :
    exec (.linkWakeStartBit channels) s = event s fun s => s.linkWake channels := rfl

theorem exec_eq_detectFilterChange (p : Fin 4) :
    exec (.detectFilterChange p) s = event s fun s => s.detectFilterPasses p := rfl

theorem exec_eq_enrollTimerExpiry (p : Fin 4) :
    exec (.enrollTimerExpiry p) s = runEvent s fun s => (s.enrollRunsOut p).settle := rfl

theorem exec_eq_holdTimerExpiry (p : Fin 4) :
    exec (.holdTimerExpiry p) s = runEvent s fun s => (s.holdRunsOut p).settle := rfl

theorem exec_eq_sampleTimerExpiry (p : Fin 4) :
    exec (.sampleTimerExpiry p) s = runEvent s fun s => s.sampleTimerRunsOut p := rfl

theorem exec_eq_deadlineExpiry (p : Fin 4) (tag : BitVec 4) :
    exec (.deadlineExpiry p tag) s = runEvent s fun s => (s.missDeadline p tag).settle := rfl

theorem exec_eq_take :
    exec .take s = event s fun s => (s.answerDisplay s.notices.takeReply).updNotices NoticeUnit.taken := rfl

theorem exec_eq_peek : exec .peek s = event s fun s => s.answerDisplay s.notices.takeReply := rfl

theorem exec_eq_readNotice (slot : Byte) :
    exec (.readNotice slot) s = event s fun s => s.answerDisplay (s.noticeReply slot) := rfl

theorem exec_eq_unknownCommand (port : Port) (code : Byte) :
    exec (.unknownCommand port code) s =
      event s fun s => if port.knows code then s else s.serve port fun _ => zeroReply .unknownCommand 0 := rfl

theorem exec_eq_lcsAssert : exec .lcsAssert s = event s State.assertLcs := rfl

theorem exec_eq_headExecution : exec .headExecution s = runEvent s State.drain := rfl

theorem exec_eq_sync : exec .sync s = event s fun s => s.wakeIfResting.sync := rfl

theorem exec_eq_restart :
    exec .restart s =
      event s fun s => s.wakeIfResting.restartBlocks.answerLighting none s.wakeIfResting.restartReply := rfl

theorem exec_eq_readDrive (port : Port) :
    exec (.readDrive port) s = event s fun s => s.serve port fun s => reply .ok s.drive.record := rfl

theorem exec_eq_readPosition (port : Port) (b : Byte) :
    exec (.readPosition port b) s = event s fun s => s.serve port fun s => s.positionReply b := rfl

theorem exec_eq_readCircuit (port : Port) (b i : Byte) :
    exec (.readCircuit port b i) s = event s fun s => s.serve port fun s => s.circuitReply b i := rfl

theorem exec_eq_readFeed (port : Port) (b : Byte) :
    exec (.readFeed port b) s = event s fun s => s.serve port fun s => s.feedReply b := rfl

theorem exec_eq_readSummary (port : Port) :
    exec (.readSummary port) s = event s fun s => s.serve port fun s => reply .ok s.summaryRecord := rfl


end Sys2Proof.Machine
end

section
/-! SUPPORT. Nothing is left to send: an event ends with `settle`, which leaves nothing, or touches neither a head
condition nor the mark of a due scan. -/

namespace Sys2Proof.Machine

variable {s t : State}

theorem State.Quiet.of_eq (h : s.Quiet) (positions : t.positions = s.positions)
    (scanDue : t.notices.scanDue = s.notices.scanDue) : t.Quiet := by
  unfold State.Quiet
  rw [positions, scanDue]
  exact h

/-- A change of the position records that keeps each head condition and the one claimed. -/
theorem State.Quiet.of_heads (h : s.Quiet) (heads : ∀ p, (t.positions.get p).head = (s.positions.get p).head)
    (claimed : ∀ p, (t.positions.get p).claimedHead = (s.positions.get p).claimedHead)
    (scanDue : t.notices.scanDue = s.notices.scanDue) : t.Quiet :=
  ⟨scanDue.trans h.1, fun p => by rw [heads, claimed, h.2 p]⟩

/-! ## The operations that end without `settle` -/

theorem State.offer_quiet (p : Fin 4) (w : LinkWord) (h : s.Quiet) : (s.offer p w).Quiet := by
  rw [s.offer_eq]
  exact h

theorem State.breakOff_quiet (p : Fin 4) (h : s.Quiet) : (s.breakOff p).Quiet := by
  unfold State.breakOff
  split
  · exact h
  · exact State.offer_quiet _ _ h
  · exact h

theorem State.sampleTimerRunsOut_quiet (p : Fin 4) (h : s.Quiet) : (s.sampleTimerRunsOut p).Quiet := by
  unfold State.sampleTimerRunsOut State.issueSample
  dsimp only
  repeat' split
  all_goals first | exact h | exact State.offer_quiet _ _ h

theorem State.resolveWhere_quiet (which : Fin 8 → Bool) (h : s.Quiet) : (s.resolveWhere which).Quiet := by
  rw [s.resolveWhere_eq]
  exact h

theorem State.overrideFilterPasses_quiet (i : Fin 4) (h : s.Quiet) : (s.overrideFilterPasses i).Quiet := by
  unfold State.overrideFilterPasses
  split
  · exact h
  · exact State.resolveWhere_quiet _ h

theorem State.wakeIfResting_quiet (h : s.Quiet) : s.wakeIfResting.Quiet := by
  unfold State.wakeIfResting
  split
  · exact State.settle_quiet _
  · exact h

theorem State.post_quiet (c : Option PostedCommand) (h : s.Quiet) : (s.post c).Quiet := by
  unfold State.post
  dsimp only
  split
  · exact State.wakeIfResting_quiet h
  · split
    · exact State.settle_quiet _
    · exact State.wakeIfResting_quiet h

theorem State.serve_quiet (port : Port) (answer : State → List Byte) (h : s.Quiet) : (s.serve port answer).Quiet := by
  cases port
  · exact State.wakeIfResting_quiet h
  · exact h

/-- A change of the filtered level alone touches no head condition. -/
theorem State.detectFilterPasses_quiet (p : Fin 4) (h : s.Quiet) : (s.detectFilterPasses p).Quiet := by
  unfold State.detectFilterPasses
  dsimp only
  split
  · exact State.settle_quiet _
  · split
    · exact State.settle_quiet _
    · have flagged : ∀ r : Position, r.flagEdge.head = r.head ∧ r.flagEdge.claimedHead = r.claimedHead := fun r => by
        unfold Position.flagEdge
        split <;> exact ⟨rfl, rfl⟩
      refine h.of_heads (fun q => ?_) (fun q => ?_) rfl
      all_goals
        simp only [State.detectFlips, State.updPosition_positions, Four.get_modify]
        split
        · first | exact (flagged _).1 | exact (flagged _).2
        · rfl

/-- DONE runs the scan where it has made it due. -/
theorem State.done_quiet (slot : Fin 16) (h : s.Quiet) : (s.done slot).Quiet := by
  have scanned : ∀ u : State, u.positions = s.positions → u.scanIfDue.Quiet := fun u same => by
    refine ⟨State.scanIfDue_scanDue u, fun p => ?_⟩
    rw [State.scanIfDue_positions, same]
    exact h.2 p
  have finished : ∀ x mark, (s.finishTop x mark).Quiet := fun x mark => by
    cases mark with
    | none =>
      simp only [State.finishTop]
      apply scanned
      rfl
    | resolved =>
      simp only [State.finishTop]
      apply scanned
      rfl
    | superseded kind => exact h
  unfold State.done
  repeat' split
  all_goals first | exact finished _ _ | exact h

/-- A position after its evaluation has no condition. -/
theorem Position.evaluated_head {r : Position} (linkFault : r.linkFault = false) (detectMissing : r.detectMissing = false)
    (uncoupled : r.uncoupled = false) : r.evaluated.head = none := by
  cases reads : r.reads <;> simp [Position.head, Position.evaluated, reads, linkFault, detectMissing, uncoupled]

/-- The evaluation after a reset leaves no condition and nothing to send. -/
theorem State.foldl_evaluatePosition_quiet (scanDue : s.notices.scanDue = false)
    (plain : ∀ p, (s.positions.get p).linkFault = false ∧ (s.positions.get p).detectMissing = false ∧
      (s.positions.get p).uncoupled = false ∧ (s.positions.get p).claimedHead = none) :
    (fourIndices.foldl State.evaluatePosition s).Quiet := by
  rw [State.foldl_evaluatePosition]
  refine ⟨scanDue, fun p => ?_⟩
  obtain ⟨linkFault, detectMissing, uncoupled, claimed⟩ := plain p
  rw [Four.get_map, Position.evaluated_head linkFault detectMissing uncoupled]
  exact claimed

theorem State.releaseReset_quiet (cd : BitVec 4) : (s.releaseReset cd).Quiet :=
  State.foldl_evaluatePosition_quiet rfl fun p => by
    simp [State.resolveAtRelease, State.blank, Position.initial]

theorem State.restartBlocks_quiet : s.restartBlocks.Quiet :=
  State.foldl_evaluatePosition_quiet rfl fun p => by
    simp [State.cleared, Position.restart]

theorem State.blank_quiet (ov cd : Four Bool) (fs : BitVec 8) (n : Nat) (l : List Instr) :
    (State.blank ov cd fs n l).Quiet :=
  ⟨rfl, fun p => by simp [State.blank, Position.initial, Position.head]⟩

theorem NoticeUnit.taken_scanDue (n : NoticeUnit) : n.taken.scanDue = n.scanDue := by
  unfold NoticeUnit.taken
  repeat' split
  all_goals rfl

/-! ## Every command -/

open ExecMoves in
theorem exec_quiet {c : Instr} (h : s.Quiet) (e : exec c s = .next t) : t.Quiet := by
  cases c with
  | pinResetAssert =>
    cases e
    exact State.blank_quiet s.ov s.cd s.fs s.freeIndex s.pending
  | pinResetRelease cd =>
    cases e
    exact Moves.choose (P := State.Quiet) (State.releaseReset_quiet cd) h
  | overrideFilterChange i =>
    rw [exec_eq_overrideFilterChange] at e
    refine event_keeps (fun _ => ?_) h e
    exact State.overrideFilterPasses_quiet i h
  | overrideInputChange i level =>
    cases e
    exact Moves.choose (P := State.Quiet) h h
  | stepExpiry g =>
    rw [exec_eq_stepExpiry] at e
    refine runEvent_keeps ?_ h e
    exact (State.resolveWhere_quiet _ h)
  | dimPeriodStart =>
    rw [exec_eq_dimPeriodStart] at e
    refine event_keeps (fun _ => ?_) h e
    exact h
  | startBit channels =>
    simp only [exec, execStartBit] at e
    refine runEvent_keeps ?_ h e
    split <;> exact h
  | transmitStart =>
    simp only [exec, execTransmitStart] at e
    refine runEvent_keeps ?_ h e
    split <;> exact h
  | inhibitSettleEnd =>
    simp only [exec, execInhibitSettleEnd] at e
    refine runEvent_keeps ?_ h e
    split <;> exact h
  | firstFallingEdge =>
    simp only [exec, execFirstFallingEdge] at e
    refine runEvent_keeps ?_ h e
    split <;> exact h
  | settleEnd =>
    rw [exec_eq_settleEnd] at e
    refine runEvent_keeps ?_ h e
    exact (Moves.choose (P := State.Quiet) h h)
  | wakeSettleEnd p =>
    rw [exec_eq_wakeSettleEnd] at e
    refine runEvent_keeps ?_ h e
    exact h
  | gapTimerExpiry p =>
    rw [exec_eq_gapTimerExpiry] at e
    refine runEvent_keeps ?_ h e
    exact (State.breakOff_quiet p h)
  | sampleTimerExpiry p =>
    rw [exec_eq_sampleTimerExpiry] at e
    refine runEvent_keeps ?_ h e
    exact (State.sampleTimerRunsOut_quiet p h)
  | senseTick fs =>
    rw [exec_eq_senseTick] at e
    refine runEvent_keeps ?_ h e
    exact (State.settle_quiet _)
  | receiveEnd data parity stop =>
    simp only [exec, execReceiveEnd] at e
    refine runEvent_keeps ?_ h e
    split
    all_goals first | exact h | exact State.settle_quiet _
  | wordTimeout =>
    simp only [exec, execWordTimeout] at e
    refine runEvent_keeps ?_ h e
    split
    all_goals first | exact h | exact State.settle_quiet _
  | transmitCatch =>
    simp only [exec, execTransmitCatch] at e
    refine runEvent_keeps ?_ h e
    split
    all_goals first | exact h | exact State.settle_quiet _
  | txNoClock =>
    simp only [exec, execTxNoClock] at e
    refine runEvent_keeps ?_ h e
    split
    all_goals first | exact h | exact State.settle_quiet _
  | noCatch =>
    rw [exec_eq_noCatch] at e
    refine runEvent_keeps ?_ h e
    unfold State.attemptFails
    split
    all_goals first | exact h | exact State.settle_quiet _
  | transmitTimeout =>
    rw [exec_eq_transmitTimeout] at e
    refine runEvent_keeps ?_ h e
    unfold State.attemptFails
    split
    all_goals first | exact h | exact State.settle_quiet _
  | enrollTimerExpiry p =>
    rw [exec_eq_enrollTimerExpiry] at e
    refine runEvent_keeps ?_ h e
    exact (State.settle_quiet _)
  | holdTimerExpiry p =>
    rw [exec_eq_holdTimerExpiry] at e
    refine runEvent_keeps ?_ h e
    exact (State.settle_quiet _)
  | deadlineExpiry p tag =>
    rw [exec_eq_deadlineExpiry] at e
    refine runEvent_keeps ?_ h e
    exact (State.settle_quiet _)
  | headExecution =>
    rw [exec_eq_headExecution] at e
    refine runEvent_keeps ?_ h e
    exact (State.settle_quiet _)
  | detectFilterChange p =>
    rw [exec_eq_detectFilterChange] at e
    refine event_keeps (fun _ => ?_) h e
    exact State.detectFilterPasses_quiet p h
  | linkWakeStartBit channels =>
    rw [exec_eq_linkWakeStartBit] at e
    refine event_keeps (fun _ => ?_) h e
    exact Moves.choose (P := State.Quiet) (State.settle_quiet _) h
  | lcsAssert =>
    rw [exec_eq_lcsAssert] at e
    refine event_keeps (fun _ => ?_) h e
    exact State.wakeIfResting_quiet h
  | take =>
    rw [exec_eq_take] at e
    refine event_keeps (fun _ => ?_) h e
    exact State.Quiet.of_eq h rfl (NoticeUnit.taken_scanDue _)
  | peek =>
    rw [exec_eq_peek] at e
    refine event_keeps (fun _ => ?_) h e
    exact h
  | done slot =>
    simp only [exec, execDone] at e
    refine event_keeps (fun _ => ?_) h e
    split
    · exact State.done_quiet _ h
    · exact h
  | setMask mask holdAll =>
    simp only [exec, execSetMask] at e
    refine event_keeps (fun _ => ?_) h e
    split <;> exact h
  | readNotice slot =>
    rw [exec_eq_readNotice] at e
    refine event_keeps (fun _ => ?_) h e
    exact h
  | unknownCommand port code =>
    rw [exec_eq_unknownCommand] at e
    refine event_keeps (fun _ => ?_) h e
    exact Moves.choose (P := State.Quiet) h (State.serve_quiet port _ h)
  | readDrive port =>
    rw [exec_eq_readDrive] at e
    refine event_keeps (fun _ => ?_) h e
    exact State.serve_quiet port _ h
  | readPosition port position =>
    rw [exec_eq_readPosition] at e
    refine event_keeps (fun _ => ?_) h e
    exact State.serve_quiet port _ h
  | readCircuit port position circuit =>
    rw [exec_eq_readCircuit] at e
    refine event_keeps (fun _ => ?_) h e
    exact State.serve_quiet port _ h
  | readFeed port function =>
    rw [exec_eq_readFeed] at e
    refine event_keeps (fun _ => ?_) h e
    exact State.serve_quiet port _ h
  | readSummary port =>
    rw [exec_eq_readSummary] at e
    refine event_keeps (fun _ => ?_) h e
    exact State.serve_quiet port _ h
  | sync =>
    rw [exec_eq_sync] at e
    refine event_keeps (fun _ => ?_) h e
    exact State.wakeIfResting_quiet h
  | restart =>
    rw [exec_eq_restart] at e
    refine event_keeps (fun _ => ?_) h e
    exact State.restartBlocks_quiet
  | setMode | setDim | setCadence | restartCadences | setOverride | setSampling | setJudging | setSeverity | setLevels
  | setCoupling | release | forget | rest =>
    rw [exec_of_posted _ _ rfl] at e
    refine event_keeps (fun _ => ?_) h e
    exact State.post_quiet _ h

/-- A microsecond touches no head condition. -/
theorem State.advance_quiet (h : s.Quiet) : s.advance.Quiet := by
  unfold State.advance
  dsimp only
  repeat' split
  · exact h
  all_goals
    refine h.of_heads (fun p => ?_) (fun p => ?_) rfl
    all_goals
      simp only [State.passRun, State.passAlways, State.passPorts, State.updPort, Four.get_map]
      rfl

end Sys2Proof.Machine

open Sys2Proof Sys2Proof.Machine

/-- Settles O7: a command, or a microsecond, leaves nothing to send. -/
theorem stepKeepsQuiet : Obligations.StepKeepsQuiet := by
  intro s t quiet moved
  unfold step at moved
  split at moved
  · refine exec_quiet ?_ moved
    exact quiet
  · split at moved
    · refine exec_quiet ?_ moved
      exact quiet
    · cases moved
      exact State.advance_quiet quiet

end

section
/-! SUPPORT. What a step can do to the drive unit and to the power state, said once. The moves of Laws/Moves.lean leave
open what becomes of the drive unit; here every change of it is a change of its inputs followed by a resolution of the
functions that the change concerns, and the roster is touched in RUN only. An invariant whose effects are shown here is
kept by `exec` and `step`. -/

namespace Sys2Proof.Machine

variable {s t : State}

/-- Two states are the same outside positions, circuit records, notices, ports, settings and inputs. -/
structure State.SameCore (t s : State) : Prop where
  resetAsserted : t.resetAsserted = s.resetAsserted
  power : t.power = s.power
  drive : t.drive = s.drive
  link : t.link = s.link
  assembly : t.assembly = s.assembly
  samples : t.samples = s.samples

/-- The drive unit with other inputs: the records keep what a resolution writes, and the functions that are not of the
condition resolve as before. In REST no mode changes. -/
structure State.Redriven (s : State) (d : DriveUnit) (which : Fin 8 → Bool) : Prop where
  mode : s.power = .run ∨ ∀ f, (d.functions.get f).mode = (s.drive.functions.get f).mode
  drive : ∀ f, (d.functions.get f).drive = (s.drive.functions.get f).drive
  wave : ∀ f, (d.functions.get f).wave = (s.drive.functions.get f).wave
  resolution : ∀ f, which f = false → d.resolution f = s.drive.resolution f

/-- The effects that make up a step, each of which keeps P. -/
structure Effects (P : State → Prop) : Prop where
  core : ∀ s t, t.SameCore s → P s → P t
  roster : ∀ s t, s.power = .run → t.outsideRoster = s.outsideRoster → P s → P t
  redrive : ∀ s d which, s.Redriven d which → P s → P (({ s with drive := d } : State).withResolved which)
  period : ∀ s, P s → P s.pwmPeriodStarts
  rouse : ∀ s seen, P s → P (s.roused seen)
  enterRest : ∀ s, s.restRefused = false → P s → P s.enterRest
  assertReset : ∀ s, P s → P s.assertReset
  releaseReset : ∀ s cd, P s → P (s.releaseReset cd)
  restartBlocks : ∀ s, s.power = .run → P s → P s.restartBlocks
  advance : ∀ s, P s → P s.advance

/-! ## Resolutions that a change of inputs leaves -/

/-- A function resolves as before when its override level and the drive of its mode are as before. -/
theorem DriveUnit.resolution_eq {d e : DriveUnit} {f : Fin 8} (overridden : e.overridden f = d.overridden f)
    (mode : e.driveOfMode (e.functions.get f).mode = d.driveOfMode (d.functions.get f).mode) :
    e.resolution f = d.resolution f := by
  rw [DriveUnit.resolution, DriveUnit.resolution, overridden, mode]

/-- The drive of a mode is as before when the step bit of the generator that it names is. -/
theorem DriveUnit.driveOfMode_eq {d e : DriveUnit} {m : Mode}
    (bit : ∀ g, m = .cadence g → (e.generators.get g).stepBit = (d.generators.get g).stepBit) :
    e.driveOfMode m = d.driveOfMode m := by
  cases m with
  | cadence g => rw [DriveUnit.driveOfMode, DriveUnit.driveOfMode, bit g rfl]
  | off => rfl
  | on => rfl
  | dim duty => rfl

/-- A change of generators concerns the functions whose modes name a generator with another step bit. -/
theorem State.redriven_generators (s : State) (gs : Four Generator) (which : Fin 8 → Bool)
    (bit : ∀ f g, which f = false → (s.drive.functions.get f).mode = .cadence g →
      (gs.get g).stepBit = (s.drive.generators.get g).stepBit) :
    s.Redriven { s.drive with generators := gs } which where
  mode := Or.inr fun _ => rfl
  drive _ := rfl
  wave _ := rfl
  resolution f other := DriveUnit.resolution_eq rfl (DriveUnit.driveOfMode_eq fun g => bit f g other)

/-- A change of sets or filtered levels concerns the functions whose override level it changes. -/
theorem State.redriven_overrides (s : State) (assign : Four (BitVec 8)) (filtered : Four Bool) (counts : Four Nat)
    (which : Fin 8 → Bool)
    (same : ∀ f i, which f = false →
      (filtered.get i && inSet (assign.get i) f) = (s.drive.filtered.get i && inSet (s.drive.assign.get i) f)) :
    s.Redriven { s.drive with assign := assign, filtered := filtered, filterCount := counts } which where
  mode := Or.inr fun _ => rfl
  drive _ := rfl
  wave _ := rfl
  resolution f other := by
    refine DriveUnit.resolution_eq ?_ (DriveUnit.driveOfMode_eq fun _ _ => rfl)
    simp only [DriveUnit.overridden, same f _ other]

/-- A change of function records concerns the functions whose mode it changes. -/
theorem State.redriven_functions (s : State) (rs : Eight FunctionRecord) (which : Fin 8 → Bool)
    (running : s.power = .run) (drive : ∀ f, (rs.get f).drive = (s.drive.functions.get f).drive)
    (wave : ∀ f, (rs.get f).wave = (s.drive.functions.get f).wave)
    (mode : ∀ f, which f = false → (rs.get f).mode = (s.drive.functions.get f).mode) :
    s.Redriven { s.drive with functions := rs } which where
  mode := Or.inl running
  drive := drive
  wave := wave
  resolution f other :=
    DriveUnit.resolution_congr (d := s.drive) (e := { s.drive with functions := rs }) rfl rfl rfl f (mode f other)

namespace Effects

variable {P : State → Prop} (m : Effects P)

include m

/-! ## Drive -/

/-- A change of inputs that concerns no function. -/
theorem drive {d : DriveUnit} (same : s.Redriven d fun _ => false) (hs : P s) : P { s with drive := d } := by
  have kept := m.redrive s d _ same hs
  rwa [State.withResolved_none] at kept

theorem setFunctionMode (f : Fin 8) (x : Mode) (running : s.power = .run) (hs : P s) : P (s.setFunctionMode f x) := by
  rw [State.setFunctionMode, State.resolveFunction_eq]
  refine m.redrive s _ _ (s.redriven_functions _ _ running (fun g => ?_) (fun g => ?_) fun g other => ?_) hs
  · rw [Eight.get_modify]
    split <;> rfl
  · rw [Eight.get_modify]
    split <;> rfl
  · have ne : g ≠ f := by simpa using other
    rw [Eight.get_modify_ne _ _ ne]

theorem stepRunsOut (g : Fin 4) (hs : P s) : P (s.stepRunsOut g) := by
  rw [State.stepRunsOut, State.resolveWhere_eq]
  refine m.redrive s _ _ (s.redriven_generators _ _ fun f h other follows => ?_) hs
  have ne : h ≠ g := by
    rintro rfl
    have not : s.follows f h = false := other
    simp [State.follows, follows] at not
  rw [Four.get_modify_ne _ _ ne]

theorem setGeneratorCadence (g : Fin 4) (c : Cadence) (hs : P s) : P (s.setGeneratorCadence g c) := by
  unfold State.setGeneratorCadence
  split
  · refine m.drive (s.redriven_generators _ _ fun f h _ _ => ?_) hs
    rw [Four.get_modify]
    split <;> rfl
  · rename_i unused
    refine m.drive (s.redriven_generators _ _ fun f h _ follows => ?_) hs
    have ne : h ≠ g := by
      rintro rfl
      refine unused (List.any_eq_true.2 ⟨f, mem_eightIndices f, ?_⟩)
      simp [State.follows, follows]
    rw [Four.get_modify_ne _ _ ne]

theorem restartGenerators (set : BitVec 4) (hs : P s) : P (s.restartGenerators set) := by
  simp only [State.restartGenerators, State.resolveWhere_eq]
  refine m.redrive s _ _ (s.redriven_generators _ _ fun f g other follows => ?_) hs
  have unnamed : set.getLsbD g.val = false := by
    have none := List.any_eq_false.1 other g (mem_fourIndices g)
    simpa [State.follows, follows] using none
  rw [Four.get_map, if_neg (ne_true_of_eq_false unnamed)]

theorem setAssignment (i : Fin 4) (set : BitVec 8) (hs : P s) : P (s.setAssignment i set) := by
  rw [State.setAssignment, State.resolveWhere_eq]
  refine m.redrive s _ _ (s.redriven_overrides _ s.drive.filtered s.drive.filterCount _ fun f j other => ?_) hs
  obtain ⟨old, new⟩ := Bool.or_eq_false_iff.1 other
  rw [Four.get_set]
  split
  · rename_i here
    subst here
    rw [old, new]
  · rfl

theorem overrideFilterPasses (i : Fin 4) (hs : P s) : P (s.overrideFilterPasses i) := by
  rw [State.overrideFilterPasses, State.resolveWhere_eq]
  refine Moves.choose hs
    (m.redrive s _ _ (s.redriven_overrides s.drive.assign _ _ _ fun f j other => ?_) hs)
  rw [Four.get_set]
  split
  · rename_i here
    subst here
    simp [other]
  · rfl

theorem overrideInput (i : Fin 4) (level : Bool) (hs : P s) : P (s.overrideInput i level) := by
  have counted := m.drive (s.redriven_overrides s.drive.assign s.drive.filtered (s.drive.filterCount.set i 0)
    (fun _ => false) fun _ _ _ => rfl) hs
  exact Moves.choose hs (m.core { s with drive := _ } _ ⟨rfl, rfl, rfl, rfl, rfl, rfl⟩ counted)

/-! ## Sense checks -/

/-- Both P and RUN, which a fold over the functions carries along. -/
theorem senseFunction (f : Fin 8) (h : P s ∧ s.power = .run) : P (s.senseFunction f) ∧ (s.senseFunction f).power = .run := by
  obtain ⟨hs, running⟩ := h
  unfold State.senseFunction
  dsimp only
  split
  · exact ⟨hs, running⟩
  · split
    · rename_i o _
      have counted : P (s.updFunction f fun x => { x with sense := (s.drive.functions.get f).sense.counted s.judging o }) := by
        refine m.drive (s.redriven_functions _ _ running (fun g => ?_) (fun g => ?_) fun g _ => ?_) hs
        all_goals
          rw [Eight.get_modify]
          split <;> rfl
      refine ⟨m.roster (s.updFunction f _) _ running (State.senseClaim_outsideRoster _ _ _ _) counted, ?_⟩
      rw [State.eq_of_outsideRoster _ (State.senseClaim_outsideRoster _ _ _ _)]
      exact running
    · exact ⟨hs, running⟩

theorem senseTickWith (fs : BitVec 8) (running : s.power = .run) (hs : P s) : P (s.senseTickWith fs) := by
  have begun : P { s with fs := fs, drive := { s.drive with senseRemaining := Config.senseInterval } } :=
    m.core { s with drive := { s.drive with senseRemaining := Config.senseInterval } } _ ⟨rfl, rfl, rfl, rfl, rfl, rfl⟩
      (m.drive ⟨Or.inl running, fun _ => rfl, fun _ => rfl, fun f _ => DriveUnit.resolution_congr rfl rfl rfl f rfl⟩ hs)
  have folded := Moves.fold (P := fun s => P s ∧ s.power = .run) State.senseFunction
    (fun _ f h => m.senseFunction f h) eightIndices ⟨begun, running⟩
  exact folded.1

/-! ## Power -/

theorem settle (hs : P s) : P s.settle := by
  refine m.core s _ ?_ hs
  rw [s.settle_eq]
  exact ⟨rfl, rfl, rfl, rfl, rfl, rfl⟩

theorem wake (seen : BitVec 4) (hs : P s) : P (s.wake seen) :=
  m.settle (m.roster (s.roused seen) _ rfl
    (foldl_keeps State.outsideRoster State.processPending (fun s p => s.processPending_outsideRoster p) _ _)
    (m.rouse s seen hs))

theorem wakeIfResting (hs : P s) : P s.wakeIfResting := Moves.choose (m.wake _ hs) hs

theorem detectFilterPasses (p : Fin 4) (hs : P s) : P (s.detectFilterPasses p) := by
  have flipped : P (s.detectFlips p) := m.core s _ ⟨rfl, rfl, rfl, rfl, rfl, rfl⟩ hs
  unfold State.detectFilterPasses
  dsimp only
  split
  · rename_i running
    exact m.settle (m.roster _ _ running (State.processEdge_outsideRoster _ _ _) flipped)
  · have flagged : P ((s.detectFlips p).updPosition p Position.flagEdge) :=
      m.core (s.detectFlips p) _ ⟨rfl, rfl, rfl, rfl, rfl, rfl⟩ flipped
    exact Moves.choose (m.wake _ flagged) flagged

theorem updPort (f : PortControl → PortControl) (hs : P s) : P (s.updPort f) :=
  m.core s _ ⟨rfl, rfl, rfl, rfl, rfl, rfl⟩ hs

theorem answerLighting (carried : Option (BitVec 8)) (r : List Byte) (hs : P s) : P (s.answerLighting carried r) :=
  m.updPort _ hs

theorem answerDisplay (r : List Byte) (hs : P s) : P (s.answerDisplay r) := m.updPort _ hs

theorem refuse (kind : ErrorKind) (e : Posted) (hs : P s) : P (s.refuse kind e) := m.updPort _ hs

theorem accept (c : PostedCommand) (hs : P s) : P (s.accept c) := m.updPort _ hs

theorem updNotices (f : NoticeUnit → NoticeUnit) (hs : P s) : P (s.updNotices f) :=
  m.core s _ ⟨rfl, rfl, rfl, rfl, rfl, rfl⟩ hs

theorem scanIfDue (hs : P s) : P s.scanIfDue := by
  refine m.core s _ ?_ hs
  rw [State.eq_of_outsideNotices _ s.scanIfDue_outsideNotices]
  exact ⟨rfl, rfl, rfl, rfl, rfl, rfl⟩

/-! ## The lighting queue -/

theorem restOrPass (sequence : BitVec 8) (allowed : s.restRefused = false) (hs : P s) : P (s.restOrPass sequence) := by
  have allowed' : s.settle.restRefused = false := by
    rw [s.settle_eq]
    exact allowed
  have entered := m.core s.settle.enterRest
    { s.settle.enterRest with
      port := { s.port with lcs := s.port.lcs.atRest sequence (Config.lcsStillAsserted s.freeIndex) }
      freeIndex := s.freeIndex + 1 } ⟨rfl, rfl, rfl, rfl, rfl, rfl⟩ (m.enterRest _ allowed' (m.settle hs))
  exact Moves.choose (m.wake _ entered) entered

theorem setCouplingOf (p : Fin 4) (a b c : Bool) (e h : Nat) (running : s.power = .run) (hs : P s) :
    P (s.setCouplingOf p a b c e h) :=
  m.roster
    { s.updPosition p fun r =>
        { r.withPolarity a (s.cd.get p) with wakeEnable := b, enrollTimeout := e } with holdTime := h } _ running
    (State.setChannelEnable_outsideRoster _ _ _) (m.core s _ ⟨rfl, rfl, rfl, rfl, rfl, rfl⟩ hs)

theorem execute (e : Posted) (running : s.power = .run) (hs : P s) : P (s.execute e) := by
  unfold State.execute
  split
  · exact m.setFunctionMode _ _ running hs
  · exact m.setFunctionMode _ _ running hs
  · exact m.setGeneratorCadence _ _ hs
  · exact m.restartGenerators _ hs
  · exact m.setAssignment _ _ hs
  · exact m.core s _ ⟨rfl, rfl, rfl, rfl, rfl, rfl⟩ hs
  · exact m.core s _ ⟨rfl, rfl, rfl, rfl, rfl, rfl⟩ hs
  · exact m.core s _ ⟨rfl, rfl, rfl, rfl, rfl, rfl⟩ hs
  · exact m.core s _ ⟨rfl, rfl, rfl, rfl, rfl, rfl⟩ hs
  · exact Moves.choose (m.refuse _ _ hs) (m.setCouplingOf _ _ _ _ _ _ running hs)
  · exact Moves.choose (m.roster s _ running (State.releaseAt_outsideRoster _ _ _) hs) (m.refuse _ _ hs)
  · exact m.roster s _ running s.releaseEvery_outsideRoster hs
  · exact Moves.choose (m.refuse _ _ hs) (m.roster s _ running (State.forgetPosition_outsideRoster _ _) hs)
  · split
    · exact m.refuse _ _ hs
    · rename_i allowed
      exact m.restOrPass _ (by simpa using allowed) hs

theorem runQueue (n : Nat) (hs : P s) : P (s.runQueue n) := by
  induction n generalizing s with
  | zero => exact hs
  | succ n ih =>
    unfold State.runQueue
    split
    · split
      · rename_i ready
        exact ih (m.execute _ ready.1 (m.updPort _ hs))
      · exact hs
    · exact hs

theorem drain (hs : P s) : P s.drain := m.settle (m.runQueue _ hs)

theorem post (c : Option PostedCommand) (hs : P s) : P (s.post c) := by
  have awake := m.wakeIfResting hs
  unfold State.post
  dsimp only
  split
  · exact m.answerLighting _ _ awake
  · split
    · exact m.drain (m.accept _ awake)
    · exact m.answerLighting _ _ awake

theorem serve (port : Port) (answer : State → List Byte) (hs : P s) : P (s.serve port answer) := by
  cases port
  · exact m.answerLighting _ _ (m.wakeIfResting hs)
  · exact m.answerDisplay _ hs

theorem done (slot : Fin 16) (hs : P s) : P (s.done slot) := by
  have finished : ∀ x mark, P (s.finishTop x mark) := fun x mark => by
    cases mark with
    | none => exact m.scanIfDue (m.answerDisplay _ (m.updNotices _ hs))
    | resolved => exact m.scanIfDue (m.answerDisplay _ (m.updNotices _ hs))
    | superseded kind => exact m.answerDisplay _ (m.updNotices _ hs)
  unfold State.done
  repeat' split
  all_goals first | exact finished _ _ | exact m.answerDisplay _ hs

/-! ## Every command -/

omit m in
/-- A command that acts in RUN only. -/
theorem runEvent_keeps_of_running {f : State → State} (h : s.power = .run → P (f s)) (hs : P s)
    (e : runEvent s f = .next t) : P t := by
  refine ExecMoves.event_keeps (fun _ => ?_) hs e
  split
  · exact h ‹_›
  · exact hs

open ExecMoves in
theorem exec {c : Instr} (hs : P s) (e : Machine.exec c s = .next t) : P t := by
  cases c with
  | pinResetAssert =>
    cases e
    exact m.assertReset s hs
  | pinResetRelease cd =>
    cases e
    exact Moves.choose (m.releaseReset s cd hs) hs
  | overrideFilterChange i =>
    rw [exec_eq_overrideFilterChange] at e
    refine event_keeps (fun _ => ?_) hs e
    exact m.overrideFilterPasses i hs
  | overrideInputChange i level =>
    cases e
    exact m.overrideInput i level hs
  | stepExpiry g =>
    rw [exec_eq_stepExpiry] at e
    refine runEvent_keeps ?_ hs e
    exact m.stepRunsOut g hs
  | dimPeriodStart =>
    rw [exec_eq_dimPeriodStart] at e
    refine event_keeps (fun _ => ?_) hs e
    exact m.period s hs
  | senseTick fs =>
    rw [exec_eq_senseTick] at e
    refine runEvent_keeps_of_running (fun running => ?_) hs e
    exact m.settle (m.senseTickWith fs running hs)
  | startBit channels =>
    simp only [Machine.exec, execStartBit] at e
    refine runEvent_keeps_of_running (fun running => ?_) hs e
    refine m.roster s _ running ?_ hs
    split <;> simp
  | receiveEnd data parity stop =>
    simp only [Machine.exec, execReceiveEnd] at e
    refine runEvent_keeps_of_running (fun running => ?_) hs e
    refine m.roster s _ running ?_ hs
    split <;> simp
  | wordTimeout =>
    simp only [Machine.exec, execWordTimeout] at e
    refine runEvent_keeps_of_running (fun running => ?_) hs e
    refine m.roster s _ running ?_ hs
    split <;> simp
  | transmitStart =>
    simp only [Machine.exec, execTransmitStart] at e
    refine runEvent_keeps_of_running (fun running => ?_) hs e
    refine m.roster s _ running ?_ hs
    split <;> simp
  | inhibitSettleEnd =>
    simp only [Machine.exec, execInhibitSettleEnd] at e
    refine runEvent_keeps_of_running (fun running => ?_) hs e
    refine m.roster s _ running ?_ hs
    split <;> simp
  | firstFallingEdge =>
    simp only [Machine.exec, execFirstFallingEdge] at e
    refine runEvent_keeps_of_running (fun running => ?_) hs e
    refine m.roster s _ running ?_ hs
    split <;> simp
  | transmitCatch =>
    simp only [Machine.exec, execTransmitCatch] at e
    refine runEvent_keeps_of_running (fun running => ?_) hs e
    refine m.roster s _ running ?_ hs
    split <;> simp
  | txNoClock =>
    simp only [Machine.exec, execTxNoClock] at e
    refine runEvent_keeps_of_running (fun running => ?_) hs e
    refine m.roster s _ running ?_ hs
    split <;> simp
  | noCatch =>
    rw [exec_eq_noCatch] at e
    refine runEvent_keeps_of_running (fun running => ?_) hs e
    exact m.roster s _ running s.attemptFails_outsideRoster hs
  | transmitTimeout =>
    rw [exec_eq_transmitTimeout] at e
    refine runEvent_keeps_of_running (fun running => ?_) hs e
    exact m.roster s _ running s.attemptFails_outsideRoster hs
  | settleEnd =>
    rw [exec_eq_settleEnd] at e
    refine runEvent_keeps_of_running (fun running => ?_) hs e
    refine m.roster s _ running ?_ hs
    split <;> simp
  | wakeSettleEnd p =>
    rw [exec_eq_wakeSettleEnd] at e
    refine runEvent_keeps_of_running (fun running => ?_) hs e
    exact m.roster s _ running rfl hs
  | gapTimerExpiry p =>
    rw [exec_eq_gapTimerExpiry] at e
    refine runEvent_keeps_of_running (fun running => ?_) hs e
    exact m.roster s _ running (s.breakOff_outsideRoster p) hs
  | linkWakeStartBit channels =>
    rw [exec_eq_linkWakeStartBit] at e
    refine event_keeps (fun _ => ?_) hs e
    exact Moves.choose (m.wake _ hs) hs
  | detectFilterChange p =>
    rw [exec_eq_detectFilterChange] at e
    refine event_keeps (fun _ => ?_) hs e
    exact m.detectFilterPasses p hs
  | enrollTimerExpiry p =>
    rw [exec_eq_enrollTimerExpiry] at e
    refine runEvent_keeps_of_running (fun running => ?_) hs e
    exact m.roster s _ running (by simp) hs
  | holdTimerExpiry p =>
    rw [exec_eq_holdTimerExpiry] at e
    refine runEvent_keeps_of_running (fun running => ?_) hs e
    exact m.roster s _ running (by simp) hs
  | sampleTimerExpiry p =>
    rw [exec_eq_sampleTimerExpiry] at e
    refine runEvent_keeps_of_running (fun running => ?_) hs e
    exact m.roster s _ running (by simp) hs
  | deadlineExpiry p tag =>
    rw [exec_eq_deadlineExpiry] at e
    refine runEvent_keeps_of_running (fun running => ?_) hs e
    exact m.roster s _ running (by simp) hs
  | headExecution =>
    rw [exec_eq_headExecution] at e
    refine runEvent_keeps ?_ hs e
    exact m.drain hs
  | take =>
    rw [exec_eq_take] at e
    refine event_keeps (fun _ => ?_) hs e
    exact m.updNotices _ (m.answerDisplay _ hs)
  | peek =>
    rw [exec_eq_peek] at e
    refine event_keeps (fun _ => ?_) hs e
    exact m.answerDisplay _ hs
  | done slot =>
    simp only [Machine.exec, execDone] at e
    refine event_keeps (fun _ => ?_) hs e
    split
    · exact m.done _ hs
    · exact m.answerDisplay _ hs
  | setMask mask holdAll =>
    simp only [Machine.exec, execSetMask] at e
    refine event_keeps (fun _ => ?_) hs e
    split
    · exact m.answerDisplay _ (m.updNotices _ hs)
    · exact m.answerDisplay _ hs
  | readNotice slot =>
    rw [exec_eq_readNotice] at e
    refine event_keeps (fun _ => ?_) hs e
    exact m.answerDisplay _ hs
  | unknownCommand port code =>
    rw [exec_eq_unknownCommand] at e
    refine event_keeps (fun _ => ?_) hs e
    exact Moves.choose hs (m.serve port _ hs)
  | lcsAssert =>
    rw [exec_eq_lcsAssert] at e
    refine event_keeps (fun _ => ?_) hs e
    exact m.updPort _ (m.wakeIfResting hs)
  | sync =>
    rw [exec_eq_sync] at e
    refine event_keeps (fun _ => ?_) hs e
    exact m.updPort _ (m.answerLighting _ _ (m.wakeIfResting hs))
  | restart =>
    rw [exec_eq_restart] at e
    refine event_keeps (fun _ => ?_) hs e
    exact m.answerLighting _ _ (m.restartBlocks _ wakeIfResting_power (m.wakeIfResting hs))
  | readDrive port =>
    rw [exec_eq_readDrive] at e
    refine event_keeps (fun _ => ?_) hs e
    exact m.serve port _ hs
  | readPosition port b =>
    rw [exec_eq_readPosition] at e
    refine event_keeps (fun _ => ?_) hs e
    exact m.serve port _ hs
  | readCircuit port b i =>
    rw [exec_eq_readCircuit] at e
    refine event_keeps (fun _ => ?_) hs e
    exact m.serve port _ hs
  | readFeed port b =>
    rw [exec_eq_readFeed] at e
    refine event_keeps (fun _ => ?_) hs e
    exact m.serve port _ hs
  | readSummary port =>
    rw [exec_eq_readSummary] at e
    refine event_keeps (fun _ => ?_) hs e
    exact m.serve port _ hs
  | setMode | setDim | setCadence | restartCadences | setOverride | setSampling | setJudging | setSeverity | setLevels
  | setCoupling | release | forget | rest =>
    rw [exec_of_posted _ _ rfl] at e
    refine event_keeps (fun _ => ?_) hs e
    exact m.post _ hs

theorem step (hs : P s) (e : Machine.step s = .next t) : P t := by
  unfold Machine.step at e
  split at e
  · refine m.exec ?_ e
    exact m.core s _ ⟨rfl, rfl, rfl, rfl, rfl, rfl⟩ hs
  · split at e
    · refine m.exec ?_ e
      exact m.core s _ ⟨rfl, rfl, rfl, rfl, rfl, rfl⟩ hs
    · cases e
      exact m.advance s hs

end Effects

end Sys2Proof.Machine
end

section
/-! SUPPORT. Every function keeps the drive that its inputs resolve to, by the effects of a step. -/

namespace Sys2Proof.Machine

variable {s t : State}

/-- The invariant reads of each function its drive, its wave and its resolution. -/
theorem State.DrivesResolved.of_same (h : s.DrivesResolved) (released : t.resetAsserted = s.resetAsserted)
    (drive : ∀ f, (t.drive.functions.get f).drive = (s.drive.functions.get f).drive)
    (wave : ∀ f, (t.drive.functions.get f).wave = (s.drive.functions.get f).wave)
    (resolution : ∀ f, t.drive.resolution f = s.drive.resolution f) : t.DrivesResolved := by
  intro off f
  dsimp only
  rw [drive, wave, resolution]
  exact h (released ▸ off) f

/-- A function that takes a drive has the output that goes with it (R1). -/
theorem Wave.follow_full (w : Wave) : w.follow .full = .high := rfl

theorem Wave.follow_undriven (w : Wave) : w.follow .undriven = .low := rfl

/-- After a change of inputs the functions of the condition are resolved, and the others resolve as before. -/
theorem State.DrivesResolved.redrive (h : s.DrivesResolved) {d : DriveUnit} {which : Fin 8 → Bool}
    (same : s.Redriven d which) : (({ s with drive := d } : State).withResolved which).DrivesResolved := by
  intro off f
  obtain ⟨resolved, full, undriven⟩ := h off f
  dsimp only
  rw [State.withResolved_resolution]
  change (_ = d.resolution f) ∧ _
  simp only [State.withResolved, Eight.get_map]
  by_cases changes : d.changes which f = true
  · rw [if_pos changes]
    refine ⟨rfl, fun isFull => ?_, fun isUndriven => ?_⟩
    · rw [FunctionRecord.changeTo] at isFull ⊢
      dsimp only at isFull ⊢
      rw [isFull, Wave.follow_full]
    · rw [FunctionRecord.changeTo] at isUndriven ⊢
      dsimp only at isUndriven ⊢
      rw [isUndriven, Wave.follow_undriven]
  · rw [if_neg changes, same.wave, same.drive]
    refine ⟨?_, full, undriven⟩
    cases isOf : which f with
    | false => rw [same.resolution f isOf, resolved]
    | true => simpa [DriveUnit.changes, isOf, same.drive] using changes

/-- A period start changes the wave of a dimmed output only (R12). -/
theorem FunctionRecord.periodStart_spec (r : FunctionRecord) :
    r.periodStart.drive = r.drive ∧ r.periodStart.mode = r.mode ∧
      ((∀ duty, r.drive ≠ .dim duty) → r.periodStart.wave = r.wave) := by
  unfold FunctionRecord.periodStart
  cases drive : r.drive <;> simp [drive]

theorem State.DrivesResolved.period (h : s.DrivesResolved) : s.pwmPeriodStarts.DrivesResolved := by
  intro off f
  obtain ⟨resolved, full, undriven⟩ := h off f
  obtain ⟨drive, mode, wave⟩ := (s.drive.functions.get f).periodStart_spec
  have same : s.pwmPeriodStarts.drive.resolution f = s.drive.resolution f :=
    DriveUnit.resolution_congr (d := s.drive) (e := s.pwmPeriodStarts.drive) rfl rfl rfl f
      (by simp [State.pwmPeriodStarts, mode])
  dsimp only
  rw [same]
  simp only [State.pwmPeriodStarts, Eight.get_map, drive]
  refine ⟨resolved, fun isFull => ?_, fun isUndriven => ?_⟩
  · rw [wave (by simp [isFull]), full isFull]
  · rw [wave (by simp [isUndriven]), undriven isUndriven]

/-- At the release of RSTN each function takes its drive and the output that goes with it (R6). -/
theorem State.DrivesResolved.releaseReset (cd : BitVec 4) : (s.releaseReset cd).DrivesResolved := by
  intro off f
  rw [State.releaseReset, State.foldl_evaluatePosition]
  generalize State.blank s.ov (Four.ofBits cd) s.fs s.freeIndex s.pending = b
  have same : b.resolveAtRelease.drive.resolution f = b.drive.resolution f :=
    DriveUnit.resolution_congr (d := b.drive) (e := b.resolveAtRelease.drive) rfl rfl rfl f
      (by simp [State.resolveAtRelease])
  simp only [State.resolveAtRelease, Eight.get_map]
  refine ⟨?_, fun isFull => ?_, fun isUndriven => ?_⟩
  · exact same.symm
  · rw [isFull, Wave.follow_full]
  · rw [isUndriven, Wave.follow_undriven]

theorem State.DrivesResolved.restartBlocks (h : s.DrivesResolved) : s.restartBlocks.DrivesResolved := by
  rw [State.restartBlocks, State.foldl_evaluatePosition]
  refine h.of_same rfl (fun f => ?_) (fun f => ?_) fun f =>
    DriveUnit.resolution_congr (d := s.drive) (e := s.cleared.drive) rfl rfl rfl f ?_
  all_goals simp [State.cleared, DriveUnit.restart]

theorem DriveUnit.passAlways_functions (d : DriveUnit) (ov : Four Bool) (f : Fin 8) :
    ((d.passAlways ov).functions.get f).mode = (d.functions.get f).mode ∧
      ((d.passAlways ov).functions.get f).drive = (d.functions.get f).drive ∧
      ((d.passAlways ov).functions.get f).wave = (d.functions.get f).wave := by
  unfold DriveUnit.passAlways
  dsimp only
  split
  · simp [FunctionRecord.older]
  · exact ⟨rfl, rfl, rfl⟩

theorem DriveUnit.passAlways_resolution (d : DriveUnit) (ov : Four Bool) (f : Fin 8) :
    (d.passAlways ov).resolution f = d.resolution f :=
  DriveUnit.resolution_congr (d := d) (e := d.passAlways ov) rfl rfl rfl f (d.passAlways_functions ov f).1

/-- The remaining time of a step is not read by a resolution. -/
theorem DriveUnit.passRun_resolution (d : DriveUnit) (f : Fin 8) : d.passRun.resolution f = d.resolution f := by
  refine DriveUnit.resolution_eq rfl (DriveUnit.driveOfMode_eq fun g _ => ?_)
  rw [DriveUnit.passRun, Four.get_map]
  rfl

/-- Time counts ages and the remaining times of steps, and moves no step (R1, R8). -/
theorem State.DrivesResolved.advance (h : s.DrivesResolved) : s.advance.DrivesResolved := by
  unfold State.advance
  dsimp only
  split
  · exact h.of_same rfl (fun _ => rfl) (fun _ => rfl) fun _ => rfl
  · have kept := fun f => s.drive.passAlways_functions s.ov f
    split
    · exact h.of_same rfl (fun f => (kept f).2.1) (fun f => (kept f).2.2) fun f =>
        ((s.drive.passAlways s.ov).passRun_resolution f).trans (s.drive.passAlways_resolution s.ov f)
    · exact h.of_same rfl (fun f => (kept f).2.1) (fun f => (kept f).2.2) (s.drive.passAlways_resolution s.ov)

theorem drivesEffects : Effects State.DrivesResolved where
  core _ _ same h := h.of_same same.resetAsserted (by simp [same.drive]) (by simp [same.drive]) (by simp [same.drive])
  roster _ t _ same h := by
    rw [t.eq_of_outsideRoster same]
    exact h
  redrive _ _ _ same h := h.redrive same
  period _ h := h.period
  rouse _ _ h := h
  enterRest _ _ h := h
  assertReset _ _ := fun off => absurd off (by simp [State.assertReset])
  releaseReset _ cd _ := State.DrivesResolved.releaseReset cd
  restartBlocks _ _ h := h.restartBlocks
  advance _ h := h.advance

end Sys2Proof.Machine

open Sys2Proof Sys2Proof.Machine

/-- Settles O8, by the effects of a step. -/
theorem stepKeepsDrivesResolved : Obligations.StepKeepsDrivesResolved :=
  fun _ _ resolved moved => drivesEffects.step resolved moved

end

section
/-! SUPPORT. The engine is OFF in REST only, by the moves of a step; and in REST the engine is OFF and the part is
parked, by the effects of a step. -/

namespace Sys2Proof.Machine

variable {s t : State}

/-! ## RUN has an engine -/

/-- In RUN the engine is not OFF. -/
def State.EngineRuns (s : State) : Prop := s.power = .run → s.link.engine ≠ .off

theorem State.EngineRuns.of_same (h : s.EngineRuns) (power : t.power = s.power)
    (engine : t.link.engine = s.link.engine ∨ t.link.engine ≠ .off) : t.EngineRuns := by
  intro running
  cases engine with
  | inl same => rw [same]; exact h (power ▸ running)
  | inr on => exact on

theorem State.EngineRuns.of_claims (same : t.outsideClaims = s.outsideClaims) (h : s.EngineRuns) : t.EngineRuns :=
  h.of_same (by rw [t.eq_of_outsideClaims same]) (Or.inl (by rw [link_of_outsideClaims same]))

theorem State.EngineRuns.offer (p : Fin 4) (w : LinkWord) (h : s.EngineRuns) : (s.offer p w).EngineRuns := by
  rw [s.offer_eq]
  exact h

theorem engineMoves : EventMoves False State.EngineRuns where
  bounded _ impossible _ := impossible.elim
  raise s x k h := h.of_claims (s.raise_outsideClaims x k)
  resolve s x h := h.of_claims (s.resolve_outsideClaims x)
  departCircuit s p c h := h.of_claims (s.departCircuit_outsideClaims p c)
  withdrawCircuit s p c h := h.of_claims (s.withdrawCircuit_outsideClaims p c)
  scanSubject s x h := h.of_claims (s.scanSubject_outsideClaims x)
  scanMark _ _ h := h
  setCondition s f a _ h := h.of_claims (s.setCondition_outsideClaims f a)
  clearCondition s f h := h.of_claims (s.clearCondition_outsideClaims f)
  holdOutcome s p c o h := h.of_claims (s.holdOutcome_outsideClaims p c o)
  setCircuit _ _ _ _ _ _ _ _ h := h
  dropRecords _ _ h := h
  enroll _ _ _ _ _ h := h
  updPosition _ _ _ _ h := h
  startSampling _ _ _ h := h
  stopSampling _ _ h := h
  count _ _ _ _ h := h
  shrink _ _ _ _ h := h
  sampleSent _ _ _ h := h
  sampleTimer s p _ h := by
    unfold State.issueSample
    exact Moves.choose (State.EngineRuns.offer p _ h) h
  offer _ p w h := h.offer p w
  updChannel _ _ _ _ h := h
  updLink _ _ engine _ _ h := h.of_same rfl engine
  cut _ _ _ h := h
  setAssembly _ _ _ _ h := h
  drive _ _ _ h := h
  sampling _ _ h := h
  judging _ _ h := h
  holdTime _ _ h := h
  inputs _ _ _ _ h := h
  freeIndex _ _ h := h
  blur _ _ h := h
  port _ _ _ h := h
  accept _ _ _ h := h
  severity _ _ _ h := h
  levels _ _ _ h := h
  mask _ _ _ h := h
  taken _ h := h
  finish _ _ _ _ _ _ _ _ _ _ h := h
  repost _ _ _ _ _ _ _ _ _ _ h := h
  enterRest _ _ _ := fun resting => absurd resting (by simp [State.enterRest, State.enter])
  rouse _ _ _ := fun _ => by simp [State.roused, State.enterIdle, State.enter]
  blank _ _ _ _ _ := fun _ => by simp [State.blank, Link.initial]
  cleared _ _ _ := fun _ => by simp [State.cleared]
  passAlways _ _ h := h
  passRun _ _ h := h
  pending _ _ h := h

/-! ## REST is parked -/

/-- In REST the engine is OFF and the part is parked. -/
def State.RestParked (s : State) : Prop := s.power = .rest → s.link.engine = .off ∧ s.Parked

theorem State.restHonest_iff : s.RestHonest ↔ s.EngineRuns ∧ s.RestParked := by
  constructor
  · rintro ⟨⟨off, rest⟩, parked⟩
    exact ⟨fun running off => by simp [rest off] at running, fun resting => ⟨off resting, parked resting⟩⟩
  · rintro ⟨runs, parked⟩
    refine ⟨⟨fun resting => (parked resting).1, fun off => ?_⟩, fun resting => (parked resting).2⟩
    cases power : s.power with
    | run => exact absurd off (runs power)
    | rest => rfl

theorem State.RestParked.of_running (running : s.power = .run) : s.RestParked := fun resting => by
  simp [running] at resting

/-- A REST is refused by the modes of the functions alone (R172). -/
theorem State.restRefused_eq_false_iff :
    s.restRefused = false ↔ ∀ f, (s.drive.functions.get f).mode.refusesRest = false := by
  simp only [State.restRefused, List.any_eq_false, Eight.mem_toList, Bool.not_eq_true]
  exact ⟨fun h f => h _ ⟨f, rfl⟩, fun h r ⟨f, e⟩ => e ▸ h f⟩

theorem State.restRefused_of_modes (modes : ∀ f, (t.drive.functions.get f).mode = (s.drive.functions.get f).mode)
    (allowed : s.restRefused = false) : t.restRefused = false :=
  State.restRefused_eq_false_iff.2 fun f => by rw [modes f, State.restRefused_eq_false_iff.1 allowed f]

theorem State.RestParked.of_same (h : s.RestParked) (power : t.power = s.power)
    (modes : s.power = .run ∨ ∀ f, (t.drive.functions.get f).mode = (s.drive.functions.get f).mode)
    (engine : t.link.engine = s.link.engine)
    (lists : ∀ p, (t.link.channels.get p).queue = (s.link.channels.get p).queue ∧
      ((s.samples.get p).list = [] → (t.samples.get p).list = []) ∧ t.assembly.get p = s.assembly.get p) :
    t.RestParked := by
  intro resting
  rw [power] at resting
  obtain ⟨off, allowed, empty⟩ := h resting
  have modes := modes.resolve_left (by simp [resting])
  refine ⟨engine.trans off, State.restRefused_of_modes modes allowed, fun p => ?_⟩
  obtain ⟨queue, list, assembly⟩ := lists p
  obtain ⟨noWord, noSample, idle⟩ := empty p
  exact ⟨queue.trans noWord, list noSample, assembly.trans idle⟩

theorem State.RestParked.of_core (h : s.RestParked) (same : t.SameCore s) : t.RestParked :=
  h.of_same same.power (Or.inr fun _ => by rw [same.drive]) (by rw [same.link]) fun _ => by
    rw [same.link, same.samples, same.assembly]
    exact ⟨rfl, id, rfl⟩

/-- A resolution writes no mode. -/
theorem FunctionRecord.changeTo_mode (r : FunctionRecord) (d : Drive) : (r.changeTo d).mode = r.mode := rfl

theorem State.RestParked.redrive (h : s.RestParked) {d : DriveUnit} {which : Fin 8 → Bool} (same : s.Redriven d which) :
    (({ s with drive := d } : State).withResolved which).RestParked := by
  refine h.of_same rfl (same.mode.imp_right fun modes f => ?_) rfl fun p => ⟨rfl, fun empty => ?_, rfl⟩
  · rw [← modes f]
    simp only [State.withResolved, Eight.get_map]
    split
    · rw [FunctionRecord.changeTo_mode]
    · rfl
  · simp [State.withResolved, empty]

theorem State.RestParked.enterRest (allowed : s.restRefused = false) : s.enterRest.RestParked := fun _ =>
  ⟨rfl, State.restRefused_of_modes (fun _ => rfl) allowed, fun p => by
    simp [State.enterRest, State.enter, Channel.atRest]⟩

theorem State.RestParked.advance (h : s.RestParked) : s.advance.RestParked := by
  unfold State.advance
  dsimp only
  split
  · exact h.of_same rfl (Or.inr fun _ => rfl) rfl fun _ => ⟨rfl, id, rfl⟩
  · split
    · rename_i running
      exact State.RestParked.of_running running
    · exact h.of_same rfl (Or.inr fun f => (s.drive.passAlways_functions s.ov f).1) rfl fun _ => ⟨rfl, id, rfl⟩

theorem parkedEffects : Effects State.RestParked where
  core _ _ same h := h.of_core same
  roster s t running same _ := State.RestParked.of_running (by
    rw [t.eq_of_outsideRoster same]
    exact running)
  redrive _ _ _ same h := h.redrive same
  period s h := h.of_same rfl (Or.inr fun f => by
    simp only [State.pwmPeriodStarts, Eight.get_map]
    exact (s.drive.functions.get f).periodStart_spec.2.1) rfl fun _ => ⟨rfl, id, rfl⟩
  rouse _ _ _ := State.RestParked.of_running rfl
  enterRest _ allowed _ := State.RestParked.enterRest allowed
  assertReset _ _ := State.RestParked.of_running rfl
  releaseReset s cd _ := State.RestParked.of_running (by
    rw [State.releaseReset, State.foldl_evaluatePosition]
    rfl)
  restartBlocks s running _ := State.RestParked.of_running (by
    rw [State.restartBlocks, State.foldl_evaluatePosition]
    exact running)
  advance _ h := h.advance

end Sys2Proof.Machine

open Sys2Proof Sys2Proof.Machine

/-- Settles O12: the moves of a step keep an engine in RUN, and its effects keep REST parked. -/
theorem stepKeepsRestHonest : Obligations.StepKeepsRestHonest := by
  intro s t honest moved
  obtain ⟨runs, parked⟩ := State.restHonest_iff.1 honest
  exact State.restHonest_iff.2 ⟨engineMoves.step runs moved, parkedEffects.step parked moved⟩

end

section
/-! SUPPORT. The event that is due: each entry of the clock's table has its cause, and each cause makes an entry; and
one microsecond of time written out. -/

namespace Sys2Proof.Machine

variable {s : State} {c : Instr}

/-- An entry of the clock's table belongs to a cause: it names an event that has the cause, and it is empty only where
no event has it. -/
structure EntryOf (entry : Option Instr) (cause : Instr → Prop) : Prop where
  sound : ∀ c, entry = some c → cause c
  complete : ∀ c, cause c → entry ≠ none

/-! ## Causes -/

/-- The causes that a part has in RUN and in REST (R175). -/
def State.causesAlways (s : State) : List (Instr → Prop) :=
  [fun c => ∃ i, c = .overrideFilterChange i ∧ 10000 ≤ s.drive.filterCount.get i,
    fun c => ∃ p, c = .detectFilterChange p ∧ 20000 ≤ (s.positions.get p).filterCount,
    fun c => c = .dimPeriodStart ∧ 5000 ≤ s.drive.pwmPhase]

/-- The cause that the engine's state has when its time has passed (2.3). -/
def State.EngineCause (s : State) (c : Instr) : Prop :=
  s.link.timer = 0 ∧
    ((c = .transmitStart ∧ s.link.engine = .rxIdle ∧ ∃ p, (s.link.channels.get p).queue ≠ []) ∨
      (∃ p, c = .wordTimeout ∧ s.link.engine = .rxActive p) ∨
      (∃ p, c = .inhibitSettleEnd ∧ s.link.engine = .txSetup p) ∨
      (∃ p, c = .txNoClock ∧ s.link.engine = .txWait p) ∨
      (∃ p, c = .transmitTimeout ∧ s.link.engine = .txActive p) ∨
      (c = .settleEnd ∧ s.link.engine = .settle))

/-- The gap timer of an assembly has run out (R56). -/
def Assembly.Late (a : Assembly) : Prop :=
  (∃ count serial circuits, a = .hello count serial circuits 0) ∨
    ∃ tag expected taken readings, a = .report tag expected taken readings 0

/-- A record of p has its deadline now (R91). -/
def State.Expires (s : State) (p : Fin 4) (c : Instr) : Prop :=
  ∃ r ∈ (s.samples.get p).list, c = .deadlineExpiry p r.tag ∧ ∃ o, r.outstanding = some o ∧ o.deadline = 0

/-- The causes that a part has in RUN only (R175). -/
def State.causesInRun (s : State) : List (Instr → Prop) :=
  [fun c => c = .headExecution ∧ ∃ head rest, s.port.queue = head :: rest ∧ s.waits head.command = false,
    fun c => ∃ p, c = .wakeSettleEnd p ∧ (s.link.channels.get p).wakeHold = some 0,
    s.EngineCause,
    fun c => ∃ p, c = .gapTimerExpiry p ∧ (s.assembly.get p).Late,
    fun c => ∃ g, c = .stepExpiry g ∧ (s.drive.generators.get g).remaining = 0,
    fun c => ∃ fs, c = .senseTick fs ∧ s.drive.senseRemaining = 0,
    fun c => ∃ p, s.Expires p c,
    fun c => ∃ p, c = .sampleTimerExpiry p ∧ (s.samples.get p).timer = some 0,
    fun c => ∃ p, c = .enrollTimerExpiry p ∧ (s.positions.get p).enrollTimer = some 0,
    fun c => ∃ p, c = .holdTimerExpiry p ∧ (s.positions.get p).holdTimer = some 0]

/-! ## The entries of the table -/

theorem entryOf_dueAt {n : Nat} {indices : List (Fin n)} {condition : Fin n → Bool} {command : Fin n → Instr}
    {due : Fin n → Prop} (all : ∀ i, i ∈ indices) (holds : ∀ i, condition i = true ↔ due i) :
    EntryOf (dueAt indices condition command) fun c => ∃ i, c = command i ∧ due i where
  sound c e := by
    obtain ⟨i, found, rfl⟩ := Option.map_eq_some_iff.1 e
    exact ⟨i, rfl, (holds i).1 (List.find?_some found)⟩
  complete c cause none := by
    obtain ⟨i, -, here⟩ := cause
    rw [dueAt, Option.map_eq_none_iff, List.find?_eq_none] at none
    exact none i (all i) ((holds i).2 here)

theorem entryOf_if {due : Prop} [Decidable due] {command : Instr} :
    EntryOf (if due then some command else none) fun c => c = command ∧ due where
  sound c e := by
    split at e
    · exact ⟨(Option.some.inj e).symm, by assumption⟩
    · cases e
  complete c cause := by simp [cause.2]

theorem Link.nextToServe_isSome_iff (l : Link) : l.nextToServe.isSome = true ↔ ∃ p, (l.channels.get p).queue ≠ [] := by
  have listed : ∀ last p : Fin 4, p ∈ [last + 1, last + 2, last + 3, last] := by decide
  rw [Link.nextToServe, List.find?_isSome]
  constructor
  · rintro ⟨p, _, holds⟩
    exact ⟨p, by simpa using holds⟩
  · rintro ⟨p, holds⟩
    exact ⟨p, listed l.lastServed p, by simpa using holds⟩

theorem State.headReady_iff (s : State) :
    s.headReady = true ↔ ∃ head rest, s.port.queue = head :: rest ∧ s.waits head.command = false := by
  unfold State.headReady
  split <;> simp_all

theorem State.entryOf_engineDue (s : State) : EntryOf s.engineDue s.EngineCause where
  sound c e := by
    unfold State.engineDue at e
    split at e
    · refine ⟨by assumption, ?_⟩
      split at e <;> simp_all [Link.nextToServe_isSome_iff]
    · cases e
  complete c cause := by
    obtain ⟨ended, cause⟩ := cause
    rw [State.engineDue, if_pos ended]
    rcases cause with ⟨-, idle, word⟩ | ⟨p, -, e⟩ | ⟨p, -, e⟩ | ⟨p, -, e⟩ | ⟨p, -, e⟩ | ⟨-, e⟩
    · simp [idle, s.link.nextToServe_isSome_iff.2 word]
    all_goals simp [e]

theorem Assembly.gapOver_iff (a : Assembly) : a.gapOver = true ↔ a.Late := by
  unfold Assembly.Late
  cases a <;> simp [Assembly.gapOver]

theorem State.entryOf_expired (s : State) :
    EntryOf (fourIndices.findSome? fun p => (s.samples.get p).expired.map fun tag => .deadlineExpiry p tag) fun c =>
      ∃ p, s.Expires p c where
  sound c e := by
    obtain ⟨p, -, found⟩ := List.exists_of_findSome?_eq_some e
    obtain ⟨tag, expired, rfl⟩ := Option.map_eq_some_iff.1 found
    obtain ⟨r, listed, late⟩ := List.exists_of_findSome?_eq_some expired
    split at late
    · split at late
      · exact ⟨p, r, listed, by simp_all, _, by assumption, by assumption⟩
      · cases late
    · cases late
  complete c cause none := by
    obtain ⟨p, r, listed, -, o, outstanding, late⟩ := cause
    have expired := List.findSome?_eq_none_iff.1 none p (mem_fourIndices p)
    have here := List.findSome?_eq_none_iff.1 (Option.map_eq_none_iff.1 expired) r listed
    simp [outstanding, late] at here

/-- The entries of a due list, each with the causes it stands for, in order. -/
inductive Entries : List (Option Instr) → List (Instr → Prop) → Prop where
  | nil : Entries [] []
  | cons {entry : Option Instr} {cause : Instr → Prop} {entries : List (Option Instr)} {causes : List (Instr → Prop)} :
    EntryOf entry cause → Entries entries causes → Entries (entry :: entries) (cause :: causes)

theorem Entries.append {entries more : List (Option Instr)} {causes others : List (Instr → Prop)}
    (paired : Entries entries causes) (rest : Entries more others) : Entries (entries ++ more) (causes ++ others) := by
  induction paired with
  | nil => exact rest
  | cons here _ ih => exact .cons here ih

theorem State.dueAlways_entries (s : State) : Entries s.dueAlways s.causesAlways :=
  .cons (entryOf_dueAt mem_fourIndices fun _ => decide_eq_true_iff) <|
  .cons (entryOf_dueAt mem_fourIndices fun _ => decide_eq_true_iff) <|
  .cons entryOf_if .nil

theorem State.dueInRun_entries (s : State) : Entries s.dueInRun s.causesInRun :=
  .cons (by simpa only [s.headReady_iff] using entryOf_if (due := s.headReady = true)) <|
  .cons (entryOf_dueAt mem_fourIndices fun _ => beq_iff_eq) <|
  .cons s.entryOf_engineDue <|
  .cons (entryOf_dueAt mem_fourIndices fun p => (s.assembly.get p).gapOver_iff) <|
  .cons (entryOf_dueAt mem_fourIndices fun _ => beq_iff_eq) <|
  .cons ⟨fun c e => ⟨_, entryOf_if.sound c e⟩, fun c ⟨_, cause⟩ => entryOf_if.complete _ ⟨rfl, cause.2⟩⟩ <|
  .cons s.entryOf_expired <|
  .cons (entryOf_dueAt mem_fourIndices fun _ => beq_iff_eq) <|
  .cons (entryOf_dueAt mem_fourIndices fun _ => beq_iff_eq) <|
  .cons (entryOf_dueAt mem_fourIndices fun _ => beq_iff_eq) .nil

/-- The first entry that names an event has its cause. -/
theorem entries_sound {entries : List (Option Instr)} {causes : List (Instr → Prop)}
    (paired : Entries entries causes) (first : entries.findSome? id = some c) :
    ∃ cause ∈ causes, cause c := by
  induction paired with
  | nil => cases first
  | @cons entry cause entries causes here _ ih =>
    rw [List.findSome?_cons] at first
    split at first
    · rename_i named
      exact ⟨cause, List.mem_cons_self, here.sound c (named.trans first)⟩
    · obtain ⟨cause, listed, holds⟩ := ih first
      exact ⟨cause, List.mem_cons_of_mem _ listed, holds⟩

/-- Where no entry names an event no cause holds. -/
theorem entries_complete {entries : List (Option Instr)} {causes : List (Instr → Prop)}
    (paired : Entries entries causes) (none : entries.findSome? id = none) :
    ¬∃ cause ∈ causes, cause c := by
  rintro ⟨cause, listed, holds⟩
  induction paired with
  | nil => cases listed
  | @cons entry cause entries causes here _ ih =>
    rw [List.findSome?_cons] at none
    split at none
    · cases none
    · rename_i empty
      cases listed with
      | head => exact here.complete c holds empty
      | tail _ listed => exact ih none listed

/-- The causes that the part has in its power state. -/
def State.causes (s : State) : List (Instr → Prop) :=
  s.causesAlways ++ if s.power = .run then s.causesInRun else []

theorem State.due_eq (released : s.resetAsserted = false) :
    s.due = (s.dueAlways ++ if s.power = .run then s.dueInRun else []).findSome? id := by
  unfold State.due
  cases power : s.power <;> simp [released]

theorem State.due_entries (s : State) :
    Entries (s.dueAlways ++ if s.power = .run then s.dueInRun else []) s.causes := by
  refine s.dueAlways_entries.append ?_
  split
  · exact s.dueInRun_entries
  · exact .nil

theorem State.causes_of_due (due : s.due = some c) : s.resetAsserted = false ∧ ∃ cause ∈ s.causes, cause c := by
  cases released : s.resetAsserted with
  | true => simp [State.due, released] at due
  | false => exact ⟨rfl, entries_sound s.due_entries (State.due_eq released ▸ due)⟩

theorem State.no_cause (idle : s.due = none) (c : Instr) :
    ¬(s.resetAsserted = false ∧ ∃ cause ∈ s.causes, cause c) := fun ⟨released, cause⟩ =>
  entries_complete s.due_entries (State.due_eq released ▸ idle) cause

/-- The causes of an event as the statement lists them. -/
theorem State.exists_cause_iff (s : State) (c : Instr) :
    (∃ cause ∈ s.causes, cause c) ↔
      (∃ cause ∈ s.causesAlways, cause c) ∨ s.power = .run ∧ ∃ cause ∈ s.causesInRun, cause c := by
  simp only [State.causes, List.mem_append, or_and_right, exists_or]
  split <;> simp_all

/-! ## One microsecond -/

theorem State.advance_eq_of_reset (held : s.resetAsserted = true) :
    s.advance = { s with freeIndex := s.freeIndex + 1, cd := Four.ofBits (Config.detectLevels s.freeIndex) } := by
  simp [State.advance, held]

theorem State.advance_eq_of_rest (released : s.resetAsserted = false) (resting : s.power = .rest) :
    s.advance = (({ s with freeIndex := s.freeIndex + 1 } : State).passPorts s.freeIndex).passAlways
      (Four.ofBits (Config.detectLevels s.freeIndex)) := by
  simp [State.advance, released, resting]

theorem State.advance_eq_of_run (released : s.resetAsserted = false) (running : s.power = .run) :
    s.advance = ((({ s with freeIndex := s.freeIndex + 1 } : State).passPorts s.freeIndex).passAlways
      (Four.ofBits (Config.detectLevels s.freeIndex))).passRun := by
  simp [State.advance, released, running]

/-- A millisecond of the time base ends at the count of 1000 (R1). -/
theorem DriveUnit.passAlways_eq (d : DriveUnit) (ov : Four Bool) :
    d.passAlways ov =
      { d with
        functions :=
          if d.msPhase + 1 = 1000 then d.functions.map fun _ r => { r with age := min 255 (r.age + 1) } else d.functions
        filterCount := d.filterCount.map fun i count => if ov.get i = d.filtered.get i then 0 else count + 1
        pwmPhase := d.pwmPhase + 1
        msPhase := if d.msPhase + 1 = 1000 then 0 else d.msPhase + 1 } := by
  simp only [DriveUnit.passAlways, Config.msec, beq_iff_eq]
  rfl

theorem step_of_due {c : Instr} (empty : s.pending = []) (due : s.due = some c) :
    Machine.step s = exec c { s with freeIndex := s.freeIndex + 1 } := by
  simp only [Machine.step, empty, due]

theorem step_of_idle (empty : s.pending = []) (idle : s.due = none) : Machine.step s = .next s.advance := by
  simp only [Machine.step, empty, idle]

end Sys2Proof.Machine

open Sys2Proof Sys2Proof.Machine

/-- Settles O1. -/
theorem stepTakesFrontCommand : Obligations.StepTakesFrontCommand := fun _ _ => rfl

/-- Settles O2: the entries of the clock's table and their causes, and the microsecond written out. -/
theorem stepOnEmptyQueue : Obligations.StepOnEmptyQueue := by
  intro s empty cause
  have cause_iff : ∀ c, cause c ↔ s.resetAsserted = false ∧ ∃ cause ∈ s.causes, cause c := fun c => by
    rw [s.exists_cause_iff]
    simp only [State.causesAlways, State.causesInRun, List.mem_cons, List.not_mem_nil, or_false, exists_eq_or_imp,
      exists_eq_left]
    simp only [cause, or_assoc]
    rfl
  refine ⟨fun c due => ⟨(cause_iff c).2 (State.causes_of_due due), step_of_due empty due⟩, fun idle => ?_⟩
  rw [step_of_idle empty idle]
  refine ⟨fun c holds => State.no_cause idle c ((cause_iff c).1 holds), fun held => ?_, fun released resting => ?_,
    fun released running => ?_⟩
  · rw [State.advance_eq_of_reset held]
  · rw [State.advance_eq_of_rest released resting, State.passAlways, DriveUnit.passAlways_eq]
    rfl
  · rw [State.advance_eq_of_run released running, State.passAlways, DriveUnit.passAlways_eq]
    rfl

end

section
/-! SUPPORT. RSTN: what it leaves of the state, what the part drives under it, and the values of every block at its
release. -/

namespace Sys2Proof.Machine

variable {s : State}

/-! ## Under RSTN -/

/-- Under RSTN a command is an event without an effect, but for the two of RSTN and the raw override levels (R6). -/
theorem exec_of_reset (held : s.resetAsserted = true) (c : Instr) (assert : c ≠ .pinResetAssert)
    (release : ∀ cd, c ≠ .pinResetRelease cd) (input : ∀ i level, c ≠ .overrideInputChange i level) :
    exec c s = .next s := by
  cases c with
  | pinResetAssert => exact absurd rfl assert
  | pinResetRelease cd => exact absurd rfl (release cd)
  | overrideInputChange i level => exact absurd rfl (input i level)
  | _ => exact congrArg Host.Outcome.next (if_pos held)

/-- Under RSTN F0 follows OV0 and the other outputs are low (R6). -/
theorem State.functionOutput_of_reset (held : s.resetAsserted = true) (f : Fin 8) :
    s.functionOutput f = if f = 0 then s.ov.get 0 else false := by
  rw [State.functionOutput, if_pos held]

theorem State.clockHeldLow_of_reset (held : s.resetAsserted = true) (p : Fin 4) : s.clockHeldLow p = true := by
  simp [State.clockHeldLow, held]

theorem State.dataHeldLow_of_reset (held : s.resetAsserted = true) (p : Fin 4) (k : Nat) :
    s.dataHeldLow p k = false := by
  simp [State.dataHeldLow, held]

theorem State.lines_of_reset (held : s.resetAsserted = true) : s.latn = false ∧ s.datn = false := by
  simp [State.latn, State.datn, held]

/-! ## The release -/

theorem Four.get_ofBits (b : BitVec 4) (p : Fin 4) : (Four.ofBits b).get p = b.getLsbD p.val := by
  revert p
  exact forallFour rfl rfl rfl rfl

/-- After reset no mode drives a function, and OV0 alone has an assigned function, F0 (R6). -/
theorem DriveUnit.initial_resolution (ov : Four Bool) (f : Fin 8) :
    (DriveUnit.initial ov).resolution f = if f = 0 ∧ ov.get 0 = true then .full else .undriven := by
  have sets : ∀ f : Fin 8, inSet 1#8 f = decide (f = 0) ∧ inSet 0#8 f = false := by decide
  obtain ⟨first, none⟩ := sets f
  simp [DriveUnit.resolution, DriveUnit.overridden, DriveUnit.initial, FunctionRecord.initial, DriveUnit.driveOfMode,
    fourIndices, Four.get, first, none, and_comm]

/-- A position after the evaluation at the release (R65): COUPLED where its input is high. -/
theorem Position.initial_evaluated (level : Bool) :
    (Position.initial level).evaluated =
      { Position.initial level with
        state := if level then .coupled else .vacant
        enrollTimer := if level then some 1000000 else none } := by
  cases level <;> rfl

/-- A function at the release (R6). -/
theorem State.releaseReset_functions (s : State) (cd : BitVec 4) (f : Fin 8) :
    (s.releaseReset cd).drive.functions.get f =
      { mode := .off
        drive := if f = 0 ∧ s.ov.get 0 = true then .full else .undriven
        age := 0
        wave := if f = 0 ∧ s.ov.get 0 = true then .high else .low
        sense := { condition := .none, kind := .none, count := 0 } } := by
  rw [State.releaseReset, State.foldl_evaluatePosition]
  simp only [State.resolveAtRelease, State.blank, Eight.get_map, DriveUnit.initial_resolution]
  simp only [DriveUnit.initial, Eight.get_all]
  split <;> rfl

/-- A channel at the release holds a RECALL where its position reads coupled (R65). -/
theorem State.releaseReset_channels (s : State) (cd : BitVec 4) (p : Fin 4) :
    (s.releaseReset cd).link.channels.get p =
      { enabled := true
        queue := if cd.getLsbD p.val then [.recall] else []
        attempts := 0
        streak := 0
        wakeHold := none } := by
  rw [State.releaseReset, State.foldl_evaluatePosition]
  simp only [State.resolveAtRelease, State.blank, Link.initial, Four.get_map, Four.get_all, Four.get_ofBits]
  cases cd.getLsbD p.val <;> rfl

theorem State.releaseReset_positions (s : State) (cd : BitVec 4) (p : Fin 4) :
    (s.releaseReset cd).positions.get p = (Position.initial (cd.getLsbD p.val)).evaluated := by
  rw [State.releaseReset, State.foldl_evaluatePosition]
  simp only [State.resolveAtRelease, State.blank, Four.get_map, Four.get_ofBits]

theorem Twelve.get_all {α : Type} (x : α) (c : Fin 12) : (Twelve.all x).get c = x := by
  revert c
  exact forallTwelve rfl rfl rfl rfl rfl rfl rfl rfl rfl rfl rfl rfl

theorem NoticeUnit.announceOf_initial (x : Subject) : NoticeUnit.initial.announceOf x = .none := by
  cases x <;> simp [NoticeUnit.announceOf, NoticeUnit.initial, Announcements.initial, Twelve.get_all]

/-! ## The state right after reset -/

/-- With every input low the release finds no function to drive and no position coupled. -/
theorem State.releaseReset_low (ov : s.ov = Four.all false) (fs : s.fs = 0) (freeIndex : s.freeIndex = 0)
    (pending : s.pending = []) : s.releaseReset 0 = State.reset := by
  rw [State.releaseReset, ov, fs, freeIndex, pending]
  decide

theorem State.blank_assembliesBounded (ov cd : Four Bool) (fs : BitVec 8) (freeIndex : Nat) (pending : List Instr) :
    (State.blank ov cd fs freeIndex pending).AssembliesBounded := by
  refine ⟨fun p => ?_, fun a held => ?_⟩
  · rw [show (State.blank ov cd fs freeIndex pending).assembly.get p = .idle from Four.get_all _ p]
    exact True.intro
  · cases held

end Sys2Proof.Machine

open Sys2Proof Sys2Proof.Machine

/-- Settles O4. -/
theorem pinResetAssert : Obligations.PinResetAssert :=
  ⟨fun _ => rfl, fun _ held => ⟨State.functionOutput_of_reset held, State.clockHeldLow_of_reset held,
    State.dataHeldLow_of_reset held, (State.lines_of_reset held).1, (State.lines_of_reset held).2, exec_of_reset held⟩⟩

/-- Settles O5: the blocks at their pin-reset values, with the functions resolved and the positions evaluated. -/
theorem pinResetRelease : Obligations.PinResetRelease := by
  intro s cd held
  refine ⟨s.releaseReset cd, by rw [exec_eq_pinResetRelease, if_pos held], ?_⟩
  have functions := s.releaseReset_functions cd
  have channels := s.releaseReset_channels cd
  have positions := s.releaseReset_positions cd
  simp only [Position.initial_evaluated] at positions
  rw [State.releaseReset, State.foldl_evaluatePosition] at *
  exact ⟨rfl, rfl, rfl, rfl, functions, rfl, rfl, rfl, rfl, rfl, rfl, rfl, rfl, channels,
    fun p => Four.get_all _ p, positions, rfl, fun p => Four.get_all _ p, rfl, fun p => Four.get_all _ p, rfl,
    fun f => Eight.get_all _ f, rfl, rfl, NoticeUnit.announceOf_initial, rfl, rfl, rfl, rfl, rfl, rfl, rfl, rfl, rfl,
    rfl, rfl, rfl⟩

/-- Settles O6: the release with every input low, and the invariants of its blank state. -/
theorem resetState : Obligations.ResetState := by
  refine ⟨fun s held ov fs freeIndex pending => ?_, by decide, by decide, by decide, by decide, by decide, by decide,
    ?_, ?_, NoticeUnit.sound_of_empty _ rfl rfl rfl⟩
  · rw [exec_eq_pinResetRelease, if_pos held, State.releaseReset_low ov fs freeIndex pending]
  · exact ⟨State.blank_assembliesBounded _ _ _ _ _, by decide⟩
  · exact ⟨by decide, fun resting => absurd resting (by decide)⟩

end

section
/-! SUPPORT. The function drive: resolutions, override inputs, cadence steps, PWM periods and the streaks of a sense
check. -/

namespace Sys2Proof.Machine

variable {s : State}

/-! ## Resolutions -/

/-- An active override input holds the function (R4). -/
theorem DriveUnit.overridden_iff (d : DriveUnit) (f : Fin 8) :
    d.overridden f = true ↔ ∃ i, d.filtered.get i = true ∧ inSet (d.assign.get i) f = true := by
  simp [DriveUnit.overridden, mem_fourIndices]

theorem DriveUnit.resolution_of_overridden {d : DriveUnit} {f : Fin 8} (held : d.overridden f = true) :
    d.resolution f = .full := by
  rw [DriveUnit.resolution, if_pos held]

theorem DriveUnit.resolution_of_not_overridden {d : DriveUnit} {f : Fin 8} (free : ¬d.overridden f = true) :
    d.resolution f = d.driveOfMode (d.functions.get f).mode := by
  rw [DriveUnit.resolution, if_neg free]

theorem DriveUnit.changes_iff (d : DriveUnit) (which : Fin 8 → Bool) (f : Fin 8) :
    d.changes which f = true ↔ which f = true ∧ (d.functions.get f).drive ≠ d.resolution f := by
  simp [DriveUnit.changes]

theorem State.withResolved_functions (s : State) (which : Fin 8 → Bool) (f : Fin 8) :
    (s.withResolved which).drive.functions.get f =
      if s.drive.changes which f then (s.drive.functions.get f).changeTo (s.drive.resolution f)
      else s.drive.functions.get f := by
  rw [State.withResolved, Eight.get_map]

theorem FunctionRecord.changeTo_eq (r : FunctionRecord) (d : Drive) :
    r.changeTo d =
      { r with
        drive := d
        age := 0
        wave :=
          match d with
          | .full => .high
          | .undriven => .low
          | .dim _ => r.wave } := by
  cases d <;> rfl

theorem State.withResolved_samples (s : State) (which : Fin 8 → Bool) (p : Fin 4) :
    (s.withResolved which).samples.get p =
      { s.samples.get p with
        list := (s.samples.get p).list.map fun r => r.blurredBy (setOf (s.drive.changes which)) } := by
  rw [State.withResolved, Four.get_map]

/-! ## Cadence steps and PWM periods -/

theorem State.functionOutput_of_released (released : s.resetAsserted = false) (f : Fin 8) :
    s.functionOutput f = (s.drive.functions.get f).wave.level s.drive.pwmPhase := by
  simp [State.functionOutput, released]

end Sys2Proof.Machine

open Sys2Proof Sys2Proof.Machine

/-- Settles O15: a resolution of a condition is one change, function by function. -/
theorem driveResolution : Obligations.DriveResolution := by
  refine ⟨fun d f => ⟨fun held => ?_, fun free => ?_⟩, fun s which => ?_⟩
  · exact DriveUnit.resolution_of_overridden ((d.overridden_iff f).2 held)
  · rw [DriveUnit.resolution_of_not_overridden fun held => free ((d.overridden_iff f).1 held)]
    cases (d.functions.get f).mode <;> rfl
  · refine ⟨s.resolveWhere_eq which, s.resolveFunction_eq, rfl, fun f => ⟨fun same => ?_, fun changed => ?_⟩,
      setOf (s.drive.changes which), fun f => ?_, fun p => ?_⟩
    · rw [s.withResolved_functions, if_neg fun h => same ((s.drive.changes_iff which f).1 h)]
    · rw [s.withResolved_functions, if_pos ((s.drive.changes_iff which f).2 changed)]
      exact FunctionRecord.changeTo_eq _ _
    · rw [inSet_setOf, s.drive.changes_iff]
    · exact s.withResolved_samples which p

/-- Settles O16. -/
theorem overrideInputs : Obligations.OverrideInputs := by
  refine ⟨fun s i level => rfl, fun s i released => ?_⟩
  rw [exec_eq_overrideFilterChange, event_of_released released, State.overrideFilterPasses, State.resolveWhere_eq]

/-- Settles O17. -/
theorem stepExpiry : Obligations.StepExpiry := by
  intro s g awake
  rw [exec_eq_stepExpiry, runEvent_of_awake awake, State.stepRunsOut, State.resolveWhere_eq]
  rfl

/-- Settles O18. -/
theorem dimPeriodStart : Obligations.DimPeriodStart := by
  refine ⟨fun s released => ?_, fun s f duty released pwm => ?_, fun s f released => ⟨fun high => ?_, fun low => ?_⟩⟩
  · rw [exec_eq_dimPeriodStart, event_of_released released]
    rfl
  · rw [State.functionOutput_of_released released, pwm]
    exact decide_eq_true_iff
  · rw [State.functionOutput_of_released released, high]
    rfl
  · rw [State.functionOutput_of_released released, low]
    rfl

/-- Settles O20, by the condition and the observation. -/
theorem senseStreaks : Obligations.SenseStreaks := by
  refine ⟨⟨rfl, rfl, rfl, rfl, fun level => by cases level <;> rfl⟩, fun c j => ?_⟩
  obtain ⟨condition, kind, count⟩ := c
  refine ⟨?_, ?_, ?_⟩
  all_goals
    rintro rfl
    exact ⟨rfl, rfl, rfl, rfl⟩

end

section
/-! SUPPORT. A sense tick: the check of one function, and the functions in order. -/

namespace Sys2Proof.Machine

variable {s t : State}

/-! ## The check of one function -/

/-- A function record after its sense check, with the level of its FS input (R15). -/
def FunctionRecord.checked (r : FunctionRecord) (guard : Nat) (j : Judging) (level : Bool) : FunctionRecord :=
  if r.age < guard then r
  else
    match observe r.drive.cls level with
    | some o => { r with sense := r.sense.counted j o }
    | none => r

/-- The feed condition that goes with a sense condition (R126, R127). -/
def SenseCondition.feed : SenseCondition → FeedCondition
  | .none => .none
  | .driverDead => .driverDead
  | .driverStuck => .driverStuck

/-- The feed condition of a function after its sense condition went from one to another (R19). -/
def FeedCondition.sensed (a : FeedCondition) (before after : SenseCondition) : FeedCondition :=
  if after = before then a else after.feed

/-- Two states are the same outside the sense checks of the functions and the claims that they make. -/
def State.SensedFrom (t s : State) : Prop :=
  t =
    { s with
      drive := { s.drive with functions := t.drive.functions }
      feeds := t.feeds
      circuits := t.circuits
      notices := t.notices }

theorem State.SensedFrom.trans {u : State} (h : t.SensedFrom u) (h' : u.SensedFrom s) : t.SensedFrom s := by
  unfold State.SensedFrom at *
  rw [h'] at h
  exact h

theorem State.senseClaim_sensedFrom (s : State) (f : Fin 8) (before after : SenseCondition) :
    (s.senseClaim f before after).SensedFrom s := by
  have same := State.eq_of_outsideClaims _ (s.senseClaim_outsideClaims f before after)
  unfold State.SensedFrom
  have drive : (s.senseClaim f before after).drive = s.drive := by rw [same]
  rw [drive]
  exact same

theorem State.senseClaim_feeds (s : State) (f g : Fin 8) (before after : SenseCondition) :
    (s.senseClaim f before after).feeds.get g =
      if g = f then (s.feeds.get f).sensed before after else s.feeds.get g := by
  unfold State.senseClaim FeedCondition.sensed
  by_cases same : before = after
  · rw [if_pos same, if_pos same.symm]
    split
    · rename_i here
      rw [here]
    · rfl
  · rw [if_neg same, if_neg (Ne.symm same)]
    cases after <;> simp [Eight.get_set, SenseCondition.feed]

theorem State.senseClaim_drive (s : State) (f : Fin 8) (before after : SenseCondition) :
    (s.senseClaim f before after).drive = s.drive := by
  rw [State.eq_of_outsideClaims _ (s.senseClaim_outsideClaims f before after)]

/-- What the check of f does to the sense checks and to the feed conditions (R15, R19). -/
structure State.Checked (s t : State) (which : Fin 8 → Prop) : Prop where
  frame : t.SensedFrom s
  record : ∀ g, which g → t.drive.functions.get g =
    (s.drive.functions.get g).checked s.sampling.guard s.judging (inSet s.fs g)
  otherRecord : ∀ g, ¬which g → t.drive.functions.get g = s.drive.functions.get g
  feed : ∀ g, t.feeds.get g =
    (s.feeds.get g).sensed (s.drive.functions.get g).sense.condition (t.drive.functions.get g).sense.condition

theorem State.Checked.refl (s : State) {which : Fin 8 → Prop} (none : ∀ g, ¬which g) : s.Checked s which where
  frame := rfl
  record g here := absurd here (none g)
  otherRecord _ _ := rfl
  feed g := by rw [FeedCondition.sensed, if_pos rfl]

/-- A check of a function that is not of the condition comes first. -/
theorem State.Checked.trans {u : State} {f : Fin 8} {which : Fin 8 → Prop} (first : s.Checked u (· = f))
    (rest : u.Checked t which) (distinct : ¬which f) : s.Checked t fun g => g = f ∨ which g where
  frame := rest.frame.trans first.frame
  record g here := by
    obtain rfl | here := here
    · rw [rest.otherRecord g distinct, first.record g rfl]
    · have other : g ≠ f := fun same => distinct (same ▸ here)
      rw [rest.record g here, first.otherRecord g other]
      have same := first.frame
      unfold State.SensedFrom at same
      rw [same]
  otherRecord g here := by
    rw [rest.otherRecord g fun h => here (Or.inr h), first.otherRecord g fun h => here (Or.inl h)]
  feed g := by
    rw [rest.feed g, first.feed g]
    by_cases here : g = f
    · rw [rest.otherRecord g (here ▸ distinct), FeedCondition.sensed, if_pos rfl]
    · rw [first.otherRecord g here]
      unfold FeedCondition.sensed
      rw [if_pos rfl]

theorem State.senseFunction_checked (s : State) (f : Fin 8) : s.Checked (s.senseFunction f) (· = f) := by
  have skipped (same : (s.drive.functions.get f).checked s.sampling.guard s.judging (inSet s.fs f) =
      s.drive.functions.get f) : s.Checked s (· = f) :=
    { State.Checked.refl s (which := fun _ => False) (fun _ => id) with
      record := fun g here => by rw [here, same]
      otherRecord := fun _ _ => rfl }
  unfold State.senseFunction
  dsimp only
  split
  · rename_i young
    exact skipped (if_pos young)
  · rename_i settled
    split
    · rename_i o observed
      have checked : (s.drive.functions.get f).checked s.sampling.guard s.judging (inSet s.fs f) =
          { s.drive.functions.get f with sense := (s.drive.functions.get f).sense.counted s.judging o } := by
        rw [FunctionRecord.checked, if_neg settled, observed]
      refine ⟨(State.senseClaim_sensedFrom _ f _ _).trans rfl, fun g here => ?_, fun g other => ?_, fun g => ?_⟩
      · rw [State.senseClaim_drive, here, checked]
        simp [State.updFunction]
      · rw [State.senseClaim_drive]
        simp [State.updFunction, other]
      · rw [State.senseClaim_feeds, State.senseClaim_drive]
        by_cases here : g = f
        · simp [State.updFunction, here]
        · simp [State.updFunction, here, FeedCondition.sensed]
    · rename_i unobserved
      refine skipped ?_
      rw [FunctionRecord.checked, if_neg settled, unobserved]

theorem State.foldl_senseFunction_checked (l : List (Fin 8)) (distinct : l.Nodup) (s : State) :
    s.Checked (l.foldl State.senseFunction s) (· ∈ l) := by
  induction l generalizing s with
  | nil => exact State.Checked.refl s (by simp)
  | cons f l ih =>
    obtain ⟨new, distinct⟩ := List.nodup_cons.1 distinct
    simpa using (s.senseFunction_checked f).trans (ih distinct (s.senseFunction f)) new


/-! ## The functions in order -/

/-- The check of one function, with the settings and the levels of the tick. -/
def State.senseStep (guard : Nat) (j : Judging) (fs : BitVec 8) (u : State) (f : Fin 8) : State :=
  let r := u.drive.functions.get f
  if r.age < guard then u
  else
    match observe r.drive.cls (inSet fs f) with
    | none => u
    | some o =>
      let after := r.sense.counted j o
      let counted := u.updFunction f fun x => { x with sense := after }
      if after.condition = r.sense.condition then counted
      else
        match after.condition with
        | .none => counted.clearCondition f
        | .driverDead => counted.setCondition f .driverDead
        | .driverStuck => counted.setCondition f .driverStuck

theorem State.senseFunction_eq (s : State) (f : Fin 8) :
    s.senseFunction f = s.senseStep s.sampling.guard s.judging s.fs f := by
  unfold State.senseFunction State.senseStep
  dsimp only
  cases observe (s.drive.functions.get f).drive.cls (inSet s.fs f) with
  | none => rfl
  | some o =>
    dsimp only
    unfold State.senseClaim
    by_cases same : ((s.drive.functions.get f).sense.counted s.judging o).condition =
        (s.drive.functions.get f).sense.condition
    · rw [if_pos same, if_pos same.symm]
    · rw [if_neg same, if_neg (Ne.symm same)]
      cases ((s.drive.functions.get f).sense.counted s.judging o).condition <;> rfl

theorem State.foldl_senseFunction_eq (l : List (Fin 8)) (s : State) :
    l.foldl State.senseFunction s = l.foldl (State.senseStep s.sampling.guard s.judging s.fs) s := by
  induction l generalizing s with
  | nil => rfl
  | cons f l ih =>
    have frame := (s.senseFunction_checked f).frame
    unfold State.SensedFrom at frame
    have settings : (s.senseFunction f).sampling = s.sampling ∧ (s.senseFunction f).judging = s.judging ∧
        (s.senseFunction f).fs = s.fs := by
      rw [frame]
      exact ⟨rfl, rfl, rfl⟩
    obtain ⟨sampling, judging, fs⟩ := settings
    rw [List.foldl_cons, List.foldl_cons, ih, sampling, judging, fs, State.senseFunction_eq]

theorem eightIndices_nodup : eightIndices.Nodup := by decide

end Sys2Proof.Machine

open Sys2Proof Sys2Proof.Machine

/-- Settles O19: the checks in order, function by function. -/
theorem senseTick : Obligations.SenseTick := by
  intro s fs awake
  obtain ⟨begun, begins⟩ : ∃ begun : State,
      begun = { s with fs := fs, drive := { s.drive with senseRemaining := 50000 } } := ⟨_, rfl⟩
  obtain ⟨t, ends⟩ : ∃ t, t = eightIndices.foldl State.senseFunction begun := ⟨_, rfl⟩
  have checked : begun.Checked t (· ∈ eightIndices) :=
    ends ▸ State.foldl_senseFunction_checked _ eightIndices_nodup begun
  refine ⟨t.settle, ?_, ?_, fun f => ?_, fun f => ?_, ?_⟩
  · rw [exec_eq_senseTick, runEvent_of_awake awake, ends, begins]
    rfl
  · have frame := checked.frame
    unfold State.SensedFrom at frame
    rw [t.settle_eq]
    generalize t.settle.notices = notices
    rw [frame, begins]
    rfl
  · have record := checked.record f (mem_eightIndices f)
    rw [t.settle_eq, begins] at *
    exact record
  · have feed := checked.feed f
    rw [t.settle_eq, begins] at *
    exact feed
  · rw [State.foldl_senseFunction_eq, begins] at ends
    exact congrArg State.settle ends

end

section
/-! SUPPORT. The link engine: the round-robin, the lines in each of its states, and the transfers that begin. -/

namespace Sys2Proof.Machine

variable {s : State}

/-! ## The round-robin -/

/-- What holds at every table of four conditions holds at every condition on the four positions. -/
theorem forall_fourConditions {P : (Fin 4 → Bool) → Prop} (h : ∀ b0 b1 b2 b3 : Bool, P (Four.mk b0 b1 b2 b3).get)
    (b : Fin 4 → Bool) : P b := by
  have table : (Four.mk (b 0) (b 1) (b 2) (b 3)).get = b := funext (forallFour rfl rfl rfl rfl)
  exact table ▸ h _ _ _ _

/-- The first of the rotation at which a condition holds is the one at the least distance from the last-served. -/
theorem rotation_find (b : Fin 4 → Bool) (last p : Fin 4) :
    [last + 1, last + 2, last + 3, last].find? b = some p ↔
      b p = true ∧ ∀ q, q - last - 1 < p - last - 1 → b q = false := by
  revert b last p
  exact forall_fourConditions (by decide)

theorem Link.nextToServe_eq_none_iff (l : Link) : l.nextToServe = none ↔ ∀ p, (l.channels.get p).queue = [] := by
  rw [← Option.not_isSome_iff_eq_none, l.nextToServe_isSome_iff]
  simp

theorem Link.nextToServe_eq_some_iff (l : Link) (p : Fin 4) :
    l.nextToServe = some p ↔
      (l.channels.get p).queue ≠ [] ∧
        ∀ q, (q - l.lastServed - 1 : Fin 4) < p - l.lastServed - 1 → (l.channels.get q).queue = [] := by
  rw [Link.nextToServe, Link.rotation, rotation_find]
  simp

/-! ## Offers and streaks -/

theorem State.accepts_iff (s : State) (p : Fin 4) :
    s.accepts p = true ↔ (s.link.channels.get p).enabled = true ∧ (s.link.channels.get p).queue.length < 3 := by
  simp [State.accepts, Channel.accepts]

/-! ## Transfers that begin -/

theorem State.startTaken_eq_some_iff (s : State) (channels : BitVec 4) (p : Fin 4) :
    s.startTaken channels = some p ↔
      (channels.getLsbD p.val = true ∧ (s.link.channels.get p).enabled = true ∧
          (s.link.channels.get p).wakeHold = none) ∧
        ∀ q, q < p → ¬(channels.getLsbD q.val = true ∧ (s.link.channels.get q).enabled = true ∧
          (s.link.channels.get q).wakeHold = none) := by
  rw [State.startTaken, find_fourIndices]
  simp only [← Bool.not_eq_true, Bool.and_eq_true, Option.isNone_iff_eq_none, and_assoc]

theorem State.startTaken_eq_none (s : State) (channels : BitVec 4)
    (untaken : ∀ q : Fin 4, ¬(channels.getLsbD q.val = true ∧ (s.link.channels.get q).enabled = true ∧
      (s.link.channels.get q).wakeHold = none)) :
    s.startTaken channels = none := by
  rw [State.startTaken, List.find?_eq_none]
  intro q _
  simp only [Bool.and_eq_true, Option.isNone_iff_eq_none, and_assoc]
  exact untaken q

section Awake

variable (awake : s.Awake)
include awake

theorem exec_startBit_of_taken {channels : BitVec 4} {p : Fin 4} (idle : s.link.engine = .rxIdle)
    (taken : s.startTaken channels = some p) :
    exec (.startBit channels) s = .next (s.enter (.rxActive p) Config.wordLimit) := by
  simp only [exec, execStartBit, runEvent_of_awake awake, idle, taken]

theorem exec_startBit_of_none {channels : BitVec 4} (idle : s.link.engine = .rxIdle)
    (taken : s.startTaken channels = none) : exec (.startBit channels) s = .next s := by
  simp only [exec, execStartBit, runEvent_of_awake awake, idle, taken]

theorem exec_transmitStart_of_word {p : Fin 4} (idle : s.link.engine = .rxIdle) (word : s.link.nextToServe = some p) :
    exec .transmitStart s = .next (s.enterSetup p) := by
  simp only [exec, execTransmitStart, runEvent_of_awake awake, idle, word]

theorem exec_transmitStart_of_none (none : s.link.nextToServe = none) : exec .transmitStart s = .next s := by
  simp only [exec, execTransmitStart, runEvent_of_awake awake, none]
  cases s.link.engine <;> rfl

theorem exec_inhibitSettleEnd_of_txSetup {p : Fin 4} (setup : s.link.engine = .txSetup p) :
    exec .inhibitSettleEnd s = .next (s.goOn (.txWait p) Config.noClockLimit) := by
  simp only [exec, execInhibitSettleEnd, runEvent_of_awake awake, setup]

theorem exec_firstFallingEdge_of_txWait {p : Fin 4} (waits : s.link.engine = .txWait p) :
    exec .firstFallingEdge s = .next (s.goOn (.txActive p) Config.wordLimit) := by
  simp only [exec, execFirstFallingEdge, runEvent_of_awake awake, waits]

theorem exec_wordTimeout_of_rxActive {p : Fin 4} (active : s.link.engine = .rxActive p) :
    exec .wordTimeout s = .next (s.countFailure p).afterReceive.settle := by
  simp only [exec, execWordTimeout, runEvent_of_awake awake, active]

theorem exec_receiveEnd_of_rxActive {p : Fin 4} (active : s.link.engine = .rxActive p) (data : BitVec 12)
    (parity stop : Bool) :
    exec (.receiveEnd data parity stop) s = .next (s.endReceive p data parity stop).settle := by
  simp only [exec, execReceiveEnd, runEvent_of_awake awake, active]

end Awake

/-! ## Lines -/

theorem LinkWord.welcome_bits (p : Fin 4) :
    (LinkWord.welcome p).bits = BitVec.ofNat 12 (8 + 16 * (p.val + 1)) := by
  revert p
  decide

theorem LinkWord.sample_bits (tag : BitVec 4) : (LinkWord.sample tag).bits = BitVec.ofNat 12 (9 + 16 * tag.toNat) := by
  revert tag
  decide

/-- The levels of a word on the wire (R25, R46). -/
theorem txLevel_spec (w : LinkWord) :
    txLevel w 0 = false ∧ (∀ k, k < 12 → txLevel w (k + 1) = w.bits.getLsbD k) ∧
      (txLevel w 13 = true ↔ ones w.bits % 2 = 0) ∧ ∀ k, 14 ≤ k → txLevel w k = true := by
  refine ⟨rfl, fun k low => ?_, ?_, fun k high => ?_⟩
  · simp [txLevel, Nat.succ_le_of_lt low]
  · simp [txLevel, parityBit]
  · have first : k ≠ 0 := by omega
    have data : ¬k ≤ 12 := by omega
    have parity : k ≠ 13 := by omega
    simp [txLevel, first, data, parity]

/-! ## The end of a receive -/

theorem goodWord_iff (data : BitVec 12) (parity stop : Bool) :
    goodWord data parity stop = true ↔ (ones data + bit parity) % 2 = 1 ∧ stop = true := by
  simp [goodWord]

theorem Assembly.completedBy_hello {count : Nat} {low middle high : Byte} {circuits : List CircuitDef} {gap : Nat}
    {d : CircuitDef} (last : circuits.length + 1 = count) :
    (Assembly.hello count [low, middle, high] circuits gap).completedBy (.circuit d false) =
      some (high ++ middle ++ low, circuits ++ [d]) := by
  simp [Assembly.completedBy, last]

theorem Assembly.completedBy_eq_none {a : Assembly} {w : NodeWord}
    (misfit : ∀ count low middle high circuits gap d, a = .hello count [low, middle, high] circuits gap →
      w = .circuit d false → circuits.length + 1 ≠ count) :
    a.completedBy w = none := by
  unfold Assembly.completedBy
  split
  · exact if_neg (misfit _ _ _ _ _ _ _ rfl rfl)
  · rfl

theorem State.countSuccess_link (s : State) (p : Fin 4) :
    (s.countSuccess p).link.cut = s.link.cut ∧ (s.countSuccess p).freeIndex = s.freeIndex := by
  rw [s.countSuccess_eq p]
  exact ⟨rfl, rfl⟩

/-- A discarded receive takes a HELLO that its word completes, if the two fell together (R72; log 34). -/
theorem State.takeCutHello_of_completed {p : Fin 4} {w : NodeWord} {a : Assembly} {hello : BitVec 24 × List CircuitDef}
    (cut : s.link.cut = some a) (completed : a.completedBy w = some hello) :
    s.takeCutHello p w = if Config.helloWithEdge s.freeIndex then s.acceptHello p hello.1 hello.2 else s := by
  simp only [State.takeCutHello, cut, Option.bind_some, completed]

theorem State.takeCutHello_of_not_completed {p : Fin 4} {w : NodeWord}
    (misfit : ∀ a, s.link.cut = some a → a.completedBy w = none) : s.takeCutHello p w = s := by
  have none : (s.link.cut.bind fun a => a.completedBy w) = none := by
    cases cut : s.link.cut with
    | none => rfl
    | some a => exact misfit a cut
  simp only [State.takeCutHello, none]

end Sys2Proof.Machine

open Sys2Proof Sys2Proof.Machine

/-- Settles O22. -/
theorem roundRobin : Obligations.RoundRobin := fun l => ⟨l.nextToServe_eq_some_iff, l.nextToServe_eq_none_iff⟩

/-- Settles O23. -/
theorem offersAndStreaks : Obligations.OffersAndStreaks := by
  refine fun s p => ⟨fun w => ?_, s.countFailure_eq p, s.countSuccess_eq p⟩
  rw [State.offer]
  simp only [s.accepts_iff]
  rfl

/-- Settles O27. -/
theorem settlesEnd : Obligations.SettlesEnd := by
  refine fun s awake => ⟨fun settles => ?_, fun p => ?_⟩
  · rw [exec_eq_settleEnd, runEvent_of_awake awake, if_pos settles]
    rfl
  · rw [exec_eq_wakeSettleEnd, runEvent_of_awake awake]
    rfl

/-- Settles O24, by the parity of the word and whether the transfer is discarded. -/
theorem receiveEnds : Obligations.ReceiveEnds := by
  refine ⟨fun s => rfl, fun s data parity stop awake p active => ⟨exec_wordTimeout_of_rxActive awake active,
    fun bad => ?_, fun odd high => ?_⟩⟩
  · have poor : ¬goodWord data parity stop = true := by
      rw [goodWord_iff]
      rintro ⟨odd, high⟩
      rcases bad with even | low
      · omega
      · simp [low] at high
    rw [exec_receiveEnd_of_rxActive awake active, State.endReceive, if_neg poor]
  · have good : goodWord data parity stop = true := (goodWord_iff _ _ _).2 ⟨odd, high⟩
    intro counted command
    have ends : command = .next ((if s.link.discarded then counted.takeCutHello p (NodeWord.decode data)
        else counted.takeWord p (NodeWord.decode data)).afterReceive.settle) :=
      (exec_receiveEnd_of_rxActive awake active data parity stop).trans (by rw [State.endReceive, if_pos good])
    have kept : counted.link.cut = s.link.cut ∧ counted.freeIndex = s.freeIndex := s.countSuccess_link p
    obtain ⟨cut, freeIndex⟩ := kept
    refine ⟨fun taken => ?_, fun discarded => ⟨fun count low middle high circuits gap d held word last => ?_,
      fun misfit => ?_⟩⟩
    · rw [ends, if_neg (by simp [taken])]
    · rw [ends, if_pos discarded, word,
        State.takeCutHello_of_completed (cut.trans held) (Assembly.completedBy_hello last), freeIndex]
    · rw [ends, if_pos discarded, State.takeCutHello_of_not_completed fun a held => ?_]
      refine Assembly.completedBy_eq_none fun count low middle high circuits gap d same word => ?_
      exact misfit count low middle high circuits gap d (by rw [← cut, held, same]) word

/-- Settles O21: the transfers that begin, and the lines by the engine's state. -/
theorem transfersBegin : Obligations.TransfersBegin := by
  refine ⟨fun s p k released off => by
      cases enabled : (s.link.channels.get p).enabled <;>
        simp [State.clockHeldLow, State.dataHeldLow, released, off, enabled],
    fun s awake => ⟨?_,
      fun p idle word => exec_transmitStart_of_word awake idle word, exec_transmitStart_of_none awake,
      fun p setup => exec_inhibitSettleEnd_of_txSetup awake setup,
      fun p waits => exec_firstFallingEdge_of_txWait awake waits, fun p => ?_, txLevel_spec, LinkWord.welcome_bits,
      LinkWord.sample_bits, by decide, by decide, by decide, by decide, by decide⟩⟩
  · intro channels p taken
    refine ⟨fun idle here lower => ?_, fun idle untaken => ?_⟩
    · exact exec_startBit_of_taken awake idle ((s.startTaken_eq_some_iff channels p).2 ⟨here, lower⟩)
    · exact exec_startBit_of_none awake idle (s.startTaken_eq_none channels untaken)
  · have released := awake.1
    have held : ∀ {o : Option Nat}, o.isSome = true ↔ o ≠ none := fun {o} => Option.isSome_iff_ne_none
    refine ⟨fun idle => ?_, fun t active => ?_, fun t setup => ?_, fun t out => ?_, fun settles => ?_,
      fun k => ⟨fun t out => ?_, fun t w rest active queue => ?_, fun silent => ?_⟩⟩
    · simp [State.clockHeldLow, released, idle, held]
    · simp [State.clockHeldLow, released, active]
    · simp [State.clockHeldLow, released, setup]
    · rcases out with out | out <;> simp [State.clockHeldLow, released, out, held]
    · simp [State.clockHeldLow, released, settles]
    · rcases out with out | out <;> simp [State.dataHeldLow, released, out]
    · by_cases here : p = t
      · simp [State.dataHeldLow, released, active, here, queue]
      · simp [State.dataHeldLow, released, active, here]
    · have silent := silent
      unfold State.dataHeldLow
      cases engine : s.link.engine <;> simp_all

end

section
/-! SUPPORT. The ends of a transmit: what its owner is told, and the word that leaves or stays. -/

namespace Sys2Proof.Machine

variable {s : State}

/-! ## Reports to the owner -/

theorem SampleRecord.queuedAs_iff (r : SampleRecord) (tag : BitVec 4) :
    r.queuedAs tag = true ↔ r.tag = tag ∧ r.outstanding = none := by
  simp [SampleRecord.queuedAs]

theorem DriveUnit.unsettled_eq (d : DriveUnit) (guard : Nat) :
    d.unsettled guard = setOf fun f => decide ((d.functions.get f).age < guard) := by
  simp only [DriveUnit.unsettled, setOf, decide_eq_true_eq]

/-- The sent report of a SAMPLE makes its QUEUED record OUTSTANDING (R88). -/
theorem State.sampleSent_eq (s : State) (p : Fin 4) (tag : BitVec 4) :
    s.sampleSent p tag =
      { s with
        samples :=
          s.samples.modify p fun m =>
            { m with
              list :=
                m.list.map fun (r : SampleRecord) =>
                  if r.tag = tag ∧ r.outstanding = none then
                    { tag := r.tag
                      outstanding :=
                        some
                          { snapshot := s.drive.functions.map fun _ f => f.drive.cls
                            blur := setOf fun f => decide ((s.drive.functions.get f).age < s.sampling.guard)
                            deadline := s.sampling.timeout * 1000 } }
                  else r } } := by
  simp only [State.sampleSent, SampleRecord.queuedAs_iff, DriveUnit.unsettled_eq]
  rfl

/-- The sent report of a WELCOME that is not DONE starts sampling (R73). -/
theorem State.welcomeSent_eq (s : State) (p : Fin 4) :
    s.welcomeSent p =
      if (s.positions.get p).state.accepted = true ∧ (s.positions.get p).welcome ≠ .done then
        { s with
          positions := s.positions.modify p fun r => { r with welcome := .done, enrollTimer := none }
          samples := s.samples.modify p fun m => { m with timer := some (s.sampling.period * 1000) } }
      else s := by
  unfold State.welcomeSent
  cases (s.positions.get p).state.accepted <;> cases (s.positions.get p).welcome <;> rfl

/-- The send-failed report of a WAITING welcome makes it OWED, with the enroll timer started (R73). -/
theorem State.welcomeFailed_eq (s : State) (p : Fin 4) :
    s.welcomeFailed p =
      if (s.positions.get p).state.accepted = true ∧ (s.positions.get p).welcome = .waiting then
        { s with
          positions :=
            s.positions.modify p fun r => { r with welcome := .owed, enrollTimer := some r.enrollTimeout } }
      else s := by
  have owed : (s.updPosition p fun r => { r with welcome := .owed }).startEnrollTimer p =
      { s with
        positions :=
          s.positions.modify p fun r => { r with welcome := .owed, enrollTimer := some r.enrollTimeout } } := by
    simp only [State.startEnrollTimer, State.updPosition, Four.modify_modify]
    rfl
  unfold State.welcomeFailed
  rw [owed]
  cases (s.positions.get p).state.accepted <;> cases (s.positions.get p).welcome <;> rfl

/-! ## The counted transfer -/

/-- The state with the queue of p and its failed attempts as given, and a successful transfer counted (R37, R80). -/
def State.caught (s : State) (p : Fin 4) (queue : List LinkWord) : State :=
  { s with
    link :=
      { s.link with
        channels := s.link.channels.modify p fun c => { c with queue := queue, attempts := 0, streak := 0 } }
    positions :=
      s.positions.modify p fun r =>
        { r with linkFault := r.linkFault && decide ((s.link.channels.get p).streak < 4) } }

/-- The same with a failed transfer counted (R37, R80). -/
def State.uncaught (s : State) (p : Fin 4) (queue : List LinkWord) (attempts : Nat) : State :=
  { s with
    link :=
      { s.link with
        channels :=
          s.link.channels.modify p fun c =>
            { c with queue := queue, attempts := attempts, streak := min 15 (c.streak + 1) } }
    positions :=
      s.positions.modify p fun r =>
        { r with linkFault := r.linkFault || decide ((s.link.channels.get p).streak = 3) } }

section Head

variable {p : Fin 4} {w : LinkWord} {rest : List LinkWord} (head : (s.link.channels.get p).queue = w :: rest)
include head

theorem State.popHead_countSuccess : (s.popHead p).countSuccess p = s.caught p rest := by
  rw [State.countSuccess_eq]
  simp [State.popHead, State.updChannel, State.caught, Four.modify, head]

theorem State.popHead_countFailure : (s.popHead p).countFailure p = s.uncaught p rest 0 := by
  rw [State.countFailure_eq]
  simp [State.popHead, State.updChannel, State.uncaught, Four.modify, head]

theorem State.retry_countFailure :
    (s.updChannel p fun c => { c with attempts := c.attempts + 1 }).countFailure p =
      s.uncaught p (w :: rest) ((s.link.channels.get p).attempts + 1) := by
  rw [State.countFailure_eq]
  simp [State.updChannel, State.uncaught, Four.modify, head]

/-- A transmit that succeeds (R35, R40). -/
theorem State.transmitSucceeds_eq :
    s.transmitSucceeds p =
      (if s.link.discarded then s.caught p rest else (s.caught p rest).reportSent p w).enterIdle := by
  unfold State.transmitSucceeds
  rw [← State.popHead_countSuccess head, head]

/-- A transmit that fails (R36, R40). -/
theorem State.transmitFails_eq :
    s.transmitFails p =
      (if s.link.discarded then s.uncaught p rest 0
        else if (s.link.channels.get p).attempts + 1 < 3 then
          s.uncaught p (w :: rest) ((s.link.channels.get p).attempts + 1)
        else (s.uncaught p rest 0).reportFailed p w).enterIdle := by
  unfold State.transmitFails
  dsimp only
  rw [← State.popHead_countFailure head, ← State.retry_countFailure head, head]
  dsimp only
  split
  · rfl
  · split <;> rfl

end Head

section Awake

variable (awake : s.Awake) {p : Fin 4}
include awake

theorem exec_transmitCatch_of_txActive (active : s.link.engine = .txActive p) :
    exec .transmitCatch s = .next (s.transmitSucceeds p).settle := by
  simp only [exec, execTransmitCatch, runEvent_of_awake awake, active]

/-- The three ways in which an attempt fails (R34, R36). -/
theorem exec_of_attemptFails {c : Instr}
    (fails : s.link.engine = .txWait p ∧ c = .txNoClock ∨
      s.link.engine = .txActive p ∧ (c = .noCatch ∨ c = .transmitTimeout)) :
    exec c s = .next (s.transmitFails p).settle := by
  rcases fails with ⟨waits, rfl⟩ | ⟨active, rfl | rfl⟩
  · simp only [exec, execTxNoClock, runEvent_of_awake awake, waits]
  · simp only [exec_eq_noCatch, runEvent_of_awake awake, State.attemptFails, active]
  · simp only [exec_eq_transmitTimeout, runEvent_of_awake awake, State.attemptFails, active]

end Awake

end Sys2Proof.Machine

open Sys2Proof Sys2Proof.Machine

/-- Settles O25, by the word that was caught. -/
theorem transmitCaught : Obligations.TransmitCaught := by
  intro s p w rest awake active head sent
  have caught : exec .transmitCatch s =
      .next (if s.link.discarded then s.caught p rest else (s.caught p rest).reportSent p w).enterIdle.settle := by
    rw [exec_transmitCatch_of_txActive awake active, State.transmitSucceeds_eq head]
  rw [caught]
  refine ⟨fun silent => ?_, fun tag kept sample => ?_, fun q kept welcome => ?_⟩
  · have unreported : (if s.link.discarded then s.caught p rest else (s.caught p rest).reportSent p w) =
        s.caught p rest := by
      rcases silent with discarded | rfl | ⟨reason, rfl⟩
      · exact if_pos discarded
      · exact ite_self _
      · exact ite_self _
    rw [unreported]
    rfl
  · subst sample
    rw [if_neg (by simp [kept]), State.reportSent, State.sampleSent_eq]
    rfl
  · subst welcome
    have same : ((s.caught p rest).positions.get p).state = (s.positions.get p).state ∧
        ((s.caught p rest).positions.get p).welcome = (s.positions.get p).welcome := by simp [State.caught]
    obtain ⟨state, welcome⟩ := same
    rw [if_neg (by simp [kept]), State.reportSent, State.welcomeSent_eq, state, welcome]
    split <;> rfl

/-- Settles O26, by the attempts of the word and by its kind. -/
theorem transmitFailed : Obligations.TransmitFailed := by
  intro s p w rest c awake fails head failed tries
  have uncaught := exec_of_attemptFails awake fails
  rw [State.transmitFails_eq head] at uncaught
  rw [uncaught]
  refine ⟨fun discarded => ?_, fun kept again => ?_, fun kept third => ?_⟩
  · rw [if_pos discarded]
    rfl
  · rw [if_neg (by simp [kept]), if_pos again]
    rfl
  · rw [if_neg (by simp [kept]), if_neg (Nat.not_lt.2 third)]
    refine ⟨fun silent => ?_, fun tag sample => ?_, fun q welcome => ?_⟩
    · rcases silent with rfl | ⟨reason, rfl⟩ <;> rfl
    · subst sample
      rfl
    · subst welcome
      have same : ((s.uncaught p rest 0).positions.get p).state = (s.positions.get p).state ∧
          ((s.uncaught p rest 0).positions.get p).welcome = (s.positions.get p).welcome := by simp [State.uncaught]
      obtain ⟨state, welcome⟩ := same
      rw [State.reportFailed, State.welcomeFailed_eq, state, welcome]
      split <;> rfl

end

section
/-! SUPPORT. Message assembly: the kinds of a node's word, and what each kind does to an assembly record. -/

namespace Sys2Proof.Machine

variable {s : State}

/-! ## Words by their bits -/

/-- The kind is in the low four bits and the value in the others (11.1). -/
theorem toNat_value_append_kind (value : BitVec 8) (kind : BitVec 4) :
    (value ++ kind).toNat / 16 = value.toNat ∧ (value ++ kind).toNat % 16 = kind.toNat := by
  have low : kind.toNat < 2 ^ 4 := kind.isLt
  have split : (value ++ kind).toNat = value.toNat * 2 ^ 4 + kind.toNat := by
    rw [BitVec.toNat_append, ← Nat.shiftLeft_add_eq_or_of_lt low, Nat.shiftLeft_eq]
  omega

theorem NodeWord.decode_hello (value : BitVec 8) : NodeWord.decode (value ++ 1#4) = .hello value.toNat := by
  obtain ⟨high, low⟩ := toNat_value_append_kind value 1#4
  rw [NodeWord.decode, high, low]
  rfl

theorem NodeWord.decode_serial (value : BitVec 8) : NodeWord.decode (value ++ 2#4) = .serial value := by
  obtain ⟨high, low⟩ := toNat_value_append_kind value 2#4
  rw [NodeWord.decode, high, low]
  simp [byte]

theorem NodeWord.decode_circuit (value : BitVec 8) :
    NodeWord.decode (value ++ 3#4) =
      .circuit { feed := functionOf value.toNat, required := value.getLsbD 3, lowCurrent := value.getLsbD 4 }
        (decide (32 ≤ value.toNat)) := by
  obtain ⟨high, low⟩ := toNat_value_append_kind value 3#4
  rw [NodeWord.decode, high, low]
  rfl

theorem NodeWord.decode_report (value : BitVec 8) :
    NodeWord.decode (value ++ 4#4) = .report (value.extractLsb' 0 4) (value.toNat / 16) := by
  obtain ⟨high, low⟩ := toNat_value_append_kind value 4#4
  rw [NodeWord.decode, high, low]
  rfl

/-- The current class of a READING by its two bits (11.1). -/
theorem currentOf_bits (value : BitVec 8) :
    currentOf (value.toNat / 32 % 4) =
      if value.getLsbD 6 then (if value.getLsbD 5 then .high else .nominal)
      else if value.getLsbD 5 then .low else .none := by
  have bit (i : Nat) : value.getLsbD i = decide (value.toNat / 2 ^ i % 2 = 1) := Nat.testBit_eq_decide_div_mod_eq
  have upper := bit 6
  have lower := bit 5
  have code : value.toNat / 32 % 4 = 2 * (value.toNat / 2 ^ 6 % 2) + value.toNat / 2 ^ 5 % 2 := by omega
  rw [code, upper, lower]
  rcases Nat.mod_two_eq_zero_or_one (value.toNat / 2 ^ 6) with h | h <;>
    rcases Nat.mod_two_eq_zero_or_one (value.toNat / 2 ^ 5) with h' | h' <;> rw [h, h'] <;> rfl

theorem NodeWord.decode_reading (value : BitVec 8) :
    NodeWord.decode (value ++ 5#4) =
      .reading (value.toNat % 16) (value.getLsbD 4) (currentOf (value.toNat / 32 % 4)) (value.getLsbD 7) := by
  obtain ⟨high, low⟩ := toNat_value_append_kind value 5#4
  rw [NodeWord.decode, high, low]
  rfl

theorem NodeWord.decode_unknown (value : BitVec 8) {kind : BitVec 4} (unknown : kind = 0 ∨ 6 ≤ kind.toNat) :
    NodeWord.decode (value ++ kind) = .unknown := by
  obtain ⟨-, low⟩ := toNat_value_append_kind value kind
  unfold NodeWord.decode
  dsimp only
  rw [low]
  split
  all_goals first | rfl | (rcases unknown with rfl | large <;> simp_all)

/-! ## Assembly records -/

theorem goodCount_iff (n : Nat) : goodCount n = true ↔ 1 ≤ n ∧ n ≤ 12 := by simp [goodCount]

@[simp] theorem State.setAssembly_setAssembly (s : State) (p : Fin 4) (a b : Assembly) :
    (s.setAssembly p a).setAssembly p b = s.setAssembly p b := by
  simp [State.setAssembly]

/-- An offer and a write of an assembly record touch different parts of the state. -/
theorem State.offer_setAssembly (s : State) (p q : Fin 4) (w : LinkWord) (a : Assembly) :
    (s.setAssembly q a).offer p w = (s.offer p w).setAssembly q a := by
  rw [State.offer_eq, State.offer_eq]
  rfl

/-! ## The words at an assembly record -/

section Record

variable {p : Fin 4}

theorem State.misfit_of_hello {count serial circuits gap} (record : s.assembly.get p = .hello count serial circuits gap) :
    s.misfit p = (s.setAssembly p .idle).offer p (.reject .order) := by
  simp only [State.misfit, record, State.offerReject]

theorem State.misfit_of_report {tag expected taken readings gap}
    (record : s.assembly.get p = .report tag expected taken readings gap) :
    s.misfit p = s.setAssembly p .idle := by
  simp only [State.misfit, record]

theorem State.misfit_of_idle (record : s.assembly.get p = .idle) : s.misfit p = s := by
  simp only [State.misfit, record]

theorem State.takeHelloWord_of_bad {count : Nat} (bad : ¬goodCount count = true) :
    s.takeHelloWord p count = s.offer p (.reject .count) := if_neg bad

theorem State.takeSerialWord_of_hello {count serial circuits gap} (value : Byte)
    (record : s.assembly.get p = .hello count serial circuits gap) :
    s.takeSerialWord p value =
      if serial.length < 3 then s.setAssembly p (.hello count (serial ++ [value]) circuits 15000) else s.misfit p := by
  simp only [State.takeSerialWord, record]
  rfl

theorem State.takeCircuitWord_of_hello {count serial circuits gap} (d : CircuitDef) (mustBeZeroSet : Bool)
    (record : s.assembly.get p = .hello count serial circuits gap) :
    s.takeCircuitWord p d mustBeZeroSet =
      if serial.length < 3 then s.misfit p
      else if mustBeZeroSet then (s.setAssembly p .idle).offer p (.reject .circuit)
      else if circuits.length + 1 = count then
        (s.setAssembly p .idle).acceptHello p (serialOf serial) (circuits ++ [d])
      else s.setAssembly p (.hello count serial (circuits ++ [d]) 15000) := by
  simp only [State.takeCircuitWord, record]
  rfl

theorem State.takeReadingWord_of_report {tag expected taken readings gap} (index : Nat) (volt : Bool)
    (current : CurrentClass) (mustBeZeroSet : Bool)
    (record : s.assembly.get p = .report tag expected taken readings gap) :
    s.takeReadingWord p index volt current mustBeZeroSet =
      if taken + 1 = expected then
        (s.setAssembly p .idle).settleReport p tag (withReading readings index volt current mustBeZeroSet)
      else
        s.setAssembly p (.report tag expected (taken + 1) (withReading readings index volt current mustBeZeroSet)
          15000) := by
  simp only [State.takeReadingWord, record]
  rfl

end Record

end Sys2Proof.Machine

open Sys2Proof Sys2Proof.Machine

/-- Settles O28, by the kind of the word and the assembly record. -/
theorem helloAssembly : Obligations.HelloAssembly := by
  intro s p value take
  have hello : take 1 = s.takeHelloWord p value.toNat := congrArg (s.takeWord p) (NodeWord.decode_hello value)
  have serial : take 2 = s.takeSerialWord p value := congrArg (s.takeWord p) (NodeWord.decode_serial value)
  have circuit : take 3 = s.takeCircuitWord p _ _ := congrArg (s.takeWord p) (NodeWord.decode_circuit value)
  have reading : take 5 = s.takeReadingWord p _ _ _ _ := congrArg (s.takeWord p) (NodeWord.decode_reading value)
  refine ⟨fun low high => ?_, fun bad => ?_, fun idle => ⟨?_, ?_⟩, fun count bytes circuits gap record => ?_,
    fun kind unknown => ?_⟩
  · rw [hello, State.takeHelloWord, if_pos ((goodCount_iff _).2 ⟨low, high⟩), State.breakOff]
    cases s.assembly.get p with
    | idle => rfl
    | hello count serial circuits gap =>
      simp only [State.offerReject, State.offer_setAssembly, State.setAssembly_setAssembly]
      rfl
    | report tag expected taken readings gap =>
      simp only [State.setAssembly_setAssembly]
      rfl
  · rw [hello, State.takeHelloWord_of_bad]
    rw [goodCount_iff]
    omega
  · rw [serial, State.takeSerialWord, idle]
    exact State.misfit_of_idle idle
  · rw [circuit, State.takeCircuitWord, idle]
    exact State.misfit_of_idle idle
  · have order := State.misfit_of_hello record
    rw [State.takeSerialWord_of_hello value record] at serial
    rw [State.takeCircuitWord_of_hello _ _ record] at circuit
    refine ⟨fun short => ?_, fun full => ?_, ?_⟩
    · rw [if_pos short] at serial circuit
      exact ⟨serial, circuit.trans order⟩
    · rw [if_neg (Nat.not_lt.2 full)] at serial circuit
      refine ⟨serial.trans order, fun set => ?_, fun clear more => ?_, fun clear last low middle high three => ?_⟩
      · rw [circuit, if_pos (decide_eq_true set)]
      · rw [circuit, if_neg (by simpa using clear), if_neg more]
      · rw [circuit, if_neg (by simpa using clear), if_pos last, three]
        rfl
    · rw [reading, State.takeReadingWord, record]
      exact order
  · exact congrArg (s.takeWord p) (NodeWord.decode_unknown value unknown)

/-- Settles O29, by the kind of the word and the assembly record. -/
theorem reportAssembly : Obligations.ReportAssembly := by
  refine ⟨fun s p value => ?_, fun s p awake => ?_⟩
  · intro take count
    have report : take 4 = s.takeReportWord p (value.extractLsb' 0 4) count :=
      congrArg (s.takeWord p) (NodeWord.decode_report value)
    have serial : take 2 = s.takeSerialWord p value := congrArg (s.takeWord p) (NodeWord.decode_serial value)
    have circuit : take 3 = s.takeCircuitWord p _ _ := congrArg (s.takeWord p) (NodeWord.decode_circuit value)
    have reading : take 5 = s.takeReadingWord p _ _ _ _ := congrArg (s.takeWord p) (NodeWord.decode_reading value)
    refine ⟨fun low high => ?_, fun bad => ?_, fun idle => ?_, fun tag expected taken readings gap record => ?_⟩
    · rw [report, State.takeReportWord, if_pos ((goodCount_iff _).2 ⟨low, high⟩), State.breakOff]
      cases s.assembly.get p with
      | idle => rfl
      | hello count serial circuits gap =>
        simp only [State.offerReject, State.offer_setAssembly, State.setAssembly_setAssembly]
        rfl
      | report tag expected taken readings gap =>
        simp only [State.setAssembly_setAssembly]
        rfl
    · rw [report, State.takeReportWord, if_neg]
      rw [goodCount_iff]
      omega
    · rw [reading, State.takeReadingWord, idle]
      exact State.misfit_of_idle idle
    · intro kept
      have keeps : withReading readings (value.toNat % 16) (value.getLsbD 4) (currentOf (value.toNat / 32 % 4))
          (value.getLsbD 7) = kept := by
        rw [currentOf_bits, withReading]
        cases high : value.getLsbD 6 <;> cases low : value.getLsbD 5 <;> simp only [kept, high, low] <;> rfl
      have misfit := State.misfit_of_report record
      rw [State.takeReadingWord_of_report _ _ _ _ record, keeps] at reading
      refine ⟨fun more => ?_, fun last => ?_, ?_, ?_⟩
      · rw [reading, if_neg more]
      · rw [reading, if_pos last]
      · rw [serial, State.takeSerialWord, record]
        exact misfit
      · rw [circuit, State.takeCircuitWord, record]
        exact misfit
  · rw [exec_eq_gapTimerExpiry, runEvent_of_awake awake, State.breakOff]
    cases s.assembly.get p <;> rfl

end

section
/-! SUPPORT. The acceptance of a HELLO: the identity of a unit, what a purge and an enrollment write, and passes that
find no circuit held DEFERRED. -/

namespace Sys2Proof.Machine

variable {s : State}

/-- A fold whose steps change nothing. -/
theorem foldl_eq_self {α σ : Type} {f : σ → α → σ} {s : σ} (fixed : ∀ x, f s x = s) (l : List α) : l.foldl f s = s := by
  induction l with
  | nil => rfl
  | cons x l ih => rw [List.foldl_cons, fixed, ih]

/-! ## Passes without a deferred circuit -/

/-- No circuit is held DEFERRED. -/
def State.NoneDeferred (s : State) : Prop := ∀ q, ∀ c ∈ s.circuits.get q, c.verdict.deferredLoss = false

theorem State.NoneDeferred.pass (h : s.NoneDeferred) (f : Fin 8) (start : Nat) : s.pass f start none = s := by
  have visits : ∀ r, s.passVisits f none r = false := fun r => by
    have none : (s.recordsOf f r).any (fun c => c.verdict.deferredLoss) = false := by
      rw [List.any_eq_false]
      intro c held
      rw [h r c (List.mem_filter.1 held).1]
      exact Bool.false_ne_true
    simp [State.passVisits, none]
  exact foldl_eq_self (fun r => if_neg (by simp [visits r])) _

theorem State.NoneDeferred.passAll (h : s.NoneDeferred) (start : Nat) : s.passAll start = s :=
  foldl_eq_self (fun f => h.pass f start) _

theorem Circuit.unshadow_deferredLoss (r : Circuit) (f : Fin 8) :
    (r.unshadow f).verdict.deferredLoss = true → r.verdict.deferredLoss = true := by
  unfold Circuit.unshadow
  split
  · exact fun h => absurd h Bool.false_ne_true
  · exact id

theorem State.NoneDeferred.clearCondition (h : s.NoneDeferred) (f : Fin 8) : (s.clearCondition f).NoneDeferred := by
  intro q c held
  rw [State.clearCondition_circuits, Four.get_map] at held
  obtain ⟨r, listed, rfl⟩ := List.mem_map.1 held
  have quiet := h q r listed
  cases after : (r.unshadow f).verdict.deferredLoss with
  | false => rfl
  | true => simp [r.unshadow_deferredLoss f after] at quiet

theorem State.NoneDeferred.clearBreaksEndingAt (h : s.NoneDeferred) (p : Fin 4) :
    (s.clearBreaksEndingAt p).NoneDeferred := by
  refine Moves.fold (P := State.NoneDeferred) _ (fun s f h => ?_) _ h
  split
  · exact Moves.choose (h.clearCondition f) h
  all_goals exact h

theorem State.NoneDeferred.circuitsGone (h : s.NoneDeferred) (p : Fin 4) : (s.circuitsGone p).NoneDeferred := by
  rw [State.circuitsGone, (h.clearBreaksEndingAt p).passAll]
  exact h.clearBreaksEndingAt p

theorem State.withdrawCircuit_circuits (s : State) (p : Fin 4) (c : Fin 12) :
    (s.withdrawCircuit p c).circuits = s.circuits := by
  rw [State.eq_of_outsideNotices _ (s.withdrawCircuit_outsideNotices p c)]

theorem State.NoneDeferred.setCircuits (h : s.NoneDeferred) (p : Fin 4) {records : List Circuit}
    (quiet : ∀ c ∈ records, c.verdict.deferredLoss = false) : (s.setCircuits p records).NoneDeferred := by
  intro q c
  rw [State.setCircuits, Four.get_set]
  split
  · exact quiet c
  · exact h q c

theorem State.NoneDeferred.purge (h : s.NoneDeferred) (p : Fin 4) : (s.purge p).NoneDeferred := by
  refine State.NoneDeferred.circuitsGone ?_ p
  refine Moves.fold (P := State.NoneDeferred) _ (fun s c h => ?_) _ ?_
  · unfold State.NoneDeferred
    rw [State.withdrawCircuit_circuits]
    exact h
  · exact h.setCircuits p (by simp)

theorem CircuitDef.record_deferredLoss (d : CircuitDef) (covered : Bool) :
    (d.record covered).verdict.deferredLoss = false := by
  cases covered <;> rfl

theorem State.NoneDeferred.enroll (h : s.NoneDeferred) (p : Fin 4) (serial : BitVec 24) (defs : List CircuitDef) :
    (s.enroll p serial defs).NoneDeferred := by
  refine h.setCircuits p fun c listed => ?_
  obtain ⟨d, -, rfl⟩ := List.mem_map.1 listed
  exact d.record_deferredLoss _

/-! ## The identity of a unit -/

/-- The held unit has the serial and the circuits of a HELLO (R69). -/
def State.HasIdentity (s : State) (p : Fin 4) (serial : BitVec 24) (defs : List CircuitDef) : Prop :=
  (s.positions.get p).serial = some serial ∧ (s.positions.get p).count = defs.length ∧
    (s.circuits.get p).map (fun c => (c.feed, c.required, c.lowCurrent)) =
      defs.map fun d => (d.feed, d.required, d.lowCurrent)

theorem describes_iff (defs : List CircuitDef) (records : List Circuit) :
    (records.length == defs.length && (defs.zip records).all fun x => x.1.describes x.2) = true ↔
      records.map (fun c => (c.feed, c.required, c.lowCurrent)) = defs.map fun d => (d.feed, d.required, d.lowCurrent) := by
  induction defs generalizing records with
  | nil => cases records <;> simp
  | cons d defs ih =>
    cases records with
    | nil => simp
    | cons c records =>
      simp only [List.map_cons, List.cons.injEq, ← ih, List.length_cons, List.zip_cons_cons, List.all_cons,
        CircuitDef.describes, Bool.and_eq_true, beq_iff_eq, Nat.add_right_cancel_iff, Prod.mk.injEq]
      constructor
      · rintro ⟨length, ⟨⟨feed, required⟩, lowCurrent⟩, rest⟩
        exact ⟨⟨feed.symm, required.symm, lowCurrent.symm⟩, length, rest⟩
      · rintro ⟨⟨feed, required, lowCurrent⟩, length, rest⟩
        exact ⟨length, ⟨⟨feed.symm, required.symm⟩, lowCurrent.symm⟩, rest⟩

theorem State.sameIdentity_iff (s : State) (p : Fin 4) (serial : BitVec 24) (defs : List CircuitDef) :
    s.sameIdentity p serial defs = true ↔ s.HasIdentity p serial defs := by
  have listed := describes_iff defs (s.circuits.get p)
  unfold State.sameIdentity State.HasIdentity
  rw [← listed]
  simp only [Bool.and_eq_true, beq_iff_eq, and_assoc, eq_comm (a := defs.length) (b := (s.positions.get p).count)]

/-! ## What an acceptance does first -/

/-- The position is free of a unit that was accepted. -/
abbrev PositionState.Fresh (x : PositionState) : Prop := x = .vacant ∨ x = .coupled ∨ x = .silent

section Identify

variable {p : Fin 4} {serial : BitVec 24} {defs : List CircuitDef}

theorem State.identify_of_fresh (fresh : (s.positions.get p).state.Fresh) :
    s.identify p serial defs = s.enroll p serial defs := by
  unfold State.identify
  rcases fresh with h | h | h <;> rw [h]

theorem State.identify_of_same (held : ¬(s.positions.get p).state.Fresh) (same : s.HasIdentity p serial defs) :
    s.identify p serial defs = s := by
  have same := (s.sameIdentity_iff p serial defs).2 same
  unfold State.identify
  cases h : (s.positions.get p).state <;> simp_all [PositionState.Fresh]

theorem State.identify_of_other (held : ¬(s.positions.get p).state.Fresh) (other : ¬s.HasIdentity p serial defs) :
    s.identify p serial defs = (s.purge p).enroll p serial defs := by
  have other := fun h => other ((s.sameIdentity_iff p serial defs).1 h)
  unfold State.identify
  cases h : (s.positions.get p).state <;> simp_all [PositionState.Fresh]

end Identify

/-! ## What a purge and an identification write -/

theorem State.purge_eq (s : State) (p : Fin 4) :
    s.purge p =
      { s with
        positions := s.positions.modify p fun r => { r with serial := none, count := 0 }
        feeds := (s.purge p).feeds
        circuits := (s.purge p).circuits
        notices := (s.purge p).notices } := by
  have withdrawn : ∀ (l : List (Fin 12)) (t : State),
      (l.foldl (fun s c => s.withdrawCircuit p c) t).outsideClaims = t.outsideClaims := fun l t =>
    foldl_keeps State.outsideClaims _ (fun s c => s.withdrawCircuit_outsideClaims p c) l t
  have same : (s.purge p).outsideClaims =
      ((s.setCircuits p []).updPosition p fun r => { r with serial := none, count := 0 }).outsideClaims :=
    (State.circuitsGone_outsideClaims _ p).trans (withdrawn _ _)
  exact State.eq_of_outsideClaims _ same

theorem State.identify_eq (s : State) (p : Fin 4) (serial : BitVec 24) (defs : List CircuitDef) :
    s.identify p serial defs =
      { s with
        positions := s.positions.modify p fun r => { r with serial := some serial, count := defs.length }
        feeds := (s.identify p serial defs).feeds
        circuits := (s.identify p serial defs).circuits
        notices := (s.identify p serial defs).notices } := by
  by_cases fresh : (s.positions.get p).state.Fresh
  · rw [State.identify_of_fresh fresh]
    rfl
  · by_cases same : s.HasIdentity p serial defs
    · rw [State.identify_of_same fresh same, Four.modify_eq_self]
      obtain ⟨held, counted, -⟩ := same
      rw [← held, ← counted]
    · have purged : ((s.purge p).positions.modify p fun r => { r with serial := some serial, count := defs.length }) =
          s.positions.modify p fun r => { r with serial := some serial, count := defs.length } := by
        rw [s.purge_eq, Four.modify_modify]
        rfl
      rw [State.identify_of_other fresh same]
      have frame := s.purge_eq p
      rw [← purged]
      generalize s.purge p = u at frame ⊢
      rw [frame]
      rfl

/-- The common steps of an acceptance, before its passes (R69, R73). -/
def State.joined (s : State) (p : Fin 4) : State :=
  { s with
    positions :=
      s.positions.modify p fun r =>
        { r with
          state := .enrolled
          enrollTimer := if s.accepts p then none else some r.enrollTimeout
          holdTimer := none
          recoupled := false
          uncoupled := false
          detectMissing := !r.reads
          welcome := if s.accepts p then .waiting else .owed }
    samples := s.samples.modify p fun m => { m with list := [], timer := none, mute := 0, missed := 0 }
    link := (s.offer p (.welcome p)).link }

/-- WELCOME is WAITING where the queue accepts it, and else OWED (R73). -/
theorem State.offerWelcome_eq (s : State) (p : Fin 4) :
    s.offerWelcome p =
      { s with
        positions :=
          s.positions.modify p fun r =>
            { r with
              enrollTimer := if s.accepts p then none else some r.enrollTimeout
              welcome := if s.accepts p then .waiting else .owed }
        link := (s.offer p (.welcome p)).link } := by
  unfold State.offerWelcome
  cases room : s.accepts p with
  | true =>
    rw [State.offer_eq]
    rfl
  | false =>
    have refused : s.offer p (.welcome p) = s := if_neg (by simp [room])
    rw [refused]
    simp only [State.startEnrollTimer, State.updPosition, Four.modify_modify]
    rfl

theorem State.acceptHello_eq (s : State) (p : Fin 4) (serial : BitVec 24) (defs : List CircuitDef) :
    s.acceptHello p serial defs =
      (((s.identify p serial defs).joined p).passAll p.val).updNotices fun n => { n with scanDue := true } := by
  have accepts : ∀ u : State, (((u.updPosition p Position.accept).stopSampling p).updSampling p fun m =>
      { m with mute := 0, missed := 0 }).offerWelcome p = u.joined p := fun u => by
    rw [State.offerWelcome_eq, State.joined]
    simp only [State.offer_eq, State.stopSampling, State.updSampling, State.updPosition, Four.modify_modify]
    rfl
  rw [← accepts]
  rfl

/-- What an acceptance leaves unchanged, and the records of its position (R69, R73). -/
theorem State.acceptHello_frame (s : State) (p : Fin 4) (serial : BitVec 24) (defs : List CircuitDef) :
    s.acceptHello p serial defs =
      { s with
        positions :=
          s.positions.modify p fun r =>
            { r with
              state := .enrolled
              serial := some serial
              count := defs.length
              enrollTimer := if s.accepts p then none else some r.enrollTimeout
              holdTimer := none
              recoupled := false
              uncoupled := false
              detectMissing := !r.reads
              welcome := if s.accepts p then .waiting else .owed }
        samples := s.samples.modify p fun m => { m with list := [], timer := none, mute := 0, missed := 0 }
        link := (s.offer p (.welcome p)).link
        feeds := (s.acceptHello p serial defs).feeds
        circuits := (s.acceptHello p serial defs).circuits
        notices := (s.acceptHello p serial defs).notices } := by
  have outer : (s.acceptHello p serial defs).outsideClaims = ((s.identify p serial defs).joined p).outsideClaims := by
    rw [State.acceptHello_eq]
    exact State.passAll_outsideClaims _ _
  have frame := State.eq_of_outsideClaims _ outer
  have identified := s.identify_eq p serial defs
  generalize s.identify p serial defs = u at frame identified
  generalize s.acceptHello p serial defs = t at frame ⊢
  rw [frame, identified]
  simp only [State.joined, Four.modify_modify, State.offer_eq]
  rfl

/-! ## The circuit table of an acceptance -/

theorem State.enroll_circuits (s : State) (p : Fin 4) (serial : BitVec 24) (defs : List CircuitDef) :
    (s.enroll p serial defs).circuits.get p = defs.map fun d => d.record ((s.feeds.get d.feed).covers p) :=
  Four.get_set_self _ _ _

/-- Without a deferred circuit the passes of an acceptance decide nothing. -/
theorem State.acceptHello_of_noneDeferred {p : Fin 4} {serial : BitVec 24} {defs : List CircuitDef}
    (quiet : (s.identify p serial defs).NoneDeferred) :
    (s.acceptHello p serial defs).circuits = (s.identify p serial defs).circuits ∧
      (s.acceptHello p serial defs).feeds = (s.identify p serial defs).feeds := by
  have joined : ((s.identify p serial defs).joined p).NoneDeferred := quiet
  rw [State.acceptHello_eq, joined.passAll]
  exact ⟨rfl, rfl⟩

/-- An enrollment, after the purge that comes first where another unit is held (R70 to R72). -/
theorem State.identify_of_not_same {p : Fin 4} {serial : BitVec 24} {defs : List CircuitDef}
    (other : ¬(¬(s.positions.get p).state.Fresh ∧ s.HasIdentity p serial defs)) :
    s.identify p serial defs = (if (s.positions.get p).state.Fresh then s else s.purge p).enroll p serial defs := by
  split
  · exact State.identify_of_fresh (by assumption)
  · rename_i held
    exact State.identify_of_other held fun same => other ⟨held, same⟩

/-- The passes of an acceptance start from the identified state with the records that the acceptance leaves. -/
theorem State.acceptHello_passes {p : Fin 4} {serial : BitVec 24} {defs : List CircuitDef} {enrolled : State}
    (identified : s.identify p serial defs = { enrolled with positions := (s.identify p serial defs).positions }) :
    s.acceptHello p serial defs =
      (({ enrolled with
          positions := (s.acceptHello p serial defs).positions
          samples := (s.acceptHello p serial defs).samples
          link := (s.acceptHello p serial defs).link } : State).passAll p.val).updNotices
        fun n => { n with scanDue := true } := by
  have outer : (s.acceptHello p serial defs).outsideClaims = ((s.identify p serial defs).joined p).outsideClaims := by
    rw [State.acceptHello_eq]
    exact State.passAll_outsideClaims _ _
  have starts : ({ enrolled with
      positions := (s.acceptHello p serial defs).positions
      samples := (s.acceptHello p serial defs).samples
      link := (s.acceptHello p serial defs).link } : State) = (s.identify p serial defs).joined p := by
    rw [positions_of_outsideClaims outer, samples_of_outsideClaims outer, link_of_outsideClaims outer]
    generalize s.identify p serial defs = u at identified ⊢
    rw [identified]
    rfl
  rw [starts]
  exact s.acceptHello_eq p serial defs

end Sys2Proof.Machine

open Sys2Proof Sys2Proof.Machine

/-- Settles O30: the identity decides what comes first, and without a deferred circuit the passes decide nothing. -/
theorem helloAccepted : Obligations.HelloAccepted := by
  intro s p serial defs r room t same
  have room_iff : s.accepts p = true ↔ room := s.accepts_iff p
  have same_iff : same ↔ ¬r.state.Fresh ∧ s.HasIdentity p serial defs := by
    simp only [same, PositionState.Fresh, State.HasIdentity, not_or, and_assoc]
    rfl
  refine ⟨?_, ?_, fun quiet => ⟨fun holds => ?_, fun other => ?_⟩, ?_⟩
  · have frame := s.acceptHello_frame p serial defs
    simp only [room_iff] at frame
    exact frame
  · exact congrArg (fun u => u.notices.scanDue) (s.acceptHello_eq p serial defs)
  · obtain ⟨held, identity⟩ := same_iff.1 holds
    have kept := State.identify_of_same held identity
    have none : (s.identify p serial defs).NoneDeferred := by
      rw [kept]
      exact quiet
    have decided := State.acceptHello_of_noneDeferred none
    rw [kept] at decided
    exact decided
  · have enrolled := State.identify_of_not_same fun h => other (same_iff.2 h)
    have prior : (if (s.positions.get p).state.Fresh then s else s.purge p).NoneDeferred := by
      split
      · exact quiet
      · exact State.NoneDeferred.purge quiet p
    have none : (s.identify p serial defs).NoneDeferred := by
      rw [enrolled]
      exact prior.enroll p serial defs
    obtain ⟨circuits, feeds⟩ := State.acceptHello_of_noneDeferred none
    rw [enrolled] at circuits feeds
    rw [show t.circuits = _ from circuits, show t.feeds = _ from feeds, State.enroll_circuits]
    rfl
  · intro fresh prior enrolled joined passed
    refine State.acceptHello_passes (enrolled := enrolled) ?_
    by_cases holds : same
    · obtain ⟨held, identity⟩ := same_iff.1 holds
      rw [State.identify_of_same held identity]
      simp only [enrolled, prior, if_pos holds, if_pos (Or.inl holds : same ∨ fresh)]
    · rw [State.identify_of_not_same fun h => holds (same_iff.2 h)]
      have first : prior = if (s.positions.get p).state.Fresh then s else s.purge p := by
        simp only [prior, holds, false_or]
        rfl
      simp only [enrolled, if_neg holds, first]
      rfl

end

section
/-! SUPPORT. A completed REPORT: the record that it matches, the samples counted as missed, the first readings of its
circuits, and what one reading does. -/

namespace Sys2Proof.Machine

variable {s : State}

/-! ## The matched record -/

theorem splitAtTag_eq_none {tag : BitVec 4} {l : List SampleRecord}
    (unmatched : ∀ r ∈ l, r.tag = tag → r.outstanding = none) : splitAtTag tag l = none := by
  induction l with
  | nil => rfl
  | cons r l ih =>
    have rest := ih fun x listed => unmatched x (List.mem_cons_of_mem _ listed)
    have here := unmatched r List.mem_cons_self
    unfold splitAtTag
    by_cases same : r.tag = tag
    · simp [same, here same, rest]
    · simp [beq_false_of_ne same, rest]

theorem splitAtTag_eq_some {tag : BitVec 4} {older newer : List SampleRecord} {o : Outstanding}
    (unmatched : ∀ r ∈ older, r.tag = tag → r.outstanding = none) :
    splitAtTag tag (older ++ { tag := tag, outstanding := some o } :: newer) = some (older, o, newer) := by
  induction older with
  | nil => simp [splitAtTag]
  | cons r older ih =>
    have rest := ih fun x listed => unmatched x (List.mem_cons_of_mem _ listed)
    have here := unmatched r List.mem_cons_self
    rw [List.cons_append, splitAtTag]
    by_cases same : r.tag = tag
    · simp [same, here same, rest]
    · simp [beq_false_of_ne same, rest]

/-! ## Samples counted as missed -/

/-- A sample settled without an answer counts, and mutes an ENROLLED position at the mute count (R91 to R93). -/
theorem State.countMissed_eq (s : State) (p : Fin 4) :
    s.countMissed p =
      { s with
        samples :=
          s.samples.modify p fun m => { m with mute := min 7 (m.mute + 1), missed := min 255 (m.missed + 1) }
        positions :=
          s.positions.modify p fun r =>
            { r with
              state :=
                if r.state = .enrolled ∧ s.sampling.muteCount ≤ min 7 ((s.samples.get p).mute + 1) then
                  PositionState.mute
                else r.state } } := by
  have unclaimed (e : PositionState → PositionState) (same : e (s.positions.get p).state = (s.positions.get p).state) :
      (s.positions.modify p fun r => { r with state := e r.state }) = s.positions :=
    Four.modify_eq_self _ _ _ (by rw [same])
  unfold State.countMissed State.muteClaim
  by_cases reached : s.sampling.muteCount ≤ min 7 ((s.samples.get p).mute + 1)
  · by_cases enrolled : (s.positions.get p).state = .enrolled
    · simp [State.updSampling, State.updPosition, Four.modify, reached, enrolled]
    · rw [unclaimed (fun x => if x = .enrolled ∧ _ then _ else x) (if_neg fun h => enrolled h.1)]
      simp [State.updSampling, reached, enrolled]
  · rw [unclaimed (fun x => if x = .enrolled ∧ _ then _ else x) (if_neg fun h => reached h.2)]
    simp [State.updSampling, reached]

/-- A matched report makes a MUTE position ENROLLED (R76). -/
theorem State.matchedClaim_eq (s : State) (p : Fin 4) :
    s.matchedClaim p =
      { s with
        positions :=
          s.positions.modify p fun r =>
            { r with state := if r.state = .mute then PositionState.enrolled else r.state } } := by
  unfold State.matchedClaim
  split
  · rename_i muted
    simp [State.updPosition, Four.modify, muted]
  · rename_i unmuted
    rw [Four.modify_eq_self _ _ _ (by rw [if_neg unmuted])]

/-! ## The first readings -/

theorem firstReadings_append (seen : List (Fin 12)) (l : List Reading) (x : Reading) :
    firstReadings seen (l ++ [x]) =
      firstReadings seen l ++ if x.circuit ∈ seen ∨ ∃ y ∈ l, y.circuit = x.circuit then [] else [x] := by
  induction l generalizing seen with
  | nil => by_cases old : x.circuit ∈ seen <;> simp [firstReadings, old]
  | cons y l ih =>
    have seen_or (c : Fin 12) : (c ∈ y.circuit :: seen ∨ ∃ z ∈ l, z.circuit = c) ↔
        c ∈ seen ∨ ∃ z ∈ y :: l, z.circuit = c := by
      simp only [List.mem_cons, exists_eq_or_imp, eq_comm (a := c)]
      exact ⟨fun h => h.elim (·.elim (fun same => .inr (.inl same)) .inl) fun later => .inr (.inr later), fun h =>
        h.elim (fun old => .inl (.inr old)) (·.elim (fun same => .inl (.inl same)) .inr)⟩
    rw [List.cons_append, firstReadings, firstReadings]
    by_cases old : y.circuit ∈ seen
    · by_cases same : y.circuit = x.circuit
      · simp [ih, same, same ▸ old]
      · simp [old, ih, same]
    · simp only [List.contains_eq_mem, decide_eq_false old, Bool.false_eq_true, if_false, ih, List.cons_append, seen_or]

theorem mem_of_mem_firstReadings {seen : List (Fin 12)} {l : List Reading} {x : Reading}
    (listed : x ∈ firstReadings seen l) : x ∈ l := by
  induction l generalizing seen with
  | nil => cases listed
  | cons y l ih =>
    rw [firstReadings] at listed
    split at listed
    · exact List.mem_cons_of_mem _ (ih listed)
    · rcases List.mem_cons.1 listed with rfl | later
      · exact List.mem_cons_self
      · exact List.mem_cons_of_mem _ (ih later)

/-! ## A report against the list -/

theorem PositionState.accepted_iff (x : PositionState) : x.accepted = true ↔ x = .enrolled ∨ x = .mute := by
  cases x <;> simp [PositionState.accepted]

/-- The samples older than the matched one, in turn. -/
theorem State.foldl_countMissed {α : Type} (l : List α) (s : State) (p : Fin 4)
    (accepted : (s.positions.get p).state.accepted = true) :
    ∃ mute state, PositionState.accepted state = true ∧
      l.foldl (fun u _ => u.countMissed p) s =
        { s with
          samples :=
            s.samples.modify p fun m =>
              { m with mute := mute, missed := if l = [] then m.missed else min 255 (m.missed + l.length) }
          positions := s.positions.modify p fun r => { r with state := state } } := by
  induction l generalizing s with
  | nil =>
    refine ⟨(s.samples.get p).mute, (s.positions.get p).state, accepted, ?_⟩
    rw [Four.modify_eq_self _ _ _ rfl, Four.modify_eq_self _ _ _ rfl]
    rfl
  | cons x l ih =>
    rw [List.foldl_cons, State.countMissed_eq]
    obtain ⟨mute, state, final, fold⟩ := ih
      { s with
        samples :=
          s.samples.modify p fun m => { m with mute := min 7 (m.mute + 1), missed := min 255 (m.missed + 1) }
        positions :=
          s.positions.modify p fun r =>
            { r with
              state :=
                if r.state = .enrolled ∧ s.sampling.muteCount ≤ min 7 ((s.samples.get p).mute + 1) then
                  PositionState.mute
                else r.state } }
      (by
        simp only [Four.get_modify, if_true]
        split
        · rfl
        · exact accepted)
    refine ⟨mute, state, final, fold.trans ?_⟩
    have missed : ∀ n, (if l = [] then min 255 (n + 1) else min 255 (min 255 (n + 1) + l.length)) =
        min 255 (n + (l.length + 1)) := fun n => by
      split
      · simp [*]
      · omega
    simp only [Four.modify_modify, Function.comp_def, missed, List.length_cons, reduceCtorEq, if_false]

section Matched

variable {p : Fin 4} {tag : BitVec 4} {readings : List Reading}

theorem State.settleReport_of_unaccepted (unaccepted : ¬(s.positions.get p).state.accepted = true) :
    s.settleReport p tag readings = s := if_neg unaccepted

theorem State.settleReport_of_unmatched (unmatched : splitAtTag tag (s.samples.get p).list = none) :
    s.settleReport p tag readings = s := by
  unfold State.settleReport
  rw [unmatched]
  exact ite_self _

/-- The samples of a matched report before its readings are judged (R93). -/
def State.matched (s : State) (p : Fin 4) (older newer : List SampleRecord) : State :=
  older.foldl (fun u _ => u.countMissed p) (s.updSampling p fun m => { m with list := newer })

/-- The readings of a matched report, in order (R94). -/
def State.judgeAll (s : State) (p : Fin 4) (o : Outstanding) (readings : List Reading) : State :=
  (firstReadings [] readings).foldl (fun u x => u.judgeOne p o x) s

theorem State.settleReport_of_matched {older newer : List SampleRecord} {o : Outstanding}
    (accepted : (s.positions.get p).state.accepted = true)
    (found : splitAtTag tag (s.samples.get p).list = some (older, o, newer)) :
    s.settleReport p tag readings =
      (((s.matched p older newer).judgeAll p o readings).updSampling p fun m => { m with mute := 0 }).matchedClaim p := by
  unfold State.settleReport
  rw [if_pos accepted, found]
  rfl

theorem State.judgeAll_outsideClaims (s : State) (p : Fin 4) (o : Outstanding) (readings : List Reading) :
    (s.judgeAll p o readings).outsideClaims = s.outsideClaims :=
  foldl_keeps State.outsideClaims _ (fun s x => s.judgeOne_outsideClaims p o x) _ _

/-- A reading that names no circuit, or one of a blurred function, is set aside (R94). -/
theorem State.judgeOne_of_aside {o : Outstanding} {x : Reading}
    (aside : ∀ c, s.circuit p x.circuit = some c → inSet o.blur c.feed = true) : s.judgeOne p o x = s := by
  unfold State.judgeOne
  split
  · rename_i c here
    exact if_pos (aside c here)
  · rfl

theorem State.judgeAll_of_aside {o : Outstanding}
    (aside : ∀ x ∈ readings, ∀ c, s.circuit p x.circuit = some c → inSet o.blur c.feed = true) :
    s.judgeAll p o readings = s := by
  have fixed : ∀ x ∈ firstReadings [] readings, s.judgeOne p o x = s := fun x listed =>
    State.judgeOne_of_aside (aside x (mem_of_mem_firstReadings listed))
  unfold State.judgeAll
  generalize firstReadings [] readings = l at fixed
  induction l with
  | nil => rfl
  | cons x l ih =>
    rw [List.foldl_cons, fixed x List.mem_cons_self]
    exact ih fun y listed => fixed y (List.mem_cons_of_mem _ listed)

/-- What a matched report leaves unchanged, and the records of its position (R93). -/
theorem State.settleReport_frame {older newer : List SampleRecord} {o : Outstanding}
    (accepted : (s.positions.get p).state.accepted = true)
    (found : splitAtTag tag (s.samples.get p).list = some (older, o, newer)) :
    s.settleReport p tag readings =
      { s with
        samples :=
          s.samples.modify p fun m =>
            { m with
              list := newer
              mute := 0
              missed := if older = [] then m.missed else min 255 (m.missed + older.length) }
        positions := s.positions.modify p fun r => { r with state := .enrolled }
        feeds := (s.settleReport p tag readings).feeds
        circuits := (s.settleReport p tag readings).circuits
        notices := (s.settleReport p tag readings).notices } := by
  obtain ⟨mute, state, final, fold⟩ :=
    State.foldl_countMissed older (s.updSampling p fun m => { m with list := newer }) p accepted
  have enrolled : (if state = .mute then PositionState.enrolled else state) = .enrolled := by
    cases state <;> first | rfl | cases final
  have claims := State.eq_of_outsideClaims _ ((s.matched p older newer).judgeAll_outsideClaims p o readings)
  rw [State.settleReport_of_matched accepted found, State.matchedClaim_eq]
  generalize (s.matched p older newer).judgeAll p o readings = judged at claims ⊢
  rw [claims, State.matched, fold]
  simp only [State.updSampling, Four.modify_modify, Function.comp_def, enrolled]

end Matched

/-! ## One reading -/

section Reading

variable {p : Fin 4} {x : Reading} {expected : DriveClass} {c : Circuit}

theorem State.takeReading_of_none (none : s.circuit p x.circuit = none) : s.takeReading p x expected = s := by
  simp only [State.takeReading, none]

theorem State.takeReading_of_shadowed (here : s.circuit p x.circuit = some c) (shadowed : c.verdict = .shadowed) :
    s.takeReading p x expected =
      (s.setCircuit p x.circuit { c with last := some (x.volt, x.current) }).shadowedReading c.feed p x.volt
        expected := by
  simp only [State.takeReading, here, shadowed, if_true]

theorem State.takeReading_of_judged (here : s.circuit p x.circuit = some c) (judged : c.verdict ≠ .shadowed) :
    s.takeReading p x expected =
      (s.setCircuit p x.circuit { c with last := some (x.volt, x.current) }).judgeReading p x.circuit
        { c with last := some (x.volt, x.current) } (classify expected x.volt x.current c.lowCurrent) := by
  simp only [State.takeReading, here, if_neg judged]

theorem Verdict.recoversLoss_iff (v : Verdict) : v.recoversLoss = true ↔ ∃ h, v = .recovering .feedLoss h := by
  cases v <;> simp [Verdict.recoversLoss]

end Reading

/-! ## The claims of a changed verdict -/

theorem State.verdictClaim_eq (s : State) (p : Fin 4) (c : Fin 12) (before after : Verdict) :
    s.verdictClaim p c before after =
      match after with
      | .fault k _ _ => if k = .feedLoss ∨ before.faultKind = some k then s else s.raise (.circuit p c) (.circuit k)
      | .good => if before.faultKind = none then s else s.resolve (.circuit p c)
      | .unseen => if before.faultKind = none then s else s.resolve (.circuit p c)
      | _ => s := by
  cases after <;> cases kind : before.faultKind <;> simp [State.verdictClaim, kind]

end Sys2Proof.Machine

open Sys2Proof Sys2Proof.Machine

/-- Settles O31: the matched record and its samples, then one reading, one changed verdict, one replacement. -/
theorem reportSettled : Obligations.ReportSettled := by
  refine ⟨fun s p tag readings => ⟨fun none => ?_, fun older newer o accepted list unmatched => ?_⟩,
    ⟨rfl, fun l x => ?_⟩, State.countMissed_eq, fun s p x expected => ⟨State.takeReading_of_none, fun c here => ?_⟩,
    fun s p i before after => ?_, fun s p i => ⟨fun r k h here loss reached => ?_, fun unreached => ?_⟩⟩
  · rcases none with ⟨notEnrolled, notMute⟩ | none
    · refine State.settleReport_of_unaccepted fun accepted => ?_
      exact ((PositionState.accepted_iff _).1 accepted).elim notEnrolled notMute
    · exact State.settleReport_of_unmatched (splitAtTag_eq_none none)
  · have accepted := (PositionState.accepted_iff _).2 accepted
    have found : splitAtTag tag (s.samples.get p).list = some (older, o, newer) := by
      rw [list]
      exact splitAtTag_eq_some unmatched
    have settled := State.settleReport_of_matched (readings := readings) accepted found
    have frame := State.settleReport_frame (readings := readings) accepted found
    refine ⟨frame, fun aside => ?_, fun x c first single here clear => ?_, ?_⟩
    · obtain ⟨mute, state, -, fold⟩ :=
        State.foldl_countMissed older (s.updSampling p fun m => { m with list := newer }) p accepted
      have same : (s.matched p older newer).circuits = s.circuits ∧ (s.matched p older newer).feeds = s.feeds ∧
          (s.matched p older newer).notices = s.notices := by
        rw [State.matched, fold]
        exact ⟨rfl, rfl, rfl⟩
      obtain ⟨circuits, feeds, notices⟩ := same
      have judged : (s.matched p older newer).judgeAll p o readings = s.matched p older newer := by
        refine State.judgeAll_of_aside fun x listed c here => aside x listed c ?_
        rwa [State.circuit, circuits] at here
      rw [judged, State.matchedClaim_eq] at settled
      have kept : (s.settleReport p tag readings).feeds = s.feeds ∧
          (s.settleReport p tag readings).circuits = s.circuits ∧
          (s.settleReport p tag readings).notices = s.notices := by
        rw [settled]
        exact ⟨feeds, circuits, notices⟩
      exact kept
    · subst first single
      have judged : (s.matched p [] newer).judgeAll p o [x] =
          (s.updSampling p fun m => { m with list := newer }).takeReading p x (o.snapshot.get c.feed) := by
        change State.judgeOne _ p o x = _
        unfold State.judgeOne
        rw [show (s.matched p [] newer).circuit p x.circuit = some c from here]
        exact if_neg (by simp [clear])
      rw [judged] at settled
      exact settled
    · intro begun judged
      refine settled.trans ?_
      rw [State.matchedClaim_eq]
      rfl
  · rw [firstReadings_append]
    split <;> simp_all
  · intro r recorded
    refine ⟨fun shadowed => ?_, fun unshadowed => ?_⟩
    · rw [State.takeReading_of_shadowed here shadowed, State.shadowedReading, State.setCircuit_feeds]
      cases s.feeds.get c.feed <;> rfl
    · intro judged
      rw [State.takeReading_of_judged here unshadowed]
      refine ⟨fun recovering => ?_, fun steady => ?_⟩
      · exact if_pos ((c.verdict.recoversLoss_iff).2 recovering)
      · exact if_neg fun recovers => (c.verdict.recoversLoss_iff.1 recovers).elim steady
  · intro kind bare written claimed
    have kind_eq : ∀ v, kind v = v.faultKind := fun v => by cases v <;> rfl
    have bare_eq : ∀ v, bare v = v.named := fun v => by cases v <;> rfl
    have claims : claimed = written.verdictClaim p i before.verdict after.verdict := by
      rw [State.verdictClaim_eq]
      cases verdict : after.verdict <;> simp only [claimed, kind_eq, verdict]
    have entry : (if after.verdict.lostFeed then some p else none) =
        match after.verdict with
        | .fault .feedLoss _ _ => some p
        | _ => none := by
      cases after.verdict with
      | fault k candidate hold => cases k <;> rfl
      | _ => rfl
    rw [bare_eq, bare_eq, claims, State.applyVerdict, entry]
    rfl
  · simp only [State.replaceCandidate, here, loss, if_pos reached]
    rfl
  · unfold State.replaceCandidate
    split
    · rename_i r here
      split
      · rename_i k hold loss
        exact if_neg (Nat.not_le.2 (unreached r k hold here loss))
      all_goals rfl
    · rfl

end

section
/-! SUPPORT. Detect edges: what each edge does in each state of the position, the filtered level that makes it, and the
wake that processes the pending ones. -/

namespace Sys2Proof.Machine

variable {s : State}

/-! ## A couple edge and an uncouple edge -/

/-- The couple flag of p cleared, with a change of its record. -/
def State.coupled (s : State) (p : Fin 4) (f : Position → Position) : State :=
  { s with positions := s.positions.modify p fun r => f { r with coupleEdge := false } }

/-- The uncouple flag of p cleared, with a change of its record. -/
def State.uncoupled (s : State) (p : Fin 4) (f : Position → Position) : State :=
  { s with positions := s.positions.modify p fun r => f { r with uncoupleEdge := false } }

/-- A change of the record of p after its flag was cleared. -/
theorem State.coupled_updPosition (s : State) (p : Fin 4) (f g : Position → Position) :
    (s.coupled p f).updPosition p g = s.coupled p (g ∘ f) := by
  simp only [State.coupled, State.updPosition, Four.modify_modify]
  rfl

theorem State.uncoupled_updPosition (s : State) (p : Fin 4) (f g : Position → Position) :
    (s.uncoupled p f).updPosition p g = s.uncoupled p (g ∘ f) := by
  simp only [State.uncoupled, State.updPosition, Four.modify_modify]
  rfl

theorem State.processEdge_couple (s : State) (p : Fin 4) : s.processEdge p true = (s.coupled p id).coupleEdge p := rfl

theorem State.processEdge_uncouple (s : State) (p : Fin 4) :
    s.processEdge p false = (s.uncoupled p id).uncoupleEdge p := rfl

/-- The record of p, its flag aside, decides what an edge does. -/
theorem State.coupled_get (s : State) (p : Fin 4) :
    ((s.coupled p id).positions.get p).state = (s.positions.get p).state ∧
      ((s.coupled p id).positions.get p).recoupled = (s.positions.get p).recoupled := by
  simp [State.coupled]

theorem State.uncoupled_get (s : State) (p : Fin 4) :
    ((s.uncoupled p id).positions.get p).state = (s.positions.get p).state ∧
      ((s.uncoupled p id).positions.get p).recoupled = (s.positions.get p).recoupled := by
  simp [State.uncoupled]

section Edges

variable {p : Fin 4}

/-- A couple edge in VACANT asks the unit to introduce itself (R66). -/
theorem State.processEdge_couple_of_vacant (state : (s.positions.get p).state = .vacant) :
    s.processEdge p true =
      (s.coupled p fun r => { r with state := .coupled, enrollTimer := some r.enrollTimeout }).offer p .recall := by
  obtain ⟨same, -⟩ := s.coupled_get p
  rw [State.processEdge_couple, State.coupleEdge, same, state]
  simp only [State.askToEnroll, State.startEnrollTimer, State.offerRecall, State.coupled_updPosition]
  rfl

theorem State.processEdge_couple_of_asked
    (state : (s.positions.get p).state = .coupled ∨ (s.positions.get p).state = .silent) :
    s.processEdge p true = s.coupled p id := by
  obtain ⟨same, -⟩ := s.coupled_get p
  rw [State.processEdge_couple, State.coupleEdge, same]
  rcases state with state | state <;> rw [state]

theorem State.processEdge_couple_of_accepted
    (state : (s.positions.get p).state = .enrolled ∨ (s.positions.get p).state = .mute) :
    s.processEdge p true = s.coupled p fun r => { r with detectMissing := false } := by
  obtain ⟨same, -⟩ := s.coupled_get p
  rw [State.processEdge_couple, State.coupleEdge, same]
  rcases state with state | state <;> rw [state] <;> exact State.coupled_updPosition _ _ _ _

theorem State.processEdge_couple_of_departed (state : (s.positions.get p).state = .departed) :
    s.processEdge p true =
      if (s.positions.get p).recoupled then s.coupled p id
      else
        (s.coupled p fun r => { r with recoupled := true, enrollTimer := some r.enrollTimeout }).offer p .recall := by
  obtain ⟨same, recoupled⟩ := s.coupled_get p
  rw [State.processEdge_couple, State.coupleEdge, same, state]
  simp only [recoupled, State.startEnrollTimer, State.offerRecall, State.coupled_updPosition]
  rfl

theorem State.processEdge_uncouple_of_vacant (state : (s.positions.get p).state = .vacant) :
    s.processEdge p false = s.uncoupled p id := by
  obtain ⟨same, -⟩ := s.uncoupled_get p
  rw [State.processEdge_uncouple, State.uncoupleEdge, same, state]

theorem State.processEdge_uncouple_of_asked
    (state : (s.positions.get p).state = .coupled ∨ (s.positions.get p).state = .silent) :
    s.processEdge p false = s.uncoupled p fun r => { r with state := .vacant, enrollTimer := none } := by
  obtain ⟨same, -⟩ := s.uncoupled_get p
  rw [State.processEdge_uncouple, State.uncoupleEdge, same]
  rcases state with state | state <;> rw [state] <;> exact State.uncoupled_updPosition _ _ _ _

theorem State.processEdge_uncouple_of_departed (state : (s.positions.get p).state = .departed) :
    s.processEdge p false =
      if (s.positions.get p).recoupled then s.uncoupled p fun r => { r with recoupled := false, enrollTimer := none }
      else s.uncoupled p id := by
  obtain ⟨same, recoupled⟩ := s.uncoupled_get p
  rw [State.processEdge_uncouple, State.uncoupleEdge, same, state]
  simp only [recoupled, State.uncoupled_updPosition]
  rfl

/-- The state of a departure before its claims: the record, the channel, the assembly and the samples (R74). -/
def State.gone (s : State) (p : Fin 4) : State :=
  { s with
    positions :=
      s.positions.modify p fun r =>
        { r with
          state := if s.holdTime = 0 then .vacant else .departed
          uncoupleEdge := false
          recoupled := false
          enrollTimer := none
          welcome := .done
          holdTimer := if s.holdTime = 0 then none else some (s.holdTime * 1000000)
          uncoupled := true }
    link :=
      { s.link with
        discarded := s.link.discarded || s.link.engine.activeOn p
        cut :=
          if s.link.engine = .rxActive p then
            (if (s.positions.get p).state = .enrolled then some (s.assembly.get p) else none)
          else s.link.cut
        channels :=
          s.link.channels.modify p fun c =>
            { c with
              queue := if s.link.engine.inFlight p then c.queue.take 1 else []
              attempts := if s.link.engine.inFlight p then c.attempts else 0 } }
    assembly := s.assembly.set p .idle
    samples := s.samples.modify p fun m => { m with list := [], timer := none } }

/-- A departure is its claims, the clearing of its BREAKs and, at a hold time of 0, its purge (R74, R75, R133). -/
theorem State.departed_eq (s : State) (p : Fin 4) :
    s.departed p =
      if s.holdTime = 0 then (((s.gone p).departClaims p).clearBreaksEndingAt p).purge p
      else ((s.gone p).departClaims p).clearBreaksEndingAt p := rfl

/-- The record of a departure, where the hold time is read as it stands. -/
theorem State.gone_eq (s : State) (p : Fin 4) :
    (((((s.uncoupled p id).cutReceive p).flushChannel p).setAssembly p .idle).stopSampling p).updPosition p (fun r =>
        { r with
          state := if s.holdTime = 0 then .vacant else .departed
          recoupled := false
          enrollTimer := none
          welcome := .done
          holdTimer := if s.holdTime = 0 then none else some (s.holdTime * 1000 * Config.msec)
          uncoupled := true }) = s.gone p := by
  have read : ((s.uncoupled p id).positions.get p).state = (s.positions.get p).state := (s.uncoupled_get p).1
  have seconds : s.holdTime * 1000 * Config.msec = s.holdTime * 1000000 := Nat.mul_assoc _ _ _
  rw [State.cutReceive_flushChannel, read, seconds]
  simp only [State.updPosition, State.setAssembly, State.stopSampling, State.updSampling, State.uncoupled,
    Four.modify_modify, State.gone]
  rfl

theorem State.depart_uncoupled (s : State) (p : Fin 4) : (s.uncoupled p id).depart p = s.departed p := by
  have before : (s.uncoupled p id).holdTime = s.holdTime := rfl
  have after : (((((s.uncoupled p id).cutReceive p).flushChannel p).setAssembly p .idle).stopSampling p).holdTime =
      s.holdTime := by
    rw [State.cutReceive_flushChannel]
    rfl
  rw [State.departed_eq, State.depart]
  simp only [before, after, bne_iff_ne, ne_eq, ite_not, s.gone_eq p]

theorem State.processEdge_uncouple_of_accepted
    (state : (s.positions.get p).state = .enrolled ∨ (s.positions.get p).state = .mute) :
    s.processEdge p false = s.departed p := by
  obtain ⟨same, -⟩ := s.uncoupled_get p
  rw [State.processEdge_uncouple, State.uncoupleEdge, same]
  rcases state with state | state <;> rw [state] <;> exact s.depart_uncoupled p

end Edges

end Sys2Proof.Machine
end

section
/-! SUPPORT. Waking: what starts it, the flags and the engine that it leaves, and the filtered level of a detect input. -/

namespace Sys2Proof.Machine

variable {s : State}

/-! ## What an edge leaves -/

theorem State.offer_positions (s : State) (p : Fin 4) (w : LinkWord) : (s.offer p w).positions = s.positions := by
  rw [State.offer_eq]

theorem State.offer_engine (s : State) (p : Fin 4) (w : LinkWord) : (s.offer p w).link.engine = s.link.engine := by
  rw [State.offer_eq]

/-- A departure with its claims, before a purge, differs from its records by claims alone. -/
theorem State.gone_claims (s : State) (p : Fin 4) :
    (((s.gone p).departClaims p).clearBreaksEndingAt p).outsideClaims = (s.gone p).outsideClaims := by
  rw [State.clearBreaksEndingAt_outsideClaims, State.departClaims_outsideClaims]

/-- The records after a departure (R74, R75). -/
theorem State.departed_positions (s : State) (p : Fin 4) :
    (s.departed p).positions =
      if s.holdTime = 0 then (s.gone p).positions.modify p fun r => { r with serial := none, count := 0 }
      else (s.gone p).positions := by
  rw [State.departed_eq]
  split
  · rw [Moves.purge_positions, positions_of_outsideClaims (s.gone_claims p)]
  · rw [positions_of_outsideClaims (s.gone_claims p)]

theorem State.purge_link (s : State) (p : Fin 4) : (s.purge p).link = s.link := by rw [s.purge_eq p]

theorem State.departed_link (s : State) (p : Fin 4) : (s.departed p).link = (s.gone p).link := by
  rw [State.departed_eq]
  split
  · rw [State.purge_link, link_of_outsideClaims (s.gone_claims p)]
  · rw [link_of_outsideClaims (s.gone_claims p)]

/-- The pending edges of a position: the couple edge and the uncouple edge. -/
def Position.flags (r : Position) : Bool × Bool := (r.coupleEdge, r.uncoupleEdge)

/-- An edge of p clears one flag of p and moves no other flag, and it leaves the engine in its state. -/
structure State.EdgeTaken (s : State) (p : Fin 4) (couple : Bool) (t : State) : Prop where
  engine : t.link.engine = s.link.engine
  here : (t.positions.get p).flags =
    if couple then (false, (s.positions.get p).uncoupleEdge) else ((s.positions.get p).coupleEdge, false)
  other : ∀ q, q ≠ p → (t.positions.get q).flags = (s.positions.get q).flags

section Edge

variable {p : Fin 4}

theorem State.edgeTaken_coupled (s : State) (p : Fin 4) {f : Position → Position} (keeps : ∀ r, (f r).flags = r.flags) :
    s.EdgeTaken p true (s.coupled p f) where
  engine := rfl
  here := by
    rw [State.coupled, Four.get_modify, if_pos rfl, keeps]
    rfl
  other q ne := by rw [State.coupled, Four.get_modify_ne _ _ ne]

theorem State.edgeTaken_uncoupled (s : State) (p : Fin 4) {f : Position → Position}
    (keeps : ∀ r, (f r).flags = r.flags) : s.EdgeTaken p false (s.uncoupled p f) where
  engine := rfl
  here := by
    rw [State.uncoupled, Four.get_modify, if_pos rfl, keeps]
    rfl
  other q ne := by rw [State.uncoupled, Four.get_modify_ne _ _ ne]

theorem State.EdgeTaken.offer {couple : Bool} {t : State} (h : s.EdgeTaken p couple t) (w : LinkWord) :
    s.EdgeTaken p couple (t.offer p w) where
  engine := (t.offer_engine p w).trans h.engine
  here := by
    rw [State.offer_positions]
    exact h.here
  other q ne := by
    rw [State.offer_positions]
    exact h.other q ne

theorem State.edgeTaken_departed (s : State) (p : Fin 4) : s.EdgeTaken p false (s.departed p) where
  engine := by
    rw [State.departed_link]
    rfl
  here := by
    rw [State.departed_positions]
    split <;> simp [State.gone, Position.flags]
  other q ne := by
    rw [State.departed_positions]
    split <;> simp [State.gone, Four.get_modify_ne _ _ ne]

theorem State.processEdge_edgeTaken (s : State) (p : Fin 4) (couple : Bool) :
    s.EdgeTaken p couple (s.processEdge p couple) := by
  cases couple with
  | true =>
    cases state : (s.positions.get p).state with
    | vacant =>
      rw [State.processEdge_couple_of_vacant state]
      refine State.EdgeTaken.offer (s.edgeTaken_coupled p ?_) _
      exact fun _ => rfl
    | coupled =>
      rw [State.processEdge_couple_of_asked (Or.inl state)]
      exact s.edgeTaken_coupled p fun _ => rfl
    | silent =>
      rw [State.processEdge_couple_of_asked (Or.inr state)]
      exact s.edgeTaken_coupled p fun _ => rfl
    | enrolled =>
      rw [State.processEdge_couple_of_accepted (Or.inl state)]
      exact s.edgeTaken_coupled p fun _ => rfl
    | mute =>
      rw [State.processEdge_couple_of_accepted (Or.inr state)]
      exact s.edgeTaken_coupled p fun _ => rfl
    | departed =>
      rw [State.processEdge_couple_of_departed state]
      split
      · exact s.edgeTaken_coupled p fun _ => rfl
      · refine State.EdgeTaken.offer (s.edgeTaken_coupled p ?_) _
        exact fun _ => rfl
  | false =>
    cases state : (s.positions.get p).state with
    | vacant =>
      rw [State.processEdge_uncouple_of_vacant state]
      exact s.edgeTaken_uncoupled p fun _ => rfl
    | coupled =>
      rw [State.processEdge_uncouple_of_asked (Or.inl state)]
      exact s.edgeTaken_uncoupled p fun _ => rfl
    | silent =>
      rw [State.processEdge_uncouple_of_asked (Or.inr state)]
      exact s.edgeTaken_uncoupled p fun _ => rfl
    | enrolled =>
      rw [State.processEdge_uncouple_of_accepted (Or.inl state)]
      exact s.edgeTaken_departed p
    | mute =>
      rw [State.processEdge_uncouple_of_accepted (Or.inr state)]
      exact s.edgeTaken_departed p
    | departed =>
      rw [State.processEdge_uncouple_of_departed state]
      split <;> exact s.edgeTaken_uncoupled p fun _ => rfl

end Edge

/-! ## The pending edges of a wake -/

/-- Of two flags the edge away from the present level comes first (R63). -/
theorem State.processPending_eq (s : State) (p : Fin 4) :
    s.processPending p =
      if (s.positions.get p).coupleEdge = true ∧ (s.positions.get p).uncoupleEdge = true then
        if (s.positions.get p).reads then (s.processEdge p false).processEdge p true
        else (s.processEdge p true).processEdge p false
      else if (s.positions.get p).coupleEdge then s.processEdge p true
      else if (s.positions.get p).uncoupleEdge then s.processEdge p false
      else s := by
  unfold State.processPending
  cases couple : (s.positions.get p).coupleEdge <;> cases uncouple : (s.positions.get p).uncoupleEdge <;>
    cases reads : (s.positions.get p).reads <;> simp [couple, uncouple, reads]

/-- The flags of p cleared, the others and the engine as they were. -/
structure State.PendingTaken (s : State) (p : Fin 4) (t : State) : Prop where
  engine : t.link.engine = s.link.engine
  here : (t.positions.get p).flags = (false, false)
  other : ∀ q, q ≠ p → (t.positions.get q).flags = (s.positions.get q).flags

theorem State.EdgeTaken.both {u t : State} {p : Fin 4} {couple : Bool} (first : s.EdgeTaken p couple u)
    (second : u.EdgeTaken p (!couple) t) : s.PendingTaken p t where
  engine := second.engine.trans first.engine
  here := by
    have cleared := first.here
    rw [second.here]
    cases couple <;> simp_all [Position.flags]
  other q ne := (second.other q ne).trans (first.other q ne)

theorem State.EdgeTaken.alone {t : State} {p : Fin 4} {couple : Bool} (taken : s.EdgeTaken p couple t)
    (none : (if couple then (s.positions.get p).uncoupleEdge else (s.positions.get p).coupleEdge) = false) :
    s.PendingTaken p t where
  engine := taken.engine
  here := by
    rw [taken.here]
    cases couple <;> simp_all
  other := taken.other

theorem State.processPending_pendingTaken (s : State) (p : Fin 4) : s.PendingTaken p (s.processPending p) := by
  rw [State.processPending_eq]
  split
  · split
    · exact (s.processEdge_edgeTaken p false).both (State.processEdge_edgeTaken _ p true)
    · exact (s.processEdge_edgeTaken p true).both (State.processEdge_edgeTaken _ p false)
  · rename_i both
    split
    · rename_i couple
      exact (s.processEdge_edgeTaken p true).alone (by simpa [couple] using both)
    · rename_i none
      split
      · exact (s.processEdge_edgeTaken p false).alone (by simpa using none)
      · exact ⟨rfl, by simp_all [Position.flags], fun _ _ => rfl⟩

theorem State.wake_eq (s : State) (seen : BitVec 4) :
    s.wake seen =
      (((((s.roused seen).processPending 0).processPending 1).processPending 2).processPending 3).settle := rfl

/-- A wake leaves the engine in RX_IDLE and no edge pending (R63, R179). -/
theorem State.wake_spec (s : State) (seen : BitVec 4) :
    (s.wake seen).link.engine = .rxIdle ∧ ∀ p, ((s.wake seen).positions.get p).flags = (false, false) := by
  have first := (s.roused seen).processPending_pendingTaken 0
  have second := ((s.roused seen).processPending 0).processPending_pendingTaken 1
  have third := (((s.roused seen).processPending 0).processPending 1).processPending_pendingTaken 2
  have fourth := ((((s.roused seen).processPending 0).processPending 1).processPending 2).processPending_pendingTaken 3
  have claimed : ∀ r : Position, r.claimed.flags = r.flags := fun _ => rfl
  rw [s.wake_eq, State.settle_eq]
  refine ⟨fourth.engine.trans (third.engine.trans (second.engine.trans first.engine)), fun p => ?_⟩
  rw [Four.get_map, claimed]
  induction p using forallFour with
  | h0 => rw [fourth.other 0 (by decide), third.other 0 (by decide), second.other 0 (by decide), first.here]
  | h1 => rw [fourth.other 1 (by decide), third.other 1 (by decide), second.here]
  | h2 => rw [fourth.other 2 (by decide), third.here]
  | h3 => exact fourth.here

theorem State.wake_outsideRoster (s : State) (seen : BitVec 4) :
    (s.wake seen).outsideRoster = (s.roused seen).outsideRoster := by
  rw [s.wake_eq]
  simp only [State.settle_outsideRoster, State.processPending_outsideRoster]

theorem State.wake_awake (s : State) (seen : BitVec 4) (released : s.resetAsserted = false) : (s.wake seen).Awake := by
  have same := State.eq_of_outsideRoster _ (s.wake_outsideRoster seen)
  rw [same]
  exact ⟨released, rfl⟩

/-! ## What wakes the part -/

theorem membersOf_getLsbD (b : Fin 4 → Bool) (p : Fin 4) :
    (fourIndices.foldl (fun set p => if b p then set ||| BitVec.twoPow 4 p.val else set) (0 : BitVec 4)).getLsbD p.val =
      b p := by
  revert b p
  exact forall_fourConditions (by decide)

/-- A start bit is seen in REST on an open channel (R41). -/
theorem State.seenInRest_getLsbD (s : State) (channels : BitVec 4) (p : Fin 4) :
    (s.seenInRest channels).getLsbD p.val = (channels.getLsbD p.val && s.openInRest p) :=
  membersOf_getLsbD (fun p => channels.getLsbD p.val && s.openInRest p) p

theorem State.seenInRest_eq {channels seen : BitVec 4}
    (open_ : ∀ p : Fin 4, seen.getLsbD p.val =
      (channels.getLsbD p.val && (s.link.channels.get p).enabled && (s.positions.get p).wakeEnable)) :
    s.seenInRest channels = seen := by
  refine BitVec.eq_of_getLsbD_eq fun i bound => ?_
  rw [s.seenInRest_getLsbD channels ⟨i, bound⟩, open_ ⟨i, bound⟩, State.openInRest, Bool.and_assoc]

theorem State.wakeIfResting_of_rest (resting : s.power = .rest) : s.wakeIfResting = s.wake 0 := if_pos resting

theorem State.wakeIfResting_of_run (running : s.power = .run) : s.wakeIfResting = s := if_neg (by simp [running])

/-- A lighting command taken in REST finds the part awake (R142, R178; log 9). -/
theorem exec_of_onLighting (released : s.resetAsserted = false) (resting : s.power = .rest) {c : Instr}
    (lighting : c.onLighting = true) : exec c s = exec c (s.wake 0) := by
  obtain ⟨released', running⟩ := s.wake_awake 0 released
  have woken := State.wakeIfResting_of_rest resting
  have awake := State.wakeIfResting_of_run running
  have serves (answer : State → List Byte) : s.serve .lighting answer = (s.wake 0).serve .lighting answer := by
    simp only [State.serve, woken, awake]
  have posts (command : Option PostedCommand) : s.post command = (s.wake 0).post command := by
    simp only [State.post, woken, awake]
  by_cases posted : c.isPosted = true
  · rw [exec_of_posted c _ posted, exec_of_posted c _ posted, event_of_released released, event_of_released released',
      posts]
  · cases c with
    | sync =>
      rw [exec_eq_sync, exec_eq_sync, event_of_released released, event_of_released released', woken, awake]
    | restart =>
      rw [exec_eq_restart, exec_eq_restart, event_of_released released, event_of_released released', woken, awake]
    | unknownCommand port code =>
      cases port with
      | display => exact absurd lighting posted
      | lighting =>
        have unknown : ¬Port.lighting.knows code = true := ne_true_of_eq_false (Bool.not_eq_eq_eq_not.1 lighting)
        rw [exec_eq_unknownCommand, exec_eq_unknownCommand, event_of_released released, event_of_released released',
          if_neg unknown, if_neg unknown, serves]
    | readDrive port =>
      cases port with
      | display => exact absurd lighting posted
      | lighting =>
        rw [exec_eq_readDrive, exec_eq_readDrive, event_of_released released, event_of_released released', serves]
    | readPosition port b =>
      cases port with
      | display => exact absurd lighting posted
      | lighting =>
        rw [exec_eq_readPosition, exec_eq_readPosition, event_of_released released, event_of_released released', serves]
    | readCircuit port b i =>
      cases port with
      | display => exact absurd lighting posted
      | lighting =>
        rw [exec_eq_readCircuit, exec_eq_readCircuit, event_of_released released, event_of_released released', serves]
    | readFeed port b =>
      cases port with
      | display => exact absurd lighting posted
      | lighting =>
        rw [exec_eq_readFeed, exec_eq_readFeed, event_of_released released, event_of_released released', serves]
    | readSummary port =>
      cases port with
      | display => exact absurd lighting posted
      | lighting =>
        rw [exec_eq_readSummary, exec_eq_readSummary, event_of_released released, event_of_released released', serves]
    | _ => exact absurd lighting posted

/-! ## The filtered level -/

theorem State.detectFlips_get (s : State) (p : Fin 4) :
    ((s.detectFlips p).positions.get p).state = (s.positions.get p).state ∧
      ((s.detectFlips p).positions.get p).recoupled = (s.positions.get p).recoupled ∧
      ((s.detectFlips p).positions.get p).reads = !(s.positions.get p).reads ∧
      ((s.detectFlips p).positions.get p).wakeEnable = (s.positions.get p).wakeEnable := by
  simp only [State.detectFlips, State.updPosition, Four.get_modify, if_true, Position.reads, true_and, and_true]
  cases (s.positions.get p).detect <;> cases (s.positions.get p).coupledHigh <;> rfl

end Sys2Proof.Machine

open Sys2Proof Sys2Proof.Machine

/-- Settles O38. -/
theorem waking : Obligations.Waking := by
  refine ⟨fun s released resting => ⟨fun channels seen open_ => ?_, ?_, fun c lighting =>
      exec_of_onLighting released resting lighting⟩, fun s awake => ⟨?_, fun channels => ?_⟩, fun s seen => ?_,
    State.processPending_eq, fun s p => ?_⟩
  · rw [exec_eq_linkWakeStartBit, event_of_released released, State.linkWake, State.seenInRest_eq open_]
    by_cases none : seen = 0
    · rw [if_pos none, if_neg fun h => h.2 none]
    · rw [if_neg none, if_pos ⟨resting, none⟩]
  · rw [exec_eq_lcsAssert, event_of_released released, State.assertLcs, State.wakeIfResting_of_rest resting]
    rfl
  · obtain ⟨released, running⟩ := awake
    rw [exec_eq_lcsAssert, event_of_released released, State.assertLcs, State.wakeIfResting_of_run running]
    rfl
  · obtain ⟨released, running⟩ := awake
    rw [exec_eq_linkWakeStartBit, event_of_released released, State.linkWake, if_neg (by simp [running])]
  · obtain ⟨engine, flags⟩ := s.wake_spec seen
    refine ⟨s.wake_eq seen, ?_, engine, fun p => ⟨congrArg Prod.fst (flags p), congrArg Prod.snd (flags p)⟩⟩
    rw [State.eq_of_outsideRoster _ (s.wake_outsideRoster seen)]
    rfl
  · intro r coupled uncoupled
    constructor
    · cases state : (s.positions.get p).state with
      | vacant => exact State.processEdge_couple_of_vacant state
      | coupled => exact State.processEdge_couple_of_asked (Or.inl state)
      | silent => exact State.processEdge_couple_of_asked (Or.inr state)
      | enrolled => exact State.processEdge_couple_of_accepted (Or.inl state)
      | mute => exact State.processEdge_couple_of_accepted (Or.inr state)
      | departed => exact State.processEdge_couple_of_departed state
    · cases state : (s.positions.get p).state with
      | vacant => exact State.processEdge_uncouple_of_vacant state
      | coupled => exact State.processEdge_uncouple_of_asked (Or.inl state)
      | silent => exact State.processEdge_uncouple_of_asked (Or.inr state)
      | enrolled => exact State.processEdge_uncouple_of_accepted (Or.inl state)
      | mute => exact State.processEdge_uncouple_of_accepted (Or.inr state)
      | departed => exact State.processEdge_uncouple_of_departed state

end

section
/-! SUPPORT. A filtered detect level that changes: the edge that it makes in RUN, and the flag that it sets in REST. -/

namespace Sys2Proof.Machine

variable {s : State} {p : Fin 4}

/-- In RUN the edge is processed in the same event (R62). -/
theorem exec_detectFilterChange_of_awake (awake : s.Awake) :
    exec (.detectFilterChange p) s = .next ((s.detectFlips p).processEdge p !(s.positions.get p).reads).settle := by
  obtain ⟨released, running⟩ := awake
  obtain ⟨-, -, reads, -⟩ := s.detectFlips_get p
  have running : (s.detectFlips p).power = .run := running
  rw [exec_eq_detectFilterChange, event_of_released released, State.detectFilterPasses]
  dsimp only
  rw [running, reads]

/-- In REST the flag of the edge is set, and the part wakes where wake is enabled (R62, R178). -/
theorem exec_detectFilterChange_of_rest (released : s.resetAsserted = false) (resting : s.power = .rest) :
    exec (.detectFilterChange p) s =
      .next
        (if (s.positions.get p).wakeEnable then ((s.detectFlips p).updPosition p Position.flagEdge).wake 0
          else (s.detectFlips p).updPosition p Position.flagEdge) := by
  obtain ⟨-, -, -, wakeEnable⟩ := s.detectFlips_get p
  have resting : (s.detectFlips p).power = .rest := resting
  have same : (((s.detectFlips p).updPosition p Position.flagEdge).positions.get p).wakeEnable =
      (s.positions.get p).wakeEnable := by
    rw [← wakeEnable, State.updPosition_positions, Four.get_modify, if_pos rfl, Position.flagEdge]
    split <;> rfl
  rw [exec_eq_detectFilterChange, event_of_released released, State.detectFilterPasses]
  dsimp only
  rw [resting]
  dsimp only
  rw [same]

theorem State.detectFlips_eq (s : State) (p : Fin 4) :
    s.detectFlips p =
      { s with
        cd := s.cd.set p !(s.positions.get p).detect
        positions := s.positions.modify p fun r => { r with detect := !r.detect, filterCount := 0 } } := rfl

/-- A couple edge of the level that flips. -/
theorem State.detectFlips_coupled (s : State) (p : Fin 4) (f : Position → Position) :
    (s.detectFlips p).coupled p f =
      { s with
        cd := s.cd.set p !(s.positions.get p).detect
        positions :=
          s.positions.modify p fun r => f { r with detect := !r.detect, filterCount := 0, coupleEdge := false } } := by
  simp only [State.detectFlips_eq, State.coupled, Four.modify_modify]
  rfl

/-- An uncouple edge of the level that flips. -/
theorem State.detectFlips_uncoupled (s : State) (p : Fin 4) (f : Position → Position) :
    (s.detectFlips p).uncoupled p f =
      { s with
        cd := s.cd.set p !(s.positions.get p).detect
        positions :=
          s.positions.modify p fun r => f { r with detect := !r.detect, filterCount := 0, uncoupleEdge := false } } := by
  simp only [State.detectFlips_eq, State.uncoupled, Four.modify_modify]
  rfl

/-- The flag that a flipped level sets (R62). -/
theorem Position.flagEdge_flipped (r : Position) :
    ({ r with detect := !r.detect, filterCount := 0 } : Position).flagEdge =
      { r with
        detect := !r.detect
        filterCount := 0
        coupleEdge := r.coupleEdge || !r.reads
        uncoupleEdge := r.uncoupleEdge || r.reads } := by
  obtain ⟨⟩ := r
  rename_i coupledHigh _ detect _ couple uncouple _ _ _ _ _ _ _ _ _ _ _
  cases coupledHigh <;> cases detect <;> cases couple <;> cases uncouple <;> rfl

theorem State.detectFlips_flagged (s : State) (p : Fin 4) :
    (s.detectFlips p).updPosition p Position.flagEdge =
      { s with
        cd := s.cd.set p !(s.positions.get p).detect
        positions :=
          s.positions.modify p fun r =>
            { r with
              detect := !r.detect
              filterCount := 0
              coupleEdge := r.coupleEdge || !r.reads
              uncoupleEdge := r.uncoupleEdge || r.reads } } := by
  simp only [State.detectFlips_eq, State.updPosition, Four.modify_modify, Function.comp_def, Position.flagEdge_flipped]

end Sys2Proof.Machine

open Sys2Proof Sys2Proof.Machine

/-- Settles O32, by the level, the power state and the state of the position. -/
theorem detectEdges : Obligations.DetectEdges := by
  intro s p released r flipped command
  obtain ⟨state, recoupled, -, -⟩ := s.detectFlips_get p
  have couples (f : Position → Position) : flipped true f = (s.detectFlips p).coupled p f :=
    (s.detectFlips_coupled p f).symm
  have uncouples (f : Position → Position) : flipped false f = (s.detectFlips p).uncoupled p f :=
    (s.detectFlips_uncoupled p f).symm
  refine ⟨fun running away => ?_, fun running present => ?_, fun resting => ?_⟩
  · have edge : command = .next ((s.detectFlips p).processEdge p true).settle := by
      rw [show command = _ from exec_detectFilterChange_of_awake ⟨released, running⟩, show (s.positions.get p).reads = _
        from away]
      rfl
    simp only [couples, edge]
    refine ⟨fun vacant => ?_, fun asked => ?_, fun accepted => ?_, fun departed => ?_⟩
    · rw [State.processEdge_couple_of_vacant (state.trans vacant)]
    · rw [State.processEdge_couple_of_asked (by rwa [state])]
    · rw [State.processEdge_couple_of_accepted (by rwa [state])]
    · rw [State.processEdge_couple_of_departed (state.trans departed), recoupled]
      split <;> simp_all [r]
  · have edge : command = .next ((s.detectFlips p).processEdge p false).settle := by
      rw [show command = _ from exec_detectFilterChange_of_awake ⟨released, running⟩, show (s.positions.get p).reads = _
        from present]
      rfl
    simp only [uncouples, edge]
    refine ⟨fun vacant => ?_, fun asked => ?_, fun departed => ?_⟩
    · rw [State.processEdge_uncouple_of_vacant (state.trans vacant)]
    · rw [State.processEdge_uncouple_of_asked (by rwa [state])]
    · rw [State.processEdge_uncouple_of_departed (state.trans departed), recoupled]
      split <;> simp_all [r]
  · intro flagged
    have flags : flagged = (s.detectFlips p).updPosition p Position.flagEdge := (s.detectFlips_flagged p).symm
    rw [flags]
    exact exec_detectFilterChange_of_rest released resting

end

section
/-! SUPPORT. The departure of a position: its frame, the BREAKs that end there, and the records that a purge removes. -/

namespace Sys2Proof.Machine

variable {s t : State} {p : Fin 4}

/-! ## The circuits of a purged position -/

/-- The position holds no circuit record. -/
def State.NoRecords (p : Fin 4) (s : State) : Prop := s.circuits.get p = []

theorem State.NoRecords.setCondition (h : s.NoRecords p) (f : Fin 8) (a : FeedCondition) :
    (s.setCondition f a).NoRecords p := by
  unfold State.NoRecords at *
  rw [State.setCondition_circuits _ _ _ _ (by simp [h]), h]
  exact ite_self _

theorem State.NoRecords.clearCondition (h : s.NoRecords p) (f : Fin 8) : (s.clearCondition f).NoRecords p := by
  unfold State.NoRecords at *
  rw [State.clearCondition_circuits, Four.get_map, h]
  rfl

theorem State.NoRecords.holdOutcomes (h : s.NoRecords p) (f : Fin 8) (q : Fin 4) (o : Hold) :
    (s.holdOutcomes f q o).NoRecords p := by
  refine Moves.fold (P := State.NoRecords p) _ (fun s c h => ?_) _ h
  unfold State.NoRecords at *
  refine (congrArg (Four.get · p) (s.holdOutcome_circuits q c f o)).trans ?_
  show (s.circuits.modify q _).get p = []
  rw [Four.get_modify]
  split
  · rw [h]
    exact modify_of_none rfl _
  · exact h

theorem State.NoRecords.evaluate (h : s.NoRecords p) (f : Fin 8) (q : Fin 4) : (s.evaluate f q).NoRecords p := by
  unfold State.evaluate
  split
  · exact h.holdOutcomes f q _
  · split
    · exact Moves.choose (h.setCondition f _) (h.holdOutcomes f q _)
    · exact h.holdOutcomes f q _

theorem State.NoRecords.passAll (h : s.NoRecords p) (start : Nat) : (s.passAll start).NoRecords p :=
  Moves.fold (P := State.NoRecords p) _ (fun _ f h =>
    Moves.fold (P := State.NoRecords p) _ (fun _ q h => Moves.choose (h.evaluate f q) h) _ h) _ h

theorem State.NoRecords.clearBreaksEndingAt (h : s.NoRecords p) (q : Fin 4) : (s.clearBreaksEndingAt q).NoRecords p := by
  refine Moves.fold (P := State.NoRecords p) _ (fun s f h => ?_) _ h
  split
  · exact Moves.choose (h.clearCondition f) h
  all_goals exact h

/-- A purge leaves no record (R78). -/
theorem State.purge_noRecords (s : State) (p : Fin 4) : (s.purge p).NoRecords p := by
  refine State.NoRecords.passAll (State.NoRecords.clearBreaksEndingAt ?_ p) _
  refine Moves.fold (P := State.NoRecords p) _ (fun s c h => ?_) _ ?_
  · unfold State.NoRecords
    rw [State.withdrawCircuit_circuits]
    exact h
  · exact Four.get_set_self _ _ _

/-! ## The BREAKs that end at a position -/

/-- The function has a BREAK that ends at p. -/
abbrev State.BreaksAt (s : State) (p : Fin 4) (f : Fin 8) : Prop := ∃ start, s.feeds.get f = .broken start p

/-- A feed condition after the BREAKs that end at p are cleared. -/
def FeedCondition.endedAt (a : FeedCondition) (p : Fin 4) : FeedCondition :=
  match a with
  | .broken start stop => if stop = p then .none else .broken start stop
  | other => other

/-- The clearing of one function's condition, where it is a BREAK that ends at p. -/
def State.clearBreak (p : Fin 4) (s : State) (f : Fin 8) : State :=
  match s.feeds.get f with
  | .broken _ stop => if stop = p then s.clearCondition f else s
  | .none => s
  | .driverDead => s
  | .driverStuck => s

theorem State.clearBreaksEndingAt_eq (s : State) (p : Fin 4) :
    s.clearBreaksEndingAt p = eightIndices.foldl (State.clearBreak p) s := rfl

theorem State.clearBreak_of_break {f : Fin 8} (breaks : s.BreaksAt p f) : s.clearBreak p f = s.clearCondition f := by
  obtain ⟨start, e⟩ := breaks
  simp only [State.clearBreak, e, if_true]

theorem State.clearBreak_of_not_break {f : Fin 8} (whole : ¬s.BreaksAt p f) : s.clearBreak p f = s := by
  unfold State.clearBreak
  split
  · rename_i start stop e
    refine if_neg ?_
    rintro rfl
    exact whole ⟨start, e⟩
  all_goals rfl

theorem FeedCondition.endedAt_of_not_broken {a : FeedCondition} (whole : ¬∃ start, a = .broken start p) :
    a.endedAt p = a := by
  unfold FeedCondition.endedAt
  split
  · rename_i start stop
    refine if_neg ?_
    rintro rfl
    exact whole ⟨start, rfl⟩
  · rfl

theorem FeedCondition.endedAt_broken (start : Fin 4) : (FeedCondition.broken start p).endedAt p = .none := if_pos rfl

/-- A record after the BREAKs of some functions that end at p are cleared (R118, R133). -/
def Circuit.reconnected (r : Circuit) (ended : Prop) [Decidable ended] : Circuit :=
  if r.verdict = .shadowed ∧ ended then { r with verdict := .unseen, streak := 0 } else r

theorem FeedCondition.endedAt_endedAt (a : FeedCondition) : (a.endedAt p).endedAt p = a.endedAt p := by
  by_cases broken : ∃ start, a = .broken start p
  · obtain ⟨start, rfl⟩ := broken
    rw [FeedCondition.endedAt_broken]
    rfl
  · rw [FeedCondition.endedAt_of_not_broken broken, FeedCondition.endedAt_of_not_broken broken]

theorem State.clearBreak_feeds (s : State) (f g : Fin 8) :
    (s.clearBreak p f).feeds.get g = if g = f then (s.feeds.get g).endedAt p else s.feeds.get g := by
  by_cases breaks : s.BreaksAt p f
  · rw [State.clearBreak_of_break breaks, State.clearCondition_feeds, Eight.get_set]
    obtain ⟨start, e⟩ := breaks
    split
    · rename_i here
      rw [here, e, FeedCondition.endedAt_broken]
    · rfl
  · rw [State.clearBreak_of_not_break breaks]
    split
    · rename_i here
      rw [here, FeedCondition.endedAt_of_not_broken breaks]
    · rfl

theorem Circuit.unshadow_eq (r : Circuit) (f : Fin 8) : r.unshadow f = r.reconnected (r.feed = f) := by
  simp only [Circuit.unshadow, Circuit.reconnected, Circuit.isOf, Bool.and_eq_true, beq_iff_eq, and_comm]

theorem State.clearBreak_circuits (s : State) (f : Fin 8) (q : Fin 4) :
    (s.clearBreak p f).circuits.get q =
      (s.circuits.get q).map fun c => c.reconnected (c.feed = f ∧ s.BreaksAt p c.feed) := by
  by_cases breaks : s.BreaksAt p f
  · rw [State.clearBreak_of_break breaks, State.clearCondition_circuits, Four.get_map]
    refine List.map_congr_left fun c _ => ?_
    rw [Circuit.unshadow_eq]
    have same : c.feed = f ↔ c.feed = f ∧ s.BreaksAt p c.feed :=
      ⟨fun h => ⟨h, h ▸ breaks⟩, fun h => h.1⟩
    simp only [Circuit.reconnected, ← same]
  · rw [State.clearBreak_of_not_break breaks]
    have same : ∀ c : Circuit, ¬(c.feed = f ∧ s.BreaksAt p c.feed) := fun c h => breaks (h.1 ▸ h.2)
    simp [Circuit.reconnected, same]

theorem Circuit.reconnected_feed (r : Circuit) (ended : Prop) [Decidable ended] : (r.reconnected ended).feed = r.feed := by
  unfold Circuit.reconnected
  split <;> rfl

theorem FeedCondition.endedAt_ne (a : FeedCondition) (start : Fin 4) : a.endedAt p ≠ .broken start p := by
  by_cases broken : ∃ start, a = .broken start p
  · obtain ⟨_, rfl⟩ := broken
    rw [FeedCondition.endedAt_broken]
    exact nofun
  · rw [FeedCondition.endedAt_of_not_broken broken]
    exact fun e => broken ⟨start, e⟩

theorem State.clearBreak_breaksAt (s : State) (f g : Fin 8) :
    (s.clearBreak p f).BreaksAt p g ↔ g ≠ f ∧ s.BreaksAt p g := by
  unfold State.BreaksAt
  rw [State.clearBreak_feeds]
  split
  · simp [*, FeedCondition.endedAt_ne]
  · simp [*]

/-- The clearing of the BREAKs of the functions of a list, function by function and record by record. -/
theorem State.foldl_clearBreak (l : List (Fin 8)) (s : State) :
    (∀ f, (l.foldl (State.clearBreak p) s).feeds.get f =
      if f ∈ l then (s.feeds.get f).endedAt p else s.feeds.get f) ∧
    ∀ q, (l.foldl (State.clearBreak p) s).circuits.get q =
      (s.circuits.get q).map fun c => c.reconnected (c.feed ∈ l ∧ s.BreaksAt p c.feed) := by
  induction l generalizing s with
  | nil => exact ⟨fun f => by simp, fun q => by simp [Circuit.reconnected]⟩
  | cons f l ih =>
    obtain ⟨feeds, circuits⟩ := ih (s.clearBreak p f)
    refine ⟨fun g => ?_, fun q => ?_⟩
    · rw [List.foldl_cons, feeds, State.clearBreak_feeds]
      by_cases same : g = f
      · subst same
        by_cases later : g ∈ l <;> simp [later, FeedCondition.endedAt_endedAt]
      · simp [same]
    · rw [List.foldl_cons, circuits, State.clearBreak_circuits, List.map_map]
      refine List.map_congr_left fun c _ => ?_
      rw [Function.comp_apply]
      simp only [s.clearBreak_breaksAt, Circuit.reconnected_feed, List.mem_cons]
      by_cases here : c.feed = f <;> by_cases shadowed : c.verdict = .shadowed <;>
        by_cases breaks : s.BreaksAt p c.feed <;> simp [Circuit.reconnected, here, shadowed, breaks]

/-! ## The frame of a departure -/

/-- A departure writes the records, the channel, the assembly and the samples of its position, and makes claims. -/
theorem State.departed_frame (s : State) (p : Fin 4) :
    s.departed p =
      { s.gone p with
        positions := (s.departed p).positions
        feeds := (s.departed p).feeds
        circuits := (s.departed p).circuits
        notices := (s.departed p).notices } := by
  have claims := State.eq_of_outsideClaims _ (s.gone_claims p)
  rw [State.departed_eq]
  generalize ((s.gone p).departClaims p).clearBreaksEndingAt p = u at claims ⊢
  split
  · have purged := u.purge_eq p
    generalize u.purge p = v at purged ⊢
    rw [purged, claims]
  · rw [claims]

/-- The same, by the level of the detect input that flips. -/
theorem State.gone_detectFlips (s : State) (p : Fin 4) :
    (s.detectFlips p).gone p =
      { s with
        cd := s.cd.set p !(s.positions.get p).detect
        positions :=
          s.positions.modify p fun r =>
            { r with
              state := if s.holdTime = 0 then .vacant else .departed
              detect := !r.detect
              filterCount := 0
              uncoupleEdge := false
              recoupled := false
              enrollTimer := none
              welcome := .done
              holdTimer := if s.holdTime = 0 then none else some (s.holdTime * 1000000)
              uncoupled := true }
        link :=
          { s.link with
            discarded := s.link.discarded || s.link.engine.activeOn p
            cut :=
              if s.link.engine = .rxActive p then
                (if (s.positions.get p).state = .enrolled then some (s.assembly.get p) else none)
              else s.link.cut
            channels :=
              s.link.channels.modify p fun c =>
                { c with
                  queue := if s.link.engine.inFlight p then c.queue.take 1 else []
                  attempts := if s.link.engine.inFlight p then c.attempts else 0 } }
        assembly := s.assembly.set p .idle
        samples := s.samples.modify p fun m => { m with list := [], timer := none } } := by
  obtain ⟨state, -⟩ := s.detectFlips_get p
  rw [State.gone, state]
  simp only [State.detectFlips_eq, Four.modify_modify]
  rfl

theorem State.departed_circuits_of_purge (s : State) (p : Fin 4) (purges : s.holdTime = 0) :
    (s.departed p).circuits.get p = [] := by
  rw [State.departed_eq, if_pos purges]
  exact State.purge_noRecords _ p

/-- A departure that keeps its records clears the BREAKs that end at its position (R133). -/
theorem State.departed_breaks (s : State) (p : Fin 4) (keeps : s.holdTime ≠ 0) :
    (∀ f, (s.departed p).feeds.get f = (s.feeds.get f).endedAt p) ∧
      ∀ q, (s.departed p).circuits.get q =
        (s.circuits.get q).map fun c => c.reconnected (s.BreaksAt p c.feed) := by
  have claims := State.eq_of_outsideNotices _ ((s.gone p).departClaims_outsideNotices p)
  obtain ⟨feeds, circuits⟩ := State.foldl_clearBreak (p := p) eightIndices ((s.gone p).departClaims p)
  have sameFeeds : ((s.gone p).departClaims p).feeds = s.feeds := by
    rw [claims]
    rfl
  have sameCircuits : ((s.gone p).departClaims p).circuits = s.circuits := by
    rw [claims]
    rfl
  rw [State.departed_eq, if_neg keeps, State.clearBreaksEndingAt_eq]
  refine ⟨fun f => ?_, fun q => ?_⟩
  · rw [feeds, if_pos (mem_eightIndices f), sameFeeds]
  · rw [circuits, sameCircuits]
    simp only [State.BreaksAt, sameFeeds, mem_eightIndices, true_and]

/-! ## The departure claim of one circuit -/

theorem State.departCircuit_of_pending {c : Fin 12} {x : Notice} (held : s.notices.held (.circuit p c) = some x)
    (pending : x.service = .pending) :
    s.departCircuit p c = s.updNotices fun n => n.withdrawPending x x.kind.owed := by
  simp [State.departCircuit, held, pending]

theorem State.departCircuit_of_not_pending {c : Fin 12}
    (serving : ∀ x, s.notices.held (.circuit p c) = some x → x.service ≠ .pending) : s.departCircuit p c = s := by
  unfold State.departCircuit
  split
  · rename_i x held
    split
    · rename_i pending
      exact absurd pending (serving x held)
    · rfl
  · rfl

end Sys2Proof.Machine

open Sys2Proof Sys2Proof.Machine

/-- Settles O33. -/
theorem departure : Obligations.Departure := by
  refine ⟨fun s p awake present accepted => ?_, fun s p c sound => ⟨fun x mem isOf pending => ?_, fun serving => ?_⟩⟩
  · obtain ⟨state, -⟩ := s.detectFlips_get p
    have gone := s.gone_detectFlips p
    obtain ⟨D, departs⟩ : ∃ D, D = (s.detectFlips p).departed p := ⟨_, rfl⟩
    have frame := (s.detectFlips p).departed_frame p
    have positions := (s.detectFlips p).departed_positions p
    have emptied := (s.detectFlips p).departed_circuits_of_purge p
    have breaks := (s.detectFlips p).departed_breaks p
    have hold : (s.detectFlips p).holdTime = s.holdTime := rfl
    rw [← departs] at frame positions emptied breaks
    rw [gone] at frame positions
    rw [hold] at positions emptied breaks
    refine ⟨D.settle, ?_, ?_, fun q ne => ?_, ?_, fun purges => ?_, fun keeps => ⟨fun f => ?_, fun q => ?_⟩, ?_⟩
    · rw [exec_detectFilterChange_of_awake awake, present, departs]
      exact congrArg (fun u => Host.Outcome.next u.settle)
        (State.processEdge_uncouple_of_accepted (by rwa [state]))
    · rw [D.settle_eq]
      generalize D.settle.notices = notices
      rw [frame]
    · rw [State.settle_positions, Four.get_map, positions]
      split <;> simp [Four.get_modify_ne _ _ ne, Position.claimed]
    · rw [State.settle_positions, Four.get_map, positions]
      split
      · rename_i purges
        simp [Position.claimed, *]
      · rename_i keeps
        simp [Position.claimed, *]
    · rw [D.settle_eq]
      exact emptied purges
    · rw [D.settle_eq]
      refine ((breaks keeps).1 f).trans ?_
      change (s.feeds.get f).endedAt p = _
      cases s.feeds.get f <;> rfl
    · rw [D.settle_eq]
      exact (breaks keeps).2 q
    · intro gone' claimed cleared
      have kept : D.settle.link = D.link ∧ D.settle.assembly = D.assembly ∧ D.settle.samples = D.samples := by
        rw [D.settle_eq]
        exact ⟨rfl, rfl, rfl⟩
      obtain ⟨link, assembly, samples⟩ := kept
      have start : gone' = (s.detectFlips p).gone p := by
        simp only [gone', link, assembly, samples]
        rw [frame, gone]
      have clears : cleared = (((s.detectFlips p).gone p).departClaims p).clearBreaksEndingAt p := by
        rw [← start]
        rfl
      rw [clears, departs, State.departed_eq, hold]
  · have held := sound.held_of_mem mem isOf
    rw [State.departCircuit_of_pending held pending, NoticeKind.owed_eq, State.updNotices]
    rw [NoticeUnit.withdrawPending_eq, isOf]
  · refine State.departCircuit_of_not_pending fun x held => ?_
    obtain ⟨mem, isOf⟩ := NoticeUnit.held_some held
    exact serving x mem isOf

end

section
/-! SUPPORT. The timers of a position and of its samples. -/

namespace Sys2Proof.Machine

variable {s : State} {p : Fin 4}

/-! ## The enroll and hold timers -/

/-- A position that asks its unit to introduce itself (R66, R68). -/
theorem State.askToEnroll_eq (s : State) (p : Fin 4) (state : PositionState) :
    s.askToEnroll p state =
      (s.updPosition p fun r => { r with state := state, enrollTimer := some r.enrollTimeout }).offer p .recall := by
  simp only [State.askToEnroll, State.startEnrollTimer, State.offerRecall, State.updPosition, Four.modify_modify]
  rfl

section Enroll

variable (running : (s.positions.get p).enrollTimer ≠ none)
include running

theorem State.enrollRunsOut_of_asked
    (state : (s.positions.get p).state = .coupled ∨ (s.positions.get p).state = .silent) :
    s.enrollRunsOut p = s.askToEnroll p .silent := by
  unfold State.enrollRunsOut
  dsimp only
  rw [if_neg (by simpa using running)]
  rcases state with state | state <;> rw [state]

theorem State.enrollRunsOut_of_recoupled (state : (s.positions.get p).state = .departed)
    (recoupled : (s.positions.get p).recoupled = true) :
    s.enrollRunsOut p =
      ((s.purge p).updPosition p fun r => { r with holdTimer := none, recoupled := false }).askToEnroll p .silent := by
  unfold State.enrollRunsOut
  dsimp only
  rw [if_neg (by simpa using running), state]
  exact if_pos recoupled

theorem State.enrollRunsOut_of_owed
    (state : (s.positions.get p).state = .enrolled ∨ (s.positions.get p).state = .mute)
    (owed : (s.positions.get p).welcome = .owed) : s.enrollRunsOut p = s.offerWelcome p := by
  unfold State.enrollRunsOut
  dsimp only
  rw [if_neg (by simpa using running)]
  rcases state with state | state <;> rw [state] <;> exact if_pos owed

end Enroll

theorem State.enrollRunsOut_of_stopped (stopped : (s.positions.get p).enrollTimer = none) : s.enrollRunsOut p = s := by
  unfold State.enrollRunsOut
  exact if_pos (by simp [stopped])

/-- A WELCOME that is owed is offered again (R73). -/
theorem State.offerWelcome_of_owed (owed : (s.positions.get p).welcome = .owed) :
    s.offerWelcome p =
      if s.accepts p = true then
        (s.offer p (.welcome p)).updPosition p fun r => { r with welcome := .waiting, enrollTimer := none }
      else s.updPosition p fun r => { r with enrollTimer := some r.enrollTimeout } := by
  have still : (s.positions.modify p fun r => { r with welcome := .owed }) = s.positions :=
    Four.modify_eq_self _ _ _ (by rw [← owed])
  unfold State.offerWelcome State.startEnrollTimer
  simp only [State.updPosition, still]

theorem State.holdRunsOut_of_departed (running : (s.positions.get p).holdTimer ≠ none)
    (state : (s.positions.get p).state = .departed) :
    s.holdRunsOut p =
      ((s.purge p).updPosition p fun r => { r with recoupled := false, holdTimer := none }).evaluatePosition p := by
  unfold State.holdRunsOut
  exact if_neg (by simpa [state] using running)

theorem State.holdRunsOut_of_stopped (stopped : (s.positions.get p).holdTimer = none) : s.holdRunsOut p = s := by
  unfold State.holdRunsOut
  exact if_pos (by simp [stopped])

/-- A purge does not change what the position reads. -/
theorem State.purge_reads (s : State) (p : Fin 4) :
    ((s.purge p).positions.get p).reads = (s.positions.get p).reads := by
  rw [Moves.purge_positions, Four.get_modify, if_pos rfl]
  rfl

/-! ## Withdrawals -/

theorem State.withdrawCircuit_of_pending {c : Fin 12} {x : Notice} (held : s.notices.held (.circuit p c) = some x)
    (pending : x.service = .pending) :
    s.withdrawCircuit p c = s.updNotices fun n => n.withdrawPending x .none := by
  simp [State.withdrawCircuit, held, pending]

theorem State.withdrawCircuit_of_inService {c : Fin 12} {x : Notice} {mark : Mark}
    (held : s.notices.held (.circuit p c) = some x) (serving : x.service = .inService mark) :
    s.withdrawCircuit p c =
      s.updNotices fun n => n.updSlot x.slot fun y => { y with service := .inService .resolved } := by
  simp [State.withdrawCircuit, held, serving]

theorem State.withdrawCircuit_of_absent {c : Fin 12} (absent : s.notices.held (.circuit p c) = none) :
    s.withdrawCircuit p c = s.updNotices fun n => n.setAnnounce (.circuit p c) .none := by
  simp [State.withdrawCircuit, absent]

/-! ## Deadlines -/

theorem SampleRecord.outstandingAs_eq (r : SampleRecord) (tag : BitVec 4) :
    r.outstandingAs tag = (decide (r.tag = tag) && r.outstanding.isSome) := by
  rw [SampleRecord.outstandingAs]
  congr 1

/-- The record at its deadline goes and is counted as missed (R91). -/
theorem State.missDeadline_of_due {tag : BitVec 4} (due : ∃ r ∈ (s.samples.get p).list, r.outstandingAs tag = true) :
    s.missDeadline p tag =
      (s.updSampling p fun m => { m with list := m.list.filter fun r => !r.outstandingAs tag }).countMissed p := by
  unfold State.missDeadline
  exact if_pos (List.any_eq_true.2 due)

theorem State.missDeadline_of_not_due {tag : BitVec 4}
    (none : ∀ r ∈ (s.samples.get p).list, r.outstandingAs tag = false) : s.missDeadline p tag = s := by
  unfold State.missDeadline
  refine if_neg ?_
  rw [List.any_eq_true]
  rintro ⟨r, listed, due⟩
  simp [none r listed] at due

end Sys2Proof.Machine

open Sys2Proof Sys2Proof.Machine

/-- Settles O34. -/
theorem positionTimers : Obligations.PositionTimers := by
  refine ⟨fun s p awake => ⟨fun running => ⟨fun asked => ?_, fun departed recoupled => ?_, fun accepted owed => ?_⟩,
    fun running departed => ?_⟩, fun s p => rfl, fun s p c sound => ⟨fun x mem isOf => ⟨fun pending => ?_,
      fun mark serving => ?_⟩, fun absent => ?_⟩⟩
  · rw [exec_eq_enrollTimerExpiry, runEvent_of_awake awake, State.enrollRunsOut_of_asked running asked,
      State.askToEnroll_eq]
  · rw [exec_eq_enrollTimerExpiry, runEvent_of_awake awake, State.enrollRunsOut_of_recoupled running departed recoupled,
      State.askToEnroll_eq]
  · rw [exec_eq_enrollTimerExpiry, runEvent_of_awake awake, State.enrollRunsOut_of_owed running accepted owed,
      State.offerWelcome_of_owed owed]
    simp only [s.accepts_iff]
    split <;> rfl
  · have reads : (((s.purge p).updPosition p fun r => { r with recoupled := false, holdTimer := none }).positions.get
        p).reads = (s.positions.get p).reads := by
      rw [← s.purge_reads p, State.updPosition_positions, Four.get_modify, if_pos rfl]
      rfl
    rw [exec_eq_holdTimerExpiry, runEvent_of_awake awake, State.holdRunsOut_of_departed running departed,
      State.evaluatePosition, reads, State.askToEnroll_eq]
  · rw [State.withdrawCircuit_of_pending (sound.held_of_mem mem isOf) pending, State.updNotices,
      NoticeUnit.withdrawPending_eq, isOf]
  · exact State.withdrawCircuit_of_inService (sound.held_of_mem mem isOf) serving
  · exact State.withdrawCircuit_of_absent (NoticeUnit.held_eq_none absent)

/-- Settles O36. -/
theorem deadlineExpiry : Obligations.DeadlineExpiry := by
  intro s p tag awake due streak listed
  have same : ∀ r : SampleRecord, r.outstandingAs tag = due r := fun r => r.outstandingAs_eq tag
  have missed := State.missDeadline_of_due (s := s) (p := p) (tag := tag) (by simpa only [same] using listed)
  rw [exec_eq_deadlineExpiry, runEvent_of_awake awake, missed, State.countMissed_eq]
  simp only [same, State.updSampling, Four.modify_modify, Four.get_modify, if_true]
  rfl

end

section
/-! SUPPORT. Events whose cause the present state cannot have. -/

namespace Sys2Proof.Machine

variable {s : State}

theorem runEvent_of_rest (resting : s.power = .rest) (f : State → State) : runEvent s f = .next s := by
  simp [runEvent, event, resting]

/-- An event that finds nothing to do in RUN changes nothing at any time. -/
theorem runEvent_of_idle {f : State → State} (idle : f s = s) : runEvent s f = .next s := by
  simp [runEvent, event, idle]

section Engine

theorem exec_startBit_of_engine (busy : s.link.engine ≠ .rxIdle) (channels : BitVec 4) :
    exec (.startBit channels) s = .next s := by
  change execStartBit channels s = .next s
  refine runEvent_of_idle ?_
  cases engine : s.link.engine with
  | rxIdle => exact absurd engine busy
  | _ => rfl

theorem exec_transmitStart_of_engine (busy : s.link.engine ≠ .rxIdle) : exec .transmitStart s = .next s := by
  change execTransmitStart s = .next s
  refine runEvent_of_idle ?_
  cases engine : s.link.engine with
  | rxIdle => exact absurd engine busy
  | _ => rfl

theorem exec_wordTimeout_of_engine (away : ∀ p, s.link.engine ≠ .rxActive p) : exec .wordTimeout s = .next s := by
  change execWordTimeout s = .next s
  refine runEvent_of_idle ?_
  cases engine : s.link.engine with
  | rxActive p => exact absurd engine (away p)
  | _ => rfl

theorem exec_receiveEnd_of_engine (away : ∀ p, s.link.engine ≠ .rxActive p) (data : BitVec 12) (parity stop : Bool) :
    exec (.receiveEnd data parity stop) s = .next s := by
  change execReceiveEnd data parity stop s = .next s
  refine runEvent_of_idle ?_
  cases engine : s.link.engine with
  | rxActive p => exact absurd engine (away p)
  | _ => rfl

theorem exec_inhibitSettleEnd_of_engine (away : ∀ p, s.link.engine ≠ .txSetup p) :
    exec .inhibitSettleEnd s = .next s := by
  change execInhibitSettleEnd s = .next s
  refine runEvent_of_idle ?_
  cases engine : s.link.engine with
  | txSetup p => exact absurd engine (away p)
  | _ => rfl

theorem exec_firstFallingEdge_of_engine (away : ∀ p, s.link.engine ≠ .txWait p) :
    exec .firstFallingEdge s = .next s := by
  change execFirstFallingEdge s = .next s
  refine runEvent_of_idle ?_
  cases engine : s.link.engine with
  | txWait p => exact absurd engine (away p)
  | _ => rfl

theorem exec_txNoClock_of_engine (away : ∀ p, s.link.engine ≠ .txWait p) : exec .txNoClock s = .next s := by
  change execTxNoClock s = .next s
  refine runEvent_of_idle ?_
  cases engine : s.link.engine with
  | txWait p => exact absurd engine (away p)
  | _ => rfl

theorem exec_transmitCatch_of_engine (away : ∀ p, s.link.engine ≠ .txActive p) : exec .transmitCatch s = .next s := by
  change execTransmitCatch s = .next s
  refine runEvent_of_idle ?_
  cases engine : s.link.engine with
  | txActive p => exact absurd engine (away p)
  | _ => rfl

theorem State.attemptFails_of_engine (away : ∀ p, s.link.engine ≠ .txActive p) : s.attemptFails = s := by
  unfold State.attemptFails
  cases engine : s.link.engine with
  | txActive p => exact absurd engine (away p)
  | _ => rfl

end Engine

theorem State.sampleTimerRunsOut_of_stopped {p : Fin 4} (stopped : (s.samples.get p).timer = none) :
    s.sampleTimerRunsOut p = s := if_neg (by simp [stopped])

/-- A deadline that no outstanding record has is not due. -/
theorem outstandingAs_eq_false {r : SampleRecord} {tag : BitVec 4} (none : r.tag = tag → r.outstanding = none) :
    r.outstandingAs tag = false := by
  rw [SampleRecord.outstandingAs_eq]
  by_cases same : r.tag = tag
  · simp [none same]
  · simp [same]

end Sys2Proof.Machine

open Sys2Proof Sys2Proof.Machine

/-- Settles O37. -/
theorem eventsWithoutCause : Obligations.EventsWithoutCause := by
  intro s released quiet
  have settled : s.settle = s := s.settle_of_quiet quiet
  refine ⟨fun cd => ?_, fun busy => ⟨exec_startBit_of_engine busy, exec_transmitStart_of_engine busy⟩,
    fun away => ⟨exec_wordTimeout_of_engine away, exec_receiveEnd_of_engine away⟩, exec_inhibitSettleEnd_of_engine,
    fun away => ⟨exec_firstFallingEdge_of_engine away, exec_txNoClock_of_engine away⟩,
    fun away => ⟨exec_transmitCatch_of_engine away, ?_, ?_⟩, fun away => ?_, fun p stopped => ?_, fun p stopped => ?_,
    fun p stopped => ?_, fun p tag none => ?_, fun resting => ?_⟩
  · rw [exec_eq_pinResetRelease, if_neg (by simp [released])]
  · exact runEvent_of_idle (State.attemptFails_of_engine away)
  · exact runEvent_of_idle (State.attemptFails_of_engine away)
  · exact runEvent_of_idle (if_neg away)
  · rw [exec_eq_enrollTimerExpiry]
    exact runEvent_of_idle (f := fun s => (s.enrollRunsOut p).settle) (by rw [State.enrollRunsOut_of_stopped stopped, settled])
  · rw [exec_eq_holdTimerExpiry]
    exact runEvent_of_idle (f := fun s => (s.holdRunsOut p).settle) (by rw [State.holdRunsOut_of_stopped stopped, settled])
  · exact runEvent_of_idle (State.sampleTimerRunsOut_of_stopped stopped)
  · have notDue := fun r listed => outstandingAs_eq_false (tag := tag) (none r listed)
    rw [exec_eq_deadlineExpiry]
    exact runEvent_of_idle (f := fun s => (s.missDeadline p tag).settle)
      (by rw [State.missDeadline_of_not_due notDue, settled])
  · have frozen (f : State → State) : runEvent s f = .next s := runEvent_of_rest resting f
    exact ⟨fun g => (exec_eq_stepExpiry s g).trans (frozen _), fun fs => (exec_eq_senseTick s fs).trans (frozen _), fun p =>
      ⟨(exec_eq_gapTimerExpiry s p).trans (frozen _), (exec_eq_wakeSettleEnd s p).trans (frozen _),
        (exec_eq_enrollTimerExpiry s p).trans (frozen _), (exec_eq_holdTimerExpiry s p).trans (frozen _),
        (exec_eq_sampleTimerExpiry s p).trans (frozen _), fun tag => (exec_eq_deadlineExpiry s p tag).trans (frozen _)⟩⟩

end

section
/-! SUPPORT. What an outcome makes of a circuit record. -/

namespace Sys2Proof.Machine

/-- Two choices between the same values agree when their conditions do. -/
theorem ite_eq_ite_of_iff {α : Type} {P Q : Prop} [Decidable P] [Decidable Q] {a a' b b' : α} (same : P ↔ Q)
    (left : a = a') (right : b = b') : (if P then a else b) = if Q then a' else b' :=
  ite_congr (propext same) (fun _ => left) fun _ => right

variable (j : Judging) (r : Circuit)

/-- The recovery evidence of R104. -/
theorem Finding.recovers_iff (o : Finding) (k : FaultKind) :
    o.recovers k = true ↔ o = .agree ∧ k ≠ .backfeed ∨ o = .quiet ∧ k = .backfeed := by
  cases o with
  | agree => simp [Finding.recovers]
  | quiet => simp [Finding.recovers]
  | disagree k' => simp [Finding.recovers]

theorem Circuit.judgeFault_of_concord {o : Finding} (concord : o = .agree ∨ o = .quiet) (k : FaultKind)
    (candidate : Option FaultKind) (hold : Option Hold) :
    r.judgeFault j k candidate hold o = if o.recovers k && !j.isLatched k then r.recovered j k hold 1 else r := by
  rcases concord with rfl | rfl <;> rfl

theorem Circuit.judgeRecovering_of_concord {o : Finding} (concord : o = .agree ∨ o = .quiet) (k : FaultKind)
    (hold : Option Hold) :
    r.judgeRecovering j k hold o = if o.recovers k then r.recovered j k hold (counted r.streak) else r := by
  rcases concord with rfl | rfl <;> rfl

variable {r}

theorem Circuit.judge_of_healthy (healthy : r.verdict = .unseen ∨ r.verdict = .good) (o : Finding) :
    r.judge j o = r.judgeHealthy j o := by
  rcases healthy with state | state <;> simp only [Circuit.judge, state]

theorem Circuit.judge_of_suspect {k : FaultKind} (state : r.verdict = .suspect k) (o : Finding) :
    r.judge j o = r.judgeSuspect j k o := by
  simp only [Circuit.judge, state]

theorem Circuit.judge_of_fault {k : FaultKind} {candidate : Option FaultKind} {hold : Option Hold}
    (state : r.verdict = .fault k candidate hold) (o : Finding) : r.judge j o = r.judgeFault j k candidate hold o := by
  simp only [Circuit.judge, state]

theorem Circuit.judge_of_recovering {k : FaultKind} {hold : Option Hold} (state : r.verdict = .recovering k hold)
    (o : Finding) : r.judge j o = r.judgeRecovering j k hold o := by
  simp only [Circuit.judge, state]

theorem Circuit.judge_of_shadowed (state : r.verdict = .shadowed) (o : Finding) : r.judge j o = r := by
  simp only [Circuit.judge, state]

end Sys2Proof.Machine

open Sys2Proof Sys2Proof.Machine

/-- Settles O40. -/
theorem verdictTable : Obligations.VerdictTable := by
  intro j r
  refine ⟨fun state => ?_, fun k state => ?_, fun k candidate hold state => ?_, fun k hold state => ?_,
    fun state o => Circuit.judge_of_shadowed j state o⟩
  · simp only [Circuit.judge_of_healthy j state]
    exact ⟨rfl, rfl, fun k => rfl⟩
  · simp only [Circuit.judge_of_suspect j state]
    exact ⟨rfl, rfl, if_pos rfl, fun k' differs => if_neg differs⟩
  · simp only [Circuit.judge_of_fault j state]
    refine ⟨if_pos rfl, fun k' differs => if_neg differs, fun o concord => ?_⟩
    rw [Circuit.judgeFault_of_concord j r concord]
    refine ⟨fun evidence unlatched => ?_, fun idle => if_neg fun counts => ?_⟩
    · have counts : (o.recovers k && !j.isLatched k) = true := by
        simp [(o.recovers_iff k).2 evidence, Judging.isLatched, unlatched]
      exact if_pos counts
    · obtain ⟨evidence, unlatched⟩ := Bool.and_eq_true_iff.1 counts
      rcases idle with none | latched
      · exact none ((o.recovers_iff k).1 evidence)
      · simp [Judging.isLatched, latched] at unlatched
  · simp only [Circuit.judge_of_recovering j state]
    refine ⟨if_pos rfl, fun k' differs => ?_, fun o concord => ?_⟩
    · by_cases loss : k = .feedLoss
      · exact (if_neg differs).trans ((if_pos loss).trans (if_neg (by simp [loss])).symm)
      · exact (if_neg differs).trans ((if_neg loss).trans (ite_eq_ite_of_iff (by simp [loss]) rfl rfl))
    · rw [Circuit.judgeRecovering_of_concord j r concord]
      exact ⟨fun evidence => if_pos ((o.recovers_iff k).2 evidence),
        fun none => if_neg fun evidence => none ((o.recovers_iff k).1 evidence)⟩

end

section
/-! SUPPORT. The claims of a change of feed condition to the circuit records and the notice unit. -/

namespace Sys2Proof.Machine

variable (s : State) (f : Fin 8)

/-- A shadow claim to one address (R117). -/
theorem State.shadowOf_of_none {p : Fin 4} {c : Fin 12} (none : s.circuit p c = none) : s.shadowOf f p c = s := by
  simp only [State.shadowOf, none]

theorem State.shadowOf_of_other {p : Fin 4} {c : Fin 12} {r : Circuit} (here : s.circuit p c = some r)
    (other : r.feed ≠ f) : s.shadowOf f p c = s := by
  simp [State.shadowOf, here, Circuit.isOf, other]

theorem State.shadowOf_of_feed {p : Fin 4} {c : Fin 12} {r : Circuit} (here : s.circuit p c = some r)
    (feed : r.feed = f) : s.shadowOf f p c = s.shadow p c := by
  simp [State.shadowOf, here, Circuit.isOf, feed]

/-- What a condition that is written leaves unchanged (R124). -/
theorem State.setCondition_frame (after : FeedCondition) :
    s.setCondition f after =
      { s with
        feeds := s.feeds.set f after
        circuits := (s.setCondition f after).circuits
        notices := (s.setCondition f after).notices } := by
  have frame := State.eq_of_outsideClaims _ (s.setCondition_outsideClaims f after)
  rw [s.setCondition_feeds f after] at frame
  exact frame

theorem State.clearCondition_frame :
    s.clearCondition f =
      { s with
        feeds := s.feeds.set f .none
        circuits := (s.clearCondition f).circuits
        notices := (s.clearCondition f).notices } := by
  have frame := State.eq_of_outsideClaims _ (s.clearCondition_outsideClaims f)
  rw [s.clearCondition_feeds f] at frame
  exact frame

theorem Circuit.unshadow_of_feed (r : Circuit) :
    r.unshadow f = if r.feed = f ∧ r.verdict = .shadowed then { r with verdict := .unseen, streak := 0 } else r :=
  ite_eq_ite_of_iff (by simp [Circuit.isOf]) rfl rfl

theorem Circuit.shadowedBy_of_feed (r : Circuit) :
    r.shadowedBy f = if r.feed = f ∧ r.verdict ≠ .shadowed then { r with verdict := .shadowed, streak := 0 } else r :=
  ite_eq_ite_of_iff (by simp [Circuit.isOf]) rfl rfl

/-- The records after a condition is written, position by position (R117, R124). -/
theorem State.setCondition_circuits_eq (after : FeedCondition) (few : ∀ p, (s.circuits.get p).length ≤ 12) :
    (s.setCondition f after).circuits =
      s.circuits.map fun p l =>
        l.map fun r =>
          if r.feed = f ∧ after.covers p = true ∧ (s.feeds.get f).covers p = false ∧ r.verdict ≠ .shadowed then
            { r with verdict := .shadowed, streak := 0 }
          else r := by
  refine Four.ext_get fun p => ?_
  rw [s.setCondition_circuits f after p (few p), Four.get_map]
  by_cases newly : after.covers p = true ∧ (s.feeds.get f).covers p = false
  · obtain ⟨covered, before⟩ := newly
    simp only [covered, before, Circuit.shadowedBy_of_feed, Bool.not_false, Bool.and_self, if_true, true_and]
  · have old : (after.covers p && !(s.feeds.get f).covers p) = false := by
      cases covered : after.covers p <;> simp_all
    have unshadowed (r : Circuit) : ¬ (r.feed = f ∧ after.covers p = true ∧ (s.feeds.get f).covers p = false ∧
        r.verdict ≠ .shadowed) := fun ⟨_, covered, before, _⟩ => newly ⟨covered, before⟩
    simp only [old, if_neg (unshadowed _), List.map_id', Bool.false_eq_true, if_false]

/-- The claims of a condition that is cleared (R118, R125, R127). -/
theorem State.clearCondition_eq :
    s.clearCondition f =
      ({ s with
          feeds := s.feeds.set f .none
          circuits :=
            s.circuits.map fun _ l =>
              l.map fun r =>
                if r.feed = f ∧ r.verdict = .shadowed then { r with verdict := .unseen, streak := 0 } else r } :
        State).resolve (.feed f) := by
  simp only [State.clearCondition, State.unshadow, State.setFeed, Circuit.unshadow_of_feed]

end Sys2Proof.Machine

open Sys2Proof Sys2Proof.Machine

/-- Settles O41. -/
theorem conditionsShadow : Obligations.ConditionsShadow := by
  refine ⟨fun p => ⟨rfl, rfl, rfl, fun start stop => decide_eq_true_iff⟩, fun s f after few => ⟨?_, ?_, ?_,
    s.clearCondition_eq f⟩⟩
  · have frame := s.setCondition_frame f after
    rw [s.setCondition_circuits_eq f after few] at frame
    exact frame
  · have frame := s.clearCondition_frame f
    rw [s.clearCondition_circuits f] at frame
    simp only [Circuit.unshadow_of_feed] at frame
    exact frame
  · intro kind shadow covered shadowed
    have sameKind (x : FeedCondition) : kind x = x.kind := by cases x <;> rfl
    have step (u : State) (p : Fin 4) (c : Fin 12) : shadow u p c = u.shadowOf f p c := by
      cases here : u.circuit p c with
      | none => simp only [shadow, here, u.shadowOf_of_none f here]
      | some r =>
        by_cases feed : r.feed = f
        · rw [u.shadowOf_of_feed f here feed]
          simp only [shadow, State.shadow, here, if_pos feed]
          cases r.verdict <;> rfl
        · simp only [shadow, here, if_neg feed, u.shadowOf_of_other f here feed]
    have all : shadowed =
        (s.setFeed f after).shadowWhere f fun p => after.covers p && !(s.feeds.get f).covers p := by
      simp only [shadowed, step]
      rfl
    simp only [all, sameKind]
    rfl

end

section
/-! SUPPORT. An evaluation: what the circuits of the function show, its supplier, its hold outcomes, and a pass. -/

namespace Sys2Proof.Machine

variable (s : State) (f : Fin 8) (p : Fin 4)

theorem State.mem_recordsOf {r : Circuit} : r ∈ s.recordsOf f p ↔ r ∈ s.circuits.get p ∧ r.feed = f := by
  simp [State.recordsOf, Circuit.isOf]

/-- The position holds a circuit of the function (R129). -/
theorem State.recordsOf_nonempty_iff :
    (!(s.recordsOf f p).isEmpty) = true ↔ ∃ c ∈ s.circuits.get p, c.feed = f := by
  rw [Bool.not_eq_true', List.isEmpty_eq_false_iff_exists_mem]
  simp only [s.mem_recordsOf]

/-- A circuit still shows feed (R128, test 1). -/
theorem Verdict.showsFeed_iff (v : Verdict) :
    v.showsFeed = true ↔ v = .good ∨ (∃ k h, v = .recovering k h) ∨ ∃ k j h, k ≠ .feedLoss ∧ v = .fault k j h := by
  cases v with
  | fault k j h => simp [Verdict.showsFeed]
  | _ => simp [Verdict.showsFeed]

/-- A circuit has lost feed (R128, test 2). -/
theorem Verdict.lostFeed_iff (v : Verdict) : v.lostFeed = true ↔ ∃ j h, v = .fault .feedLoss j h := by
  cases v with
  | fault k j h => simp [Verdict.lostFeed]
  | _ => simp [Verdict.lostFeed]

theorem State.any_showsFeed_iff :
    ((s.recordsOf f p).any fun r => r.verdict.showsFeed) = true ↔
      ∃ c, (c ∈ s.circuits.get p ∧ c.feed = f) ∧
        (c.verdict = .good ∨ (∃ k h, c.verdict = .recovering k h) ∨
          ∃ k j h, k ≠ .feedLoss ∧ c.verdict = .fault k j h) := by
  simp only [List.any_eq_true, s.mem_recordsOf, Verdict.showsFeed_iff]

theorem State.all_lostFeed_iff :
    ((s.recordsOf f p).all fun r => r.verdict.lostFeed) = true ↔
      ∀ c, c ∈ s.circuits.get p ∧ c.feed = f → ∃ j h, c.verdict = .fault .feedLoss j h := by
  simp only [List.all_eq_true, s.mem_recordsOf, Verdict.lostFeed_iff]

/-- The nearest position below p at which a test holds (R129). -/
theorem find_below_eq_some_iff (holds : Fin 4 → Bool) (p q : Fin 4) :
    (fourIndices.reverse.find? fun r => decide (r < p) && holds r) = some q ↔
      q < p ∧ holds q = true ∧ ∀ r, q < r → r < p → holds r = false := by
  revert holds p q
  exact forall_fourConditions (by decide)

theorem find_below_eq_none_iff (holds : Fin 4 → Bool) (p : Fin 4) :
    (fourIndices.reverse.find? fun r => decide (r < p) && holds r) = none ↔ ∀ r, r < p → holds r = false := by
  revert holds p
  exact forall_fourConditions (by decide)

/-- The position holds no circuit of the function (R129). -/
theorem State.recordsOf_empty_iff :
    (!(s.recordsOf f p).isEmpty) = false ↔ ¬ ∃ c ∈ s.circuits.get p, c.feed = f := by
  rw [← s.recordsOf_nonempty_iff f p, Bool.not_eq_true]

theorem State.supplier_eq_some_iff (q : Fin 4) :
    s.supplier f p = some q ↔
      q < p ∧ (∃ c ∈ s.circuits.get q, c.feed = f) ∧
        ∀ r, q < r → r < p → ¬ ∃ c ∈ s.circuits.get r, c.feed = f := by
  rw [State.supplier, find_below_eq_some_iff (fun q => !(s.recordsOf f q).isEmpty)]
  simp only [s.recordsOf_nonempty_iff f, s.recordsOf_empty_iff f]

theorem State.supplier_eq_none_iff :
    s.supplier f p = none ↔ ∀ q, q < p → ¬ ∃ c ∈ s.circuits.get q, c.feed = f := by
  rw [State.supplier, find_below_eq_none_iff (fun q => !(s.recordsOf f q).isEmpty)]
  simp only [s.recordsOf_empty_iff f]

theorem State.supplierLive_some_iff (q : Fin 4) :
    s.supplierLive f (some q) = true ↔ ∃ c ∈ s.circuits.get q, c.feed = f ∧ c.verdict = .good := by
  simp only [State.supplierLive, List.any_eq_true, s.mem_recordsOf, beq_iff_eq, and_assoc]

theorem State.supplierLive_none_iff :
    s.supplierLive f none = true ↔ (s.drive.functions.get f).sense.condition = .none := by
  simp only [State.supplierLive, beq_iff_eq]

/-! ## The three outcomes of an evaluation (R128) -/

variable {s f p}

theorem State.evaluate_of_shows (shown : ((s.recordsOf f p).any fun r => r.verdict.showsFeed) = true) :
    s.evaluate f p = s.holdOutcomes f p .local := if_pos shown

theorem State.evaluate_of_break (silent : ¬ ((s.recordsOf f p).any fun r => r.verdict.showsFeed) = true)
    (lost : ((s.recordsOf f p).all fun r => r.verdict.lostFeed) = true)
    (live : s.supplierLive f (s.supplier f p) = true) :
    s.evaluate f p = s.setCondition f (.broken (startLink (s.supplier f p)) p) :=
  (if_neg silent).trans ((if_pos lost).trans (if_pos live))

theorem State.evaluate_of_deferred (silent : ¬ ((s.recordsOf f p).any fun r => r.verdict.showsFeed) = true)
    (unclear : ¬ (((s.recordsOf f p).all fun r => r.verdict.lostFeed) = true ∧
      s.supplierLive f (s.supplier f p) = true)) : s.evaluate f p = s.holdOutcomes f p .deferred := by
  refine (if_neg silent).trans ?_
  by_cases lost : ((s.recordsOf f p).all fun r => r.verdict.lostFeed) = true
  · exact (if_pos lost).trans (if_neg fun live => unclear ⟨lost, live⟩)
  · exact if_neg lost

/-! ## Hold outcomes and passes -/

/-- The claim of a hold outcome to one address, as the evaluation sends it (R116, R128). -/
theorem State.holdOutcome_of_lost {c : Fin 12} {r : Circuit} {j : Option FaultKind} {hold : Option Hold}
    (here : s.circuit p c = some r) (lost : r.verdict = .fault .feedLoss j hold) (outcome : Hold) :
    s.holdOutcome p c outcome =
      let written := s.setCircuit p c { r with verdict := .fault .feedLoss j (some outcome) }
      if hold = some .deferred ∧ outcome = .local then written.raise (.circuit p c) (.circuit .feedLoss)
      else written := by
  simp only [State.holdOutcome, here, lost]

theorem State.holdOutcome_of_other {c : Fin 12} {r : Circuit} (here : s.circuit p c = some r)
    (other : r.verdict.lostFeed = false) (outcome : Hold) : s.holdOutcome p c outcome = s := by
  cases state : r.verdict with
  | fault k j hold =>
    cases k with
    | feedLoss => simp [state, Verdict.lostFeed] at other
    | _ => simp only [State.holdOutcome, here, state]
  | _ => simp only [State.holdOutcome, here, state]

theorem Circuit.isOf_iff (r : Circuit) (f : Fin 8) : r.isOf f = true ↔ r.feed = f := by simp [Circuit.isOf]

/-- The position holds a DEFERRED loss of the function (R131). -/
theorem Circuit.deferredLoss_eq (v : Verdict) :
    v.deferredLoss =
      match v with
      | .fault .feedLoss _ (some .deferred) => true
      | _ => false := by
  cases v with
  | fault k j hold =>
    cases k with
    | feedLoss =>
      cases hold with
      | none => rfl
      | some h => cases h <;> rfl
    | _ => rfl
  | _ => rfl

/-- A pass visits a position (R131). -/
theorem State.passVisits_iff (entry : Option (Fin 4)) (r : Fin 4) :
    s.passVisits f entry r = true ↔
      ((s.positions.get r).state = .enrolled ∨ (s.positions.get r).state = .mute) ∧ (s.feeds.get f).covers r = false ∧
        (((s.circuits.get r).any fun c => c.feed == f && c.verdict.deferredLoss) = true ∨ entry = some r) := by
  simp only [State.passVisits, State.recordsOf, List.any_filter, Circuit.isOf, Bool.and_eq_true, Bool.or_eq_true,
    Bool.not_eq_true', beq_iff_eq, PositionState.accepted_iff, and_assoc]

end Sys2Proof.Machine

open Sys2Proof Sys2Proof.Machine

/-- Settles O42. -/
theorem feedEvaluation : Obligations.FeedEvaluation := by
  intro s f p here showsFeed lost holds behindUnit behindTractor
  have shows_iff : ((s.recordsOf f p).any fun r => r.verdict.showsFeed) = true ↔ showsFeed := s.any_showsFeed_iff f p
  have lost_iff : ((s.recordsOf f p).all fun r => r.verdict.lostFeed) = true ↔ lost := s.all_lostFeed_iff f p
  have unit (q : Fin 4) (behind : behindUnit q) : s.supplier f p = some q ∧ s.supplierLive f (some q) = true := by
    obtain ⟨below, held, nearest, live⟩ := behind
    exact ⟨(s.supplier_eq_some_iff f p q).2 ⟨below, held, nearest⟩, (s.supplierLive_some_iff f q).2 live⟩
  have tractor (behind : behindTractor) : s.supplier f p = none ∧ s.supplierLive f none = true := by
    obtain ⟨alone, live⟩ := behind
    exact ⟨(s.supplier_eq_none_iff f p).2 alone, (s.supplierLive_none_iff f).2 live⟩
  have live_only (live : s.supplierLive f (s.supplier f p) = true) : (∃ q, behindUnit q) ∨ behindTractor := by
    cases supplied : s.supplier f p with
    | none =>
      rw [supplied] at live
      exact .inr ⟨(s.supplier_eq_none_iff f p).1 supplied, (s.supplierLive_none_iff f).1 live⟩
    | some q =>
      rw [supplied] at live
      obtain ⟨below, held, nearest⟩ := (s.supplier_eq_some_iff f p q).1 supplied
      exact .inl ⟨q, below, held, nearest, (s.supplierLive_some_iff f q).1 live⟩
  refine ⟨fun shown => State.evaluate_of_shows (shows_iff.2 shown), fun q silent gone behind => ?_,
    fun silent gone behind => ?_, fun silent unclear => ?_, fun outcome few q => ?_, fun outcome => ?_,
    fun start entry => ?_⟩
  · obtain ⟨supplied, live⟩ := unit q behind
    rw [State.evaluate_of_break (mt shows_iff.1 silent) (lost_iff.2 gone) (by rw [supplied]; exact live), supplied]
    rfl
  · obtain ⟨supplied, live⟩ := tractor behind
    rw [State.evaluate_of_break (mt shows_iff.1 silent) (lost_iff.2 gone) (by rw [supplied]; exact live), supplied]
    rfl
  · exact State.evaluate_of_deferred (mt shows_iff.1 silent)
      fun ⟨gone, live⟩ => unclear ⟨lost_iff.1 gone, live_only live⟩
  · rw [s.holdOutcomes_circuits f p outcome few, Four.get_modify]
    by_cases same : q = p
    · rw [if_pos same, if_pos same, same]
      refine List.map_congr_left fun c _ => ?_
      unfold Circuit.heldBy
      refine ite_eq_ite_of_iff (by rw [Bool.and_eq_true, Circuit.isOf_iff]) ?_ rfl
      cases c.verdict <;> rfl
    · rw [if_neg same, if_neg same]
  · unfold State.holdOutcomes
    refine congrArg (fun step => List.foldl step s twelveIndices) (funext fun u => funext fun i => ?_)
    cases found : u.circuit p i with
    | none => rfl
    | some c =>
      simp only [Circuit.isOf_iff]
      refine ite_eq_ite_of_iff Iff.rfl ?_ rfl
      cases state : c.verdict with
      | fault k j hold =>
        cases k with
        | feedLoss => exact State.holdOutcome_of_lost found state outcome
        | _ => exact State.holdOutcome_of_other found (by rw [state]; rfl) outcome
      | _ => exact State.holdOutcome_of_other found (by rw [state]; rfl) outcome
  · unfold State.pass
    refine congrArg (fun step => List.foldl step s _) (funext fun u => funext fun r => ?_)
    refine ite_eq_ite_of_iff ((u.passVisits_iff entry r).trans ?_) rfl rfl
    exact and_congr Iff.rfl (and_congr Iff.rfl (or_congr (Iff.of_eq (congrArg (List.any (u.circuits.get r) · = true)
      (funext fun c => congrArg (c.feed == f && ·) (Circuit.deferredLoss_eq c.verdict)))) Iff.rfl))

end

section
/-! SUPPORT. Levels, position claims, DONE, the scan, SET_MASK and READ_NOTICE. -/

namespace Sys2Proof.Machine

variable {s : State}

/-! ## Levels and position claims -/

theorem State.level_circuit {p : Fin 4} {c : Fin 12} {r : Circuit} (here : s.circuit p c = some r) (k : FaultKind) :
    s.level (.circuit p c) (.circuit k) = min 7 (s.notices.severity.get r.feed + if r.required then 1 else 0) := by
  simp only [State.level, here]
  rfl

/-- The head of a position: its first active condition (R81). -/
theorem Position.head_eq (r : Position) :
    r.head =
      if r.state = .silent then some .silent
      else if r.state = .mute then some .mute
      else if r.linkFault = true then some .linkFault
      else if r.detectMissing = true then some .detectMissing
      else if r.uncoupled = true then some .uncoupled
      else none := by
  cases state : r.state <;> simp only [Position.head, state] <;> rfl

/-- What the claim of a position writes before it tells the notice unit (R81). -/
def State.headClaimed (s : State) (p : Fin 4) : State :=
  { s with positions := s.positions.modify p fun r => { r with claimedHead := r.head } }

theorem State.positionClaim_of_same {p : Fin 4} (same : (s.positions.get p).head = (s.positions.get p).claimedHead) :
    s.positionClaim p = s := if_pos same

theorem State.positionClaim_of_raised {p : Fin 4} {c : PositionCondition} (head : (s.positions.get p).head = some c)
    (changed : some c ≠ (s.positions.get p).claimedHead) :
    s.positionClaim p = (s.headClaimed p).raise (.position p) (.position c) := by
  unfold State.positionClaim
  dsimp only
  rw [head, if_neg changed]
  rfl

theorem State.positionClaim_of_resolved {p : Fin 4} (head : (s.positions.get p).head = none)
    (changed : none ≠ (s.positions.get p).claimedHead) : s.positionClaim p = (s.headClaimed p).resolve (.position p) := by
  unfold State.positionClaim
  dsimp only
  rw [head, if_neg changed]
  rfl

/-! ## DONE -/

theorem indexArg_of_ge {n : Nat} {b : Byte} (high : n ≤ b.toNat) : indexArg n b = none := by
  simp [indexArg, Nat.not_lt.2 high]

theorem rangeArg_of_gt {b : Byte} {low limit : Nat} (high : limit < b.toNat) : rangeArg b low limit = none := by
  simp [rangeArg, Nat.not_le.2 high]

section Released

variable (released : s.resetAsserted = false)
include released

theorem exec_done_of_high {b : Byte} (high : 16 ≤ b.toNat) :
    exec (.done b) s = .next (s.answerDisplay (zeroReply .badArgument 1)) := by
  change execDone b s = _
  rw [execDone, event_of_released released, indexArg_of_ge high]

theorem exec_done_of_slot {b : Byte} {slot : Fin 16} (names : b.toNat = slot.val) :
    exec (.done b) s = .next (s.done slot) := by
  change execDone b s = _
  rw [execDone, event_of_released released, indexArg_of_eq names]

end Released

theorem State.done_of_empty (empty : s.notices.stack = []) (slot : Fin 16) :
    s.done slot = s.answerDisplay (zeroReply .nothingInService 1) := by
  simp only [State.done, empty]

theorem State.done_of_other {slot top : Fin 16} {rest : List (Fin 16)} (stack : s.notices.stack = top :: rest)
    (other : slot ≠ top) : s.done slot = s.answerDisplay (zeroReply .notTop 1) := by
  simp only [State.done, stack, if_neg other]

theorem State.done_of_top {top : Fin 16} {rest : List (Fin 16)} {x : Notice} {mark : Mark}
    (stack : s.notices.stack = top :: rest) (found : s.notices.inSlot top = some x)
    (serving : x.service = .inService mark) : s.done top = s.finishTop x mark := by
  simp only [State.done, stack, if_true, found, serving]

/-- The top notice finished, and the scan that follows (R163, R168). -/
theorem State.finish_scanIfDue (x : Notice) (a : Announce) (data : List Byte) :
    ((s.updNotices fun n => n.finish x a).answerDisplay data).scanIfDue =
      State.scan
        { s.repliedDisplay data with
          notices :=
            { s.notices.setAnnounce x.subject a with
              queue := s.notices.queue.filter fun y => y.slot != x.slot
              stack := s.notices.stack.tail
              scanDue := false } } := by
  refine (if_pos rfl).trans (congrArg State.scan ?_)
  simp only [State.updNotices, State.answerDisplay, State.updPort, NoticeUnit.finish, State.repliedDisplay]
  cases x.subject <;> rfl

theorem NoticeKind.acknowledged_eq (k : NoticeKind) : k.acknowledged = if k = .cleared then .none else .acked := by
  cases k <;> rfl

/-! ## The scan -/

theorem State.scanVisits_eq_false_iff (subject : Subject) :
    s.scanVisits subject = false ↔
      ∃ p c, subject = .circuit p c ∧ (s.positions.get p).state ≠ .enrolled ∧ (s.positions.get p).state ≠ .mute := by
  cases subject with
  | circuit p c =>
    rw [State.scanVisits, ← Bool.not_eq_true, PositionState.accepted_iff, not_or]
    constructor
    · exact fun states => ⟨p, c, rfl, states⟩
    · rintro ⟨p', c', same, states⟩
      obtain ⟨rfl, rfl⟩ := Subject.circuit.inj same
      exact states
  | position p => simp [State.scanVisits]
  | feed f => simp [State.scanVisits]

theorem State.scanSubject_of_unvisited {subject : Subject} (unvisited : s.scanVisits subject = false) :
    s.scanSubject subject = s := by
  simp [State.scanSubject, unvisited]

theorem State.scanSubject_of_full (full : s.notices.freeSlot = none) (subject : Subject) :
    s.scanSubject subject = s := by
  unfold State.scanSubject
  rw [full, ite_eq_right_iff]
  exact fun _ => rfl

theorem State.scanSubject_of_unowed {subject : Subject} (unowed : (s.notices.announceOf subject).owedKind = none) :
    s.scanSubject subject = s := by
  unfold State.scanSubject
  rw [unowed, ite_eq_right_iff]
  intro _
  cases s.notices.freeSlot <;> rfl

theorem State.scanSubject_of_owed {subject : Subject} {slot : Fin 16} {kind : NoticeKind}
    (visited : s.scanVisits subject = true) (free : s.notices.freeSlot = some slot)
    (owed : (s.notices.announceOf subject).owedKind = some kind) :
    s.scanSubject subject = s.updNotices fun n => n.occupy slot subject kind (s.level subject kind) := by
  simp only [State.scanSubject, visited, if_true, free, owed]

end Sys2Proof.Machine

open Sys2Proof Sys2Proof.Machine

/-- Settles O43. -/
theorem noticeLevels : Obligations.NoticeLevels := by
  intro s
  refine ⟨fun x => rfl, fun p k c r here => State.level_circuit here k, fun f k => rfl, fun p =>
    ⟨rfl, rfl, rfl, rfl, rfl, Position.head_eq _, ?_, rfl⟩⟩
  intro r claimed
  by_cases same : r.head = r.claimedHead
  · rw [if_pos same]
    exact State.positionClaim_of_same same
  · rw [if_neg same]
    cases head : r.head with
    | none => exact State.positionClaim_of_resolved head (by rw [← head]; exact same)
    | some c => exact State.positionClaim_of_raised head (by rw [← head]; exact same)

/-- Settles O47. -/
theorem doneOfTheTop : Obligations.DoneOfTheTop := by
  refine ⟨fun s b released => ⟨exec_done_of_high released, fun slot names => ?_⟩, fun s =>
    ⟨rfl, rfl, fun p serial defs => rfl, fun sound x mem pending => ⟨fun fault => ?_, fun p c isOf => ?_⟩,
      fun subject => ⟨?_, fun slot kind visited free owed => ?_⟩⟩⟩
  · simp only [exec_done_of_slot released names]
    refine ⟨fun empty => by rw [State.done_of_empty empty]; rfl, fun top rest stack =>
      ⟨fun other => by rw [State.done_of_other stack other]; rfl, fun x mark isTop found serving => ?_⟩⟩
    have lies : x.slot = top := (NoticeUnit.inSlot_some found).2
    have tail : s.notices.stack.tail = rest := by rw [stack]; rfl
    rw [isTop, State.done_of_top stack found serving]
    refine ⟨fun unmarked => ?_, fun resolved => ?_, fun kind superseded => ?_⟩
    · rw [unmarked, State.finishTop, State.finish_scanIfDue, NoticeKind.acknowledged_eq, tail, lies]
      rfl
    · rw [resolved, State.finishTop, State.finish_scanIfDue, tail, lies]
      rfl
    · rw [superseded, State.finishTop]
      unfold NoticeUnit.repost
      simp only [lies, tail, State.updNotices]
      rfl
  · rw [State.resolve_of_pending (sound.held_of_mem mem rfl) pending, if_neg fault]
    rfl
  · rw [State.departCircuit_of_pending (sound.held_of_mem mem isOf) pending,
      State.withdrawCircuit_of_pending (sound.held_of_mem mem isOf) pending]
    exact ⟨rfl, rfl⟩
  · rintro (unvisited | full | unowed)
    · exact State.scanSubject_of_unvisited (s.scanVisits_eq_false_iff subject |>.2 unvisited)
    · exact State.scanSubject_of_full full subject
    · exact State.scanSubject_of_unowed unowed
  · refine State.scanSubject_of_owed ?_ free owed
    rw [← Bool.not_eq_false, State.scanVisits_eq_false_iff]
    exact fun unvisited => visited (.inl unvisited)

end

section
/-! SUPPORT. SET_MASK and READ_NOTICE. -/

namespace Sys2Proof.Machine

variable {s : State}

theorem maskArgs_of_le {mask hold : Byte} (low : mask.toNat ≤ 6) (flag : hold.toNat ≤ 1) :
    maskArgs mask hold = some (mask.toNat, decide (hold.toNat = 1)) := by
  simp only [maskArgs, rangeArg_of_le (Nat.zero_le _) low, rangeArg_of_le (Nat.zero_le _) flag, Option.bind_eq_bind,
    Option.bind_some]
  rfl

theorem maskArgs_of_gt {mask hold : Byte} (high : 6 < mask.toNat ∨ 1 < hold.toNat) : maskArgs mask hold = none := by
  rcases high with high | high
  · simp [maskArgs, rangeArg_of_gt high]
  · simp [maskArgs, rangeArg_of_gt high]

section Released

variable (released : s.resetAsserted = false)
include released

theorem exec_setMask_of_some {mask hold : Byte} {m : Nat} {h : Bool} (args : maskArgs mask hold = some (m, h)) :
    exec (.setMask mask hold) s =
      .next ((s.updNotices fun n => { n with mask := m, holdAll := h }).answerDisplay (zeroReply .ok 0)) := by
  change execSetMask mask hold s = _
  rw [execSetMask, event_of_released released, args]

theorem exec_setMask_of_none {mask hold : Byte} (args : maskArgs mask hold = none) :
    exec (.setMask mask hold) s = .next (s.answerDisplay (zeroReply .badArgument 0)) := by
  change execSetMask mask hold s = _
  rw [execSetMask, event_of_released released, args]

theorem exec_readNotice (slot : Byte) :
    exec (.readNotice slot) s = .next (s.repliedDisplay (s.noticeReply slot)) := by
  rw [exec_eq_readNotice, event_of_released released]
  rfl

end Released

theorem State.noticeReply_of_slot {b : Byte} {slot : Fin 16} (names : b.toNat = slot.val) :
    s.noticeReply b = reply .ok (noticeRecord (s.notices.inSlot slot)) := by
  simp only [State.noticeReply, indexArg_of_eq names]

theorem State.noticeReply_of_high {b : Byte} (high : 16 ≤ b.toNat) :
    s.noticeReply b = zeroReply .badArgument 8 := by
  simp only [State.noticeReply, indexArg_of_ge high]

/-- A free slot holds no notice (R152). -/
theorem NoticeUnit.inSlot_of_free {n : NoticeUnit} {slot : Fin 16} (free : ∀ x ∈ n.queue, x.slot ≠ slot) :
    n.inSlot slot = none := by
  simpa [NoticeUnit.inSlot] using free

theorem Subject.bytes_eq (x : Subject) :
    x.bytes =
      match x with
      | .circuit p c => [1, byte (16 * (p.val + 1) + c.val)]
      | .position p => [2, byte (p.val + 1)]
      | .feed f => [3, byte f.val] := by
  cases x <;> rfl

theorem Notice.delivery_eq (x : Notice) :
    x.delivery =
      [byte x.slot.val] ++ x.subject.bytes ++
        [byte x.kind.code, byte x.level, byte x.arrival.toNat, byte (x.arrival.toNat / 256)] :=
  List.append_assoc _ _ _

theorem noticeRecord_some (x : Notice) :
    noticeRecord (some x) =
      [1] ++ x.subject.bytes ++
        [byte x.kind.code, byte x.level, byte x.service.bits, byte x.arrival.toNat, byte (x.arrival.toNat / 256)] :=
  List.append_assoc _ _ _

end Sys2Proof.Machine

open Sys2Proof Sys2Proof.Machine

/-- Settles O48. -/
theorem maskAndReadNotice : Obligations.MaskAndReadNotice := by
  refine ⟨fun s released => ⟨fun mask hold low flag => ?_, fun mask hold high => ?_, fun b high => ?_,
    fun b slot names => ⟨fun free => ?_, fun x found => ?_⟩⟩, fun x => ⟨x.subject.bytes_eq, ?_, fun k => ?_, ?_⟩⟩
  · exact exec_setMask_of_some released (maskArgs_of_le low flag)
  · exact exec_setMask_of_none released (maskArgs_of_gt high)
  · rw [exec_readNotice released, State.noticeReply_of_high high]
    rfl
  · rw [exec_readNotice released, State.noticeReply_of_slot names, NoticeUnit.inSlot_of_free free]
    rfl
  · rw [exec_readNotice released, State.noticeReply_of_slot names, found, noticeRecord_some]
    rfl
  · exact x.delivery_eq.trans (congrArg (fun place => [byte x.slot.val] ++ place ++
      [byte x.kind.code, byte x.level, byte x.arrival.toNat, byte (x.arrival.toNat / 256)]) x.subject.bytes_eq)
  · cases k with
    | circuit k => cases k <;> rfl
    | position k => cases k <;> rfl
    | feed k => cases k <;> rfl
    | cleared => rfl
  · cases x.service with
    | pending => rfl
    | inService mark => cases mark <;> rfl

end

section
/-! SUPPORT. The posted commands of the drive, the settings and the levels. -/

namespace Sys2Proof.Machine

variable {s t : State}

/-! ## A posted command that ends without a claim -/

/-- A posted command that runs alone and leaves the positions and the scan as they are, so that its event ends without a
claim. -/
theorem exec_alone_unclaimed {i : Instr} {command : PostedCommand} (ready : s.Ready) (posted : i.isPosted = true)
    (posts : i.posts = some command) (free : s.waits command = false)
    (effect : s.served.execute { command := command, sequence := s.port.nextSeq } = t)
    (positions : t.positions = s.positions) (scanDue : t.notices.scanDue = s.notices.scanDue) :
    exec i s = .next t := by
  have ⟨_, quiet, _⟩ := ready
  rw [exec_alone i s command ready posted posts free, effect, t.settle_of_quiet (quiet.of_eq positions scanDue)]

/-! ## Modes -/

theorem setModeArgs_of_mode {f m g : Byte} {function : Fin 8} {mode : Mode} (names : f.toNat = function.val)
    (given : modeArg m g = some mode) : setModeArgs f m g = some (.setMode function mode) := by
  simp [setModeArgs, indexArg_of_eq names, given]

theorem setDimArgs_of_range {f duty : Byte} {function : Fin 8} (names : f.toNat = function.val) (low : 1 ≤ duty.toNat)
    (high : duty.toNat ≤ 16) : setDimArgs f duty = some (.setDim function duty.toNat) := by
  simp [setDimArgs, indexArg_of_eq names, rangeArg_of_le low high]

theorem modeArg_cadence {g : Byte} {generator : Fin 4} (names : g.toNat = generator.val) :
    modeArg 2 g = some (.cadence generator) := by
  change (indexArg 4 g).map Mode.cadence = _
  rw [indexArg_of_eq names]
  rfl

theorem State.setFunctionMode_eq (s : State) (f : Fin 8) (m : Mode) :
    s.setFunctionMode f m = (s.updFunction f fun r => { r with mode := m }).withResolved (· == f) :=
  State.resolveFunction_eq _ f

/-! ## Cadences -/

theorem State.inUse_iff (s : State) (g : Fin 4) :
    s.inUse g = true ↔ ∃ f, (s.drive.functions.get f).mode = .cadence g := by
  simp [State.inUse, State.follows]

theorem setCadenceArgs_of_range {g lo hi n w : Byte} {generator : Fin 4} {width : Fin 8}
    (names : g.toNat = generator.val) (low : 2 ≤ n.toNat) (high : n.toNat ≤ 16) (steps : w.toNat = width.val) :
    setCadenceArgs g lo hi n w =
      some (.setCadence generator { pattern := hi ++ lo, length := n.toNat, width := width }) := by
  simp [setCadenceArgs, indexArg_of_eq names, rangeArg_of_le low high, indexArg_of_eq steps]

theorem restartCadencesArgs_of_range {set : Byte} (low : set.toNat ≤ 15) :
    restartCadencesArgs set = some (.restartCadences (BitVec.ofNat 4 set.toNat)) := by
  simp [restartCadencesArgs, rangeArg_of_le (Nat.zero_le _) low]

theorem getLsbD_ofNat_toNat (set : Byte) (g : Fin 4) :
    (BitVec.ofNat 4 set.toNat).getLsbD g.val = set.getLsbD g.val := by
  rw [BitVec.getLsbD_ofNat, BitVec.testBit_toNat]
  simp [g.isLt]

theorem State.restartGenerators_eq (s : State) (set : BitVec 4) :
    s.restartGenerators set =
      ({ s with
          drive :=
            { s.drive with
              generators :=
                s.drive.generators.map fun g x =>
                  if set.getLsbD g.val then
                    { cadence := x.staged.getD x.cadence
                      step := 0
                      remaining := Config.stepWidth (x.staged.getD x.cadence).width
                      staged := none }
                  else x } }).withResolved fun f =>
        decide (∃ g : Fin 4, set.getLsbD g.val = true ∧ (s.drive.functions.get f).mode = Mode.cadence g) := by
  have named (f : Fin 8) : (fourIndices.any fun g => set.getLsbD g.val && s.follows f g) =
      decide (∃ g : Fin 4, set.getLsbD g.val = true ∧ (s.drive.functions.get f).mode = Mode.cadence g) := by
    rw [Bool.eq_iff_iff]
    simp [State.follows]
  rw [← funext named]
  exact State.resolveWhere_eq _ _

/-! ## Settings -/

theorem setSamplingArgs_of_range {p t m g : Byte} (p1 : 1 ≤ p.toNat) (p2 : p.toNat ≤ 40) (t1 : 20 ≤ t.toNat)
    (t2 : t.toNat ≤ 250) (m1 : 1 ≤ m.toNat) (m2 : m.toNat ≤ 7) (g2 : g.toNat ≤ 100) :
    setSamplingArgs p t m g =
      some (.setSampling
        { period := 50 * p.toNat, timeout := t.toNat, muteCount := m.toNat, guard := g.toNat }) := by
  simp [setSamplingArgs, rangeArg_of_le p1 p2, rangeArg_of_le t1 t2, rangeArg_of_le m1 m2,
    rangeArg_of_le (Nat.zero_le _) g2]

theorem setJudgingArgs_of_range {a b l : Byte} (a1 : 1 ≤ a.toNat) (a2 : a.toNat ≤ 15) (b1 : 1 ≤ b.toNat)
    (b2 : b.toNat ≤ 15) (l2 : l.toNat ≤ 31) :
    setJudgingArgs a b l =
      some (.setJudging { confirm := a.toNat, clear := b.toNat, latched := l.setWidth 5 }) := by
  simp [setJudgingArgs, rangeArg_of_le a1 a2, rangeArg_of_le b1 b2, rangeArg_of_le (Nat.zero_le _) l2,
    BitVec.ofNat_toNat]

/-! ## Levels worked out again -/

theorem setSeverityArgs_of_range {f v : Byte} {function : Fin 8} (names : f.toNat = function.val) (low : 1 ≤ v.toNat)
    (high : v.toNat ≤ 7) : setSeverityArgs f v = some (.setSeverity function v.toNat) := by
  simp [setSeverityArgs, indexArg_of_eq names, rangeArg_of_le low high]

theorem setLevelsArgs_of_range {p d : Byte} (p1 : 1 ≤ p.toNat) (p2 : p.toNat ≤ 7) (d1 : 1 ≤ d.toNat)
    (d2 : d.toNat ≤ 7) : setLevelsArgs p d = some (.setLevels p.toNat d.toNat) := by
  simp [setLevelsArgs, rangeArg_of_le p1 p2, rangeArg_of_le d1 d2]

theorem State.relevel_eq (s : State) (which : Notice → Bool) :
    s.relevel which =
      s.updNotices fun n =>
        { n with
          queue :=
            n.queue.map fun x =>
              if x.service = .pending ∧ which x = true then { x with level := s.level x.subject x.kind } else x } := by
  simp only [State.relevel, Bool.and_eq_true, beq_iff_eq]

theorem Notice.dependsOnLevels_eq (x : Notice) :
    x.dependsOnLevels =
      [NoticeKind.position .silent, .position .mute, .position .linkFault, .position .detectMissing].contains x.kind := by
  cases kind : x.kind with
  | position c => cases c <;> simp only [Notice.dependsOnLevels, kind] <;> rfl
  | _ => simp only [Notice.dependsOnLevels, kind]; rfl

theorem State.dependsOnSeverity_eq (s : State) (f : Fin 8) (x : Notice) :
    s.dependsOnSeverity f x =
      (x.kind != .cleared &&
        match x.subject with
        | .circuit p c => (s.circuit p c).any fun r => r.feed == f
        | .feed g => g == f
        | .position _ => false) := by
  refine congrArg (x.kind != .cleared && ·) ?_
  cases x.subject with
  | circuit p c =>
    dsimp only
    cases s.circuit p c <;> rfl
  | feed g => rfl
  | position p => rfl

end Sys2Proof.Machine

open Sys2Proof Sys2Proof.Machine

/-- Settles O50. -/
theorem setModeAndSetDim : Obligations.SetModeAndSetDim := by
  intro s f function ready names written
  have mode (m g : Byte) (mode : Mode) (given : modeArg m g = some mode) :
      exec (.setMode f m g) s = .next (written mode) :=
    exec_alone_unclaimed ready rfl (setModeArgs_of_mode names given) rfl (s.served.setFunctionMode_eq function mode) rfl rfl
  exact ⟨fun g => mode 0 g .off rfl, fun g => mode 1 g .on rfl, fun g generator is => mode 2 g _ (modeArg_cadence is),
    fun duty low high => exec_alone_unclaimed ready rfl (setDimArgs_of_range names low high) rfl
      (s.served.setFunctionMode_eq function (.dim duty.toNat)) rfl rfl⟩

/-- Settles O51. -/
theorem cadenceCommands : Obligations.CadenceCommands := by
  refine fun s ready => ⟨fun g lo hi n w generator width names low high steps => ⟨fun unused => ?_, fun used => ?_⟩,
    fun set low => ?_⟩
  · have args := setCadenceArgs_of_range (lo := lo) (hi := hi) names low high steps
    refine exec_alone_unclaimed ready rfl args rfl (if_neg fun used => ?_) rfl rfl
    obtain ⟨f, names⟩ := (s.inUse_iff generator).1 used
    exact unused f names
  · have args := setCadenceArgs_of_range (lo := lo) (hi := hi) names low high steps
    exact exec_alone_unclaimed ready rfl args rfl (if_pos ((s.inUse_iff generator).2 used)) rfl rfl
  · refine exec_alone_unclaimed ready rfl (restartCadencesArgs_of_range low) rfl ?_ rfl rfl
    refine (s.served.restartGenerators_eq _).trans ?_
    simp only [getLsbD_ofNat_toNat]
    rfl

/-- Settles O52. -/
theorem overrideAndSettings : Obligations.OverrideAndSettings := by
  refine fun s ready => ⟨fun i set input names => ?_, fun p t m g p1 p2 t1 t2 m1 m2 g2 => ?_,
    fun a b l a1 a2 b1 b2 l2 => ?_⟩
  · have args : setOverrideArgs i set = some (.setOverride input set) := by simp [setOverrideArgs, indexArg_of_eq names]
    exact exec_alone_unclaimed ready rfl args rfl (State.resolveWhere_eq _ _) rfl rfl
  · exact exec_alone_unclaimed ready rfl (setSamplingArgs_of_range p1 p2 t1 t2 m1 m2 g2) rfl rfl rfl rfl
  · exact exec_alone_unclaimed ready rfl (setJudgingArgs_of_range a1 a2 b1 b2 l2) rfl rfl rfl rfl

/-- Settles O53. -/
theorem severityAndLevels : Obligations.SeverityAndLevels := by
  intro s ready relevelled
  refine ⟨fun f v function names low high => ?_, fun p d p1 p2 d1 d2 => ?_⟩
  · refine exec_alone_unclaimed ready rfl (setSeverityArgs_of_range names low high) rfl ?_ rfl rfl
    refine (State.relevel_eq _ _).trans ?_
    simp only [State.dependsOnSeverity_eq]
    rfl
  · refine exec_alone_unclaimed ready rfl (setLevelsArgs_of_range p1 p2 d1 d2) rfl ?_ rfl rfl
    refine (State.relevel_eq _ _).trans ?_
    simp only [Notice.dependsOnLevels_eq]
    rfl

end

section
/-! SUPPORT. SYNC, RESTART and the entry to REST. -/

namespace Sys2Proof.Machine

variable {s : State}

/-! ## SYNC -/

theorem byte_bit (b : Bool) : byte (bit b) = if b then 1 else 0 := by
  cases b <;> rfl

theorem errorRecord_eq (error : Option DeferredError) :
    errorRecord error =
      match error with
      | some e => [byte e.kind.code, e.code, e.sequence, if e.more then 1 else 0]
      | none => [0, 0, 0, 0] := by
  cases error with
  | none => rfl
  | some e => exact congrArg (fun more => [byte e.kind.code, e.code, e.sequence, more]) (byte_bit e.more)

theorem exec_sync_of_awake (awake : s.Awake) : exec .sync s = .next s.sync := by
  obtain ⟨released, running⟩ := awake
  rw [exec_eq_sync, event_of_released released, State.wakeIfResting_of_run running]

theorem State.sync_of_queue {head : Posted} {rest : List Posted} (queue : s.port.queue = head :: rest) :
    s.sync = s.repliedLighting [0x82, byte (rest.length + 1), head.sequence, 0, 0] := by
  simp only [State.sync, State.syncReply, queue, List.isEmpty_cons, Bool.false_eq_true, if_false]
  rfl

theorem State.sync_of_empty (empty : s.port.queue = []) :
    s.sync =
      { s with
        port :=
          { s.port with lightingReply := 0x80 :: errorRecord s.port.error, lcs := .taken none, error := none } } := by
  have none : s.port.queue.isEmpty = true := List.isEmpty_iff.2 empty
  have replied : s.syncReply = reply .ok (errorRecord s.port.error) := by simp only [State.syncReply, empty]
  simp only [State.sync, replied, none, if_true]
  rfl

/-! ## RESTART -/

theorem exec_restart_of_awake (awake : s.Awake) :
    exec .restart s = .next (s.restartBlocks.answerLighting none s.restartReply) := by
  obtain ⟨released, running⟩ := awake
  rw [exec_eq_restart, event_of_released released, State.wakeIfResting_of_run running]

/-- A channel after RESTART holds the RECALL of its position alone (R44, R66). -/
theorem Channel.restart_offered (c : Channel) (reads : Bool) :
    (if reads then c.restart.offered .recall else c.restart) =
      { c with queue := if reads = true ∧ c.enabled = true then [.recall] else [], attempts := 0, streak := 0 } := by
  cases reads <;> cases on : c.enabled <;> simp [Channel.restart, Channel.offered, Channel.accepts, on]

/-- The blocks after RESTART (R83, R148, R149). -/
theorem State.restartBlocks_eq (s : State) :
    s.restartBlocks =
      { s.cleared with
        positions := s.positions.map fun _ r => r.restart.evaluated
        link :=
          { s.cleared.link with
            channels :=
              s.link.channels.map fun p c =>
                { c with
                  queue := if (s.positions.get p).reads = true ∧ c.enabled = true then [.recall] else []
                  attempts := 0
                  streak := 0 } } } := by
  rw [State.restartBlocks, State.foldl_evaluatePosition]
  simp only [← Channel.restart_offered]
  rfl

/-! ## The entry to REST -/

theorem Mode.refusesRest_iff (m : Mode) :
    m.refusesRest = true ↔ (∃ g, m = .cadence g) ∨ ∃ duty, m = .dim duty := by
  cases m <;> simp [Mode.refusesRest]

theorem State.restRefused_iff (s : State) :
    s.restRefused = true ↔
      ∃ f, (∃ g, (s.drive.functions.get f).mode = .cadence g) ∨ ∃ duty, (s.drive.functions.get f).mode = .dim duty := by
  simp only [State.restRefused, List.any_eq_true, Eight.mem_toList, Mode.refusesRest_iff]
  exact ⟨fun ⟨_, ⟨f, same⟩, refuses⟩ => ⟨f, same ▸ refuses⟩, fun ⟨f, refuses⟩ => ⟨_, ⟨f, rfl⟩, refuses⟩⟩

theorem State.refuse_served (s : State) (kind : ErrorKind) (command : PostedCommand) :
    s.served.refuse kind { command := command, sequence := s.port.nextSeq } =
      s.servedWithError kind command.code := rfl

/-- The entry to REST from a state that has nothing to claim (R174). -/
theorem State.enterRest_of_quiet (quiet : s.Quiet) (lcs : Transaction) :
    ({ s.settle.enterRest with port := { s.port with lcs := lcs }, freeIndex := s.freeIndex + 1 } : State) =
      { s.parkedFrom with port := { s.port with lcs := lcs } } := by
  rw [s.settle_of_quiet quiet]
  rfl

/-- The lighting transaction that the entry to REST finds (R137, R174; log 8, log 27). -/
theorem Transaction.atRest_eq (t : Transaction) (sequence : BitVec 8) (still : Bool) :
    t.atRest sequence still =
      match t with
      | .idle => .idle
      | .opened => if still then .opened else .idle
      | .taken carried => if carried = some sequence then .taken carried else if still then .taken carried else .idle := by
  cases t with
  | idle => rfl
  | opened => rfl
  | taken carried =>
    by_cases own : carried = some sequence
    · exact (if_pos (.inl own)).trans (if_pos own).symm
    · exact (ite_eq_ite_of_iff (or_iff_right own) rfl rfl).trans (if_neg own).symm

theorem Transaction.otherAsserted_iff (t : Transaction) (sequence : BitVec 8) :
    t.otherAsserted sequence = true ↔
      t = .opened ∨ ∃ carried, t = .taken carried ∧ carried ≠ some sequence := by
  cases t <;> simp [Transaction.otherAsserted]

theorem Transaction.otherAsserted_eq_false {t : Transaction} {sequence : BitVec 8}
    (own : t = .idle ∨ t = .taken (some sequence)) : t.otherAsserted sequence = false := by
  rcases own with rfl | rfl <;> simp [Transaction.otherAsserted]

section Quiet

variable (quiet : s.Quiet) (sequence : BitVec 8)
include quiet

/-- REST that does not stand alone passes at once (R142, R178). -/
theorem State.restOrPass_of_other
    (passes : s.port.queue ≠ [] ∨
      (s.port.lcs.atRest sequence (Config.lcsStillAsserted s.freeIndex)).otherAsserted sequence = true) :
    s.restOrPass sequence =
      State.wake
        { s.parkedFrom with
          port := { s.port with lcs := s.port.lcs.atRest sequence (Config.lcsStillAsserted s.freeIndex) } }
        0 := by
  rw [← State.enterRest_of_quiet quiet]
  exact if_pos (by simpa using passes)

theorem State.restOrPass_of_alone (empty : s.port.queue = [])
    (alone : (s.port.lcs.atRest sequence (Config.lcsStillAsserted s.freeIndex)).otherAsserted sequence = false) :
    s.restOrPass sequence =
      { s.parkedFrom with
        port := { s.port with lcs := s.port.lcs.atRest sequence (Config.lcsStillAsserted s.freeIndex) } } := by
  rw [← State.enterRest_of_quiet quiet]
  exact if_neg (by simp [empty, alone])

end Quiet

theorem State.parkedFrom_quiet (quiet : s.Quiet) : s.parkedFrom.Quiet := by
  refine quiet.of_heads (fun p => ?_) (fun p => ?_) rfl
  · simp only [State.parkedFrom, Four.get_map]
    split <;> rfl
  · simp only [State.parkedFrom, Four.get_map]
    split <;> rfl

/-- A REST that arrives alone parks the part (R174). -/
theorem State.restOrPass_served (ready : s.Ready) : s.served.restOrPass s.port.nextSeq = s.served.parkedFrom := by
  obtain ⟨-, quiet, empty⟩ := ready
  have own : s.served.port.lcs.atRest s.port.nextSeq (Config.lcsStillAsserted s.freeIndex) =
      .taken (some s.port.nextSeq) := if_pos (.inl rfl)
  have alone := Transaction.otherAsserted_eq_false (sequence := s.port.nextSeq) (.inr own)
  refine (State.restOrPass_of_alone (s := s.served) (quiet.of_eq rfl rfl) s.port.nextSeq empty alone).trans ?_
  change ({ s.served.parkedFrom with
    port := { s.served.port with
      lcs := s.served.port.lcs.atRest s.port.nextSeq (Config.lcsStillAsserted s.freeIndex) } } : State) = _
  rw [own]
  rfl

end Sys2Proof.Machine

open Sys2Proof Sys2Proof.Machine

/-- Settles O58. -/
theorem sync : Obligations.Sync := by
  refine ⟨fun s awake => ?_, rfl, rfl, rfl, rfl⟩
  rw [exec_sync_of_awake awake]
  refine ⟨fun head rest queue => by rw [State.sync_of_queue queue], fun empty => ?_⟩
  rw [State.sync_of_empty empty]
  refine ⟨fun none => ?_, fun e held => ?_⟩
  · rw [none]
    rfl
  · rw [held, errorRecord_eq]

/-- Settles O59. -/
theorem restart : Obligations.Restart := by
  intro s awake
  rw [exec_restart_of_awake awake, s.restartBlocks_eq, State.restartReply, errorRecord_eq]
  rfl

/-- Settles O57. -/
theorem enterRest : Obligations.EnterRest := by
  refine ⟨fun s ready idle => ?_, fun s sequence quiet => ?_⟩
  · have ⟨_, quiet, _⟩ := ready
    have free : s.waits .rest = false := by simp [State.waits, idle]
    intro refused
    refine ⟨fun refuses => ?_, fun enters => ?_⟩
    · exact exec_alone_unclaimed ready rfl rfl free
        ((if_pos (s.restRefused_iff.2 refuses)).trans (s.refuse_served .restRefused .rest)) rfl rfl
    · have effect : s.served.execute { command := .rest, sequence := s.port.nextSeq } = s.served.parkedFrom :=
        (if_neg (mt s.restRefused_iff.1 enters)).trans (State.restOrPass_served ready)
      have parked : s.served.parkedFrom.Quiet := State.parkedFrom_quiet (quiet.of_eq rfl rfl)
      rw [exec_alone .rest s .rest ready rfl rfl free, effect, State.settle_of_quiet _ parked]
  · intro still lcs parked
    have atRest : s.port.lcs.atRest sequence still = lcs := Transaction.atRest_eq _ _ _
    refine ⟨fun passes => ?_, fun empty own => ?_⟩
    · have other := passes.imp_right fun asserted => (Transaction.otherAsserted_iff lcs sequence).2 asserted
      rw [← atRest] at other
      exact (State.restOrPass_of_other quiet sequence other).trans
        (congrArg (fun lcs => State.wake { s.parkedFrom with port := { s.port with lcs := lcs } } 0) atRest)
    · have alone := Transaction.otherAsserted_eq_false own
      rw [← atRest] at alone
      exact (State.restOrPass_of_alone quiet sequence empty alone).trans
        (congrArg (fun lcs => ({ s.parkedFrom with port := { s.port with lcs := lcs } } : State)) atRest)

end

section
/-! SUPPORT. SET_COUPLING: the settings of a position, and the words that a disabled channel gives up. -/

namespace Sys2Proof.Machine

variable {s : State} {p : Fin 4}

/-! ## The words of a disabled channel -/

/-- The samples without the QUEUED records whose SAMPLE is among the words (R89). -/
def Sampling.withoutQueued (words : List LinkWord) (m : Sampling) : Sampling :=
  { m with list := m.list.filter fun x => !(x.outstanding.isNone && words.contains (.sample x.tag)) }

/-- The position once a WELCOME among the words has not been sent (R73). -/
def Position.welcomeUnsent (words : List LinkWord) (r : Position) : Position :=
  if r.state.accepted = true ∧ r.welcome = .waiting ∧ ∃ q, LinkWord.welcome q ∈ words then
    { r with welcome := .owed, enrollTimer := some r.enrollTimeout }
  else r

/-- The state once the words are reported as failed sends of p (R39). -/
def State.unsent (s : State) (p : Fin 4) (words : List LinkWord) : State :=
  { s with
    samples := s.samples.modify p (Sampling.withoutQueued words)
    positions := s.positions.modify p (Position.welcomeUnsent words) }

theorem Sampling.withoutQueued_of_none {words : List LinkWord} (none : ∀ tag, LinkWord.sample tag ∉ words)
    (m : Sampling) : m.withoutQueued words = m := by
  have absent (tag : BitVec 4) : words.contains (.sample tag) = false := by
    simpa using none tag
  simp only [Sampling.withoutQueued, absent, Bool.and_false, Bool.not_false]
  rw [List.filter_eq_self.2 fun _ _ => rfl]

theorem Position.welcomeUnsent_of_none {words : List LinkWord} (none : ∀ q, LinkWord.welcome q ∉ words) (r : Position) :
    r.welcomeUnsent words = r :=
  if_neg fun ⟨_, _, q, sent⟩ => none q sent

theorem Sampling.withoutQueued_cons (w : LinkWord) (words : List LinkWord) (m : Sampling) :
    (m.withoutQueued [w]).withoutQueued words = m.withoutQueued (w :: words) := by
  simp only [Sampling.withoutQueued, List.filter_filter, Sampling.mk.injEq, and_true]
  refine List.filter_congr fun x _ => ?_
  cases x.outstanding.isNone <;> simp [Bool.and_comm]

theorem Position.welcomeUnsent_cons (w : LinkWord) (words : List LinkWord) (r : Position) :
    (r.welcomeUnsent [w]).welcomeUnsent words = r.welcomeUnsent (w :: words) := by
  by_cases waits : r.state.accepted = true ∧ r.welcome = .waiting
  · by_cases first : ∃ q, LinkWord.welcome q = w
    · obtain ⟨q, rfl⟩ := first
      simp [Position.welcomeUnsent, waits]
    · simp only [not_exists] at first
      simp [Position.welcomeUnsent, waits, first]
  · have still (words : List LinkWord) : r.welcomeUnsent words = r :=
      if_neg fun ⟨accepted, waiting, _⟩ => waits ⟨accepted, waiting⟩
    rw [still, still, still]

theorem State.unsent_nil (s : State) (p : Fin 4) : s.unsent p [] = s := by
  rw [State.unsent, Four.modify_eq_self _ _ _ (Sampling.withoutQueued_of_none (by simp) _),
    Four.modify_eq_self _ _ _ (Position.welcomeUnsent_of_none (by simp) _)]

theorem State.unsent_cons (s : State) (p : Fin 4) (w : LinkWord) (words : List LinkWord) :
    (s.unsent p [w]).unsent p words = s.unsent p (w :: words) := by
  simp only [State.unsent, Four.modify_modify]
  rw [← funext (Sampling.withoutQueued_cons w words), ← funext (Position.welcomeUnsent_cons w words)]
  rfl

/-- The report of one failed send (R39). -/
theorem State.reportFailed_eq (s : State) (p : Fin 4) (w : LinkWord) : s.reportFailed p w = s.unsent p [w] := by
  have stays (samples : ∀ m, Sampling.withoutQueued [w] m = m) (welcome : ∀ r, Position.welcomeUnsent [w] r = r) :
      s.unsent p [w] = s := by
    rw [State.unsent, Four.modify_eq_self _ _ _ (samples _), Four.modify_eq_self _ _ _ (welcome _)]
  cases w with
  | sample tag =>
    have queued (m : Sampling) :
        m.withoutQueued [.sample tag] = { m with list := m.list.filter fun x => !x.queuedAs tag } := by
      refine congrArg (fun list => { m with list := list }) (List.filter_congr fun x _ => ?_)
      by_cases same : x.tag = tag <;> simp [SampleRecord.queuedAs, same]
    rw [State.unsent, Four.modify_eq_self _ _ _ (Position.welcomeUnsent_of_none (by simp) _), funext queued]
    rfl
  | welcome q =>
    rw [State.reportFailed, State.welcomeFailed_eq, State.unsent,
      Four.modify_eq_self _ _ _ (Sampling.withoutQueued_of_none (by simp) _)]
    split
    · rename_i waits
      have owed : (s.positions.get p).welcomeUnsent [.welcome q] =
          { s.positions.get p with welcome := .owed, enrollTimer := some (s.positions.get p).enrollTimeout } :=
        if_pos ⟨waits.1, waits.2, q, List.mem_singleton_self _⟩
      simp only [Four.modify, owed]
    · rename_i idle
      have stays : (s.positions.get p).welcomeUnsent [.welcome q] = s.positions.get p :=
        if_neg fun ⟨accepted, waiting, _⟩ => idle ⟨accepted, waiting⟩
      rw [Four.modify_eq_self _ _ _ stays]
  | _ => exact (stays (Sampling.withoutQueued_of_none (by simp)) (Position.welcomeUnsent_of_none (by simp))).symm

theorem State.foldl_reportFailed (p : Fin 4) (words : List LinkWord) (s : State) :
    words.foldl (fun s w => s.reportFailed p w) s = s.unsent p words := by
  induction words generalizing s with
  | nil => exact (s.unsent_nil p).symm
  | cons w words ih => rw [List.foldl_cons, ih, State.reportFailed_eq, State.unsent_cons]

/-! ## The channel enable (R23) -/

theorem State.setChannelEnable_of_same {on : Bool} (same : (s.link.channels.get p).enabled = on) :
    s.setChannelEnable p on = s := if_pos same

theorem State.setChannelEnable_on (off : (s.link.channels.get p).enabled = false) :
    s.setChannelEnable p true = s.updChannel p fun c => { c with enabled := true } :=
  (if_neg (by simp [off])).trans (if_pos rfl)

theorem State.setChannelEnable_off (on : (s.link.channels.get p).enabled = true) :
    s.setChannelEnable p false =
      (s.updChannel p fun c => { c with enabled := false, queue := [], attempts := 0 }).unsent p
        (s.link.channels.get p).queue := by
  rw [← State.foldl_reportFailed]
  exact (if_neg (by simp [on])).trans (if_neg Bool.false_ne_true)

/-! ## The settings (R64) -/

theorem Position.withPolarity_eq (r : Position) (polarity level : Bool) :
    r.withPolarity polarity level =
      { r with
        coupledHigh := polarity
        coupleEdge := if r.coupledHigh = polarity then r.coupleEdge else false
        uncoupleEdge := if r.coupledHigh = polarity then r.uncoupleEdge else false
        filterCount := if r.coupledHigh = polarity then r.filterCount else 0
        detect := if r.coupledHigh = polarity then r.detect else level } := by
  by_cases same : r.coupledHigh = polarity
  · subst same
    simp [Position.withPolarity]
  · simp [Position.withPolarity, same]

/-- The state with the settings of SET_COUPLING written, but the channel enable. -/
def State.withCoupling (s : State) (p : Fin 4) (polarity wakeEnable : Bool) (enrollTimeout holdTime : Nat) : State :=
  { s with
    holdTime := holdTime
    positions :=
      s.positions.modify p fun r =>
        { r with
          coupledHigh := polarity
          coupleEdge := if r.coupledHigh = polarity then r.coupleEdge else false
          uncoupleEdge := if r.coupledHigh = polarity then r.uncoupleEdge else false
          filterCount := if r.coupledHigh = polarity then r.filterCount else 0
          detect := if r.coupledHigh = polarity then r.detect else s.cd.get p
          wakeEnable := wakeEnable
          enrollTimeout := enrollTimeout } }

theorem State.setCouplingOf_eq (s : State) (p : Fin 4) (polarity wakeEnable on : Bool) (enrollTimeout holdTime : Nat) :
    s.setCouplingOf p polarity wakeEnable on enrollTimeout holdTime =
      (s.withCoupling p polarity wakeEnable enrollTimeout holdTime).setChannelEnable p on := by
  simp only [State.setCouplingOf, Position.withPolarity_eq]
  rfl

theorem State.withCoupling_quiet (quiet : s.Quiet) (polarity wakeEnable : Bool) (enrollTimeout holdTime : Nat) :
    (s.withCoupling p polarity wakeEnable enrollTimeout holdTime).Quiet := by
  refine quiet.of_heads (fun q => ?_) (fun q => ?_) rfl
  · simp only [State.withCoupling, Four.get_modify]
    split <;> rfl
  · simp only [State.withCoupling, Four.get_modify]
    split <;> rfl

theorem State.unsent_quiet (quiet : s.Quiet) (words : List LinkWord) : (s.unsent p words).Quiet := by
  refine quiet.of_heads (fun q => ?_) (fun q => ?_) rfl
  · simp only [State.unsent, Four.get_modify, Position.welcomeUnsent]
    split
    · split <;> rfl
    · rfl
  · simp only [State.unsent, Four.get_modify, Position.welcomeUnsent]
    split
    · split <;> rfl
    · rfl

theorem State.setChannelEnable_quiet (quiet : s.Quiet) (on : Bool) : (s.setChannelEnable p on).Quiet := by
  by_cases same : (s.link.channels.get p).enabled = on
  · rw [State.setChannelEnable_of_same same]
    exact quiet
  · cases on with
    | true =>
      rw [State.setChannelEnable_on (by simpa using same)]
      exact quiet
    | false =>
      rw [State.setChannelEnable_off (by simpa using same)]
      exact State.unsent_quiet (s := s.updChannel p _) quiet _

/-- SET_COUPLING does not wait for a channel that is not active, nor where it was under way (R23, R27). -/
theorem State.waits_setCoupling (s : State) (p : Fin 4) (a b on : Bool) (e h : Nat)
    (free : s.link.engine.activeOn p = false ∨
        (s.link.engine = .rxActive p ∧ s.link.timer = 4000 ∧ (s.link.channels.get p).enabled = true ∧
          on = false ∧ Config.disableUnderWay s.freeIndex = true)) :
    s.waits (.setCoupling p a b on e h) = false := by
  rcases free with inactive | ⟨receives, timer, enabled, off, underWay⟩
  · simp [State.waits, inactive]
  · simp [State.waits, State.disableUnderWay, receives, timer, enabled, off, underWay, Config.wordLimit]

theorem setCouplingArgs_of_range {b flags e h : Byte} (names : b.toNat = p.val + 1) (low : flags.toNat ≤ 7)
    (e1 : 1 ≤ e.toNat) (e2 : e.toNat ≤ 16) :
    setCouplingArgs b flags e h =
      some (.setCoupling p (flags.getLsbD 0) (flags.getLsbD 1) (flags.getLsbD 2) (250000 * e.toNat) h.toNat) := by
  simp only [setCouplingArgs, positionArg_of_eq names, rangeArg_of_le (Nat.zero_le _) low, rangeArg_of_le e1 e2,
    Option.bind_eq_bind, Option.bind_some]
  rfl

theorem State.couplingRefused_iff (s : State) (p : Fin 4) (polarity : Bool) :
    s.couplingRefused p polarity = true ↔
      (s.positions.get p).coupledHigh ≠ polarity ∧ (s.positions.get p).state ≠ .vacant := by
  simp [State.couplingRefused]

end Sys2Proof.Machine

open Sys2Proof Sys2Proof.Machine

/-- Settles O54. -/
theorem setCoupling : Obligations.SetCoupling := by
  intro s b flags e h p ready names low e1 e2 free r c polarity on settings command
  have ⟨_, quiet, _⟩ := ready
  have args := setCouplingArgs_of_range (h := h) names low e1 e2
  have runs := s.waits_setCoupling p polarity (flags.getLsbD 1) on (250000 * e.toNat) h.toNat free
  refine ⟨fun changes placed => ?_, fun taken => ?_⟩
  · exact exec_alone_unclaimed ready rfl args runs
      ((if_pos ((s.couplingRefused_iff p polarity).2 ⟨changes, placed⟩)).trans (s.refuse_served .stateRefused _)) rfl rfl
  · have unrefused : ¬ s.couplingRefused p polarity = true := fun refused =>
      taken.elim ((s.couplingRefused_iff p polarity).1 refused).1 ((s.couplingRefused_iff p polarity).1 refused).2
    have written : settings.Quiet := State.withCoupling_quiet (s := s.served) (quiet.of_eq rfl rfl) _ _ _ _
    have effect : s.served.execute
        { command := .setCoupling p polarity (flags.getLsbD 1) on (250000 * e.toNat) h.toNat,
          sequence := s.port.nextSeq } = settings.setChannelEnable p on :=
      (if_neg unrefused).trans (s.served.setCouplingOf_eq p _ _ _ _ _)
    have ends : command = .next (settings.setChannelEnable p on) := by
      rw [← State.settle_of_quiet _ (State.setChannelEnable_quiet written on), ← effect]
      exact exec_alone _ s _ ready rfl args runs
    refine ⟨fun same => ?_, fun off turned => ?_, fun enabled turned => ?_⟩
    · rw [ends, State.setChannelEnable_of_same (s := settings) (p := p) same]
    · rw [ends, turned, State.setChannelEnable_on (s := settings) (p := p) off]
      rfl
    · rw [ends, turned, State.setChannelEnable_off (s := settings) (p := p) enabled]
      rfl

end

section
/-! SUPPORT. RELEASE: the release of one latched fault, and that a release of all leaves none. -/

namespace Sys2Proof.Machine

variable {s t : State} {p : Fin 4} {c : Fin 12} {r : Circuit}

theorem Circuit.isLatched_iff (j : Judging) (r : Circuit) :
    r.isLatched j = true ↔ ∃ k candidate hold, r.verdict = .fault k candidate hold ∧ j.isLatched k = true := by
  cases state : r.verdict <;> simp [Circuit.isLatched, state]

/-! ## One circuit (R113) -/

theorem State.releaseAt_of_latched (here : s.circuit p c = some r) (latched : r.isLatched s.judging = true) :
    s.releaseAt p c =
      ((s.setCircuit p c { r with verdict := .unseen, streak := 0 }).resolve (.circuit p c)).pass r.feed p.val none := by
  obtain ⟨k, candidate, hold, fault, -⟩ := (r.isLatched_iff _).1 latched
  simp only [State.releaseAt, here, latched, if_true, State.applyVerdict, State.verdictClaim, fault, Verdict.faultKind,
    Verdict.named, Option.isSome_some]
  rfl

theorem State.releaseAt_of_unlatched (unlatched : ∀ r, s.circuit p c = some r → r.isLatched s.judging = false) :
    s.releaseAt p c = s := by
  cases here : s.circuit p c with
  | none => simp only [State.releaseAt, here]
  | some r => simp only [State.releaseAt, here, unlatched r here, Bool.false_eq_true, if_false]

theorem State.latchedAt_of_latched (here : s.circuit p c = some r) (latched : r.isLatched s.judging = true) :
    s.latchedAt p c = true := by
  simp only [State.latchedAt, here, latched]

theorem State.latchedAt_of_unlatched (unlatched : ∀ r, s.circuit p c = some r → r.isLatched s.judging = false) :
    s.latchedAt p c = false := by
  cases here : s.circuit p c with
  | none => simp only [State.latchedAt, here]
  | some r => simp only [State.latchedAt, here, unlatched r here]

/-- The release of one address, with the claim and the pass written out (R113). -/
theorem State.releaseAt_eq (s : State) (p : Fin 4) (c : Fin 12) :
    s.releaseAt p c =
      match s.circuit p c with
      | none => s
      | some r =>
        match r.verdict with
        | .fault k _ _ =>
          if s.judging.isLatched k then
            ((s.setCircuit p c { r with verdict := .unseen, streak := 0 }).resolve (.circuit p c)).pass r.feed p.val none
          else s
        | _ => s := by
  cases here : s.circuit p c with
  | none => exact State.releaseAt_of_unlatched fun r other => by simp [here] at other
  | some r =>
    by_cases latched : r.isLatched s.judging = true
    · obtain ⟨k, candidate, hold, fault, counts⟩ := (r.isLatched_iff _).1 latched
      rw [State.releaseAt_of_latched here latched]
      simp only [fault, counts, if_true]
    · have unlatched : s.releaseAt p c = s := State.releaseAt_of_unlatched fun r' here' => by
        rw [here, Option.some.injEq] at here'
        rw [← here']
        exact Bool.eq_false_iff.2 latched
      rw [unlatched]
      dsimp only
      cases state : r.verdict with
      | fault k candidate hold =>
        exact (if_neg fun counts => latched ((r.isLatched_iff _).2 ⟨k, candidate, hold, state, counts⟩)).symm
      | _ => rfl

/-! ## What is still latched -/

/-- Every latched fault lies at one of the addresses left. -/
def State.LatchedWithin (s : State) (left : Fin 4 → Fin 12 → Prop) : Prop :=
  (∀ p, (s.circuits.get p).length ≤ 12) ∧
    ∀ p c r, s.circuit p c = some r → r.isLatched s.judging = true → left p c

variable {left : Fin 4 → Fin 12 → Prop}

/-- What maps the records of each position and latches none keeps the bound. -/
theorem State.LatchedWithin.of_map (h : s.LatchedWithin left) (judging : t.judging = s.judging)
    (mapped : ∀ p, ∃ g : Circuit → Circuit, t.circuits.get p = (s.circuits.get p).map g ∧
      ∀ r, (g r).isLatched s.judging = true → r.isLatched s.judging = true) : t.LatchedWithin left := by
  obtain ⟨few, within⟩ := h
  refine ⟨fun p => ?_, fun p c r here latched => ?_⟩
  · obtain ⟨g, records, -⟩ := mapped p
    rw [records, List.length_map]
    exact few p
  · obtain ⟨g, records, unlatch⟩ := mapped p
    rw [State.circuit, records, List.getElem?_map, Option.map_eq_some_iff] at here
    obtain ⟨old, before, rfl⟩ := here
    rw [judging] at latched
    exact within p c old before (unlatch old latched)

theorem State.LatchedWithin.of_eq (h : s.LatchedWithin left) (judging : t.judging = s.judging)
    (circuits : t.circuits = s.circuits) : t.LatchedWithin left :=
  h.of_map judging fun p => ⟨id, by rw [circuits, List.map_id], fun _ => id⟩

theorem judging_of_outsideClaims (same : t.outsideClaims = s.outsideClaims) : t.judging = s.judging := by
  rw [t.eq_of_outsideClaims same]

theorem Circuit.shadowedBy_latched (f : Fin 8) (j : Judging) (r : Circuit) :
    (r.shadowedBy f).isLatched j = true → r.isLatched j = true := by
  unfold Circuit.shadowedBy
  split
  · exact fun latched => absurd latched Bool.false_ne_true
  · exact id

theorem Circuit.heldBy_latched (f : Fin 8) (outcome : Hold) (j : Judging) (r : Circuit) :
    (r.heldBy f outcome).isLatched j = true → r.isLatched j = true := by
  unfold Circuit.heldBy
  split
  · cases state : r.verdict <;> simp [Circuit.isLatched, state]
  · exact id

theorem State.LatchedWithin.setCondition (h : s.LatchedWithin left) (f : Fin 8) (after : FeedCondition) :
    (s.setCondition f after).LatchedWithin left := by
  refine h.of_map (judging_of_outsideClaims (s.setCondition_outsideClaims f after)) fun p => ?_
  rw [s.setCondition_circuits f after p (h.1 p)]
  split
  · exact ⟨_, rfl, Circuit.shadowedBy_latched f _⟩
  · exact ⟨id, (List.map_id _).symm, fun _ => id⟩

theorem State.LatchedWithin.holdOutcomes (h : s.LatchedWithin left) (f : Fin 8) (p : Fin 4) (outcome : Hold) :
    (s.holdOutcomes f p outcome).LatchedWithin left := by
  refine h.of_map (judging_of_outsideClaims (s.holdOutcomes_outsideClaims f p outcome)) fun q => ?_
  rw [s.holdOutcomes_circuits f p outcome (h.1 p), Four.get_modify]
  by_cases same : q = p
  · rw [if_pos same, same]
    exact ⟨_, rfl, Circuit.heldBy_latched f outcome _⟩
  · rw [if_neg same]
    exact ⟨id, (List.map_id _).symm, fun _ => id⟩

theorem State.LatchedWithin.evaluate (h : s.LatchedWithin left) (f : Fin 8) (p : Fin 4) :
    (s.evaluate f p).LatchedWithin left :=
  Moves.choose (P := fun s => s.LatchedWithin left) (h.holdOutcomes f p .local)
    (Moves.choose (P := fun s => s.LatchedWithin left)
      (Moves.choose (P := fun s => s.LatchedWithin left) (h.setCondition f _) (h.holdOutcomes f p .deferred))
      (h.holdOutcomes f p .deferred))

theorem State.LatchedWithin.pass (h : s.LatchedWithin left) (f : Fin 8) (start : Nat) (entry : Option (Fin 4)) :
    (s.pass f start entry).LatchedWithin left :=
  Moves.fold (P := fun s => s.LatchedWithin left) _
    (fun _ r h => Moves.choose (P := fun s => s.LatchedWithin left) (h.evaluate f r) h) _ h

/-- The record at an address after a write to another one. -/
theorem State.circuit_setCircuit_of_ne {q : Fin 4} {d : Fin 12} (other : ¬(q = p ∧ d = c)) :
    (s.setCircuit p c r).circuit q d = s.circuit q d := by
  simp only [State.circuit, State.setCircuit, State.setCircuits]
  by_cases position : q = p
  · subst position
    have index : c.val ≠ d.val := fun same => other ⟨rfl, (Fin.ext same).symm⟩
    rw [Four.get_set_self, List.getElem?_set_ne index]
  · rw [Four.get_set_ne _ _ position]

/-- A release takes its address from those left. -/
theorem State.LatchedWithin.releaseAt (h : s.LatchedWithin left) (p : Fin 4) (c : Fin 12) :
    (s.releaseAt p c).LatchedWithin fun q d => left q d ∧ ¬(q = p ∧ d = c) := by
  by_cases unlatched : ∀ r, s.circuit p c = some r → r.isLatched s.judging = false
  · rw [State.releaseAt_of_unlatched unlatched]
    refine ⟨h.1, fun q d r here latched => ⟨h.2 q d r here latched, ?_⟩⟩
    rintro ⟨rfl, rfl⟩
    exact Bool.false_ne_true ((unlatched r here).symm.trans latched)
  · simp only [Classical.not_forall, Bool.not_eq_false] at unlatched
    obtain ⟨r, here, latched⟩ := unlatched
    have written : (s.setCircuit p c { r with verdict := .unseen, streak := 0 }).LatchedWithin
        fun q d => left q d ∧ ¬(q = p ∧ d = c) := by
      refine ⟨fun q => ?_, fun q d r' there stays => ?_⟩
      · rw [State.setCircuit_circuits, Four.get_set]
        split
        · rw [List.length_set]
          exact h.1 p
        · exact h.1 q
      · have other : ¬(q = p ∧ d = c) := by
          rintro ⟨rfl, rfl⟩
          rw [Moves.circuit_setCircuit here, Option.some.injEq] at there
          rw [← there] at stays
          exact absurd stays Bool.false_ne_true
        rw [State.circuit_setCircuit_of_ne other] at there
        exact ⟨h.2 q d r' there stays, other⟩
    rw [State.releaseAt_of_latched here latched]
    refine (written.of_eq (judging_of_outsideClaims (State.resolve_outsideClaims _ _)) ?_).pass _ _ _
    exact State.resolve_circuits _ _

/-! ## Every circuit -/

/-- RELEASE(all) visits the addresses by position and then index. -/
theorem State.releaseEvery_eq (s : State) :
    s.releaseEvery =
      (fourIndices.flatMap fun p => twelveIndices.map fun c => (p, c)).foldl (fun s x => s.releaseAt x.1 x.2) s := by
  simp only [State.releaseEvery, List.foldl_flatMap, List.foldl_map]

theorem State.LatchedWithin.foldl_releaseAt (l : List (Fin 4 × Fin 12)) (h : s.LatchedWithin left) :
    (l.foldl (fun s x => s.releaseAt x.1 x.2) s).LatchedWithin fun q d => left q d ∧ (q, d) ∉ l := by
  induction l generalizing s left with
  | nil => exact ⟨h.1, fun q d r here latched => ⟨h.2 q d r here latched, List.not_mem_nil⟩⟩
  | cons x l ih =>
    obtain ⟨few, within⟩ := ih (h.releaseAt x.1 x.2)
    refine ⟨few, fun q d r here latched => ?_⟩
    obtain ⟨⟨inside, first⟩, rest⟩ := within q d r here latched
    refine ⟨inside, fun visited => ?_⟩
    rcases List.mem_cons.1 visited with rfl | later
    · exact first ⟨rfl, rfl⟩
    · exact rest later

/-- RELEASE(all) leaves no latched fault (R113). -/
theorem State.releaseEvery_unlatched (few : ∀ p, (s.circuits.get p).length ≤ 12) (p : Fin 4) {r : Circuit}
    (mem : r ∈ s.releaseEvery.circuits.get p) : r.isLatched s.judging = false := by
  have all : s.LatchedWithin fun _ _ => True := ⟨few, fun _ _ _ _ _ => trivial⟩
  have ⟨few', within⟩ := all.foldl_releaseAt (fourIndices.flatMap fun p => twelveIndices.map fun c => (p, c))
  rw [← State.releaseEvery_eq] at few' within
  rw [judging_of_outsideClaims s.releaseEvery_outsideClaims] at within
  obtain ⟨i, inside, at_⟩ := List.mem_iff_getElem.1 mem
  refine Bool.eq_false_iff.2 fun latched => ?_
  have index : i < 12 := Nat.lt_of_lt_of_le inside (few' p)
  refine (within p ⟨i, index⟩ r (List.getElem?_eq_some_iff.2 ⟨inside, at_⟩) latched).2 ?_
  simp

theorem State.releaseEvery_of_unlatched (none : ∀ p, ∀ r ∈ s.circuits.get p, r.isLatched s.judging = false) :
    s.releaseEvery = s := by
  rw [State.releaseEvery_eq]
  exact foldl_eq_self (fun x => State.releaseAt_of_unlatched fun r here =>
    none x.1 r (List.mem_of_getElem? here)) _

theorem releaseArgs_of_names {b i : Byte} (position : b.toNat = p.val + 1) (circuit : i.toNat = c.val) :
    releaseArgs b i = some (.releaseOne p c) := by
  have named : b ≠ 0 := fun zero => by simp [zero] at position
  exact (if_neg named).trans (by simp [positionArg_of_eq position, indexArg_of_eq circuit])

theorem State.settle_port (s : State) : s.settle.port = s.port := by rw [s.settle_eq]

theorem State.settle_circuits (s : State) : s.settle.circuits = s.circuits := by rw [s.settle_eq]

end Sys2Proof.Machine

open Sys2Proof Sys2Proof.Machine

/-- Settles O55. -/
theorem release : Obligations.Release := by
  intro s ready
  have ⟨_, quiet, _⟩ := ready
  refine ⟨fun b i p c position circuit => ⟨fun r k j h here fault latched => ?_, fun none => ?_⟩,
    fun i => ⟨s.served.releaseEvery.settle, exec_alone _ s .releaseAll ready rfl rfl rfl, ?_, ?_, fun few p r mem => ?_,
      fun none => ?_⟩⟩
  · have counts : r.isLatched s.judging = true := (r.isLatched_iff _).2 ⟨k, j, h, fault, latched⟩
    have effect : s.served.execute { command := .releaseOne p c, sequence := s.port.nextSeq } = s.served.releaseAt p c :=
      if_pos (State.latchedAt_of_latched (s := s.served) here counts)
    rw [exec_alone (.release b i) s _ ready rfl (releaseArgs_of_names position circuit) rfl, effect,
      State.releaseAt_of_latched (s := s.served) here counts]
  · have unlatched : s.served.latchedAt p c = false := State.latchedAt_of_unlatched fun r here =>
      Bool.eq_false_iff.2 fun latched => by
        obtain ⟨k, j, h, fault, counts⟩ := (r.isLatched_iff _).1 latched
        exact Bool.false_ne_true ((none r k j h here fault).symm.trans counts)
    exact exec_alone_unclaimed ready rfl (releaseArgs_of_names position circuit) rfl
      ((if_neg (by rw [unlatched]; exact Bool.false_ne_true)).trans (s.refuse_served .nothingLatched _)) rfl rfl
  · exact (State.settle_port _).trans (port_of_outsideClaims s.served.releaseEvery_outsideClaims)
  · refine congrArg State.settle (congrArg (fun step => List.foldl step s.served fourIndices) (funext fun u => funext fun p => ?_))
    exact congrArg (fun step => List.foldl step u twelveIndices) (funext fun u => funext fun c => u.releaseAt_eq p c)
  · rw [State.settle_circuits] at mem
    exact State.releaseEvery_unlatched (s := s.served) few p mem
  · rw [State.releaseEvery_of_unlatched (s := s.served) none]
    exact State.settle_of_quiet _ (quiet.of_eq rfl rfl)

end

section
/-! SUPPORT. FORGET: its steps in their order, and the state that it leaves. -/

namespace Sys2Proof.Machine

variable {s t : State} {p : Fin 4}

/-! ## The steps of FORGET (R79) -/

/-- The state with the channel, the assembly record and the sample list of p flushed. -/
def State.emptied (s : State) (p : Fin 4) : State :=
  { s with
    link := { s.link with channels := s.link.channels.modify p fun c => { c with queue := [], attempts := 0 } }
    assembly := s.assembly.set p .idle
    samples := s.samples.modify p fun m => { m with list := [], timer := none } }

/-- The state with the records of p purged, where its state holds records. -/
def State.recordsDropped (s : State) (p : Fin 4) : State :=
  if (s.positions.get p).state.holdsRecords then s.purge p else s

/-- The position with its timers stopped and its conditions but LINK_FAULT ended. -/
def Position.conditionsEnded (r : Position) : Position :=
  { r with
    enrollTimer := none
    holdTimer := none
    recoupled := false
    welcome := .done
    uncoupled := false
    detectMissing := false }

theorem PositionState.holdsRecords_iff (state : PositionState) :
    state.holdsRecords = true ↔ state = .enrolled ∨ state = .mute ∨ state = .departed := by
  cases state <;> simp [PositionState.holdsRecords]

theorem Engine.inFlight_of_inactive {e : Engine} (inactive : e.activeOn p = false) : e.inFlight p = false := by
  cases e <;> simp_all [Engine.inFlight, Engine.activeOn]

theorem State.flushChannel_of_inactive (inactive : s.link.engine.activeOn p = false) :
    s.flushChannel p = s.updChannel p fun c => { c with queue := [], attempts := 0 } := by
  simp only [State.flushChannel, inactive, Engine.inFlight_of_inactive inactive, Bool.false_eq_true, if_false]

theorem State.forgetPosition_eq (inactive : s.link.engine.activeOn p = false) :
    s.forgetPosition p =
      ((((s.emptied p).recordsDropped p).updPosition p Position.conditionsEnded).clearBreaksEndingAt p).evaluatePosition
        p := by
  unfold State.forgetPosition
  rw [State.flushChannel_of_inactive inactive]
  rfl

/-! ## What FORGET leaves -/

/-- The position with its identity gone, where its state holds records. -/
def Position.identityDropped (r : Position) : Position :=
  { r with
    serial := if r.state.holdsRecords then none else r.serial
    count := if r.state.holdsRecords then 0 else r.count }

theorem State.recordsDropped_frame (s : State) (p : Fin 4) :
    s.recordsDropped p =
      { s with
        positions := s.positions.modify p Position.identityDropped
        feeds := (s.recordsDropped p).feeds
        circuits := (s.recordsDropped p).circuits
        notices := (s.recordsDropped p).notices } := by
  by_cases holds : (s.positions.get p).state.holdsRecords = true
  · have dropped : s.recordsDropped p = s.purge p := if_pos holds
    have identity : s.positions.modify p Position.identityDropped =
        s.positions.modify p fun r => { r with serial := none, count := 0 } := by
      simp only [Four.modify, Position.identityDropped, if_pos holds]
    rw [dropped, identity]
    exact s.purge_eq p
  · have dropped : s.recordsDropped p = s := if_neg holds
    have identity : s.positions.modify p Position.identityDropped = s.positions :=
      Four.modify_eq_self _ _ _ (by simp only [Position.identityDropped, if_neg holds])
    rw [dropped, identity]

theorem Channel.offered_emptied (c : Channel) (reads : Bool) :
    (if reads then ({ c with queue := [], attempts := 0 } : Channel).offered .recall
      else { c with queue := [], attempts := 0 }) =
      { c with queue := if reads = true ∧ c.enabled = true then [.recall] else [], attempts := 0 } := by
  cases reads with
  | false => simp
  | true =>
    obtain ⟨enabled, queue, attempts, streak, wakeHold⟩ := c
    cases enabled <;> simp [Channel.offered, Channel.accepts]

/-- The position after FORGET, before the claims with which the event ends. -/
def Position.forgotten (r : Position) : Position := r.identityDropped.conditionsEnded.evaluated

theorem State.forgetPosition_frame (inactive : s.link.engine.activeOn p = false) :
    s.forgetPosition p =
      { s.emptied p with
        positions := s.positions.modify p Position.forgotten
        link :=
          { s.link with
            channels :=
              s.link.channels.modify p fun c =>
                { c with
                  queue := if (s.positions.get p).reads = true ∧ c.enabled = true then [.recall] else []
                  attempts := 0 } }
        feeds := (s.forgetPosition p).feeds
        circuits := (s.forgetPosition p).circuits
        notices := (s.forgetPosition p).notices } := by
  have dropped := (s.emptied p).recordsDropped_frame p
  have forgets := State.forgetPosition_eq inactive
  generalize (s.emptied p).recordsDropped p = purged at dropped forgets
  have cleared := State.eq_of_outsideClaims _
    ((purged.updPosition p Position.conditionsEnded).clearBreaksEndingAt_outsideClaims p)
  generalize (purged.updPosition p Position.conditionsEnded).clearBreaksEndingAt p = u at cleared forgets
  rw [forgets, u.evaluatePosition_eq, cleared, dropped]
  simp only [← Channel.offered_emptied, State.updPosition, State.emptied, Four.modify_modify, Four.get_modify, if_true]
  rfl

/-- The state of FORGET after the BREAKs that end at p are cleared, where p is evaluated next. -/
def State.forgetting (s : State) (p : Fin 4) : State :=
  (((s.emptied p).recordsDropped p).updPosition p Position.conditionsEnded).clearBreaksEndingAt p

theorem State.forgetting_positions (s : State) (p : Fin 4) :
    (s.forgetting p).positions = s.positions.modify p fun r => r.identityDropped.conditionsEnded := by
  rw [State.forgetting, positions_of_outsideClaims (State.clearBreaksEndingAt_outsideClaims _ p),
    (s.emptied p).recordsDropped_frame p]
  simp only [State.updPosition, State.emptied, Four.modify_modify]
  rfl

/-- The evaluation with which FORGET ends (R65, R79). -/
theorem State.forgetting_evaluated (s : State) (p : Fin 4) :
    (s.forgetting p).evaluatePosition p =
      if (s.positions.get p).reads then
        ((s.forgetting p).updPosition p fun r =>
          { r with state := .coupled, enrollTimer := some r.enrollTimeout }).offer p .recall
      else (s.forgetting p).updPosition p fun r => { r with state := .vacant, enrollTimer := none } := by
  have reads : ((s.forgetting p).positions.get p).reads = (s.positions.get p).reads := by
    rw [s.forgetting_positions, Four.get_modify, if_pos rfl]
    rfl
  rw [State.evaluatePosition, reads, State.askToEnroll_eq]

theorem State.forgetting_noRecords (holds : (s.positions.get p).state.holdsRecords = true) :
    (s.forgetting p).circuits.get p = [] := by
  refine State.NoRecords.clearBreaksEndingAt (s := _) ?_ p
  have dropped : (s.emptied p).recordsDropped p = (s.emptied p).purge p := if_pos holds
  rw [dropped]
  exact (s.emptied p).purge_noRecords p

theorem FeedCondition.endedAt_ne_broken (a : FeedCondition) (start : Fin 4) : a.endedAt p ≠ .broken start p := by
  by_cases broken : ∃ start, a = .broken start p
  · obtain ⟨first, rfl⟩ := broken
    rw [FeedCondition.endedAt_broken]
    exact fun same => FeedCondition.noConfusion same
  · rw [FeedCondition.endedAt_of_not_broken broken]
    exact fun same => broken ⟨start, same⟩

theorem State.forgetting_feeds (s : State) (p : Fin 4) (f : Fin 8) (start : Fin 4) :
    (s.forgetting p).feeds.get f ≠ .broken start p := by
  obtain ⟨feeds, -⟩ := State.foldl_clearBreak (p := p) eightIndices
    (((s.emptied p).recordsDropped p).updPosition p Position.conditionsEnded)
  rw [State.forgetting, State.clearBreaksEndingAt_eq, feeds, if_pos (mem_eightIndices f)]
  exact FeedCondition.endedAt_ne_broken _ _

theorem State.evaluatePosition_circuits (s : State) (p : Fin 4) : (s.evaluatePosition p).circuits = s.circuits := by
  rw [State.evaluatePosition_eq]

theorem State.evaluatePosition_feeds (s : State) (p : Fin 4) : (s.evaluatePosition p).feeds = s.feeds := by
  rw [State.evaluatePosition_eq]

theorem State.settle_feeds (s : State) : s.settle.feeds = s.feeds := by rw [s.settle_eq]

/-- After FORGET the head of the position is LINK_FAULT where it holds (R79, R81). -/
theorem Position.forgotten_head (r : Position) :
    r.forgotten.head = if r.linkFault then some .linkFault else none := by
  have state : r.forgotten.state = if r.reads then .coupled else .vacant := rfl
  have enrolling : r.forgotten.state ≠ .silent ∧ r.forgotten.state ≠ .mute := by
    rw [state]
    cases r.reads <;> simp
  rw [Position.head_eq, if_neg enrolling.1, if_neg enrolling.2]
  rfl

theorem Position.forgotten_claimed (r : Position) :
    r.forgotten.claimed =
      { r with
        state := if r.reads then .coupled else .vacant
        serial := if r.state.holdsRecords then none else r.serial
        count := if r.state.holdsRecords then 0 else r.count
        recoupled := false
        welcome := .done
        enrollTimer := if r.reads then some r.enrollTimeout else none
        holdTimer := none
        detectMissing := false
        uncoupled := false
        claimedHead := if r.linkFault then some .linkFault else none } := by
  rw [Position.claimed, Position.forgotten_head]
  rfl

/-- The other positions have nothing to claim. -/
theorem State.forgotten_claimed (quiet : s.Quiet) (p : Fin 4) :
    ((s.positions.modify p Position.forgotten).map fun _ r => r.claimed) =
      s.positions.modify p fun r => r.forgotten.claimed := by
  refine Four.ext_get fun q => ?_
  rw [Four.get_map, Four.get_modify, Four.get_modify]
  split
  · rfl
  · exact Position.claimed_eq_self (quiet.2 q)

end Sys2Proof.Machine

open Sys2Proof Sys2Proof.Machine

/-- Settles O56. -/
theorem forget : Obligations.Forget := by
  intro s b p ready names inactive r
  have ⟨_, quiet, _⟩ := ready
  have args : forgetArgs b = some (.forget p) := by simp [forgetArgs, positionArg_of_eq names]
  refine ⟨fun vacant => ?_, fun present => ?_⟩
  · exact exec_alone_unclaimed ready rfl args inactive ((if_pos vacant).trans (s.refuse_served .badTarget _)) rfl rfl
  · have effect : s.served.execute { command := .forget p, sequence := s.port.nextSeq } = s.served.forgetPosition p :=
      if_neg present
    have forgets : s.served.forgetPosition p = (s.served.forgetting p).evaluatePosition p :=
      State.forgetPosition_eq inactive
    refine ⟨(s.served.forgetPosition p).settle, ?_, ?_, fun holds => ?_, fun f start => ?_, ?_⟩
    · rw [exec_alone (.forget b) s _ ready rfl args inactive, effect]
    · have frame := State.forgetPosition_frame (s := s.served) inactive
      obtain ⟨left, isLeft⟩ : ∃ left, left = s.served.forgetPosition p := ⟨_, rfl⟩
      rw [← isLeft] at frame ⊢
      rw [left.settle_feeds, left.settle_circuits, left.settle_eq]
      generalize left.settle.notices = notices
      rw [frame]
      simp only [State.forgotten_claimed (s := s.served) (quiet.of_eq rfl rfl), Position.forgotten_claimed]
      rfl
    · rw [State.settle_circuits, forgets, State.evaluatePosition_circuits]
      exact State.forgetting_noRecords (s := s.served) holds
    · rw [State.settle_feeds, forgets, State.evaluatePosition_feeds]
      exact s.served.forgetting_feeds p f start
    · intro flushed purged ended cleared evaluated
      have drops : purged = (s.served.emptied p).recordsDropped p :=
        ite_eq_ite_of_iff (PositionState.holdsRecords_iff _).symm rfl rfl
      have clears : cleared = s.served.forgetting p := by
        rw [State.forgetting, ← drops]
        rfl
      have evaluates : evaluated = s.served.forgetPosition p := by
        rw [forgets, State.forgetting_evaluated, ← clears]
        rfl
      rw [evaluates]

end

section
/-! SUPPORT. The lighting queue: argument checks, waits of the head, and runs. -/

namespace Sys2Proof

namespace Machine

/-! ## Argument checks (R181) -/

theorem isSome_bind {α β : Type} {o : Option α} {f : α → Option β} {c : Bool} (rest : ∀ x, (f x).isSome = c) :
    (o >>= f).isSome = (o.isSome && c) := by
  cases o with
  | none => rfl
  | some x => exact rest x

theorem isSome_pure {α : Type} (x : α) : (pure x : Option α).isSome = true := rfl

theorem isSome_rangeArg (b : Byte) (low high : Nat) : (rangeArg b low high).isSome = inRange b low high := by
  unfold rangeArg inRange
  split <;> simp_all

theorem isSome_indexArg (b : Byte) (n : Nat) : (indexArg (n + 1) b).isSome = inRange b 0 n := by
  unfold indexArg inRange
  split <;> simp <;> omega

theorem isSome_positionArg (b : Byte) : (positionArg b).isSome = inRange b 1 4 := by
  unfold positionArg inRange
  rw [← Bool.decide_and]
  by_cases within : 1 ≤ b.toNat ∧ b.toNat ≤ 4
  · rw [dif_pos within, decide_eq_true within]
    rfl
  · rw [dif_neg within, decide_eq_false within]
    rfl

theorem isSome_modeArg (mode generator : Byte) :
    (modeArg mode generator).isSome = (inRange mode 0 2 && (mode != 2 || inRange generator 0 3)) := by
  have names : mode = 2 ↔ mode.toNat = 2 := ⟨fun same => by rw [same]; rfl, fun same => BitVec.eq_of_toNat_eq same⟩
  have other (differs : mode.toNat ≠ 2) : (mode != 2) = true := bne_iff_ne.2 (mt names.1 differs)
  have places : mode.toNat = 0 ∨ mode.toNat = 1 ∨ mode.toNat = 2 ∨ 2 < mode.toNat := by omega
  rcases places with zero | one | two | high
  · rw [other (by omega)]
    simp [modeArg, inRange, zero]
  · rw [other (by omega)]
    simp [modeArg, inRange, one]
  · simp only [modeArg, two, Option.isSome_map, isSome_indexArg]
    rw [names.2 two]
    rfl
  · obtain ⟨k, big⟩ : ∃ k, mode.toNat = k + 3 := ⟨mode.toNat - 3, by omega⟩
    simp [modeArg, inRange, big]

end Machine

open Machine

/-- A posted command posts exactly where its arguments are in range (R138, R181). -/
theorem Instr.isSome_posts {i : Instr} (posted : i.isPosted = true) : i.posts.isSome = i.wf := by
  cases i with
  | setMode f m g =>
    rw [Instr.posts_setMode, setModeArgs]
    refine (isSome_bind fun _ => isSome_bind fun _ => isSome_pure _).trans ?_
    rw [isSome_indexArg, isSome_modeArg, Bool.and_true, ← Bool.and_assoc]
    rfl
  | setDim f duty =>
    rw [Instr.posts_setDim, setDimArgs]
    refine (isSome_bind fun _ => isSome_bind fun _ => isSome_pure _).trans ?_
    rw [isSome_indexArg, isSome_rangeArg, Bool.and_true]
    rfl
  | setCadence g lo hi n w =>
    rw [Instr.posts_setCadence, setCadenceArgs]
    refine (isSome_bind fun _ => isSome_bind fun _ => isSome_bind fun _ => isSome_pure _).trans ?_
    rw [isSome_indexArg, isSome_rangeArg, isSome_indexArg, Bool.and_true, ← Bool.and_assoc]
    rfl
  | restartCadences set =>
    rw [Instr.posts_restartCadences, restartCadencesArgs]
    refine (isSome_bind fun _ => isSome_pure _).trans ?_
    rw [isSome_rangeArg, Bool.and_true]
    rfl
  | setOverride i set =>
    rw [Instr.posts_setOverride, setOverrideArgs]
    refine (isSome_bind fun _ => isSome_pure _).trans ?_
    rw [isSome_indexArg, Bool.and_true]
    rfl
  | setSampling p t m g =>
    rw [Instr.posts_setSampling, setSamplingArgs]
    refine (isSome_bind fun _ => isSome_bind fun _ => isSome_bind fun _ => isSome_bind fun _ => isSome_pure _).trans ?_
    simp only [isSome_rangeArg, Bool.and_true, ← Bool.and_assoc]
    rfl
  | setJudging a b l =>
    rw [Instr.posts_setJudging, setJudgingArgs]
    refine (isSome_bind fun _ => isSome_bind fun _ => isSome_bind fun _ => isSome_pure _).trans ?_
    simp only [isSome_rangeArg, Bool.and_true, ← Bool.and_assoc]
    rfl
  | setSeverity f v =>
    rw [Instr.posts_setSeverity, setSeverityArgs]
    refine (isSome_bind fun _ => isSome_bind fun _ => isSome_pure _).trans ?_
    rw [isSome_indexArg, isSome_rangeArg, Bool.and_true]
    rfl
  | setLevels p d =>
    rw [Instr.posts_setLevels, setLevelsArgs]
    refine (isSome_bind fun _ => isSome_bind fun _ => isSome_pure _).trans ?_
    rw [isSome_rangeArg, isSome_rangeArg, Bool.and_true]
    rfl
  | setCoupling p flags e h =>
    rw [Instr.posts_setCoupling, setCouplingArgs]
    refine (isSome_bind fun _ => isSome_bind fun _ => isSome_bind fun _ => isSome_pure _).trans ?_
    rw [isSome_positionArg, isSome_rangeArg, isSome_rangeArg, Bool.and_true, ← Bool.and_assoc]
    rfl
  | release p c =>
    by_cases all : p = 0
    · rw [Instr.posts_release, releaseArgs, if_pos all, Instr.wf, all]
      rfl
    · rw [Instr.posts_release, releaseArgs, if_neg all]
      refine (isSome_bind fun _ => isSome_bind fun _ => isSome_pure _).trans ?_
      rw [isSome_positionArg, isSome_indexArg, Bool.and_true, Instr.wf, beq_eq_false_iff_ne.2 all, Bool.false_or]
  | forget p =>
    rw [Instr.posts_forget, forgetArgs]
    refine (isSome_bind fun _ => isSome_pure _).trans ?_
    rw [isSome_positionArg, Bool.and_true]
    rfl
  | rest => rfl
  | _ => exact absurd posted Bool.false_ne_true

namespace Machine

variable {s : State}

/-! ## Posting (R138, R140) -/

theorem exec_posted_of_awake {i : Instr} (awake : s.Awake) (posted : i.isPosted = true) :
    exec i s = .next (s.post i.posts) := by
  obtain ⟨released, -⟩ := awake
  rw [exec_of_posted i s posted, event_of_released released]

theorem State.post_of_run (running : s.power = .run) (command : PostedCommand) :
    s.post (some command) =
      if s.port.queue.length < 4 then (s.accept command).drain else s.answerLighting none (zeroReply .queueFull 1) := by
  simp only [State.post, State.wakeIfResting_of_run running]

theorem exec_headExecution_of_awake (awake : s.Awake) : exec .headExecution s = .next s.drain := by
  rw [exec_eq_headExecution, runEvent_of_awake awake]

/-! ## Runs of the queue (R141) -/

theorem State.runQueue_of_empty (empty : s.port.queue = []) (n : Nat) : s.runQueue n = s := by
  cases n with
  | zero => rfl
  | succ n => simp only [State.runQueue, empty]

section Head

variable {head : Posted} {rest : List Posted} (queue : s.port.queue = head :: rest)
include queue

theorem State.runQueue_succ_of_ready (running : s.power = .run) (free : s.waits head.command = false) (n : Nat) :
    s.runQueue (n + 1) = (({ s with port := { s.port with queue := rest } } : State).execute head).runQueue n := by
  have ready : s.power = .run ∧ s.waits head.command = false := ⟨running, free⟩
  simp only [State.runQueue, queue, if_pos ready]
  rfl

theorem State.runQueue_of_stopped (stopped : s.power = .rest ∨ s.waits head.command = true) (n : Nat) :
    s.runQueue n = s := by
  cases n with
  | zero => rfl
  | succ n =>
    have stays : ¬(s.power = .run ∧ s.waits head.command = false) := by
      rintro ⟨running, free⟩
      rcases stopped with resting | waits
      · exact Power.noConfusion (running.symm.trans resting)
      · exact Bool.false_ne_true (free.symm.trans waits)
    simp only [State.runQueue, queue, if_neg stays]

end Head

/-! ## Waits (R23, R27, R141) -/

theorem State.waits_iff (s : State) (c : PostedCommand) :
    s.waits c = true ↔
      (∃ p, c = .forget p ∧ s.link.engine.activeOn p = true) ∨
        (∃ p h w e t x, c = .setCoupling p h w e t x ∧ s.link.engine.activeOn p = true ∧
          ¬ (e = false ∧ (s.link.channels.get p).enabled = true ∧ s.link.engine = .rxActive p ∧ s.link.timer = 4000 ∧
            Config.disableUnderWay s.freeIndex = true)) ∨
        c = .rest ∧ s.link.engine ≠ .rxIdle := by
  cases c with
  | forget p => simp [State.waits]
  | setCoupling p h w e t x =>
    have underWay : s.disableUnderWay p e = true ↔
        e = false ∧ (s.link.channels.get p).enabled = true ∧ s.link.engine = .rxActive p ∧ s.link.timer = 4000 ∧
          Config.disableUnderWay s.freeIndex = true := by
      simp [State.disableUnderWay, Config.wordLimit, and_assoc]
    rw [State.waits, Bool.and_eq_true, Bool.not_eq_true', ← Bool.not_eq_true, underWay]
    constructor
    · rintro ⟨active, waits⟩
      exact .inr (.inl ⟨p, h, w, e, t, x, rfl, active, waits⟩)
    · rintro (⟨p', other, -⟩ | ⟨p', h', w', e', t', x', same, active, waits⟩ | ⟨other, -⟩)
      · exact PostedCommand.noConfusion other
      · obtain ⟨rfl, rfl, rfl, rfl, rfl, rfl⟩ := PostedCommand.setCoupling.inj same
        exact ⟨active, waits⟩
      · exact PostedCommand.noConfusion other
  | rest => simp [State.waits]
  | _ => simp [State.waits]

end Machine

end Sys2Proof

open Sys2Proof Sys2Proof.Machine

/-- Settles O49. -/
theorem lightingQueue : Obligations.LightingQueue := by
  refine ⟨fun i posted => ?_, fun s c => s.waits_iff c, fun s i awake posted => ?_, fun s n => ?_, fun s awake => ?_⟩
  · rw [← Option.not_isSome_iff_eq_none, i.isSome_posts posted, Bool.not_eq_true]
  · rw [exec_posted_of_awake awake posted]
    have ⟨_, running⟩ := awake
    refine ⟨fun bad => ?_, fun c posts => ?_⟩
    · rw [bad, State.post, State.wakeIfResting_of_run running]
      rfl
    · rw [posts, State.post_of_run running]
      refine ⟨fun full => ?_, fun room => ?_⟩
      · rw [if_neg (Nat.not_lt.2 full)]
        rfl
      · rw [if_pos room]
        exact (exec_headExecution_of_awake (s := s.accept c) awake).symm
  · exact ⟨rfl, fun empty => State.runQueue_of_empty empty n, fun head rest queue =>
      ⟨fun running free => State.runQueue_succ_of_ready queue running free n,
        fun stopped => State.runQueue_of_stopped queue stopped n⟩⟩
  · have ⟨_, running⟩ := awake
    rw [exec_headExecution_of_awake awake, State.drain]
    refine ⟨fun quiet empty => ?_, fun head rest queue => ⟨fun quiet waits => ?_, fun free => ?_⟩⟩
    · rw [State.runQueue_of_empty empty, s.settle_of_quiet quiet]
    · rw [State.runQueue_of_stopped queue (.inr waits), s.settle_of_quiet quiet]
    · rw [queue, List.length_cons, State.runQueue_succ_of_ready queue running free]

end

section
/-! SUPPORT. The read commands: how they are served on both ports, and the bytes of the records. -/

namespace Sys2Proof.Machine

variable {s : State} {port : Port}

/-! ## Serving -/

/-- The reply of a command that both ports serve (R136, R146). -/
def State.replied (s : State) (port : Port) (bytes : List Byte) : State :=
  match port with
  | .lighting => s.repliedLighting bytes
  | .display => s.repliedDisplay bytes

theorem State.serve_eq (running : port = .lighting → s.power = .run) (answer : State → List Byte) :
    s.serve port answer = s.replied port (answer s) := by
  cases port with
  | lighting =>
    rw [State.serve, State.wakeIfResting_of_run (running rfl)]
    rfl
  | display => rfl

section Served

variable (released : s.resetAsserted = false) (running : port = .lighting → s.power = .run)
include released running

theorem exec_readDrive : exec (.readDrive port) s = .next (s.replied port (0x80 :: s.drive.record)) := by
  rw [exec_eq_readDrive, event_of_released released, State.serve_eq running]
  rfl

theorem exec_readSummary : exec (.readSummary port) s = .next (s.replied port (0x80 :: s.summaryRecord)) := by
  rw [exec_eq_readSummary, event_of_released released, State.serve_eq running]
  rfl

theorem exec_readPosition (b : Byte) : exec (.readPosition port b) s = .next (s.replied port (s.positionReply b)) := by
  rw [exec_eq_readPosition, event_of_released released, State.serve_eq running]

theorem exec_readCircuit (b i : Byte) :
    exec (.readCircuit port b i) s = .next (s.replied port (s.circuitReply b i)) := by
  rw [exec_eq_readCircuit, event_of_released released, State.serve_eq running]

theorem exec_readFeed (b : Byte) : exec (.readFeed port b) s = .next (s.replied port (s.feedReply b)) := by
  rw [exec_eq_readFeed, event_of_released released, State.serve_eq running]

theorem exec_unknownCommand {code : Byte} (unknown : port.knows code = false) :
    exec (.unknownCommand port code) s = .next (s.replied port [0xC0]) := by
  rw [exec_eq_unknownCommand, event_of_released released, unknown, State.serve_eq running]
  rfl

end Served

/-! ## Arguments -/

theorem positionArg_of_outside {b : Byte} (outside : b.toNat = 0 ∨ 5 ≤ b.toNat) : positionArg b = none :=
  dif_neg (by omega)

theorem State.positionReply_of_position {b : Byte} {p : Fin 4} (names : b.toNat = p.val + 1) :
    s.positionReply b = 0x80 :: s.positionRecord p := by
  simp only [State.positionReply, positionArg_of_eq names]
  rfl

theorem State.positionReply_of_outside {b : Byte} (outside : b.toNat = 0 ∨ 5 ≤ b.toNat) :
    s.positionReply b = 0xC1 :: List.replicate 31 0 := by
  simp only [State.positionReply, positionArg_of_outside outside]
  rfl

theorem State.circuitReply_of_names {b i : Byte} {p : Fin 4} {c : Fin 12} (position : b.toNat = p.val + 1)
    (circuit : i.toNat = c.val) :
    s.circuitReply b i = 0x80 :: circuitRecord (s.circuit p c) (s.notices.announceOf (.circuit p c)) := by
  have args : circuitArgs b i = some (p, c) := by
    simp [circuitArgs, positionArg_of_eq position, indexArg_of_eq circuit]
  simp only [State.circuitReply, args]
  rfl

theorem State.circuitReply_of_outside {b i : Byte} (outside : (b.toNat = 0 ∨ 5 ≤ b.toNat) ∨ 12 ≤ i.toNat) :
    s.circuitReply b i = [0xC1, 0, 0, 0, 0, 0, 0, 0] := by
  have args : circuitArgs b i = none := by
    rcases outside with outside | high
    · simp [circuitArgs, positionArg_of_outside outside]
    · simp [circuitArgs, indexArg_of_ge high]
  simp only [State.circuitReply, args]
  rfl

theorem State.feedReply_of_function {b : Byte} {f : Fin 8} (names : b.toNat = f.val) :
    s.feedReply b = 0x80 :: s.feedRecord f := by
  simp only [State.feedReply, indexArg_of_eq names]
  rfl

theorem State.feedReply_of_high {b : Byte} (high : 8 ≤ b.toNat) : s.feedReply b = [0xC1, 0, 0, 0, 0] := by
  simp only [State.feedReply, indexArg_of_ge high]
  rfl

/-! ## Codes (11.4, 11.8) -/

theorem Verdict.kinds_eq (kind : FaultKind → Nat) (code : ∀ k : FaultKind, k.code = kind k) (v : Verdict) :
    v.kinds =
      match v with
      | .suspect k => kind k
      | .fault k none _ => kind k
      | .fault k (some j) _ => kind k + 16 * kind j
      | .recovering k _ => kind k
      | _ => 0 := by
  cases v with
  | suspect k => exact code k
  | fault k candidate hold =>
    cases candidate with
    | none => exact code k
    | some j => exact congr (congrArg (fun a b => a + 16 * b) (code k)) (code j)
  | recovering k hold => exact code k
  | _ => rfl

theorem Verdict.holdCode_eq (v : Verdict) :
    holdCode v.hold =
      match v with
      | .fault _ _ (some .local) => 1
      | .fault _ _ (some .deferred) => 2
      | .recovering _ (some .local) => 1
      | .recovering _ (some .deferred) => 2
      | _ => 0 := by
  cases v with
  | fault k candidate hold =>
    cases hold with
    | none => rfl
    | some hold => cases hold <;> rfl
  | recovering k hold =>
    cases hold with
    | none => rfl
    | some hold => cases hold <;> rfl
  | _ => rfl

/-! ## Lengths (11.6, 11.7, 11.10) -/

theorem FunctionRecord.bytes_length (r : FunctionRecord) : r.bytes.length = 4 := by
  cases mode : r.mode <;> simp [FunctionRecord.bytes, Mode.bytes, mode]

theorem DriveUnit.record_length (d : DriveUnit) : d.record.length = 37 := by
  simp [DriveUnit.record, Eight.toList, Four.toList, FunctionRecord.bytes_length]

theorem State.summaryRecord_length (s : State) : s.summaryRecord.length = 27 := by
  simp [State.summaryRecord, Eight.toList]

theorem serialBytes_length (serial : Option (BitVec 24)) : (serialBytes serial).length = 3 := by
  cases serial <;> rfl

theorem timerField_length (unit : Nat) (t : Option Nat) : (timerField unit t).length = 2 := by
  cases t <;> rfl

theorem sampleBytes_length (x : Option SampleRecord) : (sampleBytes x).length = 5 := by
  cases x with
  | none => rfl
  | some y => cases taken : y.outstanding <;> simp [sampleBytes, taken, lowFirst]

theorem State.positionRecord_length (s : State) (p : Fin 4) : (s.positionRecord p).length = 31 := by
  simp [State.positionRecord, serialBytes_length, timerField_length, sampleBytes_length]

/-! ## The records written out -/

theorem DriveUnit.record_eq (d : DriveUnit) :
    d.record =
      (([0, 1, 2, 3, 4, 5, 6, 7] : List (Fin 8)).flatMap fun f => (d.functions.get f).bytes) ++
        [byte
            (bit (d.filtered.get 0) + 2 * bit (d.filtered.get 1) + 4 * bit (d.filtered.get 2) +
              8 * bit (d.filtered.get 3)),
          d.assign.get 0, d.assign.get 1, d.assign.get 2, d.assign.get 3] :=
  List.append_assoc _ _ _

/-- The bytes of a function (11.6). -/
theorem FunctionRecord.bytes_eq (condition : SenseCondition → Nat)
    (code : ∀ c : SenseCondition, c.code = condition c) (r : FunctionRecord) :
    r.bytes =
      (match r.mode with
        | .off => [0, 0]
        | .on => [1, 0]
        | .cadence g => [2, byte g.val]
        | .dim duty => [3, byte duty]) ++
        [byte
            ((match r.drive with
                | .undriven => 0
                | .dim _ => 1
                | .full => 2) +
              4 * condition r.sense.condition),
          byte r.age] := by
  unfold FunctionRecord.bytes
  have mode : r.mode.bytes =
      match r.mode with
      | .off => [0, 0]
      | .on => [1, 0]
      | .cadence g => [2, byte g.val]
      | .dim duty => [3, byte duty] := rfl
  have drive : r.drive.cls.code =
      match r.drive with
      | .undriven => 0
      | .dim _ => 1
      | .full => 2 := by cases r.drive <;> rfl
  rw [mode, drive, code]

theorem snapshotBits_eq (expected : DriveClass → Nat) (code : ∀ d : DriveClass, d.code = expected d)
    (t : Eight DriveClass) :
    snapshotBits t =
      (([0, 1, 2, 3, 4, 5, 6, 7] : List (Fin 8)).map fun f => 4 ^ f.val * expected (t.get f)).sum := by
  simp only [snapshotBits, code, List.map_cons, List.map_nil, List.sum_cons, List.sum_nil]
  have power : ∀ f : Fin 8, 4 ^ f.val = Eight.get ⟨1, 4, 16, 64, 256, 1024, 4096, 16384⟩ f := by decide
  simp only [power, Eight.get]
  omega

theorem summaryError_eq (error : Option DeferredError) :
    byte
        (match error with
          | some e => 1 + 2 * bit e.more
          | none => 0) =
      match error with
      | none => 0
      | some e => if e.more = true then 3 else 1 := by
  cases error with
  | none => rfl
  | some e => cases more : e.more <;> simp [more, bit, byte]

/-- The bytes of the summary (11.10). -/
theorem State.summaryRecord_eq (s : State) :
    s.summaryRecord =
      [match s.power with
          | .run => 0
          | .rest => 1,
        byte s.port.queue.length, s.port.nextSeq,
        match s.port.error with
          | none => 0
          | some e => if e.more = true then 3 else 1,
        byte (s.sampling.period / 50), byte s.sampling.timeout, byte s.sampling.muteCount, byte s.sampling.guard,
        byte s.judging.confirm, byte s.judging.clear, s.judging.latched.setWidth 8, byte (s.notices.severity.get 0),
        byte (s.notices.severity.get 1), byte (s.notices.severity.get 2), byte (s.notices.severity.get 3),
        byte (s.notices.severity.get 4), byte (s.notices.severity.get 5), byte (s.notices.severity.get 6),
        byte (s.notices.severity.get 7), byte s.notices.positionLevel, byte s.notices.detectLevel, byte s.notices.mask,
        if s.notices.holdAll = true then 1 else 0, byte s.notices.queue.length,
        byte (s.notices.queue.countP fun x => x.service == .pending), byte s.notices.stack.length,
        if s.datn = true then 1 else 0] := by
  have power : byte s.power.code =
      match s.power with
      | .run => 0
      | .rest => 1 := by cases s.power <;> rfl
  have latched : byte s.judging.latched.toNat = s.judging.latched.setWidth 8 := BitVec.ofNat_toNat _ _
  unfold State.summaryRecord
  rw [List.countP_eq_length_filter, ← summaryError_eq, ← byte_bit, ← byte_bit, ← power, ← latched]
  rfl

theorem NoticeKind.code_eq (k : NoticeKind) :
    k.code =
      match k with
      | .circuit .open => 1
      | .circuit .degraded => 2
      | .circuit .overload => 3
      | .circuit .feedLoss => 4
      | .circuit .backfeed => 5
      | .position .silent => 1
      | .position .mute => 2
      | .position .linkFault => 3
      | .position .detectMissing => 4
      | .position .uncoupled => 5
      | .feed .driverDead => 1
      | .feed .driverStuck => 2
      | .feed .couplingBreak => 3
      | .cleared => 15 := by
  cases k with
  | circuit k => cases k <;> rfl
  | position k => cases k <;> rfl
  | feed k => cases k <;> rfl
  | cleared => rfl

/-- The bytes of an OUTSTANDING sample record (11.7). -/
theorem sampleBytes_of_outstanding (expected : DriveClass → Nat) (code : ∀ d : DriveClass, d.code = expected d)
    (tag : BitVec 4) (o : Outstanding) :
    sampleBytes (some { tag := tag, outstanding := some o }) =
      let snapshot := (([0, 1, 2, 3, 4, 5, 6, 7] : List (Fin 8)).map fun f => 4 ^ f.val * expected (o.snapshot.get f)).sum
      [byte (tag.toNat + 16 + 32), byte snapshot, byte (snapshot / 256), o.blur, byte ((o.deadline + 999) / 1000)] :=
  congrArg
    (fun snapshot =>
      [byte (tag.toNat + 16 + 32), byte snapshot, byte (snapshot / 256), o.blur, byte ((o.deadline + 999) / 1000)])
    (snapshotBits_eq expected code o.snapshot)

theorem PositionState.byte_code (state : PositionState) :
    byte state.code =
      match state with
      | .vacant => 0
      | .coupled => 1
      | .silent => 2
      | .enrolled => 3
      | .mute => 4
      | .departed => 5 := by
  cases state <;> rfl

/-- The bytes of the position record after its first (11.7). -/
def State.positionTail (s : State) (p : Fin 4) : List Byte :=
  let r := s.positions.get p
  let c := s.link.channels.get p
  let m := s.samples.get p
  byte (positionFlags r c) ::
    (serialBytes r.serial ++
      [byte r.count, byte (r.welcome.code + 4 * bit r.linkFault + 8 * bit r.detectMissing + 16 * bit r.uncoupled),
        (s.notices.announceOf (.position p)).byte, byte (r.enrollTimeout / 250000)] ++
      timerField 1000 r.enrollTimer ++ timerField 10000 r.holdTimer ++ [byte s.holdTime, byte c.streak] ++
      timerField 1000 m.timer ++ [byte m.nextTag.toNat, byte m.mute, byte m.missed, byte m.list.length] ++
      sampleBytes m.list[0]? ++ sampleBytes m.list[1]?)

theorem State.positionRecord_eq (s : State) (p : Fin 4) :
    s.positionRecord p = byte (s.positions.get p).state.code :: s.positionTail p := rfl

end Sys2Proof.Machine

open Sys2Proof Sys2Proof.Machine

/-- Settles O60. -/
theorem reads : Obligations.Reads := by
  intro s port released running replied
  refine ⟨exec_readDrive released running, exec_readSummary released running, fun b p names =>
    ⟨?_, fun i c circuit => ⟨fun absent => ?_, fun r here => ?_⟩⟩, fun b f names => ?_, fun b outside =>
      ⟨?_, fun i => ?_⟩, fun b i high => ?_, fun b high => ?_, fun code unknown =>
        exec_unknownCommand released running unknown, fun c => ?_, fun v => ⟨?_, ?_, v.holdCode_eq⟩, rfl,
    fun volt current => ?_, s.drive.record_length, s.summaryRecord_length, s.positionRecord_length, ?_,
    s.summaryRecord_eq, fun a => ?_, fun p => ?_⟩
  · rw [exec_readPosition released running, State.positionReply_of_position names]
    rfl
  · rw [exec_readCircuit released running, State.circuitReply_of_names names circuit, absent]
    rfl
  · rw [exec_readCircuit released running, State.circuitReply_of_names names circuit, here]
    rfl
  · rw [exec_readFeed released running, State.feedReply_of_function names]
    rfl
  · rw [exec_readPosition released running, State.positionReply_of_outside outside]
    rfl
  · rw [exec_readCircuit released running, State.circuitReply_of_outside (.inl outside)]
    rfl
  · rw [exec_readCircuit released running, State.circuitReply_of_outside (.inr high)]
    rfl
  · rw [exec_readFeed released running, State.feedReply_of_high high]
    rfl
  · cases c <;> rfl
  · cases v <;> rfl
  · exact v.kinds_eq _ fun k => by cases k <;> rfl
  · cases current <;> rfl
  · intro condition
    have code (c : SenseCondition) : c.code = condition c := by cases c <;> rfl
    refine s.drive.record_eq.trans (congrArg (· ++ _) (congrArg (List.flatMap · _) (funext fun f => ?_)))
    exact FunctionRecord.bytes_eq condition code _
  · cases a with
    | owedFault k => exact congrArg (fun code => byte (3 + 16 * code)) k.code_eq
    | _ => rfl
  · intro r c m timer expected sample
    have code (d : DriveClass) : d.code = expected d := by cases d <;> rfl
    have samples (x : Option SampleRecord) : sampleBytes x = sample x := by
      cases x with
      | none => rfl
      | some y =>
        obtain ⟨tag, outstanding⟩ := y
        cases outstanding with
        | none => rfl
        | some o => exact sampleBytes_of_outstanding expected code tag o
    rw [← samples, ← samples]
    exact (s.positionRecord_eq p).trans (congrArg (· :: s.positionTail p) r.state.byte_code)

end

section
/-! SUPPORT. The bytes of a port transaction: how they are read, sent and answered. -/

namespace Sys2Proof

variable {i : Instr} {port : Port} {bytes : List Byte}

/-- An unknown code is taken as an unknown command (R138): each row of the decoder before the last has a code that the
port knows. -/
theorem decodeFrame_unknown {code : Byte} (unknown : port.knows code = false) (rest : List Byte) :
    decodeFrame port (code :: rest) = .command (.unknownCommand port code) := by
  cases port with
  | lighting =>
    unfold decodeFrame decodeLighting
    split <;> simp_all [Port.knows]
  | display =>
    unfold decodeFrame decodeDisplay
    split <;> simp_all [Port.knows]

/-- The bytes of a command, whatever follows them, are taken as that command (R136, R137). -/
theorem decodeFrame_frame (frame : i.frame = some (port, bytes)) (extra : List Byte)
    (unknown : ∀ p code, i = .unknownCommand p code → i.wf = true) : decodeFrame port (bytes ++ extra) = .command i := by
  cases i with
  | unknownCommand p code =>
    cases frame
    exact decodeFrame_unknown ((Bool.not_eq_true' _).mp (unknown _ _ rfl)) extra
  | readDrive p => cases frame; cases port <;> rfl
  | readPosition p b => cases frame; cases port <;> rfl
  | readCircuit p b c => cases frame; cases port <;> rfl
  | readFeed p b => cases frame; cases port <;> rfl
  | readSummary p => cases frame; cases port <;> rfl
  | _ => cases frame <;> rfl

/-- How the bytes of a command cut short are read, for each number of bytes left. -/
theorem decodeFrame_takes (frame : i.frame = some (port, bytes)) :
    ((List.range bytes.length).map fun n => decodeFrame port (bytes.take n)) =
      List.replicate bytes.length .tooShort := by
  cases i with
  | unknownCommand p code => cases frame; cases port <;> rfl
  | readDrive p => cases frame; cases port <;> rfl
  | readPosition p b => cases frame; cases port <;> rfl
  | readCircuit p b c => cases frame; cases port <;> rfl
  | readFeed p b => cases frame; cases port <;> rfl
  | readSummary p => cases frame; cases port <;> rfl
  | _ => cases frame <;> rfl

/-- A transaction cut short before the last argument byte is discarded (R137). -/
theorem decodeFrame_take (frame : i.frame = some (port, bytes)) {n : Nat} (short : n < bytes.length) :
    decodeFrame port (bytes.take n) = .tooShort := by
  have listed : decodeFrame port (bytes.take n) ∈ (List.range bytes.length).map fun n => decodeFrame port (bytes.take n) :=
    List.mem_map.2 ⟨n, List.mem_range.2 short, rfl⟩
  rw [decodeFrame_takes frame] at listed
  exact (List.mem_replicate.1 listed).2

theorem frame_nonempty (frame : i.frame = some (port, bytes)) : 0 < bytes.length := by
  cases i <;> cases frame <;> exact Nat.succ_pos _

/-! ## Bits -/

theorem bytesOfBits_of_short {cut : List Bool} (short : cut.length < 8) : bytesOfBits cut = [] := by
  unfold bytesOfBits
  split
  · simp only [List.length_cons] at short
    omega
  · rfl

/-- A byte is the sum of its bits. -/
theorem byte_of_bits (b : Byte) :
    byte
        (128 * bit (b.getLsbD 7) + 64 * bit (b.getLsbD 6) + 32 * bit (b.getLsbD 5) + 16 * bit (b.getLsbD 4) +
          8 * bit (b.getLsbD 3) + 4 * bit (b.getLsbD 2) + 2 * bit (b.getLsbD 1) + bit (b.getLsbD 0)) = b := by
  revert b
  decide

/-- The bytes that were sent are the bytes read, but for one left incomplete (R136, R137). -/
theorem bytesOfBits_flatMap (sent : List Byte) {cut : List Bool} (short : cut.length < 8) :
    bytesOfBits ((sent.flatMap fun b => [7, 6, 5, 4, 3, 2, 1, 0].map b.getLsbD) ++ cut) = sent := by
  induction sent with
  | nil => exact bytesOfBits_of_short short
  | cons b sent ih =>
    rw [List.flatMap_cons, List.append_assoc]
    exact congr (congrArg List.cons (byte_of_bits b)) ih

namespace Machine

theorem serialBit_eq (b : Byte) {k : Nat} (inside : k < 8) : serialBit b k = b.getLsbD (7 - k) := by
  rw [serialBit, BitVec.getMsbD_eq_getLsbD]
  simp [inside]

/-! ## Data out -/

theorem transactionByte_eq {bytes : List Byte} (nonempty : 0 < bytes.length) (reply : List Byte) (n : Nat) :
    transactionByte (bytes.length - 1) reply n =
      if n < bytes.length then 0 else reply.getD (n - bytes.length) 0 := by
  have place : n - (bytes.length - 1) - 1 = n - bytes.length := by omega
  rw [transactionByte, place]
  exact ite_eq_ite_of_iff (by omega) rfl rfl

theorem Transaction.dataOut_eq (t : Transaction) (reply : List Byte) (n : Nat) :
    t.dataOut reply n = if t = .idle then none else if t = .opened then some 0 else some (reply.getD n 0) := by
  cases t <;> rfl

/-- A port drives its line outside pin reset and within a transaction (R136, R137). -/
theorem dataOut_of_transaction (held : Bool) (t : Transaction) (reply : List Byte) (n : Nat) :
    (if held = true then none else t.dataOut reply n) =
      if held = true ∨ t = .idle then none else if t = .opened then some 0 else some (reply.getD n 0) := by
  rw [Transaction.dataOut_eq]
  cases held <;> simp

end Machine

end Sys2Proof

open Sys2Proof Sys2Proof.Machine

/-- Settles O14. -/
theorem framesDecode : Obligations.FramesDecode := by
  intro i port bytes frame
  refine ⟨fun extra unknown => decodeFrame_frame frame extra unknown, fun n short => decodeFrame_take frame short,
    fun sent cut short => congrArg (decodeFrame port) (bytesOfBits_flatMap sent short),
    fun b k inside => serialBit_eq b inside, fun reply n => transactionByte_eq (frame_nonempty frame) reply n,
    fun s n => ?_⟩
  cases port with
  | lighting => exact dataOut_of_transaction s.resetAsserted s.port.lcs s.port.lightingReply n
  | display => exact dataOut_of_transaction s.resetAsserted s.port.dcs s.port.displayReply n

end
